-- ==== Sys2Proof/Word.lean ====
section
/-! DEFINITION. The word types of the block (00_scope.md R11): 32-bit registers, bytes, 11-bit probabilities. -/

namespace Sys2Proof

/-- A register, an argument, a command word (R30, R110). -/
abbrev Word := BitVec 32

/-- A byte of `DICT`, `OUT` or of the output stream (R80). -/
abbrev Byte := BitVec 8

/-- A word of the probability memory (R55, R144): the chance of a 0 in units of 2^-11. -/
abbrev ProbWord := BitVec 11

end Sys2Proof
end

