-- ==== Sys2Proof/Config.lean ====
section
/-! DEFINITION. What an implementation fixes (00_scope.md R7), as plain data, and the values the spec leaves free, as
constants without a body. -/

namespace Sys2Proof

/-- `MF_MODE` (R176): the canonical table, or any link of the longest score. -/
inductive MfMode
  | canonical
  | anyLongest
  deriving DecidableEq, Repr

/-- The implementation parameters of R7 that registers report (R62), less `N_LANES`, which is the number of lanes in
State. They never change while the machine runs. -/
structure Params where
  nMf      : BitVec 8
  dictCap  : Word
  outCap   : Word
  tableCap : Word
  stageCap : Word
  mfMode   : MfMode
  deriving DecidableEq, Repr

/-- The values R7 allows for the parameters. -/
abbrev Params.Legal (p : Params) : Prop := 1 ≤ p.nMf.toNat ∧ 4096 ≤ p.dictCap.toNat

/-- DESIGN CHOICE (log 1): one legal instance, used by `State.reset` alone; statements hold for every instance. -/
def Params.reference : Params where
  nMf      := 1
  dictCap  := 0x04000000
  outCap   := 0x04000000
  tableCap := 0x20000000
  stageCap := 0x04000000
  mfMode   := .canonical

/-- DESIGN CHOICE (log 1): `N_LANES` of the reference instance; R7 allows 1..16. -/
def nLanesReference : Nat := 8

/-- `CHECKSUM` (R9): a total function from a byte sequence to a 32-bit value, of which nothing else is known (log 2). -/
opaque Config.checksum : List Byte → Word

/-- The draw of R363: does the `n`th completion step, if a cancel request is up at one of its cancellation points,
observe it (log 3)? -/
opaque Config.cancelObserved : Nat → Bool

/-- The free choice of R176 in `ANY_LONGEST` mode: which of the equally long links the build of the `n`th completion
step stores at position `p`, as an index reduced modulo their number (log 4). -/
opaque Config.tieChoice : Nat → Nat → Nat

/-- The byte that `DictRead(p - REP0 - 1)` of R217 gives where `REP0 ≥ p`, so that the index is negative, for the bytes
`DICT[0..p]`, `p` and `REP0` (log 20). It is given no byte after `p`, because a parse may depend on none at or past `ulim`
(R260). -/
opaque Config.byteBeforeDict : List Byte → Nat → Nat → Byte

/-! Fixed parameters of R7. -/

def dictSizeMin   : Nat := 4096
def dictSizeMax   : Nat := 2 ^ 30
def linkBits      : Nat := 26
def lenFieldMaxPacked : Nat := 63
def lenFieldMaxStruct : Nat := 255
def depthMin      : Nat := 6
def depthMax      : Nat := 254
def bufResizeMax  : Nat := 4
def matchLenMin   : Nat := 2
def matchLenMax   : Nat := 273
def chunkULimit   : Nat := 2 ^ 21
def chunkCLimit   : Nat := 2 ^ 16
def chunkCMin     : Nat := 64
def storedMax     : Nat := 2 ^ 16

end Sys2Proof
end

