-- ==== Sys2Proof/Syntax.lean ====
section
/-! DEFINITION. The commands of the opcode map (30_encoding.md R117), one constructor per row of the opcode table.
`lane` is the `LANE` field; the immediates and the flag are named as R119 and R120 name them. -/

namespace Sys2Proof

inductive Instr
  | nop
  | rcReset (lane : Nat)
  | rcBit (lane : Nat) (bit : Bool)
  | rcTree (lane nbits : Nat)
  | rcTreeRev (lane nbits : Nat)
  | rcDirect (lane nbits : Nat)
  | rcFlush (lane : Nat)
  | rcPrice (bit : Bool)
  | mfCreate
  | mfBuild
  | mfGetMatch
  | mfGetNextMatch
  | mfReadSlot
  | encResetState (lane : Nat)
  | encLiteral (lane : Nat)
  | encMatch (lane : Nat)
  | encRep (lane r : Nat)
  | encShortRep (lane : Nat)
  | encSnapshot (lane : Nat)
  | encRollback (lane : Nat)
  | probRead (lane : Nat)
  | probWrite (lane : Nat)
  | sliceBegin (lane : Nat) (dr : Bool)
  | encChunk (lane : Nat)
  | encSlice (lane : Nat) (dr : Bool)
  | encBlock
  | streamBegin
  | streamEnd
  | clear
  deriving DecidableEq, Repr

end Sys2Proof
end

