-- ==== Sys2Proof/WellFormed.lean ====
section
/-! DEFINITION. Which commands a command word can hold: every field fits its bits (30_encoding.md R110, R119). The
ranges that a command checks itself when it runs (`LANE < N_LANES`, `nbits` in 1..16) are no matter of the encoding:
R111 and R115 make them faults of the running command. -/

namespace Sys2Proof

/-- `LANE` is 4 bits (R110). -/
abbrev laneFits (lane : Nat) : Bool := decide (lane < 16)

/-- Every field of the command fits its place in the word. -/
def Instr.wellFormed : Instr → Bool
  | .nop                => true
  | .rcReset lane       => laneFits lane
  | .rcBit lane _       => laneFits lane
  | .rcTree lane n      => laneFits lane && decide (n < 32)
  | .rcTreeRev lane n   => laneFits lane && decide (n < 32)
  | .rcDirect lane n    => laneFits lane && decide (n < 64)
  | .rcFlush lane       => laneFits lane
  | .rcPrice _          => true
  | .mfCreate           => true
  | .mfBuild            => true
  | .mfGetMatch         => true
  | .mfGetNextMatch     => true
  | .mfReadSlot         => true
  | .encResetState lane => laneFits lane
  | .encLiteral lane    => laneFits lane
  | .encMatch lane      => laneFits lane
  | .encRep lane r      => laneFits lane && decide (r < 4)
  | .encShortRep lane   => laneFits lane
  | .encSnapshot lane   => laneFits lane
  | .encRollback lane   => laneFits lane
  | .probRead lane      => laneFits lane
  | .probWrite lane     => laneFits lane
  | .sliceBegin lane _  => laneFits lane
  | .encChunk lane      => laneFits lane
  | .encSlice lane _    => laneFits lane
  | .encBlock           => true
  | .streamBegin        => true
  | .streamEnd          => true
  | .clear              => true

abbrev Instr.WellFormed (i : Instr) : Prop := i.wellFormed = true

end Sys2Proof
end

