-- ==== Sys2Proof/Decode.lean ====
section
/-! DEFINITION. Command words (30_encoding.md R110 to R119): the decoder, total and rejecting by name, and the encoder,
both written from the opcode map of R117. -/

namespace Sys2Proof

/-- Why a word is no command. Both are `ILLEGAL_COMMAND` (R113, R114). -/
inductive DecodeError
  /-- the `OPC` value is not in the opcode map (R113, R118) -/
  | reservedOpcode
  /-- a 1 outside `OPC` and the fields the opcode uses (R111, R114) -/
  | unusedBitSet
  deriving DecidableEq, Repr

/-- The fields of a command word (R110). -/
def cmdOpc  (w : Word) : Nat := w.toNat % 2 ^ 8
def cmdLane (w : Word) : Nat := w.toNat / 2 ^ 8 % 2 ^ 4
def cmdFlg  (w : Word) : Nat := w.toNat / 2 ^ 12 % 2 ^ 4
def cmdImm  (w : Word) : Nat := w.toNat / 2 ^ 16

/-- The fields an opcode uses (R111): `LANE` or not, and the number of low bits of `FLG` and of `IMM`. -/
structure FieldUse where
  lane    : Bool
  flgBits : Nat
  immBits : Nat
  deriving DecidableEq, Repr

/-- R114: every bit outside the used fields is 0. -/
def FieldUse.admits (u : FieldUse) (w : Word) : Bool :=
  (u.lane || cmdLane w == 0) && decide (cmdFlg w < 2 ^ u.flgBits) && decide (cmdImm w < 2 ^ u.immBits)

/-- `i` if the word sets no unused bit (R114). -/
def decodeWith (u : FieldUse) (w : Word) (i : Instr) : Except DecodeError Instr :=
  if u.admits w then .ok i else .error .unusedBitSet

/-- The shapes of R117's column "uses". -/
def useNone : FieldUse := ⟨false, 0, 0⟩
def useLane : FieldUse := ⟨true, 0, 0⟩
def useLaneDr : FieldUse := ⟨true, 1, 0⟩
def useLaneImm (n : Nat) : FieldUse := ⟨true, 0, n⟩
def useImm (n : Nat) : FieldUse := ⟨false, 0, n⟩

/-- The opcode map of R117. -/
def decode (w : Word) : Except DecodeError Instr :=
  let lane := cmdLane w
  let imm := cmdImm w
  let dr := cmdFlg w == 1
  match cmdOpc w with
  | 0x00 => decodeWith useNone w .nop
  | 0x01 => decodeWith useLane w (.rcReset lane)
  | 0x02 => decodeWith (useLaneImm 1) w (.rcBit lane (imm == 1))
  | 0x03 => decodeWith (useLaneImm 5) w (.rcTree lane imm)
  | 0x04 => decodeWith (useLaneImm 5) w (.rcTreeRev lane imm)
  | 0x05 => decodeWith (useLaneImm 6) w (.rcDirect lane imm)
  | 0x06 => decodeWith useLane w (.rcFlush lane)
  | 0x07 => decodeWith (useImm 1) w (.rcPrice (imm == 1))
  | 0x10 => decodeWith useNone w .mfCreate
  | 0x11 => decodeWith useNone w .mfBuild
  | 0x12 => decodeWith useNone w .mfGetMatch
  | 0x13 => decodeWith useNone w .mfGetNextMatch
  | 0x14 => decodeWith useNone w .mfReadSlot
  | 0x20 => decodeWith useLane w (.encResetState lane)
  | 0x21 => decodeWith useLane w (.encLiteral lane)
  | 0x22 => decodeWith useLane w (.encMatch lane)
  | 0x23 => decodeWith (useLaneImm 2) w (.encRep lane imm)
  | 0x24 => decodeWith useLane w (.encShortRep lane)
  | 0x25 => decodeWith useLane w (.encSnapshot lane)
  | 0x26 => decodeWith useLane w (.encRollback lane)
  | 0x27 => decodeWith useLane w (.probRead lane)
  | 0x28 => decodeWith useLane w (.probWrite lane)
  | 0x30 => decodeWith useLaneDr w (.sliceBegin lane dr)
  | 0x31 => decodeWith useLane w (.encChunk lane)
  | 0x32 => decodeWith useLaneDr w (.encSlice lane dr)
  | 0x33 => decodeWith useNone w .encBlock
  | 0x40 => decodeWith useNone w .streamBegin
  | 0x41 => decodeWith useNone w .streamEnd
  | 0x50 => decodeWith useNone w .clear
  | _    => .error .reservedOpcode

/-- `word = OPC | LANE<<8 | FLG<<12 | IMM<<16` (R110). -/
def cmdWord (opc lane flg imm : Nat) : Word :=
  BitVec.ofNat 32 (opc + lane * 2 ^ 8 + flg * 2 ^ 12 + imm * 2 ^ 16)

/-- The `OPC` value of a command (R117). -/
def Instr.opcode : Instr → Nat
  | .nop             => 0x00
  | .rcReset _       => 0x01
  | .rcBit _ _       => 0x02
  | .rcTree _ _      => 0x03
  | .rcTreeRev _ _   => 0x04
  | .rcDirect _ _    => 0x05
  | .rcFlush _       => 0x06
  | .rcPrice _       => 0x07
  | .mfCreate        => 0x10
  | .mfBuild         => 0x11
  | .mfGetMatch      => 0x12
  | .mfGetNextMatch  => 0x13
  | .mfReadSlot      => 0x14
  | .encResetState _ => 0x20
  | .encLiteral _    => 0x21
  | .encMatch _      => 0x22
  | .encRep _ _      => 0x23
  | .encShortRep _   => 0x24
  | .encSnapshot _   => 0x25
  | .encRollback _   => 0x26
  | .probRead _      => 0x27
  | .probWrite _     => 0x28
  | .sliceBegin _ _  => 0x30
  | .encChunk _      => 0x31
  | .encSlice _ _    => 0x32
  | .encBlock        => 0x33
  | .streamBegin     => 0x40
  | .streamEnd       => 0x41
  | .clear           => 0x50

/-- The command word of a command (R110, R117, R119). -/
def encode (i : Instr) : Word :=
  match i with
  | .nop                => cmdWord i.opcode 0 0 0
  | .rcReset lane       => cmdWord i.opcode lane 0 0
  | .rcBit lane bit     => cmdWord i.opcode lane 0 bit.toNat
  | .rcTree lane n      => cmdWord i.opcode lane 0 n
  | .rcTreeRev lane n   => cmdWord i.opcode lane 0 n
  | .rcDirect lane n    => cmdWord i.opcode lane 0 n
  | .rcFlush lane       => cmdWord i.opcode lane 0 0
  | .rcPrice bit        => cmdWord i.opcode 0 0 bit.toNat
  | .mfCreate           => cmdWord i.opcode 0 0 0
  | .mfBuild            => cmdWord i.opcode 0 0 0
  | .mfGetMatch         => cmdWord i.opcode 0 0 0
  | .mfGetNextMatch     => cmdWord i.opcode 0 0 0
  | .mfReadSlot         => cmdWord i.opcode 0 0 0
  | .encResetState lane => cmdWord i.opcode lane 0 0
  | .encLiteral lane    => cmdWord i.opcode lane 0 0
  | .encMatch lane      => cmdWord i.opcode lane 0 0
  | .encRep lane r      => cmdWord i.opcode lane 0 r
  | .encShortRep lane   => cmdWord i.opcode lane 0 0
  | .encSnapshot lane   => cmdWord i.opcode lane 0 0
  | .encRollback lane   => cmdWord i.opcode lane 0 0
  | .probRead lane      => cmdWord i.opcode lane 0 0
  | .probWrite lane     => cmdWord i.opcode lane 0 0
  | .sliceBegin lane dr => cmdWord i.opcode lane dr.toNat 0
  | .encChunk lane      => cmdWord i.opcode lane 0 0
  | .encSlice lane dr   => cmdWord i.opcode lane dr.toNat 0
  | .encBlock           => cmdWord i.opcode 0 0 0
  | .streamBegin        => cmdWord i.opcode 0 0 0
  | .streamEnd          => cmdWord i.opcode 0 0 0
  | .clear              => cmdWord i.opcode 0 0 0

/-! ## Canonical disassembly (R120, R123) -/

/-- The mnemonic of a command (R117). -/
def Instr.mnemonic : Instr → String
  | .nop             => "NOP"
  | .rcReset _       => "RC_RESET"
  | .rcBit _ _       => "RC_BIT"
  | .rcTree _ _      => "RC_TREE"
  | .rcTreeRev _ _   => "RC_TREE_REV"
  | .rcDirect _ _    => "RC_DIRECT"
  | .rcFlush _       => "RC_FLUSH"
  | .rcPrice _       => "RC_PRICE"
  | .mfCreate        => "MF_CREATE"
  | .mfBuild         => "MF_BUILD"
  | .mfGetMatch      => "MF_GET_MATCH"
  | .mfGetNextMatch  => "MF_GET_NEXT_MATCH"
  | .mfReadSlot      => "MF_READ_SLOT"
  | .encResetState _ => "ENC_RESET_STATE"
  | .encLiteral _    => "ENC_LITERAL"
  | .encMatch _      => "ENC_MATCH"
  | .encRep _ _      => "ENC_REP"
  | .encShortRep _   => "ENC_SHORTREP"
  | .encSnapshot _   => "ENC_SNAPSHOT"
  | .encRollback _   => "ENC_ROLLBACK"
  | .probRead _      => "PROB_READ"
  | .probWrite _     => "PROB_WRITE"
  | .sliceBegin _ _  => "SLICE_BEGIN"
  | .encChunk _      => "ENC_CHUNK"
  | .encSlice _ _    => "ENC_SLICE"
  | .encBlock        => "ENC_BLOCK"
  | .streamBegin     => "STREAM_BEGIN"
  | .streamEnd       => "STREAM_END"
  | .clear           => "CLEAR"

/-- The operands of the canonical disassembly: the lane, then `dr`, then the named immediate (R120, R123). -/
def Instr.operandText : Instr → String
  | .nop | .mfCreate | .mfBuild | .mfGetMatch | .mfGetNextMatch | .mfReadSlot => ""
  | .encBlock | .streamBegin | .streamEnd | .clear => ""
  | .rcReset n | .rcFlush n | .encResetState n | .encLiteral n | .encMatch n | .encShortRep n => laneText n
  | .encSnapshot n | .encRollback n | .probRead n | .probWrite n | .encChunk n => laneText n
  | .rcBit n b => laneText n ++ " bit=" ++ Nat.repr b.toNat
  | .rcTree n k | .rcTreeRev n k | .rcDirect n k => laneText n ++ " nbits=" ++ Nat.repr k
  | .rcPrice b => " bit=" ++ Nat.repr b.toNat
  | .encRep n r => laneText n ++ " r=" ++ Nat.repr r
  | .sliceBegin n dr | .encSlice n dr => laneText n ++ (if dr then " dr" else "")
where
  laneText (n : Nat) : String := " lane=" ++ Nat.repr n

/-- A hexadecimal digit. -/
def hexDigit (n : Nat) : Char := "0123456789ABCDEF".toList.getD n '0'

/-- `w` as eight upper-case hexadecimal digits: DESIGN CHOICE (log 15). -/
def hexWord (w : Word) : String :=
  String.ofList ((List.range 8).map fun i => hexDigit (w.toNat / 16 ^ (7 - i) % 16))

/-- Canonical disassembly (R123). -/
def disassemble (w : Word) : String :=
  match decode w with
  | .ok i    => i.mnemonic ++ i.operandText
  | .error _ => ".word 0x" ++ hexWord w

/-- The command the decoder reads from a table row's word; every command is one 32-bit word (R122), so `nbits` is 32. -/
def decodeTableWord (nbits w : Nat) : Option Instr :=
  match decode (BitVec.ofNat 32 (w % 2 ^ nbits)) with
  | .ok i    => some i
  | .error _ => none

end Sys2Proof
end

