-- ==== Sys2Proof/Machine/State.lean ====
section
/-! DEFINITION. The state of the block (10_state.md), as plain data, and its value right after reset
(70_reset_and_hazards.md R390, R391). -/

namespace Sys2Proof.Machine

/-- The status codes of R350, with the numbers of its table. Codes 5 and 7 complete the source's taxonomy; R367 says
that nothing raises them. -/
inductive Code
  | ok
  | outOfMemory
  | destinationTooSmall
  | invalidParameter
  | canceled
  | timedOut
  | internal
  | checksumMismatch
  | illegalCommand
  | sequenceError
  deriving DecidableEq, Repr

/-- How the computation of a command ends before its normal completion (R354). -/
inductive Halt
  /-- `raise Fault(CODE)` -/
  | fault (c : Code)
  /-- `raise Canceled` -/
  | canceled
  /-- a loop of the pseudocode that never ends in an unreachable state (log 11) -/
  | neverEnds
  deriving DecidableEq, Repr

/-! ## What the host does (R84, R371, R390) -/

/-- The host-visible address spaces of R80. -/
inductive Space
  | reg
  | dict
  | out
  deriving DecidableEq, Repr

/-- The access sizes `n` of R84. -/
inductive AccessSize
  | byte
  | half
  | word
  deriving DecidableEq, Repr

/-- One input of the block, in the order in which the host issues them (R90). -/
inductive Input
  /-- `MemRead(space, addr, n)` (R84) -/
  | read (sp : Space) (addr : Nat) (n : AccessSize)
  /-- `MemWrite(space, addr, n, v)` (R84) -/
  | write (sp : Space) (addr : Nat) (n : AccessSize) (v : Word)
  /-- the host leaves the sequencer its turn (R371 step 3; log 7) -/
  | sequencer
  /-- the platform asserts the reset input (R390) -/
  | assertReset
  /-- the platform releases the reset input (R390) -/
  | releaseReset
  deriving DecidableEq, Repr

/-! ## Memories -/

/-- A byte memory: the listed bytes in canonical form (`Memory.wf`), the unlisted ones reading 0 (log 5). -/
abbrev Memory := List Host.Cell

/-- A probability memory (R55): the listed words, the unlisted ones holding 1024, in the same canonical form. -/
abbrev ProbMem := List (Nat × ProbWord)

/-! ## Lanes (R50 to R56) -/

/-- The four rep distances, most recent first (R53). -/
structure Reps where
  rep0 : Word
  rep1 : Word
  rep2 : Word
  rep3 : Word
  deriving DecidableEq, Repr

/-- The range-coder registers (R54). `low` is `{RC_LOW_HI[0], RC_LOW_LO}`. -/
structure Rc where
  low       : BitVec 33
  range     : Word
  cache     : Byte
  cacheSize : Word
  deriving DecidableEq, Repr

/-- `SNAP[L]` (R56). -/
structure Snapshot where
  st   : Fin 12
  reps : Reps
  prob : ProbMem
  deriving DecidableEq, Repr

/-- One lane: its register bank (R51), `LANE_STATUS` fields (R52), reps, range coder, probabilities, snapshot and
staging buffer. -/
structure Lane where
  sliceStart : Word
  sliceEnd   : Word
  pos        : Word
  outBase    : Word
  outCap     : Word
  outLen     : Word
  st         : Fin 12
  pending    : BitVec 2
  init       : Bool
  snapValid  : Bool
  lc         : BitVec 3
  lp         : BitVec 3
  pb         : BitVec 3
  sliceOpen  : Bool
  reps       : Reps
  rc         : Rc
  prob       : ProbMem
  snap       : Snapshot
  stage      : List Byte
  deriving DecidableEq, Repr

/-! ## Match table (R58, R60, R170 to R172) -/

/-- What a slot holds (R170). -/
inductive Slot
  | null
  | entry (link len : Nat)
  deriving DecidableEq, Repr

/-- A unit of the structured form (R172): the links, then the lengths, of four consecutive positions. -/
structure TableUnit where
  link0 : Word
  link1 : Word
  link2 : Word
  link3 : Word
  len0  : Byte
  len1  : Byte
  len2  : Byte
  len3  : Byte
  deriving DecidableEq, Repr

/-- The table storage in the form `MF_CREATE` chose: packed words (R171) or units (R172), as far as a build has
written them; the rest is undefined and no command reads it (R170). -/
inductive Storage
  | packed (words : List Word)
  | structured (units : List TableUnit)
  deriving DecidableEq, Repr

/-- The match table with its registers and its three `STATUS` bits (R33, R58). `TABLE_STRUCT` is stored beside the
storage because it is a register bit of its own. -/
structure Table where
  created  : Bool
  isStruct : Bool
  valid    : Bool
  size     : Word
  fin      : Word
  caplen   : Word
  storage  : Storage
  deriving DecidableEq, Repr

/-! ## Registers of the block -/

/-- The sticky bits and the code of `STATUS` (R33). `BUSY` is `State.busy`; the table bits are in `Table`. -/
structure Status where
  done     : Bool
  err      : Bool
  canceled : Bool
  rejected : Bool
  code     : Code
  deriving DecidableEq, Repr

/-- `CONTROL` (R34). -/
structure Control where
  cancel : Bool
  irqEn  : Bool
  deriving DecidableEq, Repr

/-- `ARG0..ARG3` (R37). -/
structure Args where
  arg0 : Word
  arg1 : Word
  arg2 : Word
  arg3 : Word
  deriving DecidableEq, Repr

/-- `RES0..RES2` (R38). -/
structure Results where
  res0 : Word
  res1 : Word
  res2 : Word
  deriving DecidableEq, Repr

/-- The configuration registers that only the host writes (R39 to R49). `OUT_POS`, which commands advance, is apart. -/
structure Cfg where
  dictSize    : Word
  mfParams    : Word
  lzProps     : Word
  strategy    : Word
  streamOpts  : Word
  chunkUMax   : Word
  chunkCMax   : Word
  storeMargin : Word
  parseGain   : Word
  mfLimit2    : Word
  mfLimit3    : Word
  mfLimit4    : Word
  blkStart    : Word
  blkEnd      : Word
  blkFlags    : Word
  nActive     : Word
  outLimit    : Word
  deriving DecidableEq, Repr

/-- `STREAM_STATE`, `STREAM_DICT` and the hidden `CK_DATA` (R59). -/
structure Stream where
  isOpen : Bool
  needDr : Bool
  ck     : Bool
  omitP  : Bool
  dict   : Word
  ckData : List Byte
  deriving DecidableEq, Repr

/-- `CONSUMED` and `PRODUCED` (R57). -/
structure Counters where
  consumed : BitVec 64
  produced : BitVec 64
  deriving DecidableEq, Repr

/-- The whole block. `inReset`, `inputs`, `readData` and `draws` are the model's own fields (INVENTORY.md). `resBefore` holds
the values of `RES0..RES2` from before the last command, which a host read observes until it completes (R91, R97; log 8). -/
structure State where
  params   : Params
  pending  : Option Word
  status   : Status
  control  : Control
  errInfo  : Word
  args     : Args
  res      : Results
  resBefore : Results
  cfg      : Cfg
  outPos   : Word
  counters : Counters
  table    : Table
  stream   : Stream
  lanes    : List Lane
  dict     : Memory
  out      : Memory
  inReset  : Bool
  inputs   : List Input
  readData : Word
  draws    : Nat
  deriving DecidableEq, Repr

/-- Why the model stops where the spec's machine does not. -/
inductive Fault
  /-- Raised by the coding commands where a loop of R143 or R144 would never end, because `range` or `cache_size` is 0,
  and by the chunk commands where an attempt would cover no position. R144, R259 and R373 say that no state the block can reach
  does that; safe (log 11). -/
  | coderNeverEnds
  deriving DecidableEq, Repr

/-- Why an instruction has no meaning. -/
inductive Refusal
  /-- Raised by an arm of `exec` whose instruction has no meaning yet; safe. No arm does. -/
  | notModelled (mnemonic : String)
  deriving DecidableEq, Repr

/-! ## Reset (R390, R391) -/

def Rc.reset : Rc := { low := 0, range := 0xFFFFFFFF, cache := 0, cacheSize := 1 }

def Reps.reset : Reps := { rep0 := 0, rep1 := 0, rep2 := 0, rep3 := 0 }

/-- DESIGN CHOICE (log 6): the spec leaves the reset content of `SNAP` undefined and unreachable. -/
def Snapshot.reset : Snapshot := { st := 0, reps := .reset, prob := [] }

/-- A lane right after reset (R51, R52). `prob`, `snap` and `stage`: DESIGN CHOICE (log 6). -/
def Lane.reset : Lane where
  sliceStart := 0
  sliceEnd   := 0
  pos        := 0
  outBase    := 0
  outCap     := 0
  outLen     := 0
  st         := 0
  pending    := 3
  init       := false
  snapValid  := false
  lc         := 3
  lp         := 0
  pb         := 2
  sliceOpen  := false
  reps       := .reset
  rc         := .reset
  prob       := []
  snap       := .reset
  stage      := []

/-- The reset values of the configuration registers (R30). -/
def Cfg.reset (p : Params) : Cfg where
  dictSize    := 0x00100000
  mfParams    := 0x0000022A
  lzProps     := 0x00000203
  strategy    := 0x00000001
  streamOpts  := 0x00000000
  chunkUMax   := 0x00200000
  chunkCMax   := 0x00010000
  storeMargin := 0x00000008
  parseGain   := 0x00040103
  mfLimit2    := 0x00000000
  mfLimit3    := 0x00000040
  mfLimit4    := 0x00004000
  blkStart    := 0x00000000
  blkEnd      := 0x00000000
  blkFlags    := 0x00000001
  nActive     := 0x00000001
  outLimit    := p.outCap

def Stream.closed : Stream :=
  { isOpen := false, needDr := false, ck := false, omitP := false, dict := 0, ckData := [] }

/-- The block right after reset, for an instance with `n` lanes and the parameters `p` (R390). `dict`, `out` (log 5),
the table's storage (log 6), `readData` (log 12) and `draws` (log 3): DESIGN CHOICE. -/
def State.resetWith (n : Nat) (p : Params) : State where
  params   := p
  pending  := none
  status   := { done := false, err := false, canceled := false, rejected := false, code := .ok }
  control  := { cancel := false, irqEn := false }
  errInfo  := 0
  args     := { arg0 := 0, arg1 := 0, arg2 := 0, arg3 := 0 }
  res      := { res0 := 0, res1 := 0, res2 := 0 }
  resBefore := { res0 := 0, res1 := 0, res2 := 0 }
  cfg      := .reset p
  outPos   := 0
  counters := { consumed := 0, produced := 0 }
  table    :=
    { created := false, isStruct := false, valid := false, size := 0, fin := 0, caplen := 0, storage := .packed [] }
  stream   := .closed
  lanes    := List.replicate n .reset
  dict     := []
  out      := []
  inReset  := false
  inputs   := []
  readData := 0
  draws    := 0

/-- The block right after reset: the reference instance (log 1). -/
def State.reset : State := State.resetWith nLanesReference Params.reference

end Sys2Proof.Machine
end

