-- ==== Sys2Proof/Machine/Ops.lean ====
section
/-! DEFINITION. The shared operations over memories, lanes and output, and the three ways a command completes
(60_exceptions.md R355): normally, by a fault, by a cancellation. -/

namespace Sys2Proof.Machine

/-! ## Canonical sparse memories -/

/-- The value at `a`: the listed one, else the default `d`. -/
def sparseGet {V : Type} (d : V) : List (Nat × V) → Nat → V
  | [], _ => d
  | (k, v) :: m, a => if a = k then v else sparseGet d m a

/-- Puts `v` at `a`, keeping addresses rising and listing no default value. -/
def sparseSet {V : Type} [DecidableEq V] (d : V) : List (Nat × V) → Nat → V → List (Nat × V)
  | [], a, v => if v = d then [] else [(a, v)]
  | (k, w) :: m, a, v =>
    if a < k then (if v = d then (k, w) :: m else (a, v) :: (k, w) :: m)
    else if a = k then (if v = d then m else (k, v) :: m)
    else (k, w) :: sparseSet d m a v

/-- The canonical form above the address bound `lo`: addresses rising from `lo` on, no default value listed. -/
def sparseWfFrom {V : Type} [DecidableEq V] (d : V) : Nat → List (Nat × V) → Bool
  | _, [] => true
  | lo, (k, v) :: m => decide (lo ≤ k) && decide (v ≠ d) && sparseWfFrom d (k + 1) m

def sparseWf {V : Type} [DecidableEq V] (d : V) (m : List (Nat × V)) : Bool := sparseWfFrom d 0 m

/-! ## `DICT` and `OUT` (R80 to R82) -/

/-- What a byte of `DICT` or `OUT` that nothing has written reads as: DESIGN CHOICE (log 5). -/
def unwrittenByte : Byte := 0

def Memory.read (m : Memory) (a : Nat) : Byte := sparseGet unwrittenByte m a

def Memory.write (m : Memory) (a : Nat) (b : Byte) : Memory := sparseSet unwrittenByte m a b

/-- The canonical form of a memory. -/
def Memory.wf (m : Memory) : Bool := sparseWf unwrittenByte m

/-- The bytes at `a, a+1, ..` in increasing index order (R90). -/
def Memory.writeBytes (m : Memory) (a : Nat) : List Byte → Memory
  | [] => m
  | b :: bs => Memory.writeBytes (Memory.write m a b) (a + 1) bs

/-- The `n` bytes from `a` on. -/
def Memory.readBytes (m : Memory) (a n : Nat) : List Byte := (List.range n).map fun i => Memory.read m (a + i)

/-- How many of the first `lim` bytes at `a` and `b` agree before the first difference: the loops
`while n < lim and DictRead(a + n) = DictRead(b + n)` of R187 and R252. -/
def Memory.runLen (m : Memory) (a b : Nat) : Nat → Nat
  | 0 => 0
  | lim + 1 =>
    if Memory.read m a = Memory.read m b then 1 + Memory.runLen m (a + 1) (b + 1) lim else 0

/-! ## Probability memory (R55, R213, R332) -/

/-- One half, the value a state reset gives every word (R213). -/
def probInit : ProbWord := 1024

def ProbMem.read (m : ProbMem) (i : Nat) : ProbWord := sparseGet probInit m i

def ProbMem.write (m : ProbMem) (i : Nat) (v : ProbWord) : ProbMem := sparseSet probInit m i v

def ProbMem.wf (m : ProbMem) : Bool := sparseWf probInit m

/-- `for i in 0..PROB_WORDS-1: Prob[L][i] <- 1024` (R213). -/
def ProbMem.resetAll : ProbMem := []

/-- `PROB_WORDS(lc, lp)` (R55, R212). -/
def probWords (lc lp : Nat) : Nat := 1846 + 768 * 2 ^ (lc + lp)

/-! ## Checks -/

/-- `if not ok: raise Fault(c)`. -/
def check (ok : Bool) (c : Code) : Except Halt Unit := if ok then .ok () else .error (.fault c)

/-! ## Lanes -/

/-- `N_LANES` (R7, R62): the lanes there are. -/
def State.nLanes (s : State) : Nat := s.lanes.length

/-- Lane `L`, or `INVALID_PARAMETER` when `LANE ≥ N_LANES` (R115). -/
def State.getLane (s : State) (lane : Nat) : Except Halt Lane :=
  match s.lanes[lane]? with
  | some l => .ok l
  | none   => .error (.fault .invalidParameter)

def State.setLane (s : State) (lane : Nat) (l : Lane) : State := { s with lanes := s.lanes.set lane l }

/-- `REP[r]` (R53). -/
def Reps.get (x : Reps) : Nat → Word
  | 0 => x.rep0
  | 1 => x.rep1
  | 2 => x.rep2
  | _ => x.rep3

/-- `(REP3, REP2, REP1, REP0) <- (REP2, REP1, REP0, dist)` (R218). -/
def Reps.push (x : Reps) (dist : Word) : Reps := ⟨dist, x.rep0, x.rep1, x.rep2⟩

/-- `REP[r]` removed and inserted at the front (R219). -/
def Reps.toFront (x : Reps) : Nat → Reps
  | 0 => x
  | 1 => ⟨x.rep1, x.rep0, x.rep2, x.rep3⟩
  | 2 => ⟨x.rep2, x.rep0, x.rep1, x.rep3⟩
  | _ => ⟨x.rep3, x.rep0, x.rep1, x.rep2⟩

/-- `ResetState(L)` (R213), once the caller has checked `LZ_PROPS`. -/
def Lane.resetState (l : Lane) (lc lp pb : Nat) : Lane :=
  { l with
    lc := BitVec.ofNat 3 lc, lp := BitVec.ofNat 3 lp, pb := BitVec.ofNat 3 pb
    st := 0, reps := .reset, prob := ProbMem.resetAll, init := true, snapValid := false }

/-- `SNAP[L] <- {STATE, REP0..REP3, Prob[L]}`, `SNAP_VALID <- 1` (R226, R285). -/
def Lane.takeSnapshot (l : Lane) : Lane :=
  { l with snap := { st := l.st, reps := l.reps, prob := l.prob }, snapValid := true }

/-- `{STATE, REP0..REP3, Prob[L]} <- SNAP[L]` (R227, R288). -/
def Lane.rollBack (l : Lane) : Lane :=
  { l with st := l.snap.st, reps := l.snap.reps, prob := l.snap.prob }

/-! ## Results and output -/

/-- `RES0..RES2 <- 0` at the start of a command (R38, R112). -/
def State.clearRes (s : State) : State := { s with res := { res0 := 0, res1 := 0, res2 := 0 } }

def State.setRes (s : State) (r0 r1 r2 : Nat) : State :=
  { s with res := { res0 := BitVec.ofNat 32 r0, res1 := BitVec.ofNat 32 r1, res2 := BitVec.ofNat 32 r2 } }

/-- `WriteOut(bytes)` (R296) with `PRODUCED += |bytes|` (R297). -/
def State.writeOut (s : State) (bytes : List Byte) : Except Halt State := do
  check (decide (s.outPos.toNat + bytes.length ≤ s.cfg.outLimit.toNat)) .destinationTooSmall
  return { s with
    out := Memory.writeBytes s.out s.outPos.toNat bytes
    outPos := BitVec.ofNat 32 (s.outPos.toNat + bytes.length)
    counters := { s.counters with produced := s.counters.produced + BitVec.ofNat 64 bytes.length } }

/-- `CONSUMED += n` (R297). -/
def State.consume (s : State) (n : Nat) : State :=
  { s with counters := { s.counters with consumed := s.counters.consumed + BitVec.ofNat 64 n } }

/-! ## The context reset (R362) -/

/-- What `ContextReset` sets in every lane. -/
def Lane.contextReset (l : Lane) : Lane :=
  { l with
    pos := 0
    st := 0, pending := 3, init := false, snapValid := false, lc := 3, lp := 0, pb := 2, sliceOpen := false
    reps := .reset, rc := .reset }

/-- `ContextReset` (R362). -/
def State.contextReset (s : State) : State :=
  { s with
    table := { s.table with valid := false, fin := 0, caplen := 0 }
    lanes := s.lanes.map Lane.contextReset
    stream := .closed
    counters := { consumed := 0, produced := 0 } }

/-! ## Completion (R355) -/

/-- What every completion does, whatever the outcome: `BUSY <- 0`, `CONTROL.CANCEL <- 0`. The counter of the free
values moves on (log 3). -/
def State.release (s : State) : State :=
  { s with pending := none, control := { s.control with cancel := false }, draws := s.draws + 1 }

/-- Normal completion of a command whose results stand in `s`. -/
def State.complete (s : State) : State :=
  { s.release with status := { s.status with done := true, code := .ok } }

/-- TAKING A FAULT: the fault commit of R355 and R356 from the state `s` before the command, whose word is `w`. -/
def State.faultCommit (s : State) (w : Word) (c : Code) : State :=
  { s.clearRes.release with status := { s.status with err := true, code := c }, errInfo := w }

/-- The cancellation commit of R355 and R362 from the state `s` before the command. -/
def State.cancelCommit (s : State) : State :=
  { s.clearRes.contextReset.release with status := { s.status with canceled := true, code := .canceled } }

/-- `CancelRequested()` (R362) with the draw of R363: a request that is up is observed or not. -/
def State.cancelRequested (s : State) : Bool := s.control.cancel && Config.cancelObserved s.draws

/-- `if CancelRequested(): raise Canceled`. R363: it does not matter which of a command's points observes the request. -/
def State.cancelPoint (s : State) : Except Halt Unit := if s.cancelRequested then .error .canceled else .ok ()

/-- A whole command: `body` computes its result from the state with the result registers zeroed (R112); then the one
commit of R355. -/
def conclude (i : Instr) (s : State) (body : State → Except Halt State) : Host.Outcome State Fault Refusal :=
  match body s.clearRes with
  | .ok s'            => .next s'.complete
  | .error (.fault c) => .next (s.faultCommit (encode i) c)
  | .error .canceled  => .next s.cancelCommit
  | .error .neverEnds => .fault .coderNeverEnds

end Sys2Proof.Machine
end

