-- ==== Sys2Proof/Machine/Flags.lean ====
section
/-! DEFINITION. The status words the host reads, the bits it clears, and the interrupt line (10_state.md R33, R34, R52,
R59; 60_exceptions.md R350, R365). -/

namespace Sys2Proof.Machine

/-- The number of a status code (R350). -/
def Code.num : Code → Nat
  | .ok                  => 0
  | .outOfMemory         => 1
  | .destinationTooSmall => 2
  | .invalidParameter    => 3
  | .canceled            => 4
  | .timedOut            => 5
  | .internal            => 6
  | .checksumMismatch    => 7
  | .illegalCommand      => 8
  | .sequenceError       => 9

/-- A code that makes a completion a fault (R350). -/
def Code.isFault : Code → Bool
  | .outOfMemory | .destinationTooSmall | .invalidParameter | .internal | .illegalCommand | .sequenceError => true
  | .ok | .canceled | .timedOut | .checksumMismatch => false

/-- `STATUS.BUSY` (R33, R112): a command is accepted and not yet complete. -/
def State.busy (s : State) : Bool := s.pending.isSome

/-- The `STATUS` word (R33). -/
def State.statusWord (s : State) : Word :=
  BitVec.ofNat 32 <|
    s.busy.toNat + s.status.done.toNat * 2 ^ 1 + s.status.err.toNat * 2 ^ 2 + s.status.canceled.toNat * 2 ^ 3
      + s.status.rejected.toNat * 2 ^ 4 + s.status.code.num * 2 ^ 8 + s.table.created.toNat * 2 ^ 16
      + s.table.isStruct.toNat * 2 ^ 17 + s.table.valid.toNat * 2 ^ 18

/-- A host write to `STATUS`: a 1 clears a W1C bit, everything else is unchanged (R33). -/
def State.clearSticky (s : State) (v : Word) : State :=
  { s with status := { s.status with
      done     := s.status.done && !v.getLsbD 1
      err      := s.status.err && !v.getLsbD 2
      canceled := s.status.canceled && !v.getLsbD 3
      rejected := s.status.rejected && !v.getLsbD 4 } }

/-- `STATUS.REJECTED <- 1` (R63, R359). -/
def State.reject (s : State) : State := { s with status := { s.status with rejected := true } }

/-- The `CONTROL` word (R34). -/
def State.controlWord (s : State) : Word :=
  BitVec.ofNat 32 (s.control.cancel.toNat + s.control.irqEn.toNat * 2 ^ 1)

/-- A host write to `CONTROL` (R34): `CANCEL` is set by a 1 while busy and otherwise unchanged; `IRQ_EN` is stored. -/
def State.writeControl (s : State) (v : Word) : State :=
  { s with control := { cancel := s.control.cancel || (v.getLsbD 0 && s.busy), irqEn := v.getLsbD 1 } }

/-- The interrupt output `IRQ` (R365). -/
def State.irq (s : State) : Bool :=
  s.control.irqEn && (s.status.done || s.status.err || s.status.canceled)

/-- The `LANE_STATUS` word (R52). -/
def Lane.statusWord (l : Lane) : Word :=
  BitVec.ofNat 32 <|
    l.st.val + l.pending.toNat * 2 ^ 4 + l.init.toNat * 2 ^ 6 + l.snapValid.toNat * 2 ^ 7 + l.lc.toNat * 2 ^ 8
      + l.lp.toNat * 2 ^ 12 + l.pb.toNat * 2 ^ 16 + l.sliceOpen.toNat * 2 ^ 20

/-- The `STREAM_STATE` word (R59). -/
def Stream.stateWord (t : Stream) : Word :=
  BitVec.ofNat 32 (t.isOpen.toNat + t.needDr.toNat * 2 ^ 1 + t.ck.toNat * 2 ^ 2 + t.omitP.toNat * 2 ^ 3)

/-- The `HWCFG` word (R62). -/
def State.hwcfgWord (s : State) : Word := BitVec.ofNat 32 (s.nLanes % 2 ^ 5 + s.params.nMf.toNat * 2 ^ 8)

end Sys2Proof.Machine
end

