-- ==== Sys2Proof/Machine/Operands.lean ====
section
/-! DEFINITION. Where operands come from: the fields of the configuration registers (10_state.md R39 to R49) with their
legality, the argument registers (30_encoding.md R116), and the register file the host reads and writes (R30, R51). -/

namespace Sys2Proof.Machine

/-- `v[hi:lo]` with `hi - lo + 1 = n` (R10). -/
def field (v : Word) (lo n : Nat) : Nat := v.toNat / 2 ^ lo % 2 ^ n

/-! ## Fields of the configuration registers -/

def Cfg.depth      (c : Cfg) : Nat  := field c.mfParams 0 8
def Cfg.bufResize  (c : Cfg) : Nat  := field c.mfParams 8 3
def Cfg.lc         (c : Cfg) : Nat  := field c.lzProps 0 4
def Cfg.lp         (c : Cfg) : Nat  := field c.lzProps 4 4
def Cfg.pb         (c : Cfg) : Nat  := field c.lzProps 8 4
def Cfg.mode       (c : Cfg) : Nat  := field c.strategy 0 2
def Cfg.checksumEn (c : Cfg) : Bool := c.streamOpts.getLsbD 0
def Cfg.omitProp   (c : Cfg) : Bool := c.streamOpts.getLsbD 1
def Cfg.dictReset  (c : Cfg) : Bool := c.blkFlags.getLsbD 0
def Cfg.posPhase   (c : Cfg) : Nat  := field c.blkFlags 4 4
def Cfg.gainK      (c : Cfg) : Nat  := field c.parseGain 0 8
def Cfg.gainRep    (c : Cfg) : Nat  := field c.parseGain 8 8
def Cfg.gainLazy   (c : Cfg) : Nat  := field c.parseGain 16 8

/-- `LZ_PROPS.LC + LZ_PROPS.LP ≤ 4` and `LZ_PROPS.PB ≤ 4` (R41). -/
def Cfg.propsLegal (c : Cfg) : Bool := decide (c.lc + c.lp ≤ 4) && decide (c.pb ≤ 4)

/-- `4096 ≤ DICT_SIZE ≤ 2^30` (R39). -/
def Cfg.dictSizeLegal (c : Cfg) : Bool :=
  decide (dictSizeMin ≤ c.dictSize.toNat) && decide (c.dictSize.toNat ≤ dictSizeMax)

/-- `OUT_POS ≤ OUT_LIMIT ≤ OUT_CAP` (R49). -/
def State.outLegal (s : State) : Bool :=
  decide (s.outPos.toNat ≤ s.cfg.outLimit.toNat) && decide (s.cfg.outLimit.toNat ≤ s.params.outCap.toNat)

/-- `CheckEncConfig()` (R295). -/
def State.encConfigLegal (s : State) : Bool :=
  decide (s.cfg.mode ≠ 3) && s.cfg.propsLegal
    && (decide (1 ≤ s.cfg.chunkUMax.toNat) && decide (s.cfg.chunkUMax.toNat ≤ chunkULimit))
    && (decide (chunkCMin ≤ s.cfg.chunkCMax.toNat) && decide (s.cfg.chunkCMax.toNat ≤ chunkCLimit))
    && s.outLegal

/-- The block registers are legal (R44, R291 item 1). -/
def State.blockLegal (s : State) : Bool :=
  decide (s.cfg.blkStart.toNat ≤ s.cfg.blkEnd.toNat) && decide (s.cfg.blkEnd.toNat ≤ s.params.dictCap.toNat)
    && (s.cfg.dictReset == decide (s.cfg.blkStart.toNat = 0))
    && (!s.cfg.dictReset || decide (s.cfg.posPhase = 0))

/-- The lane's slice lies in the block (R291 item 2). -/
def State.sliceInBlock (s : State) (l : Lane) : Bool :=
  decide (s.cfg.blkStart.toNat ≤ l.sliceStart.toNat) && decide (l.sliceStart.toNat < l.sliceEnd.toNat)
    && decide (l.sliceEnd.toNat ≤ s.cfg.blkEnd.toNat)

/-- `CheckSlice(L, DR)` (R291). -/
def State.sliceLegal (s : State) (l : Lane) (dr : Bool) : Bool :=
  s.blockLegal && s.sliceInBlock l && (dr == decide (l.sliceStart.toNat = 0))

/-- A valid table for the block end: not `TABLE_VALID = 0 or TABLE_END ≠ BLK_END` (R293, R294, R300, R406). -/
def State.tableFits (s : State) : Bool := s.table.valid && decide (s.table.fin = s.cfg.blkEnd)

/-- The lane window is well formed (R140 item 2). -/
def State.windowLegal (s : State) (l : Lane) : Bool :=
  decide (l.outLen.toNat ≤ l.outCap.toNat) && decide (l.outBase.toNat + l.outCap.toNat ≤ s.params.outCap.toNat)

/-! ## The register file (R30, R51) -/

/-- The registers of the block's aperture that have an offset of their own. -/
inductive Reg
  | id | cmd | status | control | errInfo
  | arg0 | arg1 | arg2 | arg3
  | res0 | res1 | res2
  | dictSize | mfParams | lzProps | strategy | streamOpts
  | chunkUMax | chunkCMax | storeMargin | parseGain | mfLimit2 | mfLimit3 | mfLimit4
  | blkStart | blkEnd | blkFlags | nActive | outPos | outLimit
  | consumedLo | consumedHi | producedLo | producedHi
  | tableEnd | streamState | streamDict | tableSize | tableCaplen
  | stageCap | hwcfg | dictCap | outCap | tableCap
  deriving DecidableEq, Repr

/-- The registers of a lane bank (R51). -/
inductive LaneReg
  | sliceStart | sliceEnd | pos | outBase | outCap | outLen | status
  | rep0 | rep1 | rep2 | rep3
  | rcLowLo | rcLowHi | rcRange | rcCache | rcCacheSize
  deriving DecidableEq, Repr

/-- The block registers by offset (R30). -/
def regAt : Nat → Option Reg
  | 0x000 => some .id
  | 0x004 => some .cmd
  | 0x008 => some .status
  | 0x00C => some .control
  | 0x010 => some .errInfo
  | 0x014 => some .arg0
  | 0x018 => some .arg1
  | 0x01C => some .arg2
  | 0x020 => some .arg3
  | 0x024 => some .res0
  | 0x028 => some .res1
  | 0x02C => some .res2
  | 0x030 => some .dictSize
  | 0x034 => some .mfParams
  | 0x038 => some .lzProps
  | 0x03C => some .strategy
  | 0x040 => some .streamOpts
  | 0x044 => some .chunkUMax
  | 0x048 => some .chunkCMax
  | 0x04C => some .storeMargin
  | 0x050 => some .parseGain
  | 0x054 => some .mfLimit2
  | 0x058 => some .mfLimit3
  | 0x05C => some .mfLimit4
  | 0x060 => some .blkStart
  | 0x064 => some .blkEnd
  | 0x068 => some .blkFlags
  | 0x06C => some .nActive
  | 0x070 => some .outPos
  | 0x074 => some .outLimit
  | 0x078 => some .consumedLo
  | 0x07C => some .consumedHi
  | 0x080 => some .producedLo
  | 0x084 => some .producedHi
  | 0x088 => some .tableEnd
  | 0x08C => some .streamState
  | 0x090 => some .streamDict
  | 0x094 => some .tableSize
  | 0x098 => some .tableCaplen
  | 0x0EC => some .stageCap
  | 0x0F0 => some .hwcfg
  | 0x0F4 => some .dictCap
  | 0x0F8 => some .outCap
  | 0x0FC => some .tableCap
  | _     => none

/-- The registers of a lane bank by offset in the bank (R51). -/
def laneRegAt : Nat → Option LaneReg
  | 0x00 => some .sliceStart
  | 0x04 => some .sliceEnd
  | 0x08 => some .pos
  | 0x0C => some .outBase
  | 0x10 => some .outCap
  | 0x14 => some .outLen
  | 0x18 => some .status
  | 0x1C => some .rep0
  | 0x20 => some .rep1
  | 0x24 => some .rep2
  | 0x28 => some .rep3
  | 0x2C => some .rcLowLo
  | 0x30 => some .rcLowHi
  | 0x34 => some .rcRange
  | 0x38 => some .rcCache
  | 0x3C => some .rcCacheSize
  | _    => none

/-- What an aligned offset of `REG` names: a block register, a register of an existing lane's bank at
`0x100 + 0x40·L`, or nothing (reserved). -/
inductive RegName
  | block (r : Reg)
  | lane (lane : Nat) (r : LaneReg)
  | reserved
  deriving DecidableEq, Repr

def State.regName (s : State) (off : Nat) : RegName :=
  match regAt off with
  | some r => .block r
  | none =>
    if 0x100 ≤ off ∧ (off - 0x100) / 0x40 < s.nLanes then
      match laneRegAt ((off - 0x100) % 0x40) with
      | some r => .lane ((off - 0x100) / 0x40) r
      | none   => .reserved
    else .reserved

/-- The constant of `ID` (R31). -/
def idWord : Word := 0x324D5A4C

/-- The values of `RES0..RES2` that a host read observes: those from before the command while one runs, which the issue
has zeroed in the registers, and the registers' own at every other time (R38, R91, R97; log 8). -/
def State.visibleRes (s : State) : Results := if s.busy then s.resBefore else s.res

/-- What a read of a block register returns (R30). -/
def State.readReg (s : State) : Reg → Word
  | .id          => idWord
  | .cmd         => 0
  | .status      => s.statusWord
  | .control     => s.controlWord
  | .errInfo     => s.errInfo
  | .arg0        => s.args.arg0
  | .arg1        => s.args.arg1
  | .arg2        => s.args.arg2
  | .arg3        => s.args.arg3
  | .res0        => s.visibleRes.res0
  | .res1        => s.visibleRes.res1
  | .res2        => s.visibleRes.res2
  | .dictSize    => s.cfg.dictSize
  | .mfParams    => s.cfg.mfParams
  | .lzProps     => s.cfg.lzProps
  | .strategy    => s.cfg.strategy
  | .streamOpts  => s.cfg.streamOpts
  | .chunkUMax   => s.cfg.chunkUMax
  | .chunkCMax   => s.cfg.chunkCMax
  | .storeMargin => s.cfg.storeMargin
  | .parseGain   => s.cfg.parseGain
  | .mfLimit2    => s.cfg.mfLimit2
  | .mfLimit3    => s.cfg.mfLimit3
  | .mfLimit4    => s.cfg.mfLimit4
  | .blkStart    => s.cfg.blkStart
  | .blkEnd      => s.cfg.blkEnd
  | .blkFlags    => s.cfg.blkFlags
  | .nActive     => s.cfg.nActive
  | .outPos      => s.outPos
  | .outLimit    => s.cfg.outLimit
  | .consumedLo  => s.counters.consumed.extractLsb' 0 32
  | .consumedHi  => s.counters.consumed.extractLsb' 32 32
  | .producedLo  => s.counters.produced.extractLsb' 0 32
  | .producedHi  => s.counters.produced.extractLsb' 32 32
  | .tableEnd    => s.table.fin
  | .streamState => s.stream.stateWord
  | .streamDict  => s.stream.dict
  | .tableSize   => s.table.size
  | .tableCaplen => s.table.caplen
  | .stageCap    => s.params.stageCap
  | .hwcfg       => s.hwcfgWord
  | .dictCap     => s.params.dictCap
  | .outCap      => s.params.outCap
  | .tableCap    => s.params.tableCap

/-- What a read of a lane register returns (R51 to R54). -/
def Lane.readReg (l : Lane) : LaneReg → Word
  | .sliceStart  => l.sliceStart
  | .sliceEnd    => l.sliceEnd
  | .pos         => l.pos
  | .outBase     => l.outBase
  | .outCap      => l.outCap
  | .outLen      => l.outLen
  | .status      => l.statusWord
  | .rep0        => l.reps.rep0
  | .rep1        => l.reps.rep1
  | .rep2        => l.reps.rep2
  | .rep3        => l.reps.rep3
  | .rcLowLo     => l.rc.low.extractLsb' 0 32
  | .rcLowHi     => BitVec.ofNat 32 (l.rc.low.getLsbD 32).toNat
  | .rcRange     => l.rc.range
  | .rcCache     => l.rc.cache.zeroExtend 32
  | .rcCacheSize => l.rc.cacheSize

/-- The bits of a register that hold what is written; reserved bits read 0 and ignore writes (R30, R40 to R46). -/
def mfParamsMask   : Word := 0x000007FF
def lzPropsMask    : Word := 0x00000FFF
def strategyMask   : Word := 0x00000003
def streamOptsMask : Word := 0x00000003
def blkFlagsMask   : Word := 0x000000F1
def parseGainMask  : Word := 0x00FFFFFF

/-- An accepted write of a command word (R112): `BUSY <- 1`, `RES0..RES2 <- 0`. The values before it stay for the host's
reads (R91). -/
def State.issue (s : State) (w : Word) : State := { s.clearRes with pending := some w, resBefore := s.res }

/-- A write to a block register while idle (R30, R32 to R34). Writes to `RO` registers are ignored. -/
def State.writeReg (s : State) (r : Reg) (v : Word) : State :=
  match r with
  | .cmd         => s.issue v
  | .status      => s.clearSticky v
  | .control     => s.writeControl v
  | .arg0        => { s with args := { s.args with arg0 := v } }
  | .arg1        => { s with args := { s.args with arg1 := v } }
  | .arg2        => { s with args := { s.args with arg2 := v } }
  | .arg3        => { s with args := { s.args with arg3 := v } }
  | .dictSize    => { s with cfg := { s.cfg with dictSize := v } }
  | .mfParams    => { s with cfg := { s.cfg with mfParams := v &&& mfParamsMask } }
  | .lzProps     => { s with cfg := { s.cfg with lzProps := v &&& lzPropsMask } }
  | .strategy    => { s with cfg := { s.cfg with strategy := v &&& strategyMask } }
  | .streamOpts  => { s with cfg := { s.cfg with streamOpts := v &&& streamOptsMask } }
  | .chunkUMax   => { s with cfg := { s.cfg with chunkUMax := v } }
  | .chunkCMax   => { s with cfg := { s.cfg with chunkCMax := v } }
  | .storeMargin => { s with cfg := { s.cfg with storeMargin := v } }
  | .parseGain   => { s with cfg := { s.cfg with parseGain := v &&& parseGainMask } }
  | .mfLimit2    => { s with cfg := { s.cfg with mfLimit2 := v } }
  | .mfLimit3    => { s with cfg := { s.cfg with mfLimit3 := v } }
  | .mfLimit4    => { s with cfg := { s.cfg with mfLimit4 := v } }
  | .blkStart    => { s with cfg := { s.cfg with blkStart := v } }
  | .blkEnd      => { s with cfg := { s.cfg with blkEnd := v } }
  | .blkFlags    => { s with cfg := { s.cfg with blkFlags := v &&& blkFlagsMask } }
  | .nActive     => { s with cfg := { s.cfg with nActive := v } }
  | .outLimit    => { s with cfg := { s.cfg with outLimit := v } }
  | .outPos      => { s with outPos := v }
  | .id | .errInfo | .res0 | .res1 | .res2 => s
  | .consumedLo | .consumedHi | .producedLo | .producedHi => s
  | .tableEnd | .streamState | .streamDict | .tableSize | .tableCaplen => s
  | .stageCap | .hwcfg | .dictCap | .outCap | .tableCap => s

/-- A write to a lane register while idle (R51): the slice and window registers are `RW`, the others `RO`. -/
def Lane.writeReg (l : Lane) (r : LaneReg) (v : Word) : Lane :=
  match r with
  | .sliceStart => { l with sliceStart := v }
  | .sliceEnd   => { l with sliceEnd := v }
  | .outBase    => { l with outBase := v }
  | .outCap     => { l with outCap := v }
  | .outLen     => { l with outLen := v }
  | .pos | .status => l
  | .rep0 | .rep1 | .rep2 | .rep3 => l
  | .rcLowLo | .rcLowHi | .rcRange | .rcCache | .rcCacheSize => l

end Sys2Proof.Machine
end

