-- ==== Sys2Proof/Machine/Bus.lean ====
section
/-! DEFINITION. Host accesses (20_memory.md R84 to R88, R97), the reset input (70_reset_and_hazards.md R390) and the
host's pseudo-instructions (30_encoding.md R121) as lists of inputs. -/

namespace Sys2Proof.Machine

/-- `n` of R84. -/
def AccessSize.bytes : AccessSize → Nat
  | .byte => 1
  | .half => 2
  | .word => 4

/-- The size of an address space (R80). -/
def State.spaceSize (s : State) : Space → Nat
  | .reg  => 4096
  | .dict => s.params.dictCap.toNat
  | .out  => s.params.outCap.toNat

/-- Is the access performed (R84, R85, R86)? A refused one reads 0 or changes nothing, and is not reported. -/
def State.performed (s : State) (sp : Space) (addr : Nat) (n : AccessSize) : Bool :=
  decide (addr % n.bytes = 0) && decide (addr + n.bytes ≤ s.spaceSize sp) && (decide (sp ≠ .reg) || decide (n = .word))

/-- The `n` bytes at `a` composed little-endian (R83, R84). -/
def Memory.readLe (m : Memory) (a : Nat) : Nat → Nat
  | 0 => 0
  | n + 1 => (Memory.read m a).toNat + 2 ^ 8 * Memory.readLe m (a + 1) n

/-- The low `n` bytes of `v`, least significant first (R83, R84). -/
def leBytes (v : Nat) : Nat → List Byte
  | 0 => []
  | n + 1 => BitVec.ofNat 8 v :: leBytes (v / 2 ^ 8) n

/-- A read of an aligned word of `REG`; reserved offsets read 0 (R30). -/
def State.readRegAt (s : State) (off : Nat) : Word :=
  match s.regName off with
  | .block r   => s.readReg r
  | .lane n r  => match s.lanes[n]? with
    | some l => l.readReg r
    | none   => 0
  | .reserved  => 0

/-- `MemRead(space, addr, n)` (R84 to R86); while reset is asserted it returns 0 (R390). -/
def State.hostRead (s : State) (sp : Space) (addr : Nat) (n : AccessSize) : Word :=
  if s.inReset || !s.performed sp addr n then 0
  else match sp with
    | .reg  => s.readRegAt addr
    | .dict => BitVec.ofNat 32 (Memory.readLe s.dict addr n.bytes)
    | .out  => BitVec.ofNat 32 (Memory.readLe s.out addr n.bytes)

/-- A write of an aligned word of `REG`. While busy only `CONTROL` and `STATUS` accept it (R63; log 9). -/
def State.writeRegAt (s : State) (off : Nat) (v : Word) : State :=
  match s.regName off with
  | .block .status  => s.clearSticky v
  | .block .control => s.writeControl v
  | .block r        => if s.busy then s.reject else s.writeReg r v
  | .lane n r       =>
    if s.busy then s.reject
    else match s.lanes[n]? with
      | some l => s.setLane n (l.writeReg r v)
      | none   => s
  | .reserved       => if s.busy then s.reject else s

/-- A performed write to `DICT` while idle: an index below `TABLE_END` clears `TABLE_VALID` (R87). -/
def State.writeDict (s : State) (addr : Nat) (bytes : List Byte) : State :=
  { s with
    dict := Memory.writeBytes s.dict addr bytes
    table := { s.table with valid := s.table.valid && !decide (addr < s.table.fin.toNat) } }

/-- `MemWrite(space, addr, n, v)` (R84 to R88); while reset is asserted it does nothing (R390). -/
def State.hostWrite (s : State) (sp : Space) (addr : Nat) (n : AccessSize) (v : Word) : State :=
  if s.inReset || !s.performed sp addr n then s
  else match sp with
    | .reg  => s.writeRegAt addr v
    | .dict => if s.busy then s.reject else s.writeDict addr (leBytes v.toNat n.bytes)
    | .out  =>
      if s.busy then s.reject else { s with out := Memory.writeBytes s.out addr (leBytes v.toNat n.bytes) }

/-- The reset input is asserted (R390; log 10): a running command is abandoned, nothing of it commits, and every
register takes its reset value. What stands outside the block (the inputs to come, the value the last read returned,
the instance's parameters) is kept. -/
def State.assertReset (s : State) : State :=
  { State.resetWith s.nLanes s.params with
    inReset := true, inputs := s.inputs, readData := s.readData, draws := s.draws }

/-- The reset input is released (R390). -/
def State.releaseReset (s : State) : State := { s with inReset := false }

/-! ## Host listings (R121) as inputs -/

/-- `REG[off] <- v`. -/
def regWriteInput (off : Nat) (v : Word) : Input := .write .reg off .word v

/-- `DICT[a..] <- bytes`, host byte writes. -/
def dictWriteInputs (a : Nat) : List Byte → List Input
  | [] => []
  | b :: bs => .write .dict a .byte (b.zeroExtend 32) :: dictWriteInputs (a + 1) bs

/-- `CMD <- i` followed by waiting for `BUSY = 0`. -/
def commandInputs (i : Instr) : List Input := [regWriteInput 0x004 (encode i), .sequencer]

/-- `lane.setwin L, base, cap`. -/
def laneSetwinInputs (lane : Nat) (base cap : Word) : List Input :=
  [regWriteInput (0x100 + 0x40 * lane + 0x0C) base, regWriteInput (0x100 + 0x40 * lane + 0x10) cap,
    regWriteInput (0x100 + 0x40 * lane + 0x14) 0]

/-- The second half of `compress.block`: what the host issues once `MF_BUILD` has completed, `CMD <- ENC_BLOCK` if
`CODE = OK`. -/
def compressBlockThenInputs (s : State) : List Input :=
  if s.status.code = .ok then commandInputs .encBlock else []

/-- The first half of `compress.stream(data)`: `STREAM_BEGIN`, the data, the block registers, and the `MF_BUILD` of
`compress.block`, which is skipped when there is no data. The second half is `compressBlockThenInputs`, then
`STREAM_END`. -/
def compressStreamBeginInputs (data : List Byte) : List Input :=
  commandInputs .streamBegin ++ dictWriteInputs 0 data
    ++ [regWriteInput 0x060 0, regWriteInput 0x064 (BitVec.ofNat 32 data.length), regWriteInput 0x068 1]
    ++ (if data = [] then [] else commandInputs .mfBuild)

end Sys2Proof.Machine
end

