-- ==== Sys2Proof/Machine/MatchFinder.lean ====
section
/-! DEFINITION. The radix match finder (41_match_finder.md): table storage, the table contract of R175 and R176, the
queries of R187 and R188, and the commands. The source's build procedure is in Radix.lean. -/

namespace Sys2Proof.Machine

/-! ## Storage (R170 to R173) -/

/-- The null word of a packed slot and the null link of a structured one (R171, R172). -/
def nullWord : Word := 0xFFFFFFFF

/-- A packed slot: `link` in bits 25:0, `len` in bits 31:26 (R171). -/
def Slot.toWord : Slot → Word
  | .null           => nullWord
  | .entry link len => BitVec.ofNat 32 (link + len * 2 ^ linkBits)

def Slot.ofWord (w : Word) : Slot :=
  if w = nullWord then .null else .entry (w.toNat % 2 ^ linkBits) (w.toNat / 2 ^ linkBits)

/-- The link and the length of a structured slot (R172). -/
def Slot.linkWord : Slot → Word
  | .null         => nullWord
  | .entry link _ => BitVec.ofNat 32 link

def Slot.lenByte : Slot → Byte
  | .null        => 0
  | .entry _ len => BitVec.ofNat 8 len

def Slot.ofPair (link : Word) (len : Byte) : Slot :=
  if link = nullWord then .null else .entry link.toNat len.toNat

/-- A unit of four consecutive slots (R172). -/
def TableUnit.ofSlots (a b c d : Slot) : TableUnit :=
  ⟨a.linkWord, b.linkWord, c.linkWord, d.linkWord, a.lenByte, b.lenByte, c.lenByte, d.lenByte⟩

/-- Slot `4u + j` of a unit (R172). -/
def TableUnit.slot (u : TableUnit) : Nat → Slot
  | 0 => .ofPair u.link0 u.len0
  | 1 => .ofPair u.link1 u.len1
  | 2 => .ofPair u.link2 u.len2
  | _ => .ofPair u.link3 u.len3

/-- The units that hold a list of slots; the places of the last unit past the list are undefined (R170) and null here. -/
def unitsOfSlots : List Slot → List TableUnit
  | a :: b :: c :: d :: rest => TableUnit.ofSlots a b c d :: unitsOfSlots rest
  | [a, b, c]                => [TableUnit.ofSlots a b c .null]
  | [a, b]                   => [TableUnit.ofSlots a b .null .null]
  | [a]                      => [TableUnit.ofSlots a .null .null .null]
  | []                       => []

/-- Slots `0 ..` in the table's form. -/
def Storage.ofSlots (isStruct : Bool) (slots : List Slot) : Storage :=
  if isStruct then .structured (unitsOfSlots slots) else .packed (slots.map Slot.toWord)

/-- `Slot[p]` (R60). Places that no build has written are undefined and are never asked for (R170). -/
def Storage.slot : Storage → Nat → Slot
  | .packed ws, p     => match ws[p]? with
    | some w => .ofWord w
    | none   => .null
  | .structured us, p => match us[p / 4]? with
    | some u => u.slot (p % 4)
    | none   => .null

/-- `TABLE_BYTES(size)` (R173). -/
def tableBytes (isStruct : Bool) (size : Nat) : Nat := if isStruct then 20 * ((size + 3) / 4) else 4 * size

/-- `LEN_FIELD_MAX` (R171, R172). -/
def lenFieldMax (isStruct : Bool) : Nat := if isStruct then lenFieldMaxStruct else lenFieldMaxPacked

/-! ## The table contract (R175, R176) -/

/-- `min(k, n)` for the length `k` of the longest common beginning of two byte lists: on the suffixes at `p` and `q` of
the block, `score(p, q)` of R175, which compares at most `n = C` bytes and none past `E`. -/
def agree : Nat → List Byte → List Byte → Nat
  | 0, _, _ => 0
  | n + 1, x :: xs, y :: ys => if x = y then 1 + agree n xs ys else 0
  | _ + 1, _, _ => 0

/-- `score(p, q)` (R175) for the block `d` and the cap `c`. -/
def score (d : List Byte) (c p q : Nat) : Nat := agree c (d.drop q) (d.drop p)

/-- `score(p, q)` for `q` from `q` on, `n` of them, where `rest` is the block from `q` on and `here` from `p` on. -/
def scoresFrom (c : Nat) (here : List Byte) : Nat → List Byte → List Nat
  | 0, _ => []
  | n + 1, rest => agree c rest here :: scoresFrom c here n rest.tail

/-- `score(p, 0), .., score(p, p-1)`. -/
def scores (d : List Byte) (c p : Nat) : List Nat := scoresFrom c (d.drop p) p d

/-- `M(p)` (R175). -/
def bestScore (xs : List Nat) : Nat := xs.foldl max 0

/-- The positions that score `m`, in increasing order, counted from `q`. -/
def holders (m : Nat) : Nat → List Nat → List Nat
  | _, [] => []
  | q, x :: xs => if x = m then q :: holders m (q + 1) xs else holders m (q + 1) xs

/-- Which of the equally long links the slot of `p` stores: the nearest (R175), or, in `ANY_LONGEST` mode, a free choice
(R176; log 4). `qs` is not empty. -/
def chooseLink (mode : MfMode) (draw p : Nat) (qs : List Nat) : Nat :=
  match mode with
  | .canonical  => qs.getLastD 0
  | .anyLongest => qs.getD (Config.tieChoice draw p % qs.length) 0

/-- `Slot[p]` of a build (R175, R176). -/
def slotFor (mode : MfMode) (draw : Nat) (d : List Byte) (c p : Nat) : Slot :=
  let xs := scores d c p
  let m := bestScore xs
  if m < matchLenMin then .null else .entry (chooseLink mode draw p (holders m 0 xs)) m

/-- The slots `0 .. E-1` of a build over `d = DICT[0 .. E-1]` (R175, R176). -/
def buildSlots (mode : MfMode) (draw : Nat) (d : List Byte) (c : Nat) : List Slot :=
  (List.range d.length).map (slotFor mode draw d c)

/-! ## Queries (R187, R188) -/

def Table.slot (t : Table) (p : Nat) : Slot := t.storage.slot p

/-- `GetMatch(p)` (R187): (length, distance). -/
def getMatch (t : Table) (dict : Memory) (p : Nat) : Nat × Nat :=
  match t.slot p with
  | .null => (0, 0)
  | .entry q len =>
    let lim := min matchLenMax (t.fin.toNat - p)
    let len' := if len = t.caplen.toNat then len + Memory.runLen dict (p + len) (q + len) (lim - len) else len
    (len', p - q - 1)

/-- Do the slots of `p-1` and `p` hold the same distance (R188)? -/
def sameDistance (t : Table) (p : Nat) : Bool :=
  if p = 0 then false
  else match t.slot (p - 1), t.slot p with
    | .entry q' _, .entry q _ => q' + 1 == q
    | _, _ => false

/-- `GetNextMatch(p)` (R188). -/
def getNextMatch (t : Table) (dict : Memory) (p : Nat) : Nat × Nat :=
  if sameDistance t p then (0, 0) else getMatch t dict p

/-! ## Commands -/

/-- `MF_CREATE` (R180). -/
def execMfCreate (s : State) : Host.Outcome State Fault Refusal :=
  conclude .mfCreate s fun s => do
    check s.cfg.dictSizeLegal .invalidParameter
    let size := s.cfg.dictSize
    let isStruct := decide (2 ^ linkBits < size.toNat)
    check (decide (tableBytes isStruct size.toNat ≤ s.params.tableCap.toNat)) .outOfMemory
    return { s with table :=
      { created := true, isStruct := isStruct, valid := false, size := size, fin := 0, caplen := 0
        storage := .ofSlots isStruct [] } }

/-- `CAPLEN` of a build (R174). -/
def State.buildCap (s : State) : Nat := min s.cfg.depth (lenFieldMax s.table.isStruct)

/-- `MF_BUILD` (R181). -/
def execMfBuild (s : State) : Host.Outcome State Fault Refusal :=
  conclude .mfBuild s fun s => do
    check s.table.created .sequenceError
    check (decide (depthMin ≤ s.cfg.depth) && decide (s.cfg.depth ≤ depthMax)
      && decide (s.cfg.bufResize ≤ bufResizeMax)) .invalidParameter
    check (decide (s.cfg.blkStart.toNat ≤ s.cfg.blkEnd.toNat) && decide (s.cfg.blkEnd.toNat ≤ s.table.size.toNat)
      && decide (s.cfg.blkEnd.toNat ≤ s.params.dictCap.toNat)) .invalidParameter
    s.cancelPoint
    let d := Memory.readBytes s.dict 0 s.cfg.blkEnd.toNat
    return { s with table := { s.table with
      valid := true, fin := s.cfg.blkEnd, caplen := BitVec.ofNat 32 s.buildCap
      storage := .ofSlots s.table.isStruct (buildSlots s.params.mfMode s.draws d s.buildCap) } }

/-- The start checks of the queries (R189 to R191): the position `ARG0`. -/
def State.queryPos (s : State) : Except Halt Nat := do
  check s.table.valid .sequenceError
  check (decide (s.args.arg0.toNat < s.table.fin.toNat)) .invalidParameter
  return s.args.arg0.toNat

/-- `MF_GET_MATCH` (R189). -/
def execMfGetMatch (s : State) : Host.Outcome State Fault Refusal :=
  conclude .mfGetMatch s fun s => do
    let p ← s.queryPos
    let m := getMatch s.table s.dict p
    return s.setRes m.1 m.2 0

/-- `MF_GET_NEXT_MATCH` (R191). -/
def execMfGetNextMatch (s : State) : Host.Outcome State Fault Refusal :=
  conclude .mfGetNextMatch s fun s => do
    let p ← s.queryPos
    let m := getNextMatch s.table s.dict p
    return s.setRes m.1 m.2 0

/-- `MF_READ_SLOT` (R190). -/
def execMfReadSlot (s : State) : Host.Outcome State Fault Refusal :=
  conclude .mfReadSlot s fun s => do
    let p ← s.queryPos
    match s.table.slot p with
    | .null           => return s.setRes 0xFFFFFFFF 0 0
    | .entry link len => return s.setRes link len 0

end Sys2Proof.Machine
end

