-- ==== Sys2Proof/Machine/Coder.lean ====
section
/-! DEFINITION. The range coder's primitives (40_range_coder.md R141 to R152) and its byte sink in the two contexts of
R141: the lane window and the chunk payload. -/

namespace Sys2Proof.Machine

/-- A coder at work on one lane: the lane, the bytes emitted so far (newest first), and how many bytes the sink takes:
`some n` for a lane window with `n` free bytes, `none` for a chunk's payload buffer. -/
structure Enc where
  lane : Lane
  rev  : List Byte
  room : Option Nat
  deriving DecidableEq, Repr

/-- The emitted bytes in order. -/
def Enc.bytes (e : Enc) : List Byte := e.rev.reverse

def Enc.setRc (e : Enc) (rc : Rc) : Enc := { e with lane := { e.lane with rc := rc } }

def Enc.prob (e : Enc) (i : Nat) : Nat := (ProbMem.read e.lane.prob i).toNat

def Enc.setProb (e : Enc) (i p : Nat) : Enc :=
  { e with lane := { e.lane with prob := ProbMem.write e.lane.prob i (BitVec.ofNat 11 p) } }

/-- `k` calls of `Emit` (R141), the first with `first`, the others with `rest`. -/
def emitRun (first rest : Byte) (k : Nat) (e : Enc) : Except Halt Enc :=
  match e.room with
  | some n =>
    if e.rev.length + k ≤ n then .ok { e with rev := List.replicate (k - 1) rest ++ first :: e.rev }
    else .error (.fault .destinationTooSmall)
  | none => .ok { e with rev := List.replicate (k - 1) rest ++ first :: e.rev }

/-- The cached byte is final (R143): it goes out with the carry, and after it the pending 0xFF bytes; the top byte of
`low` becomes the cache. The `repeat .. until cache_size = 0` never ends from 0 (log 11). -/
def flushPending (e : Enc) : Except Halt Enc :=
  let rc := e.lane.rc
  let carry := rc.low.toNat / 2 ^ 32
  if rc.cacheSize = 0 then .error .neverEnds
  else do
    let e ← emitRun (BitVec.ofNat 8 (rc.cache.toNat + carry)) (BitVec.ofNat 8 (0xFF + carry)) rc.cacheSize.toNat e
    return e.setRc { rc with cacheSize := 0, cache := BitVec.ofNat 8 (rc.low.toNat / 2 ^ 24) }

/-- `cache_size <- cache_size + 1`, or `INTERNAL` (R143), and `low <- low[23:0] << 8`. -/
def pushByte (e : Enc) : Except Halt Enc :=
  let rc := e.lane.rc
  if rc.cacheSize.toNat = 2 ^ 32 - 1 then .error (.fault .internal)
  else .ok (e.setRc { rc with
    cacheSize := rc.cacheSize + 1
    low := BitVec.ofNat 33 (rc.low.toNat % 2 ^ 24 * 2 ^ 8) })

/-- `ShiftLow()` (R143). -/
def shiftLow (e : Enc) : Except Halt Enc :=
  if e.lane.rc.low.toNat < 0xFF000000 ∨ 2 ^ 32 ≤ e.lane.rc.low.toNat then do
    let e ← flushPending e
    pushByte e
  else pushByte e

/-- `while range < 2^24: range <- (range << 8) mod 2^32; ShiftLow()` (R144, R146). From `range > 0` three rounds are
enough; from `range = 0` the loop never ends (log 11). -/
def renormalise : Nat → Enc → Except Halt Enc
  | 0, _ => .error .neverEnds
  | fuel + 1, e =>
    if e.lane.rc.range.toNat < 2 ^ 24 then do
      let e ← shiftLow (e.setRc { e.lane.rc with range := BitVec.ofNat 32 (e.lane.rc.range.toNat * 2 ^ 8) })
      renormalise fuel e
    else .ok e

/-- Rounds of `renormalise` that suffice for every `range > 0`. -/
def renormRounds : Nat := 4

/-- `EncodeBit(L, i, b)` before its renormalisation loop (R144). -/
def splitRange (i : Nat) (b : Bool) (e : Enc) : Enc :=
  let p := e.prob i
  let rc := e.lane.rc
  let bound := rc.range.toNat / 2 ^ 11 * p
  if b then
    (e.setRc { rc with
      low := BitVec.ofNat 33 (rc.low.toNat + bound)
      range := BitVec.ofNat 32 (rc.range.toNat - bound) }).setProb i (p - p / 2 ^ 5)
  else (e.setRc { rc with range := BitVec.ofNat 32 bound }).setProb i (p + (2048 - p) / 2 ^ 5)

/-- `EncodeBit(L, i, b)` (R144). -/
def encodeBit (i : Nat) (b : Bool) (e : Enc) : Except Halt Enc := renormalise renormRounds (splitRange i b e)

/-- One round of `EncodeDirect` before its renormalisation loop (R146). -/
def halveRange (b : Bool) (e : Enc) : Enc :=
  let rc := e.lane.rc
  let half := rc.range.toNat / 2
  e.setRc { rc with
    range := BitVec.ofNat 32 half
    low := if b then BitVec.ofNat 33 (rc.low.toNat + half) else rc.low }

/-- `EncodeDirect(v, n)` (R146): bits `n-1 .. 0` of `v`. -/
def encodeDirect (v : Nat) : Nat → Enc → Except Halt Enc
  | 0, e => .ok e
  | n + 1, e => do
    let e ← renormalise renormRounds (halveRange (v.testBit n) e)
    encodeDirect v n e

/-- The rounds of `EncodeTree` (R148) from bit `n-1` of `s` on, at tree index `m`. -/
def encodeTreeFrom (base s : Nat) : Nat → Nat → Enc → Except Halt Enc
  | 0, _, e => .ok e
  | n + 1, m, e => do
    let e ← encodeBit (base + m) (s.testBit n) e
    encodeTreeFrom base s n (2 * m + (s.testBit n).toNat) e

/-- `EncodeTree(L, base, n, s)` (R148). -/
def encodeTree (base n s : Nat) (e : Enc) : Except Halt Enc := encodeTreeFrom base s n 1 e

/-- The rounds of `EncodeTreeRev` (R150): `n` low bits of `s`, at tree index `m`. -/
def encodeTreeRevFrom (base : Nat) : Nat → Nat → Nat → Enc → Except Halt Enc
  | 0, _, _, e => .ok e
  | n + 1, s, m, e => do
    let e ← encodeBit (base + m) (s.testBit 0) e
    encodeTreeRevFrom base n (s / 2) (2 * m + (s.testBit 0).toNat) e

/-- `EncodeTreeRev(L, base, n, s)` (R150). -/
def encodeTreeRev (base n s : Nat) (e : Enc) : Except Halt Enc := encodeTreeRevFrom base n s 1 e

/-- `k` calls of `ShiftLow`. -/
def shiftLows : Nat → Enc → Except Halt Enc
  | 0, e => .ok e
  | k + 1, e => do
    let e ← shiftLow e
    shiftLows k e

/-- `Flush()` (R152). -/
def flush (e : Enc) : Except Halt Enc := shiftLows 5 e

/-! ## The lane-window context (R140, R141) -/

/-- A coder on lane `l` with the lane's window as its sink. -/
def Lane.windowEnc (l : Lane) : Enc := { lane := l, rev := [], room := some (l.outCap.toNat - l.outLen.toNat) }

/-- The commit of a coder that wrote to its lane's window: the bytes go to `OUT` at `LANE_OUT_BASE + LANE_OUT_LEN`, and
`LANE_OUT_LEN` counts them (R141). -/
def State.commitWindow (s : State) (lane : Nat) (e : Enc) : State :=
  { s with
    lanes := s.lanes.set lane
      { e.lane with outLen := BitVec.ofNat 32 (e.lane.outLen.toNat + e.rev.length) }
    out := Memory.writeBytes s.out (e.lane.outBase.toNat + e.lane.outLen.toNat) e.bytes }

/-- R140 items 1 and 2: the lane exists and its window is well formed. -/
def State.windowLane (s : State) (lane : Nat) : Except Halt Lane := do
  let l ← s.getLane lane
  check (s.windowLegal l) .invalidParameter
  return l

/-- R140 items 1 to 3, and R228 items 1 to 3: also `INIT = 1`. -/
def State.codingLane (s : State) (lane : Nat) : Except Halt Lane := do
  let l ← s.windowLane lane
  check l.init .sequenceError
  return l

/-- `PROB_WORDS(lane.LC, lane.LP)` (R55). -/
def Lane.probWords (l : Lane) : Nat := Sys2Proof.Machine.probWords l.lc.toNat l.lp.toNat

end Sys2Proof.Machine
end

