-- ==== Sys2Proof/Machine/Symbols.lean ====
section
/-! DEFINITION. The LZMA symbol coder (42_lzma_symbols.md R210 to R220) and the lane's symbol and state commands (R221 to
R228). -/

namespace Sys2Proof.Machine

/-! ## State transitions (R211) -/

def literalNext : Fin 12 → Fin 12 :=
  fun s => [0, 0, 0, 0, 1, 2, 3, 4, 5, 6, 4, 5].getD s.val 0

def matchNext : Fin 12 → Fin 12 :=
  fun s => [7, 7, 7, 7, 7, 7, 7, 10, 10, 10, 10, 10].getD s.val 0

def repNext : Fin 12 → Fin 12 :=
  fun s => [8, 8, 8, 8, 8, 8, 8, 11, 11, 11, 11, 11].getD s.val 0

def shortRepNext : Fin 12 → Fin 12 :=
  fun s => [9, 9, 9, 9, 9, 9, 9, 11, 11, 11, 11, 11].getD s.val 0

/-! ## Probability layout (R212) -/

def isMatchAt    : Nat := 0
def isRepAt      : Nat := 192
def isRepG0At    : Nat := 204
def isRepG1At    : Nat := 216
def isRepG2At    : Nat := 228
def isRep0LongAt : Nat := 240
def posSlotAt    : Nat := 432
def posSpecialAt : Nat := 688
def alignAt      : Nat := 802
def lenEncAt     : Nat := 818
def repLenEncAt  : Nat := 1332
def literalAt    : Nat := 1846

/-! ## Contexts (R216) -/

/-- What the symbol coder reads beside the lane: `DICT` and `POS_PHASE`. -/
structure SymCtx where
  dict  : Memory
  phase : Nat
  deriving DecidableEq, Repr

def State.symCtx (s : State) : SymCtx := { dict := s.dict, phase := s.cfg.posPhase }

/-- `posState(p) = spos & (2^lane.PB - 1)`. -/
def posState (x : SymCtx) (l : Lane) (p : Nat) : Nat := (x.phase + p) % 2 ^ l.pb.toNat

/-- `prevByte(p)`. -/
def prevByte (x : SymCtx) (p : Nat) : Nat := if p = 0 then 0 else (Memory.read x.dict (p - 1)).toNat

/-- `litState(p)`. -/
def litState (x : SymCtx) (l : Lane) (p : Nat) : Nat :=
  (x.phase + p) % 2 ^ l.lp.toNat * 2 ^ l.lc.toNat + prevByte x p / 2 ^ (8 - l.lc.toNat)

/-! ## Sub-coders (R214, R215) -/

/-- `EncodeLen(L, B, l, ps)` (R214). -/
def encodeLen (base l ps : Nat) (e : Enc) : Except Halt Enc :=
  if l < 8 then do
    let e ← encodeBit base false e
    encodeTree (base + 2 + 8 * ps) 3 l e
  else if l < 16 then do
    let e ← encodeBit base true e
    let e ← encodeBit (base + 1) false e
    encodeTree (base + 130 + 8 * ps) 3 (l - 8) e
  else do
    let e ← encodeBit base true e
    let e ← encodeBit (base + 1) true e
    encodeTree (base + 258) 8 (l - 16) e

/-- `PosSlot(dist)` (R215). -/
def posSlot (dist : Nat) : Nat :=
  if dist < 4 then dist
  else 2 * Nat.log2 dist + (dist.testBit (Nat.log2 dist - 1)).toNat

/-- The footer bits `fb` and the base distance of a slot `s ≥ 4` (R215). -/
def slotFooter (s : Nat) : Nat := s / 2 - 1
def slotBase (s : Nat) : Nat := (2 + s % 2) * 2 ^ slotFooter s

/-- `EncodeDist(L, dist, len)` (R215). -/
def encodeDist (dist len : Nat) (e : Enc) : Except Halt Enc := do
  let s := posSlot dist
  let e ← encodeTree (posSlotAt + 64 * min (len - 2) 3) 6 s e
  if s < 4 then return e
  else
    let red := dist - slotBase s
    if s < 14 then encodeTreeRev (posSpecialAt + slotBase s - s - 1) (slotFooter s) red e
    else
      let e ← encodeDirect (red / 2 ^ 4) (slotFooter s - 4) e
      encodeTreeRev alignAt 4 (red % 2 ^ 4) e

/-! ## Symbols (R217 to R220) -/

def Enc.setSt (e : Enc) (st : Fin 12) : Enc := { e with lane := { e.lane with st := st } }

def Enc.setReps (e : Enc) (reps : Reps) : Enc := { e with lane := { e.lane with reps := reps } }

/-- The rounds of the matched literal (R217): `offs & ~(mb ^ sym)` is `offs` less its bits that are set in `mb ^ sym`. -/
def matchedLiteralFrom (base : Nat) : Nat → Nat → Nat → Nat → Enc → Except Halt Enc
  | 0, _, _, _, e => .ok e
  | n + 1, mb, offs, sym, e => do
    let mb := mb * 2
    let e ← encodeBit (base + offs + (mb &&& offs) + sym / 2 ^ 8) (sym.testBit 7) e
    let sym := sym * 2
    matchedLiteralFrom base n mb (offs ^^^ (offs &&& (mb ^^^ sym))) sym e

/-- `DictRead(p - REP0 - 1)` of R217. R217 says that `REP0 < p` holds in a match state, but `ENC_ROLLBACK` (R227) brings
back `STATE` and `REP0` and not `LANE_POS`, so that `ENC_CHUNK` can code a literal here with `REP0 ≥ p` (R256). The index
is then negative and the spec gives it no byte: DESIGN CHOICE (log 20), a free value, which may depend on `DICT[0..p]` and
no later byte (R260). -/
def matchedByte (x : SymCtx) (p rep0 : Nat) : Byte :=
  if rep0 < p then Memory.read x.dict (p - rep0 - 1)
  else Config.byteBeforeDict (Memory.readBytes x.dict 0 (p + 1)) p rep0

/-- `EncodeLiteral(L, p)` (R217). The byte that a matched literal reads before `DICT[0]` is a free value (log 20). -/
def encodeLiteral (x : SymCtx) (p : Nat) (e : Enc) : Except Halt Enc := do
  let c := (Memory.read x.dict p).toNat
  let st := e.lane.st
  let base := literalAt + 768 * litState x e.lane p
  let e ← encodeBit (isMatchAt + 16 * st.val + posState x e.lane p) false e
  let e ←
    if st.val < 7 then encodeTree base 8 c e
    else
      matchedLiteralFrom base 8 (matchedByte x p e.lane.reps.rep0.toNat).toNat 0x100 (c + 0x100) e
  return e.setSt (literalNext st)

/-- `EncodeMatch(L, p, len, dist)` (R218). -/
def encodeMatch (x : SymCtx) (p len dist : Nat) (e : Enc) : Except Halt Enc := do
  let ps := posState x e.lane p
  let st := e.lane.st
  let e ← encodeBit (isMatchAt + 16 * st.val + ps) true e
  let e ← encodeBit (isRepAt + st.val) false e
  let e ← encodeLen lenEncAt (len - 2) ps e
  let e ← encodeDist dist len e
  return (e.setReps (e.lane.reps.push (BitVec.ofNat 32 dist))).setSt (matchNext st)

/-- The bits of `EncodeRep` that say which rep it is (R219). -/
def encodeRepIndex (st r ps : Nat) (e : Enc) : Except Halt Enc :=
  if r = 0 then do
    let e ← encodeBit (isRepG0At + st) false e
    encodeBit (isRep0LongAt + 16 * st + ps) true e
  else do
    let e ← encodeBit (isRepG0At + st) true e
    if r = 1 then encodeBit (isRepG1At + st) false e
    else do
      let e ← encodeBit (isRepG1At + st) true e
      encodeBit (isRepG2At + st) (r == 3) e

/-- `EncodeRep(L, p, len, r)` (R219). -/
def encodeRep (x : SymCtx) (p len r : Nat) (e : Enc) : Except Halt Enc := do
  let ps := posState x e.lane p
  let st := e.lane.st
  let e ← encodeBit (isMatchAt + 16 * st.val + ps) true e
  let e ← encodeBit (isRepAt + st.val) true e
  let e ← encodeRepIndex st.val r ps e
  let e ← encodeLen repLenEncAt (len - 2) ps (e.setReps (e.lane.reps.toFront r))
  return e.setSt (repNext st)

/-- `EncodeShortRep(L, p)` (R220). -/
def encodeShortRep (x : SymCtx) (p : Nat) (e : Enc) : Except Halt Enc := do
  let ps := posState x e.lane p
  let st := e.lane.st
  let e ← encodeBit (isMatchAt + 16 * st.val + ps) true e
  let e ← encodeBit (isRepAt + st.val) true e
  let e ← encodeBit (isRepG0At + st.val) false e
  let e ← encodeBit (isRep0LongAt + 16 * st.val + ps) false e
  return e.setSt (shortRepNext st)

/-! ## Commands -/

/-- `ENC_RESET_STATE` (R221). -/
def execEncResetState (lane : Nat) (s : State) : Host.Outcome State Fault Refusal :=
  conclude (.encResetState lane) s fun s => do
    let l ← s.getLane lane
    check s.cfg.propsLegal .invalidParameter
    return s.setLane lane (l.resetState s.cfg.lc s.cfg.lp s.cfg.pb)

/-- R228 items 1 to 4. -/
def State.symbolLane (s : State) (lane : Nat) : Except Halt Lane := do
  let l ← s.codingLane lane
  check (decide (s.cfg.blkEnd.toNat ≤ s.params.dictCap.toNat)) .invalidParameter
  return l

/-- `LANE_POS <- p`. -/
def Enc.setPos (e : Enc) (p : Nat) : Enc := { e with lane := { e.lane with pos := BitVec.ofNat 32 p } }

/-- `ENC_LITERAL` (R222). -/
def execEncLiteral (lane : Nat) (s : State) : Host.Outcome State Fault Refusal :=
  conclude (.encLiteral lane) s fun s => do
    let l ← s.symbolLane lane
    let p := s.args.arg0.toNat
    check (decide (p < s.cfg.blkEnd.toNat)) .invalidParameter
    check (!(decide (7 ≤ l.st.val) && decide (p ≤ l.reps.rep0.toNat))) .invalidParameter
    let e ← encodeLiteral s.symCtx p l.windowEnc
    return s.commitWindow lane (e.setPos (p + 1))

/-- `ENC_MATCH` (R223). -/
def execEncMatch (lane : Nat) (s : State) : Host.Outcome State Fault Refusal :=
  conclude (.encMatch lane) s fun s => do
    let l ← s.symbolLane lane
    let p := s.args.arg0.toNat
    let len := s.args.arg1.toNat
    let dist := s.args.arg2.toNat
    check (decide (matchLenMin ≤ len) && decide (len ≤ matchLenMax)) .invalidParameter
    check (decide (p + len ≤ s.cfg.blkEnd.toNat) && decide (dist < p)) .invalidParameter
    let e ← encodeMatch s.symCtx p len dist l.windowEnc
    return s.commitWindow lane (e.setPos (p + len))

/-- `ENC_REP` (R224). -/
def execEncRep (lane r : Nat) (s : State) : Host.Outcome State Fault Refusal :=
  conclude (.encRep lane r) s fun s => do
    let l ← s.symbolLane lane
    let p := s.args.arg0.toNat
    let len := s.args.arg1.toNat
    check (decide (matchLenMin ≤ len) && decide (len ≤ matchLenMax)) .invalidParameter
    check (decide (p + len ≤ s.cfg.blkEnd.toNat) && decide ((l.reps.get r).toNat < p)) .invalidParameter
    let e ← encodeRep s.symCtx p len r l.windowEnc
    return s.commitWindow lane (e.setPos (p + len))

/-- `ENC_SHORTREP` (R225). -/
def execEncShortRep (lane : Nat) (s : State) : Host.Outcome State Fault Refusal :=
  conclude (.encShortRep lane) s fun s => do
    let l ← s.symbolLane lane
    let p := s.args.arg0.toNat
    check (decide (p < s.cfg.blkEnd.toNat) && decide (l.reps.rep0.toNat < p)) .invalidParameter
    let e ← encodeShortRep s.symCtx p l.windowEnc
    return s.commitWindow lane (e.setPos (p + 1))

/-- `ENC_SNAPSHOT` (R226). -/
def execEncSnapshot (lane : Nat) (s : State) : Host.Outcome State Fault Refusal :=
  conclude (.encSnapshot lane) s fun s => do
    let l ← s.getLane lane
    check l.init .sequenceError
    return s.setLane lane l.takeSnapshot

/-- `ENC_ROLLBACK` (R227). -/
def execEncRollback (lane : Nat) (s : State) : Host.Outcome State Fault Refusal :=
  conclude (.encRollback lane) s fun s => do
    let l ← s.getLane lane
    check l.snapValid .sequenceError
    return s.setLane lane { l.rollBack with init := true }

end Sys2Proof.Machine
end

