-- ==== Sys2Proof/Machine/Parse.lean ====
section
/-! DEFINITION. The greedy and lazy parse (43_parse.md). -/

namespace Sys2Proof.Machine

/-- What one chunk's parse reads beside the lane (R260): the symbol context, the table, the constants of `STRATEGY`,
`PARSE_GAIN`, `MF_LIMIT2..4`, `CHUNK_C_MAX`, and `ulim` (R251). -/
structure ParseCtx where
  sym    : SymCtx
  table  : Table
  look   : Nat
  gainK  : Nat
  gainRep : Nat
  gainLazy : Nat
  limit2 : Nat
  limit3 : Nat
  limit4 : Nat
  cMax   : Nat
  ulim   : Nat
  deriving DecidableEq, Repr

/-- The parse configuration read at the command start (R250). `MODE` is the number of lookahead positions `LA`. -/
def State.parseCtx (s : State) (ulim : Nat) : ParseCtx where
  sym := s.symCtx
  table := s.table
  look := s.cfg.mode
  gainK := s.cfg.gainK
  gainRep := s.cfg.gainRep
  gainLazy := s.cfg.gainLazy
  limit2 := s.cfg.mfLimit2.toNat
  limit3 := s.cfg.mfLimit3.toNat
  limit4 := s.cfg.mfLimit4.toNat
  cMax := s.cfg.chunkCMax.toNat
  ulim := ulim

/-- A candidate (R252, R253). -/
inductive Cand
  | mtch (len dist : Nat)
  | rep (len r : Nat)
  deriving DecidableEq, Repr

def Cand.len : Cand → Nat
  | .mtch n _ => n
  | .rep n _  => n

/-- `MaxLen(p)` (R251). -/
def ParseCtx.maxLen (x : ParseCtx) (p : Nat) : Nat := min matchLenMax (x.ulim - p)

/-- `RepLen(p, r)` (R252). -/
def repLen (x : ParseCtx) (reps : Reps) (p r : Nat) : Nat :=
  let d := (reps.get r).toNat
  if p ≤ d then 0
  else
    let n := Memory.runLen x.sym.dict p (p - (d + 1)) (x.maxLen p)
    if 2 ≤ n then n else 0

/-- One round of `BestRep`: rep `r` of length `n` against the best so far. -/
def betterRep (best : Option (Nat × Nat)) (n r : Nat) : Option (Nat × Nat) :=
  match best with
  | none        => if 2 ≤ n then some (n, r) else none
  | some (m, q) => if m < n then some (n, r) else some (m, q)

/-- `BestRep(p)` (R252) as (length, r): the longest rep, the lowest `r` on a tie. -/
def bestRep (x : ParseCtx) (reps : Reps) (p : Nat) : Option (Nat × Nat) :=
  [0, 1, 2, 3].foldl (fun best r => betterRep best (repLen x reps p r) r) none

/-- `MF_LIMITn` for `n` in 2, 3, 4 (R47, R253). -/
def ParseCtx.limit (x : ParseCtx) (n : Nat) : Nat :=
  if n = 2 then x.limit2 else if n = 3 then x.limit3 else x.limit4

/-- The two queries of R253. -/
inductive Query
  | getMatch
  | getNextMatch
  deriving DecidableEq, Repr

def Query.run (q : Query) (x : ParseCtx) (p : Nat) : Nat × Nat :=
  match q with
  | .getMatch     => Sys2Proof.Machine.getMatch x.table x.sym.dict p
  | .getNextMatch => Sys2Proof.Machine.getNextMatch x.table x.sym.dict p

/-- `MfCand(p, Q)` (R253) as (length, distance). -/
def mfCand (x : ParseCtx) (q : Query) (p : Nat) : Option (Nat × Nat) :=
  let m := q.run x p
  let n := min m.1 (x.maxLen p)
  if n < 2 then none
  else if n ≤ 4 ∧ x.limit n ≤ m.2 then none
  else some (n, m.2)

/-- `Gain` (R254). -/
def gain (x : ParseCtx) : Cand → Int
  | .mtch n dist => (x.gainK * n : Nat) - (Nat.log2 (dist + 1) : Nat)
  | .rep n r     => (x.gainK * n : Nat) - (r : Nat) + (x.gainRep : Nat)

/-- `Choose(p, Q)` (R255). -/
def choose (x : ParseCtx) (reps : Reps) (q : Query) (p : Nat) : Option Cand :=
  let m := (mfCand x q p).map fun c => Cand.mtch c.1 c.2
  let r := (bestRep x reps p).map fun c => Cand.rep c.1 c.2
  match m, r with
  | m, none => m
  | none, some r => some r
  | some m, some r =>
    if r.len = x.maxLen p then some r
    else if m.len = x.maxLen p then some m
    else if gain x m < gain x r then some r
    else some m

/-- `Single(L, p)` (R256). -/
def encodeSingle (x : ParseCtx) (p : Nat) (e : Enc) : Except Halt Enc :=
  let d := e.lane.reps.rep0.toNat
  if d < p ∧ Memory.read x.sym.dict p = Memory.read x.sym.dict (p - d - 1) then encodeShortRep x.sym p e
  else encodeLiteral x.sym p e

/-- The symbol of a candidate at `p` (R258). -/
def encodeCand (x : ParseCtx) (p : Nat) (c : Cand) (e : Enc) : Except Halt Enc :=
  match c with
  | .mtch n dist => encodeMatch x.sym p n dist e
  | .rep n r     => encodeRep x.sym p n r e

/-- `BudgetOK(L)` (R257). -/
def budgetOk (x : ParseCtx) (e : Enc) : Bool :=
  decide (e.rev.length + e.lane.rc.cacheSize.toNat + 26 + 4 ≤ x.cMax)

/-- The lazy lookahead of R258 from the candidate `c` at `q`, with the next delay `k`: the candidate and the position it
settles on. Every round either raises `k`, at most `LA ≤ 2` times in a row, or moves `q` towards `ulim`, so
`3 * (ulim - q)` rounds suffice. -/
def lookahead (x : ParseCtx) (reps : Reps) : Nat → Cand → Nat → Nat → Cand × Nat
  | 0, c, q, _ => (c, q)
  | fuel + 1, c, q, k =>
    if k ≤ x.look ∧ c.len < x.maxLen q ∧ q + k < x.ulim then
      match choose x reps .getNextMatch (q + k) with
      | some c2 =>
        if gain x c + (k * x.gainLazy : Nat) < gain x c2 then lookahead x reps fuel c2 (q + k) 1
        else lookahead x reps fuel c q (k + 1)
      | none => lookahead x reps fuel c q (k + 1)
    else (c, q)

/-- `n` positions from `p` on coded by `Single`, each after its budget check (R258). `stopped` says that the budget
ended the chunk. -/
structure Run where
  enc     : Enc
  pos     : Nat
  stopped : Bool
  deriving DecidableEq, Repr

def encodeSingles (x : ParseCtx) : Nat → Nat → Enc → Except Halt Run
  | 0, p, e => .ok ⟨e, p, false⟩
  | n + 1, p, e =>
    if budgetOk x e then do
      let e ← encodeSingle x p e
      encodeSingles x n (p + 1) e
    else .ok ⟨e, p, true⟩

/-- One round of the parse loop of R258 at `p`. -/
def parseRound (x : ParseCtx) (p : Nat) (e : Enc) : Except Halt Run :=
  match choose x e.lane.reps .getMatch p with
  | none => encodeSingles x 1 p e
  | some c => do
    let cq := lookahead x e.lane.reps (3 * (x.ulim - p)) c p 1
    let r ← encodeSingles x (cq.2 - p) p e
    if r.stopped then return r
    else if budgetOk x r.enc then do
      let e ← encodeCand x cq.2 cq.1 r.enc
      return ⟨e, cq.2 + cq.1.len, false⟩
    else return { r with stopped := true }

/-- `ParseChunk(L, p0, ulim)` (R258): the first position not coded, and the coder. A round that does not stop covers at
least one position, so `ulim - p0` rounds suffice. -/
def parseChunk (x : ParseCtx) : Nat → Nat → Enc → Except Halt (Nat × Enc)
  | 0, p, e => .ok (p, e)
  | fuel + 1, p, e =>
    if p < x.ulim then do
      let r ← parseRound x p e
      if r.stopped then return (r.pos, r.enc)
      else parseChunk x fuel r.pos r.enc
    else .ok (p, e)

end Sys2Proof.Machine
end

