-- ==== Sys2Proof/Machine/Chunk.lean ====
section
/-! DEFINITION. LZMA2 chunks, slices and blocks (44_lzma2_stream.md R280 to R301). -/

namespace Sys2Proof.Machine

/-! ## Chunk bytes (R280 to R283) -/

def byteOf (n : Nat) : Byte := BitVec.ofNat 8 n

/-- `PROPS` (R283), from the lane's latched properties. -/
def Lane.propsByte (l : Lane) : Byte := byteOf ((l.pb.toNat * 5 + l.lp.toNat) * 9 + l.lc.toNat)

/-- A compressed chunk (R280, R285): `level` is the reset level, `u` the uncompressed size. -/
def compressedChunk (level u : Nat) (props : Byte) (payload : List Byte) : List Byte :=
  let c := payload.length
  [byteOf (0x80 + level * 2 ^ 5 + (u - 1) / 2 ^ 16), byteOf ((u - 1) / 2 ^ 8 % 2 ^ 8), byteOf ((u - 1) % 2 ^ 8),
    byteOf ((c - 1) / 2 ^ 8), byteOf ((c - 1) % 2 ^ 8)]
  ++ (if 2 ≤ level then [props] else []) ++ payload

/-- A stored chunk (R280, R288). -/
def storedChunk (dictReset : Bool) (raw : List Byte) : List Byte :=
  let n := raw.length
  [if dictReset then 0x01 else 0x02, byteOf ((n - 1) / 2 ^ 8), byteOf ((n - 1) % 2 ^ 8)] ++ raw

/-- The stored chunks for `n` positions from `a` on (R288): bytes, their number, and `PENDING` after them. A chunk
covers at least one position, so `n` rounds suffice. -/
def storedChunks (dict : Memory) : Nat → Nat → Nat → BitVec 2 → List Byte × Nat × BitVec 2
  | 0, _, _, pending => ([], 0, pending)
  | fuel + 1, a, n, pending =>
    if n = 0 then ([], 0, pending)
    else
      let k := min storedMax n
      let rest := storedChunks dict fuel (a + k) (n - k) (if pending = 3 then 2 else pending)
      (storedChunk (pending == 3) (Memory.readBytes dict a k) ++ rest.1, rest.2.1 + 1, rest.2.2)

/-! ## One chunk attempt (R285) -/

/-- What the chunk encoder reads beside the lane. -/
structure ChunkCtx where
  parse  : ParseCtx
  lc     : Nat
  lp     : Nat
  pb     : Nat
  uMax   : Nat
  margin : Nat
  deriving DecidableEq, Repr

def State.chunkCtx (s : State) : ChunkCtx where
  parse := s.parseCtx 0
  lc := s.cfg.lc
  lp := s.cfg.lp
  pb := s.cfg.pb
  uMax := s.cfg.chunkUMax.toNat
  margin := s.cfg.storeMargin.toNat

/-- The result of one attempt: the lane, the chunk bytes, the positions covered, and 0 for a compressed chunk or the
number of stored chunks. -/
structure ChunkResult where
  lane  : Lane
  bytes : List Byte
  u     : Nat
  kind  : Nat
  deriving DecidableEq, Repr

/-- The lane before the parse of R285: the state reset it owes, the snapshot, the coder reset. -/
def Lane.openChunk (x : ChunkCtx) (l : Lane) : Lane :=
  let l := if l.pending = 0 then l else l.resetState x.lc x.lp x.pb
  { l.takeSnapshot with rc := .reset }

/-- `ulim` (R251, R285). -/
def Lane.chunkLimit (x : ChunkCtx) (l : Lane) : Nat := min l.sliceEnd.toNat (l.pos.toNat + x.uMax)

/-- The end of R285: the coder's registers at their reset values, `LANE_POS`, and `SLICE_OPEN`. -/
def Lane.closeChunk (l : Lane) (pend : Nat) : Lane :=
  { l with
    rc := .reset, pos := BitVec.ofNat 32 pend, sliceOpen := l.sliceOpen && !decide (pend = l.sliceEnd.toNat) }

/-- What R285 does with the coded payload of the positions from `l0.pos` to `pend`: keep it (R287) or store the bytes
(R288). -/
def finishChunk (x : ChunkCtx) (l0 : Lane) (pend : Nat) (e : Enc) : ChunkResult :=
  let u := pend - l0.pos.toNat
  let l := e.lane
  if e.rev.length + x.margin < u then
    { lane := { l with pending := 0 }.closeChunk pend
      bytes := compressedChunk l.pending.toNat u l.propsByte e.bytes
      u := u
      kind := 0 }
  else
    let st := storedChunks x.parse.sym.dict u l0.pos.toNat u l.pending
    { lane := { l.rollBack with pending := st.2.2 }.closeChunk pend
      bytes := st.1
      u := u
      kind := st.2.1 }

/-- `EncChunk(L)` (R285). -/
def encChunk (x : ChunkCtx) (l0 : Lane) : Except Halt ChunkResult := do
  let ulim := l0.chunkLimit x
  let e := { lane := l0.openChunk x, rev := [], room := none : Enc }
  let r ← parseChunk { x.parse with ulim := ulim } (ulim - l0.pos.toNat) l0.pos.toNat e
  let e ← flush r.2
  return finishChunk x l0 r.1 e

/-! ## Slices (R290 to R294) -/

/-- Opening a slice (R290, R294, R300). -/
def Lane.openSlice (l : Lane) (dr : Bool) : Lane :=
  { l with pos := l.sliceStart, pending := if dr then 3 else 2, sliceOpen := true }

/-- The result of encoding a whole slice: the lane, the bytes of its chunks, and the number of chunk headers. -/
structure SliceResult where
  lane   : Lane
  bytes  : List Byte
  chunks : Nat
  deriving DecidableEq, Repr

/-- Chunks until the slice is done (R294, R300); `cap` is `STAGE_CAP` for the block command (R301). A chunk covers at
least one position (R259), so as many rounds as there are positions suffice; one that covered none would repeat for
ever (log 11). -/
def encSliceFrom (x : ChunkCtx) (cap : Option Nat) : Nat → SliceResult → Except Halt SliceResult
  | 0, r => if r.lane.pos.toNat < r.lane.sliceEnd.toNat then .error .neverEnds else .ok r
  | fuel + 1, r =>
    if r.lane.pos.toNat < r.lane.sliceEnd.toNat then do
      let c ← encChunk x r.lane
      let bytes := r.bytes ++ c.bytes
      check (match cap with | none => true | some n => decide (bytes.length ≤ n)) .outOfMemory
      encSliceFrom x cap fuel { lane := c.lane, bytes := bytes, chunks := r.chunks + max c.kind 1 }
    else .ok r

/-- A slice from its opened lane on. -/
def encSlice (x : ChunkCtx) (cap : Option Nat) (l : Lane) : Except Halt SliceResult :=
  encSliceFrom x cap (l.sliceEnd.toNat - l.pos.toNat) { lane := l, bytes := [], chunks := 0 }

/-- `SLICE_BEGIN` (R290). -/
def execSliceBegin (lane : Nat) (dr : Bool) (s : State) : Host.Outcome State Fault Refusal :=
  conclude (.sliceBegin lane dr) s fun s => do
    let l ← s.getLane lane
    check (!s.stream.isOpen) .sequenceError
    check (s.sliceLegal l dr) .invalidParameter
    return s.setLane lane (l.openSlice dr)

/-- `ENC_CHUNK` (R293). -/
def execEncChunk (lane : Nat) (s : State) : Host.Outcome State Fault Refusal :=
  conclude (.encChunk lane) s fun s => do
    let l ← s.getLane lane
    check (!s.stream.isOpen) .sequenceError
    check l.sliceOpen .sequenceError
    check s.encConfigLegal .invalidParameter
    check (s.blockLegal && s.sliceInBlock l) .invalidParameter
    check (decide (l.sliceStart.toNat ≤ l.pos.toNat) && decide (l.pos.toNat < l.sliceEnd.toNat)) .invalidParameter
    check (!(l.pending == 3 && decide (l.pos.toNat ≠ 0))) .invalidParameter
    check s.tableFits .sequenceError
    check (!(l.pending == 0 && !l.init)) .sequenceError
    s.cancelPoint
    let c ← encChunk s.chunkCtx l
    let s ← (s.setLane lane c.lane).writeOut c.bytes
    return (s.consume c.u).setRes c.bytes.length c.u c.kind

/-- `ENC_SLICE` (R294). -/
def execEncSlice (lane : Nat) (dr : Bool) (s : State) : Host.Outcome State Fault Refusal :=
  conclude (.encSlice lane dr) s fun s => do
    let l ← s.getLane lane
    check (!s.stream.isOpen) .sequenceError
    check s.encConfigLegal .invalidParameter
    check (s.sliceLegal l dr) .invalidParameter
    check s.tableFits .sequenceError
    s.cancelPoint
    let r ← encSlice s.chunkCtx none (l.openSlice dr)
    let u := l.sliceEnd.toNat - l.sliceStart.toNat
    let s ← (s.setLane lane r.lane).writeOut r.bytes
    return (s.consume u).setRes r.bytes.length u r.chunks

/-! ## Blocks (R298 to R301) -/

/-- The slices of a block of `len` bytes from `start` on over `n` lanes, in lane order: start and end (R298). -/
def partition (start len n : Nat) : List (Nat × Nat) :=
  (List.range n).map fun i =>
    (start + i * (len / n), if i + 1 = n then start + len else start + (i + 1) * (len / n))

/-- The result of encoding a block: the lanes, the bytes in lane order, and the number of chunk headers. -/
structure BlockResult where
  lanes  : List Lane
  bytes  : List Byte
  chunks : Nat
  deriving DecidableEq, Repr

/-- Each slice on its lane (R299, R300), `dr` for the first of them. The lanes that no slice takes are untouched. -/
def encLanes (x : ChunkCtx) (cap : Nat) : Bool → List (Nat × Nat) → List Lane → Except Halt BlockResult
  | _, [], lanes => .ok { lanes := lanes, bytes := [], chunks := 0 }
  | _, _ :: _, [] => .error (.fault .invalidParameter)
  | dr, (a, b) :: slices, l :: lanes => do
    let l := { l with sliceStart := BitVec.ofNat 32 a, sliceEnd := BitVec.ofNat 32 b }.openSlice dr
    let r ← encSlice x (some cap) l
    let rest ← encLanes x cap false slices lanes
    return { lanes := { r.lane with stage := r.bytes } :: rest.lanes
             bytes := r.bytes ++ rest.bytes
             chunks := r.chunks + rest.chunks }

/-- A committed block of an open stream (R300): `CK_DATA` grows, `NEED_DR` falls. -/
def Stream.addBlock (t : Stream) (data : List Byte) : Stream :=
  if t.isOpen then { t with ckData := t.ckData ++ data, needDr := false } else t

/-- `ENC_BLOCK` (R300). -/
def execEncBlock (s : State) : Host.Outcome State Fault Refusal :=
  conclude .encBlock s fun s => do
    check s.encConfigLegal .invalidParameter
    check s.blockLegal .invalidParameter
    check (decide (1 ≤ s.cfg.nActive.toNat) && decide (s.cfg.nActive.toNat ≤ s.nLanes)) .invalidParameter
    let start := s.cfg.blkStart.toNat
    let len := s.cfg.blkEnd.toNat - start
    if len = 0 then return s
    else
      check s.tableFits .sequenceError
      check (!(s.stream.isOpen && (s.stream.needDr && !s.cfg.dictReset))) .sequenceError
      check (!(s.stream.isOpen && decide (s.stream.dict.toNat < s.cfg.blkEnd.toNat))) .invalidParameter
      s.cancelPoint
      let r ← encLanes s.chunkCtx s.params.stageCap.toNat s.cfg.dictReset
        (partition start len (min s.cfg.nActive.toNat len)) s.lanes
      let s ← { s with lanes := r.lanes }.writeOut r.bytes
      let s := s.consume len
      let s := { s with stream := s.stream.addBlock (Memory.readBytes s.dict start len) }
      return s.setRes r.bytes.length len r.chunks

end Sys2Proof.Machine
end

