-- ==== Sys2Proof/Machine/Control.lean ====
section
/-! DEFINITION. Control and probability-access commands (45_control.md R330 to R334). -/

namespace Sys2Proof.Machine

/-- `NOP` (R330). -/
def execNop (s : State) : Host.Outcome State Fault Refusal :=
  conclude .nop s fun s => return s

/-- `CLEAR` (R331). -/
def execClear (s : State) : Host.Outcome State Fault Refusal :=
  conclude .clear s fun s => return s.contextReset

/-- The start checks of R333 and R334: the lane is initialised and `ARG0` is an index of its probability memory. -/
def State.probLane (s : State) (lane : Nat) : Except Halt Lane := do
  let l ← s.getLane lane
  check l.init .sequenceError
  check (decide (s.args.arg0.toNat < probWords l.lc.toNat l.lp.toNat)) .invalidParameter
  return l

/-- `PROB_READ` (R333). -/
def execProbRead (lane : Nat) (s : State) : Host.Outcome State Fault Refusal :=
  conclude (.probRead lane) s fun s => do
    let l ← s.probLane lane
    return s.setRes (ProbMem.read l.prob s.args.arg0.toNat).toNat 0 0

/-- `PROB_WRITE` (R334). -/
def execProbWrite (lane : Nat) (s : State) : Host.Outcome State Fault Refusal :=
  conclude (.probWrite lane) s fun s => do
    let l ← s.probLane lane
    check (decide (31 ≤ s.args.arg1.toNat) && decide (s.args.arg1.toNat ≤ 2017)) .invalidParameter
    return s.setLane lane
      { l with prob := ProbMem.write l.prob s.args.arg0.toNat (BitVec.ofNat 11 s.args.arg1.toNat) }

end Sys2Proof.Machine
end

