-- ==== Sys2Proof/Machine/RangeCoder.lean ====
section
/-! DEFINITION. The range coder commands and the price ROM (40_range_coder.md R142 to R155). -/

namespace Sys2Proof.Machine

/-- `RC_RESET` (R142). -/
def execRcReset (lane : Nat) (s : State) : Host.Outcome State Fault Refusal :=
  conclude (.rcReset lane) s fun s => do
    let l ← s.windowLane lane
    return s.setLane lane { l with rc := .reset }

/-- `RC_BIT` (R145). -/
def execRcBit (lane : Nat) (bit : Bool) (s : State) : Host.Outcome State Fault Refusal :=
  conclude (.rcBit lane bit) s fun s => do
    let l ← s.codingLane lane
    check (decide (s.args.arg0.toNat < l.probWords)) .invalidParameter
    let e ← encodeBit s.args.arg0.toNat bit l.windowEnc
    return s.commitWindow lane e

/-- The operand checks of `RC_TREE` and `RC_TREE_REV` (R149, R151). -/
def treeOperandsLegal (l : Lane) (base n : Nat) : Bool := decide (base + 2 ^ n - 1 < l.probWords)

/-- `RC_TREE` (R149). -/
def execRcTree (lane nbits : Nat) (s : State) : Host.Outcome State Fault Refusal :=
  conclude (.rcTree lane nbits) s fun s => do
    let l ← s.codingLane lane
    check (decide (1 ≤ nbits) && decide (nbits ≤ 16)) .invalidParameter
    check (treeOperandsLegal l s.args.arg0.toNat nbits) .invalidParameter
    let e ← encodeTree s.args.arg0.toNat nbits (s.args.arg1.toNat % 2 ^ nbits) l.windowEnc
    return s.commitWindow lane e

/-- `RC_TREE_REV` (R151). -/
def execRcTreeRev (lane nbits : Nat) (s : State) : Host.Outcome State Fault Refusal :=
  conclude (.rcTreeRev lane nbits) s fun s => do
    let l ← s.codingLane lane
    check (decide (1 ≤ nbits) && decide (nbits ≤ 16)) .invalidParameter
    check (treeOperandsLegal l s.args.arg0.toNat nbits) .invalidParameter
    let e ← encodeTreeRev s.args.arg0.toNat nbits (s.args.arg1.toNat % 2 ^ nbits) l.windowEnc
    return s.commitWindow lane e

/-- `RC_DIRECT` (R147). -/
def execRcDirect (lane nbits : Nat) (s : State) : Host.Outcome State Fault Refusal :=
  conclude (.rcDirect lane nbits) s fun s => do
    let l ← s.windowLane lane
    check (decide (1 ≤ nbits) && decide (nbits ≤ 32)) .invalidParameter
    let e ← encodeDirect (s.args.arg1.toNat % 2 ^ nbits) nbits l.windowEnc
    return s.commitWindow lane e

/-- `RC_FLUSH` (R153). -/
def execRcFlush (lane : Nat) (s : State) : Host.Outcome State Fault Refusal :=
  conclude (.rcFlush lane) s fun s => do
    let l ← s.windowLane lane
    let e ← flush l.windowEnc
    return s.commitWindow lane e

/-- The price ROM `T0` (R154), sixteen entries a row. -/
def priceRom : List Nat :=
  [128, 103, 91, 84, 78, 73, 69, 66, 63, 61, 58, 56, 54, 52, 51, 49]
  ++ [48, 46, 45, 44, 43, 42, 41, 40, 39, 38, 37, 36, 35, 34, 34, 33]
  ++ [32, 31, 31, 30, 29, 29, 28, 28, 27, 26, 26, 25, 25, 24, 24, 23]
  ++ [23, 22, 22, 22, 21, 21, 20, 20, 19, 19, 19, 18, 18, 17, 17, 17]
  ++ [16, 16, 16, 15, 15, 15, 14, 14, 14, 13, 13, 13, 12, 12, 12, 11]
  ++ [11, 11, 11, 10, 10, 10, 10, 9, 9, 9, 9, 8, 8, 8, 8, 7]
  ++ [7, 7, 7, 6, 6, 6, 6, 5, 5, 5, 5, 5, 4, 4, 4, 4]
  ++ [3, 3, 3, 3, 3, 2, 2, 2, 2, 2, 2, 1, 1, 1, 1, 1]

/-- `T0[k]` and `T1[k] = T0[127 - k]` (R154). -/
def price (bit : Bool) (k : Nat) : Nat := priceRom.getD (if bit then 127 - k else k) 0

/-- `RC_PRICE` (R155). -/
def execRcPrice (bit : Bool) (s : State) : Host.Outcome State Fault Refusal :=
  conclude (.rcPrice bit) s fun s => do
    check (decide (s.args.arg0.toNat ≤ 2047)) .invalidParameter
    return s.setRes (price bit (s.args.arg0.toNat / 2 ^ 4)) 0 0

end Sys2Proof.Machine
end

