-- ==== Sys2Proof/Machine/Streams.lean ====
section
/-! DEFINITION. Stream framing (44_lzma2_stream.md R310, R311). -/

namespace Sys2Proof.Machine

/-- The dictionary size of class `k` (R310). -/
def classSize (k : Nat) : Nat := (2 + k % 2) * 2 ^ (k / 2 + 11)

/-- `DictClass(s)` (R310): the smallest `k` in 0..40 whose size is at least `s`. -/
def dictClass (s : Nat) : Nat := ((List.range 41).find? fun k => decide (s ≤ classSize k)).getD 40

/-- `STREAM_BEGIN` (R310). -/
def execStreamBegin (s : State) : Host.Outcome State Fault Refusal :=
  conclude .streamBegin s fun s => do
    check (!s.stream.isOpen) .sequenceError
    check s.cfg.dictSizeLegal .invalidParameter
    check s.outLegal .invalidParameter
    let out :=
      if s.cfg.omitProp then []
      else [byteOf (dictClass s.cfg.dictSize.toNat + if s.cfg.checksumEn then 0x80 else 0)]
    let s ← s.writeOut out
    let s := { s with stream :=
      { isOpen := true, needDr := true, ck := s.cfg.checksumEn, omitP := s.cfg.omitProp
        dict := s.cfg.dictSize, ckData := [] } }
    return s.setRes out.length 0 0

/-- The bytes `STREAM_END` writes (R311): the terminator, and the checksum least significant byte first. -/
def Stream.trailer (t : Stream) : List Byte :=
  let v := (Config.checksum t.ckData).toNat
  0x00 :: (if t.ck then [byteOf v, byteOf (v / 2 ^ 8), byteOf (v / 2 ^ 16), byteOf (v / 2 ^ 24)] else [])

/-- `STREAM_END` (R311). -/
def execStreamEnd (s : State) : Host.Outcome State Fault Refusal :=
  conclude .streamEnd s fun s => do
    check s.stream.isOpen .sequenceError
    check s.outLegal .invalidParameter
    let out := s.stream.trailer
    let s ← s.writeOut out
    return { s with stream := .closed }.setRes out.length 0 0

end Sys2Proof.Machine
end

