-- ==== Sys2Proof/Machine/Dispatch.lean ====
section
/-! DEFINITION. One arm per command of the opcode map (30_encoding.md R117). -/

namespace Sys2Proof.Machine

def exec (i : Instr) (s : State) : Host.Outcome State Fault Refusal :=
  match i with
  | .nop => Sys2Proof.Machine.execNop s
  | .rcReset lane => Sys2Proof.Machine.execRcReset lane s
  | .rcBit lane bit => Sys2Proof.Machine.execRcBit lane bit s
  | .rcTree lane nbits => Sys2Proof.Machine.execRcTree lane nbits s
  | .rcTreeRev lane nbits => Sys2Proof.Machine.execRcTreeRev lane nbits s
  | .rcDirect lane nbits => Sys2Proof.Machine.execRcDirect lane nbits s
  | .rcFlush lane => Sys2Proof.Machine.execRcFlush lane s
  | .rcPrice bit => Sys2Proof.Machine.execRcPrice bit s
  | .mfCreate => Sys2Proof.Machine.execMfCreate s
  | .mfBuild => Sys2Proof.Machine.execMfBuild s
  | .mfGetMatch => Sys2Proof.Machine.execMfGetMatch s
  | .mfGetNextMatch => Sys2Proof.Machine.execMfGetNextMatch s
  | .mfReadSlot => Sys2Proof.Machine.execMfReadSlot s
  | .encResetState lane => Sys2Proof.Machine.execEncResetState lane s
  | .encLiteral lane => Sys2Proof.Machine.execEncLiteral lane s
  | .encMatch lane => Sys2Proof.Machine.execEncMatch lane s
  | .encRep lane r => Sys2Proof.Machine.execEncRep lane r s
  | .encShortRep lane => Sys2Proof.Machine.execEncShortRep lane s
  | .encSnapshot lane => Sys2Proof.Machine.execEncSnapshot lane s
  | .encRollback lane => Sys2Proof.Machine.execEncRollback lane s
  | .probRead lane => Sys2Proof.Machine.execProbRead lane s
  | .probWrite lane => Sys2Proof.Machine.execProbWrite lane s
  | .sliceBegin lane dr => Sys2Proof.Machine.execSliceBegin lane dr s
  | .encChunk lane => Sys2Proof.Machine.execEncChunk lane s
  | .encSlice lane dr => Sys2Proof.Machine.execEncSlice lane dr s
  | .encBlock => Sys2Proof.Machine.execEncBlock s
  | .streamBegin => Sys2Proof.Machine.execStreamBegin s
  | .streamEnd => Sys2Proof.Machine.execStreamEnd s
  | .clear => Sys2Proof.Machine.execClear s

end Sys2Proof.Machine
end

