-- ==== Sys2Proof/Machine/Sequencer.lean ====
section
/-! DEFINITION. What the step is made of (60_exceptions.md R371): taking one input of the host, and the sequencer's turn,
which completes the pending command. -/

namespace Sys2Proof.Machine

/-- The pending command word runs and completes (R112): an illegal word faults, any other runs its command. -/
def runWord (w : Word) (s : State) : Host.Outcome State Fault Refusal :=
  match decode w with
  | .ok i    => exec i s
  | .error _ => .next (s.faultCommit w .illegalCommand)

/-- The sequencer's turn: the pending command completes (R371 step 3); with none pending the block is idle. -/
def sequencerTurn (s : State) : Host.Outcome State Fault Refusal :=
  match s.pending with
  | some w => runWord w s
  | none   => .next s

/-- One input is taken. -/
def takeInput (i : Input) (s : State) : Host.Outcome State Fault Refusal :=
  match i with
  | .read sp a n    => .next { s with readData := s.hostRead sp a n }
  | .write sp a n v => .next (s.hostWrite sp a n v)
  | .sequencer      => sequencerTurn s
  | .assertReset    => .next s.assertReset
  | .releaseReset   => .next s.releaseReset

/-- The next input in order (R90), or, when the host does nothing, the sequencer's turn. -/
def nextEvent (s : State) : Host.Outcome State Fault Refusal :=
  match s.inputs with
  | []        => sequencerTurn s
  | i :: rest => takeInput i { s with inputs := rest }

/-- `s` with the command word `w` accepted (R112) and the sequencer's turn next, so that the next step runs `w`. -/
def State.acceptWord (s : State) (w : Word) : State :=
  { s.issue w with inReset := false, inputs := .sequencer :: s.inputs }

end Sys2Proof.Machine
end

