-- ==== Sys2Proof/Machine/Step.lean ====
section
/-! DEFINITION. One step of the block (60_exceptions.md R371), and the placing of a command word for the next step. -/

namespace Sys2Proof.Machine

/-- One step: the next input of the host, or the sequencer's turn. -/
def step (s : State) : Host.Outcome State Fault Refusal := nextEvent s

/-- `s` with the command word `w` of `nbits` bits written to `CMD` and accepted, so that the next step runs it (log 7). -/
def State.withFetchWord (s : State) (nbits w : Nat) : State := s.acceptWord (BitVec.ofNat 32 (w % 2 ^ nbits))

end Sys2Proof.Machine
end

