-- ==== Sys2Proof/Machine/Radix.lean ====
section
/-! DEFINITION. The source's build procedure (41_match_finder.md R182, R183): the seed pass and the refinement, as one
conforming way to compute the table that R175 fixes. The statement `RadixBuildsCanonicalTable` says that it does. -/

namespace Sys2Proof.Machine

/-- A member of a list under refinement: its position and the bytes of the block from its refinement depth on. -/
structure Member where
  pos  : Nat
  rest : List Byte
  deriving DecidableEq, Repr

/-- Every position of the block with the bytes from it on, in position order. -/
def membersFrom : Nat → List Byte → List Member
  | _, [] => []
  | p, b :: bs => ⟨p, b :: bs⟩ :: membersFrom (p + 1) bs

/-- The leading 2-byte prefix that names a member's seed bucket (R182). -/
def seedKey (m : Member) : Option (Byte × Byte) :=
  match m.rest with
  | a :: b :: _ => some (a, b)
  | _ => none

/-- The byte at `p + k` by which a list is split (R183). -/
def nextKey (m : Member) : Option Byte := m.rest.head?

/-- A list split by key, each sub-list in position order; members without a key leave it. There are at most as many
sub-lists as members, so their number as fuel suffices. -/
def splitBy {K : Type} [DecidableEq K] (key : Member → Option K) : Nat → List Member → List (List Member)
  | 0, _ => []
  | _ + 1, [] => []
  | fuel + 1, m :: ms =>
    match key m with
    | none => splitBy key fuel ms
    | some k =>
      (m :: ms.filter fun x => key x == some k) :: splitBy key fuel (ms.filter fun x => !(key x == some k))

/-- Every member linked to the one before it, with length `k` (R182, R183). -/
def linkOlder (k : Nat) : List Member → List (Nat × Slot)
  | a :: b :: ms => (b.pos, .entry a.pos k) :: linkOlder k (b :: ms)
  | _ => []

/-- The slot writes of the refinement of a list whose members share `k` bytes, `n` bytes below the cap (R183). -/
def refineList : Nat → Nat → List Member → List (Nat × Slot)
  | 0, _, _ => []
  | n + 1, k, ms =>
    (splitBy nextKey ms.length ms).flatMap fun g =>
      linkOlder (k + 1) g ++ refineList n (k + 1) (g.map fun m => ⟨m.pos, m.rest.tail⟩)

/-- The slot writes of a whole build for the cap `c`, in the order they are made: each bucket's seed links, then its
refinement. -/
def radixWrites (d : List Byte) (c : Nat) : List (Nat × Slot) :=
  (splitBy seedKey d.length (membersFrom 0 d)).flatMap fun g =>
    linkOlder 2 g ++ refineList (c - 2) 2 (g.map fun m => ⟨m.pos, m.rest.drop 2⟩)

/-- The slots after the writes: a later write of a slot overwrites an earlier one (R183), and the others are null. -/
def radixSlots (d : List Byte) (c : Nat) : List Slot :=
  (radixWrites d c).foldl (fun slots w => slots.set w.1 w.2) (List.replicate d.length .null)

end Sys2Proof.Machine
end

