-- ==== Sys2Proof/Safety.lean ====
section
/-! DEFINITION. The terms in which statements speak of a safe run: the invariants of the block, what a command may and may
not change, and the spec's formulas written a second time, away from the machine that uses them. -/

namespace Sys2Proof

open Machine

/-! ## The command map (R111, R117) -/

/-- The bits outside `OPC` that an opcode uses (R117's column "uses"; R111's mask is the complement), or `none` for a
reserved opcode (R118). -/
def usedBits : Nat → Option Word
  | 0x00 => some 0x00000000
  | 0x01 => some 0x00000F00
  | 0x02 => some 0x00010F00
  | 0x03 => some 0x001F0F00
  | 0x04 => some 0x001F0F00
  | 0x05 => some 0x003F0F00
  | 0x06 => some 0x00000F00
  | 0x07 => some 0x00010000
  | 0x10 => some 0x00000000
  | 0x11 => some 0x00000000
  | 0x12 => some 0x00000000
  | 0x13 => some 0x00000000
  | 0x14 => some 0x00000000
  | 0x20 => some 0x00000F00
  | 0x21 => some 0x00000F00
  | 0x22 => some 0x00000F00
  | 0x23 => some 0x00030F00
  | 0x24 => some 0x00000F00
  | 0x25 => some 0x00000F00
  | 0x26 => some 0x00000F00
  | 0x27 => some 0x00000F00
  | 0x28 => some 0x00000F00
  | 0x30 => some 0x00001F00
  | 0x31 => some 0x00000F00
  | 0x32 => some 0x00001F00
  | 0x33 => some 0x00000000
  | 0x40 => some 0x00000000
  | 0x41 => some 0x00000000
  | 0x50 => some 0x00000000
  | _    => none

/-- Is `w` a legal command word (R111, R113, R114)? -/
def legalWord (w : Word) : Bool :=
  match usedBits (w &&& 0xFF).toNat with
  | some used => (w &&& ~~~(used ||| 0xFF)) == 0
  | none      => false

/-- The lane a command names, if it uses `LANE` (R117). -/
def Instr.lane? : Instr → Option Nat
  | .rcReset n | .rcBit n _ | .rcTree n _ | .rcTreeRev n _ | .rcDirect n _ | .rcFlush n => some n
  | .encResetState n | .encLiteral n | .encMatch n | .encRep n _ | .encShortRep n => some n
  | .encSnapshot n | .encRollback n | .probRead n | .probWrite n => some n
  | .sliceBegin n _ | .encChunk n | .encSlice n _ => some n
  | .nop | .rcPrice _ | .mfCreate | .mfBuild | .mfGetMatch | .mfGetNextMatch | .mfReadSlot => none
  | .encBlock | .streamBegin | .streamEnd | .clear => none

/-- The commands with a cancellation point (R362). -/
def Instr.canCancel : Instr → Bool
  | .mfBuild | .encChunk _ | .encSlice _ _ | .encBlock => true
  | .nop | .rcReset _ | .rcBit _ _ | .rcTree _ _ | .rcTreeRev _ _ | .rcDirect _ _ | .rcFlush _ | .rcPrice _ => false
  | .mfCreate | .mfGetMatch | .mfGetNextMatch | .mfReadSlot => false
  | .encResetState _ | .encLiteral _ | .encMatch _ | .encRep _ _ | .encShortRep _ | .encSnapshot _ | .encRollback _ => false
  | .probRead _ | .probWrite _ | .sliceBegin _ _ | .streamBegin | .streamEnd | .clear => false

/-- The bytes of `OUT` that a command may write from the state `s` (R95), as a start and one past the end. -/
def Instr.outWindow (s : State) : Instr → Nat × Nat
  | .rcBit n _ | .rcTree n _ | .rcTreeRev n _ | .rcDirect n _ | .rcFlush n => laneWindow s n
  | .encLiteral n | .encMatch n | .encRep n _ | .encShortRep n => laneWindow s n
  | .encChunk _ | .encSlice _ _ | .encBlock | .streamBegin | .streamEnd => (s.outPos.toNat, s.cfg.outLimit.toNat)
  | .nop | .rcReset _ | .rcPrice _ | .mfCreate | .mfBuild | .mfGetMatch | .mfGetNextMatch | .mfReadSlot => (0, 0)
  | .encResetState _ | .encSnapshot _ | .encRollback _ | .probRead _ | .probWrite _ | .sliceBegin _ _ | .clear => (0, 0)
where
  laneWindow (s : State) (n : Nat) : Nat × Nat :=
    match s.lanes[n]? with
    | some l => (l.outBase.toNat + l.outLen.toNat, l.outBase.toNat + l.outCap.toNat)
    | none   => (0, 0)

end Sys2Proof

namespace Sys2Proof.Machine

/-! ## The start checks (R351) -/

/-- A list of checks in the order in which they are made: what must hold, and the code of the fault if it does not. -/
abbrev Checks := List (Bool × Code)

/-- The code of the first check that fails (R353). -/
def Checks.firstFailure : Checks → Option Code
  | [] => none
  | (ok, c) :: rest => if ok then Checks.firstFailure rest else some c

/-- Checks that all fail with `INVALID_PARAMETER`. -/
def invalidUnless (l : List Bool) : Checks := l.map fun ok => (ok, .invalidParameter)

/-- The checks of a command that uses `LANE`: that the lane exists comes first (R353 item 4). -/
def State.laneChecks (s : State) (lane : Nat) (more : Lane → Checks) : Checks :=
  match s.lanes[lane]? with
  | some l => more l
  | none   => [(false, .invalidParameter)]

/-- "Window": R140 item 2. -/
def State.windowChecks (s : State) (l : Lane) : Checks :=
  invalidUnless [decide (l.outLen.toNat ≤ l.outCap.toNat),
    decide (l.outBase.toNat + l.outCap.toNat ≤ s.params.outCap.toNat)]

def Lane.initChecks (l : Lane) : Checks := [(l.init, .sequenceError)]

/-- `i < PROB_WORDS` (R55). -/
def Lane.indexChecks (l : Lane) (i : Nat) : Checks :=
  invalidUnless [decide (i < 1846 + 768 * 2 ^ (l.lc.toNat + l.lp.toNat))]

/-- R228 items 1 to 4, then the operands. -/
def State.symbolChecks (s : State) (lane : Nat) (operands : Lane → List Bool) : Checks :=
  s.laneChecks lane fun l =>
    s.windowChecks l ++ l.initChecks
      ++ invalidUnless (decide (s.cfg.blkEnd.toNat ≤ s.params.dictCap.toNat) :: operands l)

/-- `OUT_POS ≤ OUT_LIMIT ≤ OUT_CAP`. -/
def State.outChecks (s : State) : Checks :=
  invalidUnless [decide (s.outPos.toNat ≤ s.cfg.outLimit.toNat), decide (s.cfg.outLimit.toNat ≤ s.params.outCap.toNat)]

/-- `CheckEncConfig()` (R295). -/
def State.encConfigChecks (s : State) : Checks :=
  invalidUnless [decide (s.cfg.mode ≠ 3), decide (s.cfg.lc + s.cfg.lp ≤ 4), decide (s.cfg.pb ≤ 4),
    decide (1 ≤ s.cfg.chunkUMax.toNat), decide (s.cfg.chunkUMax.toNat ≤ 2097152),
    decide (64 ≤ s.cfg.chunkCMax.toNat), decide (s.cfg.chunkCMax.toNat ≤ 65536)] ++ s.outChecks

/-- R291 item 1. -/
def State.blockChecks (s : State) : Checks :=
  invalidUnless [decide (s.cfg.blkStart.toNat ≤ s.cfg.blkEnd.toNat),
    decide (s.cfg.blkEnd.toNat ≤ s.params.dictCap.toNat),
    decide (s.cfg.dictReset = true ↔ s.cfg.blkStart.toNat = 0),
    decide (s.cfg.dictReset = true → s.cfg.posPhase = 0)]

/-- R291 items 1 and 2. -/
def State.sliceChecks (s : State) (l : Lane) : Checks :=
  s.blockChecks ++ invalidUnless [decide (s.cfg.blkStart.toNat ≤ l.sliceStart.toNat),
    decide (l.sliceStart.toNat < l.sliceEnd.toNat), decide (l.sliceEnd.toNat ≤ s.cfg.blkEnd.toNat)]

/-- Not `TABLE_VALID = 0 or TABLE_END ≠ BLK_END`. -/
def State.tableChecks (s : State) : Checks :=
  [(s.table.valid, .sequenceError), (decide (s.table.fin = s.cfg.blkEnd), .sequenceError)]

/-- The start checks of every command, in order: the first column of R351 with the rules it names. -/
def startChecks (s : State) : Instr → Checks
  | .nop | .clear => []
  | .rcReset n | .rcFlush n => s.laneChecks n fun l => s.windowChecks l
  | .rcBit n _ => s.laneChecks n fun l => s.windowChecks l ++ l.initChecks ++ l.indexChecks s.args.arg0.toNat
  | .rcTree n k | .rcTreeRev n k => s.laneChecks n fun l =>
      s.windowChecks l ++ l.initChecks ++ invalidUnless [decide (1 ≤ k ∧ k ≤ 16)]
        ++ l.indexChecks (s.args.arg0.toNat + 2 ^ k - 1)
  | .rcDirect n k => s.laneChecks n fun l => s.windowChecks l ++ invalidUnless [decide (1 ≤ k ∧ k ≤ 32)]
  | .rcPrice _ => invalidUnless [decide (s.args.arg0.toNat ≤ 2047)]
  | .mfCreate =>
      let n := s.cfg.dictSize.toNat
      invalidUnless [decide (4096 ≤ n), decide (n ≤ 2 ^ 30)]
        ++ [(decide ((if 2 ^ 26 < n then 20 * ((n + 3) / 4) else 4 * n) ≤ s.params.tableCap.toNat), .outOfMemory)]
  | .mfBuild =>
      [(s.table.created, .sequenceError)]
        ++ invalidUnless [decide (6 ≤ s.cfg.depth), decide (s.cfg.depth ≤ 254), decide (s.cfg.bufResize ≤ 4),
          decide (s.cfg.blkStart.toNat ≤ s.cfg.blkEnd.toNat), decide (s.cfg.blkEnd.toNat ≤ s.table.size.toNat),
          decide (s.cfg.blkEnd.toNat ≤ s.params.dictCap.toNat)]
  | .mfGetMatch | .mfGetNextMatch | .mfReadSlot =>
      [(s.table.valid, .sequenceError), (decide (s.args.arg0.toNat < s.table.fin.toNat), .invalidParameter)]
  | .encResetState n => s.laneChecks n fun _ =>
      invalidUnless [decide (s.cfg.lc + s.cfg.lp ≤ 4), decide (s.cfg.pb ≤ 4)]
  | .encLiteral n => s.symbolChecks n fun l =>
      [decide (s.args.arg0.toNat < s.cfg.blkEnd.toNat),
        decide (¬ (7 ≤ l.st.val ∧ s.args.arg0.toNat ≤ l.reps.rep0.toNat))]
  | .encMatch n => s.symbolChecks n fun _ =>
      [decide (2 ≤ s.args.arg1.toNat), decide (s.args.arg1.toNat ≤ 273),
        decide (s.args.arg0.toNat + s.args.arg1.toNat ≤ s.cfg.blkEnd.toNat),
        decide (s.args.arg2.toNat < s.args.arg0.toNat)]
  | .encRep n r => s.symbolChecks n fun l =>
      [decide (2 ≤ s.args.arg1.toNat), decide (s.args.arg1.toNat ≤ 273),
        decide (s.args.arg0.toNat + s.args.arg1.toNat ≤ s.cfg.blkEnd.toNat),
        decide ((l.reps.get r).toNat < s.args.arg0.toNat)]
  | .encShortRep n => s.symbolChecks n fun l =>
      [decide (s.args.arg0.toNat < s.cfg.blkEnd.toNat), decide (l.reps.rep0.toNat < s.args.arg0.toNat)]
  | .encSnapshot n => s.laneChecks n fun l => l.initChecks
  | .encRollback n => s.laneChecks n fun l => [(l.snapValid, .sequenceError)]
  | .probRead n => s.laneChecks n fun l => l.initChecks ++ l.indexChecks s.args.arg0.toNat
  | .probWrite n => s.laneChecks n fun l =>
      l.initChecks ++ l.indexChecks s.args.arg0.toNat
        ++ invalidUnless [decide (31 ≤ s.args.arg1.toNat ∧ s.args.arg1.toNat ≤ 2017)]
  | .sliceBegin n dr => s.laneChecks n fun l =>
      [(!s.stream.isOpen, .sequenceError)] ++ s.sliceChecks l
        ++ invalidUnless [decide (dr = true ↔ l.sliceStart.toNat = 0)]
  | .encChunk n => s.laneChecks n fun l =>
      [(!s.stream.isOpen, .sequenceError), (l.sliceOpen, .sequenceError)] ++ s.encConfigChecks ++ s.sliceChecks l
        ++ invalidUnless [decide (l.sliceStart.toNat ≤ l.pos.toNat ∧ l.pos.toNat < l.sliceEnd.toNat),
          decide (l.pending = 3 → l.pos.toNat = 0)]
        ++ s.tableChecks ++ [(decide (l.pending = 0 → l.init = true), .sequenceError)]
  | .encSlice n dr => s.laneChecks n fun l =>
      [(!s.stream.isOpen, .sequenceError)] ++ s.encConfigChecks ++ s.sliceChecks l
        ++ invalidUnless [decide (dr = true ↔ l.sliceStart.toNat = 0)] ++ s.tableChecks
  | .encBlock =>
      s.encConfigChecks ++ s.blockChecks
        ++ invalidUnless [decide (1 ≤ s.cfg.nActive.toNat ∧ s.cfg.nActive.toNat ≤ s.lanes.length)]
        ++ (if s.cfg.blkStart = s.cfg.blkEnd then []
          else s.tableChecks
            ++ [(decide (s.stream.isOpen = true → s.stream.needDr = true → s.cfg.dictReset = true), .sequenceError),
              (decide (s.stream.isOpen = true → s.cfg.blkEnd.toNat ≤ s.stream.dict.toNat), .invalidParameter)])
  | .streamBegin =>
      [(!s.stream.isOpen, .sequenceError)]
        ++ invalidUnless [decide (4096 ≤ s.cfg.dictSize.toNat), decide (s.cfg.dictSize.toNat ≤ 2 ^ 30)] ++ s.outChecks
  | .streamEnd => [(s.stream.isOpen, .sequenceError)] ++ s.outChecks

/-- The fault of the first start check that fails, if one does (R351, R353). -/
def startFault (i : Instr) (s : State) : Option Code := (startChecks s i).firstFailure

/-- The faults a command can raise while it computes: the second column of R351. -/
def execFaults : Instr → List Code
  | .rcBit _ _ | .rcTree _ _ | .rcTreeRev _ _ | .rcDirect _ _ | .rcFlush _ => [.destinationTooSmall, .internal]
  | .encLiteral _ | .encMatch _ | .encRep _ _ | .encShortRep _ => [.destinationTooSmall, .internal]
  | .encChunk _ | .encSlice _ _ | .streamBegin | .streamEnd => [.destinationTooSmall]
  | .encBlock => [.outOfMemory, .destinationTooSmall]
  | .nop | .rcReset _ | .rcPrice _ | .mfCreate | .mfBuild | .mfGetMatch | .mfGetNextMatch | .mfReadSlot => []
  | .encResetState _ | .encSnapshot _ | .encRollback _ | .probRead _ | .probWrite _ | .sliceBegin _ _ | .clear => []

/-- The command passes its start checks, and no cancellation is requested. -/
abbrev Starts (i : Instr) (s : State) : Prop := startFault i s = none ∧ s.control.cancel = false

/-! ## What a completion changes (R355) -/

/-- What no command ever writes: the parameters, the configuration and argument registers (R37, R39 to R48), `DICT`
(R81), `IRQ_EN`, `REJECTED`, the results from before it (R91), and what stands outside the block. -/
abbrev KeepsHostState (s t : State) : Prop :=
  t.params = s.params ∧ t.cfg = s.cfg ∧ t.args = s.args ∧ t.dict = s.dict ∧ t.control.irqEn = s.control.irqEn
    ∧ t.status.rejected = s.status.rejected ∧ t.resBefore = s.resBefore ∧ t.inReset = s.inReset
    ∧ t.inputs = s.inputs ∧ t.readData = s.readData

/-- A normal completion (R355): `DONE`, `CODE = OK`, `BUSY` and `CANCEL` fall, nothing else of the status changes. -/
abbrev CompletesOk (s t : State) : Prop :=
  t.pending = none ∧ t.control = { s.control with cancel := false }
    ∧ t.status = { s.status with done := true, code := .ok } ∧ t.errInfo = s.errInfo

/-- `RES0..RES2` (R38). -/
abbrev ResultsAre (t : State) (r0 r1 r2 : Nat) : Prop :=
  t.res.res0.toNat = r0 ∧ t.res.res1.toNat = r1 ∧ t.res.res2.toNat = r2

/-- Every byte of `OUT` reads as before. -/
abbrev KeepsOut (s t : State) : Prop := ∀ a : Nat, Memory.read t.out a = Memory.read s.out a

/-- `OUT` holds `bytes` from `a` on, and every other byte of it reads as before. -/
abbrev WritesOut (s t : State) (a : Nat) (bytes : List Byte) : Prop :=
  Memory.readBytes t.out a bytes.length = bytes
    ∧ ∀ b : Nat, b < a ∨ a + bytes.length ≤ b → Memory.read t.out b = Memory.read s.out b

/-- `OUT_POS`, the counters. -/
abbrev KeepsOutput (s t : State) : Prop := t.outPos = s.outPos ∧ t.counters = s.counters

/-- A normal completion of a command that touches no more than lane `L`, which becomes `l'`: the table, the stream, the
output registers, every byte of `OUT` and every other lane are as before. -/
abbrev LaneOnly (s t : State) (L : Nat) (l' : Lane) : Prop :=
  CompletesOk s t ∧ KeepsHostState s t ∧ t.table = s.table ∧ t.stream = s.stream ∧ KeepsOutput s t ∧ KeepsOut s t
    ∧ t.lanes = s.lanes.set L l'

/-- A normal completion of a lane-window command on lane `l`, which becomes `l'` and emits `bytes` (R140, R141). -/
abbrev WindowCoded (s t : State) (L : Nat) (l l' : Lane) (bytes : List Byte) : Prop :=
  CompletesOk s t ∧ KeepsHostState s t ∧ t.table = s.table ∧ t.stream = s.stream ∧ KeepsOutput s t
    ∧ ResultsAre t 0 0 0 ∧ t.lanes = s.lanes.set L l'
    ∧ l'.outLen.toNat = l.outLen.toNat + bytes.length ∧ l'.outLen.toNat ≤ l.outCap.toNat
    ∧ WritesOut s t (l.outBase.toNat + l.outLen.toNat) bytes

/-- A command on lane `L` faults on a lane that does not exist and on a malformed window (R140 items 1 and 2). -/
abbrev WindowStartFaults (s : State) (L : Nat) (i : Instr) : Prop :=
  (s.lanes.length ≤ L → exec i s = .next (s.faultCommit (encode i) .invalidParameter))
    ∧ ∀ l, s.lanes[L]? = some l →
      l.outCap.toNat < l.outLen.toNat ∨ s.params.outCap.toNat < l.outBase.toNat + l.outCap.toNat →
      exec i s = .next (s.faultCommit (encode i) .invalidParameter)

/-- As `WindowStartFaults`, and it faults on an uninitialised lane (R140 item 3). -/
abbrev CodingStartFaults (s : State) (L : Nat) (i : Instr) : Prop :=
  WindowStartFaults s L i
    ∧ ∀ l, s.lanes[L]? = some l → s.windowLegal l = true → l.init = false →
      exec i s = .next (s.faultCommit (encode i) .sequenceError)

/-- What the range coder commands leave of a lane (R140): all but the coder, the probabilities and `LANE_OUT_LEN`. -/
abbrev CoderOnly (l l' : Lane) : Prop := l' = { l with rc := l'.rc, prob := l'.prob, outLen := l'.outLen }

/-- What the symbol commands leave of a lane (R222 to R225): as `CoderOnly`, and they write `STATE`, the reps and
`LANE_POS`. -/
abbrev SymbolOnly (l l' : Lane) : Prop :=
  l' = { l with rc := l'.rc, prob := l'.prob, outLen := l'.outLen, st := l'.st, reps := l'.reps, pos := l'.pos }

/-! ## The range coder's invariant (R143, R144) -/

/-- A coder in the states coding reaches: `range` is normalised, `low + range` fits 33 bits, a byte is pending, and a
carry never meets a cached 0xFF. -/
abbrev Rc.Healthy (r : Rc) : Prop :=
  2 ^ 24 ≤ r.range.toNat ∧ r.low.toNat + r.range.toNat < 2 ^ 33 ∧ 1 ≤ r.cacheSize.toNat
    ∧ (r.cache.toNat = 255 → r.low.toNat + r.range.toNat ≤ 2 ^ 32)

/-- Every probability lies in `31..2017` (R144). -/
abbrev ProbMem.InRange (m : ProbMem) : Prop := ∀ x ∈ m, 31 ≤ x.2.toNat ∧ x.2.toNat ≤ 2017

abbrev Lane.Healthy (l : Lane) : Prop := l.rc.Healthy ∧ ProbMem.InRange l.prob ∧ ProbMem.InRange l.snap.prob

abbrev State.Healthy (s : State) : Prop := ∀ l ∈ s.lanes, l.Healthy

/-- A healthy lane whose window is well formed (R140) and has room for `n` bytes beyond the pending ones (R141). -/
abbrev Lane.Ready (s : State) (l : Lane) (n : Nat) : Prop :=
  l.Healthy ∧ s.windowLegal l = true ∧ l.outLen.toNat + l.rc.cacheSize.toNat + n ≤ l.outCap.toNat

/-- A byte sequence as a big-endian number. -/
def bigEndian (bytes : List Byte) : Nat := bytes.foldl (fun n b => n * 256 + b.toNat) 0

/-- The exact number that a coder stands for: the bytes emitted, the cached byte, the pending 0xFF bytes, and `low` with
its carry. -/
def codeValue (emitted : List Byte) (r : Rc) : Nat :=
  ((bigEndian emitted * 256 + r.cache.toNat) * 256 ^ (r.cacheSize.toNat - 1) + (256 ^ (r.cacheSize.toNat - 1) - 1)) * 2 ^ 32
    + r.low.toNat

/-- A probability after coding the bit `b` with it (R144). -/
def adapted (p : Nat) (b : Bool) : Nat := if b then p - p / 32 else p + (2048 - p) / 32

/-- The tree index at which `EncodeTree` codes its `d`th bit of the `n`-bit symbol `s` (R148): 1 and the `d` bits before
it. -/
def treeNode (n s d : Nat) : Nat := 2 ^ d + s / 2 ^ (n - d)

/-- The tree index at which `EncodeTreeRev` codes its `d`th bit of the symbol `s` (R150). -/
def treeRevNode (s : Nat) : Nat → Nat
  | 0 => 1
  | d + 1 => 2 * treeRevNode s d + s / 2 ^ d % 2

/-- A coder in exact numbers: its range, the number it stands for, and the shifts made. -/
structure CodedNumber where
  range  : Nat
  value  : Nat
  shifts : Nat
  deriving DecidableEq, Repr

/-- A range below 2^24 is widened by a byte, with the number (R144, R146). -/
def CodedNumber.renormalised (c : CodedNumber) : CodedNumber :=
  if c.range < 2 ^ 24 then ⟨c.range * 256, c.value * 256, c.shifts + 1⟩ else c

/-- Coding the bit `b` with a word that holds `p` (R144). -/
def CodedNumber.bit (c : CodedNumber) (p : Nat) (b : Bool) : CodedNumber :=
  let bound := c.range / 2 ^ 11 * p
  if b then { c with range := c.range - bound, value := c.value + bound : CodedNumber }.renormalised
  else { c with range := bound : CodedNumber }.renormalised

/-- Coding the bit `b` with probability one half (R146). -/
def CodedNumber.half (c : CodedNumber) (b : Bool) : CodedNumber :=
  let half := c.range / 2
  { c with range := half, value := if b then c.value + half else c.value : CodedNumber }.renormalised

/-- Where a lane's coder stands before a command. -/
def CodedNumber.ofLane (l : Lane) : CodedNumber := ⟨l.rc.range.toNat, codeValue [] l.rc, 0⟩

/-- A coder at work in exact numbers; its shifts are counted as the bytes emitted or pending (R143). -/
def Enc.coded (e : Enc) : CodedNumber :=
  ⟨e.lane.rc.range.toNat, codeValue e.bytes e.lane.rc, e.rev.length + e.lane.rc.cacheSize.toNat⟩

/-- A command that made `l` into `l'` and emitted `bytes` left the coder at `c`: the range, the number, and one byte
emitted or pending more for each shift (R143). -/
abbrev CodesTo (l l' : Lane) (bytes : List Byte) (c : CodedNumber) : Prop :=
  l'.rc.range.toNat = c.range ∧ codeValue bytes l'.rc = c.value
    ∧ bytes.length + l'.rc.cacheSize.toNat = l.rc.cacheSize.toNat + c.shifts

/-! ## `STATE` (R211) -/

/-- `STATE` after a literal, a match, a rep and a short rep. -/
def afterLiteral (st : Nat) : Nat := if st < 4 then 0 else if st < 10 then st - 3 else st - 6
def afterMatch (st : Nat) : Nat := if st < 7 then 7 else 10
def afterRep (st : Nat) : Nat := if st < 7 then 8 else 11
def afterShortRep (st : Nat) : Nat := if st < 7 then 9 else 11

/-! ## The price ROM's algorithm (R154) -/

/-- `while w ≥ 2^16: w <- w >> 1 ; bc <- bc + 1`. -/
def priceHalve : Nat → Nat → Nat → Nat × Nat
  | 0, w, bc => (w, bc)
  | fuel + 1, w, bc => if 2 ^ 16 ≤ w then priceHalve fuel (w / 2) (bc + 1) else (w, bc)

/-- The four squarings. -/
def priceSquare : Nat → Nat → Nat → Nat
  | 0, _, bc => bc
  | n + 1, w, bc => let x := priceHalve 32 (w * w) (2 * bc); priceSquare n x.1 x.2

/-- `T0[k]` as R154 computes it. -/
def priceFormula (k : Nat) : Nat := 161 - priceSquare 4 (16 * k + 8) 0

/-! ## The table contract (R175, R176) -/

/-- `lcp(p, q) ≥ k` on the block `d` (R175). -/
abbrev Agrees (d : List Byte) (p q k : Nat) : Prop := p + k ≤ d.length ∧ ∀ i < k, d[p + i]? = d[q + i]?

/-- What R175 and R176 ask of the slot of `p`, for the block `d` and the cap `c`. -/
def SlotContract (mode : MfMode) (d : List Byte) (c p : Nat) : Slot → Prop
  | .null => ∀ q < p, ¬ Agrees d p q 2
  | .entry link len =>
    link < p ∧ 2 ≤ len ∧ len ≤ c ∧ Agrees d p link len
      ∧ (∀ q < p, ∀ k, k ≤ c → Agrees d p q k → k ≤ len)
      ∧ (mode = .canonical → ∀ q < p, link < q → ¬ Agrees d p q len)

/-- The table registers and, while `TABLE_VALID = 1`, every slot below `TABLE_END` are as R175 and R176 say of the present
`DICT` (R33, R58, R87). -/
def State.TableContract (s : State) : Prop :=
  (s.table.created = true →
    dictSizeMin ≤ s.table.size.toNat ∧ s.table.size.toNat ≤ dictSizeMax
      ∧ (s.table.isStruct = true ↔ 2 ^ linkBits < s.table.size.toNat))
  ∧ (s.table.valid = true →
    s.table.created = true ∧ s.table.fin.toNat ≤ s.table.size.toNat ∧ s.table.fin.toNat ≤ s.params.dictCap.toNat
      ∧ depthMin ≤ s.table.caplen.toNat ∧ s.table.caplen.toNat ≤ lenFieldMax s.table.isStruct
      ∧ ∀ p < s.table.fin.toNat,
          SlotContract s.params.mfMode (Memory.readBytes s.dict 0 s.table.fin.toNat) s.table.caplen.toNat p (s.table.slot p))

/-! ## The memories' invariant -/

/-- Every memory keeps its canonical form, and `DICT` and `OUT` list no byte past their capacities (R80). -/
abbrev State.MemoryOk (s : State) : Prop :=
  Memory.wf s.dict = true ∧ Memory.wf s.out = true
    ∧ (∀ x ∈ s.dict, x.1 < s.params.dictCap.toNat) ∧ (∀ x ∈ s.out, x.1 < s.params.outCap.toNat)
    ∧ ∀ l ∈ s.lanes, ProbMem.wf l.prob = true ∧ ProbMem.wf l.snap.prob = true

/-! ## The registers' invariant -/

/-- Reserved bits of the configuration registers read 0 (R30, R40 to R46). -/
abbrev Cfg.ReservedZero (c : Cfg) : Prop :=
  c.mfParams &&& mfParamsMask = c.mfParams ∧ c.lzProps &&& lzPropsMask = c.lzProps
    ∧ c.strategy &&& strategyMask = c.strategy ∧ c.streamOpts &&& streamOptsMask = c.streamOpts
    ∧ c.blkFlags &&& blkFlagsMask = c.blkFlags ∧ c.parseGain &&& parseGainMask = c.parseGain

/-- A lane's latched properties are legal (R41, R213), `PENDING` is never 1 (R284), and a valid snapshot belongs to an
initialised lane (R226, R285). -/
abbrev Lane.RegistersOk (l : Lane) : Prop :=
  l.lc.toNat + l.lp.toNat ≤ 4 ∧ l.pb.toNat ≤ 4 ∧ l.pending ≠ 1 ∧ (l.snapValid = true → l.init = true)

/-- What holds of the registers in every state a run reaches. -/
abbrev State.RegistersOk (s : State) : Prop :=
  s.cfg.ReservedZero
    ∧ (s.control.cancel = true → s.busy = true)
    ∧ (s.busy = true → ResultsAre s 0 0 0)
    ∧ (s.inReset = true → s.busy = false)
    ∧ (s.status.code ≠ .timedOut ∧ s.status.code ≠ .checksumMismatch)
    ∧ (s.table.valid = true → s.table.created = true)
    ∧ (s.stream.isOpen = false → s.stream = .closed)
    ∧ ∀ l ∈ s.lanes, l.RegistersOk

/-! ## Undefined contents (R55, R56, R60) -/

/-- A lane without the contents the spec leaves undefined: `Prob` while `INIT = 0`, `SNAP` while `SNAP_VALID = 0`, and
`STAGE` between commands. -/
def Lane.definedPart (l : Lane) : Lane :=
  { l with
    prob := if l.init then l.prob else []
    snap := if l.snapValid then l.snap else .reset
    stage := [] }

/-- A state without the contents the spec leaves undefined: those of the lanes, and the slots while
`TABLE_VALID = 0`. -/
def State.definedPart (s : State) : State :=
  { s with
    lanes := s.lanes.map Lane.definedPart
    table := if s.table.valid then s.table else { s.table with storage := .packed [] } }

/-- An outcome as far as the spec defines it. -/
def outcomeDefinedPart : Host.Outcome State Fault Refusal → Host.Outcome State Fault Refusal
  | .next t    => .next t.definedPart
  | .fault f   => .fault f
  | .refused r => .refused r

/-! ## The context reset (R331, R362) -/

/-- What `ContextReset` leaves in `t`: its fields at the values R362 gives, every other one as in `s`. -/
abbrev ContextIsReset (s t : State) : Prop :=
  t.params = s.params ∧ t.cfg = s.cfg ∧ t.args = s.args ∧ t.outPos = s.outPos ∧ t.dict = s.dict ∧ t.out = s.out
    ∧ t.resBefore = s.resBefore ∧ t.table = { s.table with valid := false, fin := 0, caplen := 0 }
    ∧ t.stream.stateWord = 0 ∧ t.stream.dict = 0 ∧ t.stream.ckData = []
    ∧ t.counters.consumed = 0 ∧ t.counters.produced = 0
    ∧ t.lanes.length = s.lanes.length
    ∧ ∀ (L : Nat) (l l' : Lane), s.lanes[L]? = some l → t.lanes[L]? = some l' →
        l'.readReg .pos = 0 ∧ l'.readReg .status = 0x00020330
          ∧ l'.readReg .rep0 = 0 ∧ l'.readReg .rep1 = 0 ∧ l'.readReg .rep2 = 0 ∧ l'.readReg .rep3 = 0
          ∧ l'.readReg .rcLowLo = 0 ∧ l'.readReg .rcLowHi = 0 ∧ l'.readReg .rcRange = 0xFFFFFFFF
          ∧ l'.readReg .rcCache = 0 ∧ l'.readReg .rcCacheSize = 1
          ∧ l'.sliceStart = l.sliceStart ∧ l'.sliceEnd = l.sliceEnd ∧ l'.outBase = l.outBase
          ∧ l'.outCap = l.outCap ∧ l'.outLen = l.outLen

/-! ## The register file (R30, R51) -/

/-- The readable and writable block registers that store what is written: offset, and the bits that are not reserved. -/
def storedRegs : List (Nat × Word) :=
  [(0x014, 0xFFFFFFFF), (0x018, 0xFFFFFFFF), (0x01C, 0xFFFFFFFF), (0x020, 0xFFFFFFFF)]
  ++ [(0x030, 0xFFFFFFFF), (0x034, 0x000007FF), (0x038, 0x00000FFF), (0x03C, 0x00000003), (0x040, 0x00000003)]
  ++ [(0x044, 0xFFFFFFFF), (0x048, 0xFFFFFFFF), (0x04C, 0xFFFFFFFF), (0x050, 0x00FFFFFF)]
  ++ [(0x054, 0xFFFFFFFF), (0x058, 0xFFFFFFFF), (0x05C, 0xFFFFFFFF)]
  ++ [(0x060, 0xFFFFFFFF), (0x064, 0xFFFFFFFF), (0x068, 0x000000F1), (0x06C, 0xFFFFFFFF)]
  ++ [(0x070, 0xFFFFFFFF), (0x074, 0xFFFFFFFF)]

/-- The readable and writable registers of a lane bank. -/
def storedLaneRegs : List Nat := [0x00, 0x04, 0x0C, 0x10, 0x14]

/-- The read-only block registers. -/
def readOnlyRegs : List Nat :=
  [0x000, 0x010, 0x024, 0x028, 0x02C, 0x078, 0x07C, 0x080, 0x084, 0x088, 0x08C, 0x090, 0x094, 0x098]
  ++ [0x0EC, 0x0F0, 0x0F4, 0x0F8, 0x0FC]

/-- The read-only registers of a lane bank. -/
def readOnlyLaneRegs : List Nat := [0x08, 0x18, 0x1C, 0x20, 0x24, 0x28, 0x2C, 0x30, 0x34, 0x38, 0x3C]

/-- The reset values of R30 that no parameter gives. -/
def resetWords : List (Nat × Word) :=
  [(0x000, 0x324D5A4C), (0x004, 0), (0x008, 0), (0x00C, 0), (0x010, 0), (0x014, 0), (0x018, 0), (0x01C, 0), (0x020, 0)]
  ++ [(0x024, 0), (0x028, 0), (0x02C, 0), (0x030, 0x00100000), (0x034, 0x0000022A), (0x038, 0x00000203)]
  ++ [(0x03C, 1), (0x040, 0), (0x044, 0x00200000), (0x048, 0x00010000), (0x04C, 8), (0x050, 0x00040103), (0x054, 0)]
  ++ [(0x058, 0x40), (0x05C, 0x4000), (0x060, 0), (0x064, 0), (0x068, 1), (0x06C, 1), (0x070, 0), (0x078, 0), (0x07C, 0)]
  ++ [(0x080, 0), (0x084, 0), (0x088, 0), (0x08C, 0), (0x090, 0), (0x094, 0), (0x098, 0)]

/-- The reset values of a lane bank (R51, R52). -/
def resetLaneWords : List (Nat × Word) :=
  [(0x00, 0), (0x04, 0), (0x08, 0), (0x0C, 0), (0x10, 0), (0x14, 0), (0x18, 0x00020330), (0x1C, 0), (0x20, 0)]
  ++ [(0x24, 0), (0x28, 0), (0x2C, 0), (0x30, 0), (0x34, 0xFFFFFFFF), (0x38, 0), (0x3C, 1)]

/-! ## Chunk bytes (R280, R283) -/

/-- A byte of `OUT` or `DICT` as a number. -/
def byteAt (m : Memory) (a : Nat) : Nat := (Memory.read m a).toNat

/-- The header of a compressed chunk at `a` (R280): level, uncompressed size `u`, payload size `c`, property byte
`props` from level 2 on. -/
abbrev CompressedHeaderAt (m : Memory) (a level u c props : Nat) : Prop :=
  byteAt m a = 0x80 + level * 32 + (u - 1) / 65536 ∧ byteAt m (a + 1) = (u - 1) / 256 % 256
    ∧ byteAt m (a + 2) = (u - 1) % 256 ∧ byteAt m (a + 3) = (c - 1) / 256 ∧ byteAt m (a + 4) = (c - 1) % 256
    ∧ (2 ≤ level → byteAt m (a + 5) = props)

/-- A stored chunk of `n` bytes at `a` with control byte `ctl`, whose bytes are those of `dict` at `p` (R280, R288). -/
abbrev StoredChunkAt (m dict : Memory) (a ctl n p : Nat) : Prop :=
  byteAt m a = ctl ∧ byteAt m (a + 1) = (n - 1) / 256 ∧ byteAt m (a + 2) = (n - 1) % 256
    ∧ Memory.readBytes m (a + 3) n = Memory.readBytes dict p n

/-! ## Slices -/

/-- `ENC_CHUNK` on a lane, repeated while `SLICE_OPEN = 1`, at most `n` times (R294). -/
def runChunks (lane : Nat) : Nat → State → Host.Outcome State Fault Refusal
  | 0, s => .next s
  | n + 1, s =>
    match s.lanes[lane]? with
    | none => .next s
    | some l =>
      if l.sliceOpen then
        match exec (.encChunk lane) s with
        | .next t => runChunks lane n t
        | o => o
      else .next s

/-- `s` with another `OUT_LIMIT` and another `OUT_CAP`: the same command with more or less room (R296). -/
def State.withRoom (s : State) (limit cap : Word) : State :=
  { s with cfg := { s.cfg with outLimit := limit }, params := { s.params with outCap := cap } }

/-- The slices of a block (R298): the number of lanes used, and where slice `i` starts and ends. -/
def State.sliceCount (s : State) : Nat := min s.cfg.nActive.toNat (s.cfg.blkEnd.toNat - s.cfg.blkStart.toNat)
def State.sliceFrom (s : State) (i : Nat) : Nat :=
  s.cfg.blkStart.toNat + i * ((s.cfg.blkEnd.toNat - s.cfg.blkStart.toNat) / s.sliceCount)
def State.sliceTo (s : State) (i : Nat) : Nat := if i + 1 = s.sliceCount then s.cfg.blkEnd.toNat else s.sliceFrom (i + 1)

/-- What R299 compares `ENC_BLOCK` with, for slice `i`: `s` with that slice in lane `i`'s registers and no stream open. -/
def State.onSlice (s : State) (i : Nat) : State :=
  { s with
    stream := .closed
    lanes := s.lanes.modify i fun l =>
      { l with sliceStart := BitVec.ofNat 32 (s.sliceFrom i), sliceEnd := BitVec.ofNat 32 (s.sliceTo i) } }

/-- The command of R299 for slice `i`. -/
def State.sliceCommand (s : State) (i : Nat) : Instr := .encSlice i (s.cfg.dictReset && i == 0)

/-- With room for it, the slice command of slice `i` writes `n` bytes. -/
abbrev SliceSize (s : State) (i n : Nat) : Prop :=
  ∃ limit cap b, exec (s.sliceCommand i) ((s.onSlice i).withRoom limit cap) = .next b
    ∧ CompletesOk s b ∧ b.res.res0.toNat = n

/-! ## Symbols (R210) and their bits (R214 to R220) -/

/-- A symbol of R210, without its position. -/
inductive Symbol
  | lit
  | shortRep
  | mtch (len dist : Nat)
  | rep (len r : Nat)
  deriving DecidableEq, Repr

/-- How many positions a symbol covers. -/
def Symbol.len : Symbol → Nat
  | .lit | .shortRep => 1
  | .mtch n _ | .rep n _ => n

/-- Coding a symbol at `p`: R217 to R220. -/
def Symbol.code (x : SymCtx) (p : Nat) : Symbol → Enc → Except Halt Enc
  | .lit => encodeLiteral x p
  | .shortRep => encodeShortRep x p
  | .mtch n dist => encodeMatch x p n dist
  | .rep n r => encodeRep x p n r

/-- The operands a symbol may have (R210). -/
def Symbol.Legal : Symbol → Prop
  | .lit | .shortRep => True
  | .mtch n dist => 2 ≤ n ∧ n ≤ 273 ∧ dist < 2 ^ 32
  | .rep n r => 2 ≤ n ∧ n ≤ 273 ∧ r < 4

/-- `STATE` after a symbol (R211). -/
def Symbol.stateAfter (st : Nat) : Symbol → Nat
  | .lit => afterLiteral st
  | .shortRep => afterShortRep st
  | .mtch _ _ => afterMatch st
  | .rep _ _ => afterRep st

/-- The reps, most recent first (R53). -/
def Reps.list (r : Reps) : List Word := [r.rep0, r.rep1, r.rep2, r.rep3]

/-- The reps after a symbol (R217 to R220). -/
def Symbol.repsAfter (reps : List Word) : Symbol → List Word
  | .lit | .shortRep => reps
  | .mtch _ dist => BitVec.ofNat 32 dist :: reps.take 3
  | .rep _ r => reps.getD r 0 :: reps.eraseIdx r

/-- One decision of the coder: a bit with the probability word `i` (R144), or one with probability one half (R146). -/
inductive Decision
  | word (i : Nat) (b : Bool)
  | direct (b : Bool)
  deriving DecidableEq, Repr

/-- A decision moves the coder, and the word it uses adapts. -/
def Decision.move (c : CodedNumber × (Nat → Nat)) : Decision → CodedNumber × (Nat → Nat)
  | .word i b => (c.1.bit (c.2 i) b, fun j => if j = i then adapted (c.2 i) b else c.2 j)
  | .direct b => (c.1.half b, c.2)

/-- The coder and the words after a list of decisions. -/
def decided (c : CodedNumber × (Nat → Nat)) (ds : List Decision) : CodedNumber × (Nat → Nat) := ds.foldl Decision.move c

/-- The words of a probability memory as numbers. -/
def wordsOf (m : ProbMem) (j : Nat) : Nat := (ProbMem.read m j).toNat

/-- A command that made `l` into `l'` and emitted `bytes` coded exactly these decisions: the coder stands where they move
it, and every word of the lane holds what they leave in it. -/
abbrev CodesBits (l l' : Lane) (bytes : List Byte) (ds : List Decision) : Prop :=
  let c := decided (.ofLane l, wordsOf l.prob) ds
  CodesTo l l' bytes c.1 ∧ ∀ j, wordsOf l'.prob j = c.2 j

/-- `EncodeTree(L, base, n, s)` (R148): the `n` bits of `s`, the highest first. -/
def treeBits (base n s : Nat) : List Decision :=
  (List.range n).map fun d => .word (base + treeNode n s d) (s.testBit (n - 1 - d))

/-- `EncodeTreeRev(L, base, n, s)` (R150): the `n` low bits of `s`, the lowest first. -/
def treeRevBits (base n s : Nat) : List Decision :=
  (List.range n).map fun d => .word (base + treeRevNode s d) (s.testBit d)

/-- `EncodeDirect(v, n)` (R146). -/
def directBits (v n : Nat) : List Decision := (List.range n).map fun d => .direct (v.testBit (n - 1 - d))

/-- `EncodeLen(L, base, l, ps)` (R214). -/
def lenBits (base l ps : Nat) : List Decision :=
  if l < 8 then .word base false :: treeBits (base + 2 + 8 * ps) 3 l
  else if l < 16 then .word base true :: .word (base + 1) false :: treeBits (base + 130 + 8 * ps) 3 (l - 8)
  else .word base true :: .word (base + 1) true :: treeBits (base + 258) 8 (l - 16)

/-- `PosSlot(dist)` (R215): twice the place of the highest bit, and the bit below it. -/
def slotOf (dist : Nat) : Nat :=
  if dist < 4 then dist else 2 * Nat.log2 dist + dist / 2 ^ (Nat.log2 dist - 1) % 2

/-- `EncodeDist(L, dist, len)` (R215). -/
def distBits (dist len : Nat) : List Decision :=
  let s := slotOf dist
  let fb := s / 2 - 1
  let base := (2 + s % 2) * 2 ^ fb
  treeBits (432 + 64 * min (len - 2) 3) 6 s
    ++ if s < 4 then []
      else if s < 14 then treeRevBits (688 + base - s - 1) fb (dist - base)
      else directBits ((dist - base) / 16) (fb - 4) ++ treeRevBits 802 4 ((dist - base) % 16)

/-- The eight bits of a matched literal `c` (R217): while the bits so far are those of the matched byte `mb`, the words are
those of the half of the coder that `mb`'s next bit selects. -/
def matchedBits (base c mb : Nat) : List Decision :=
  (List.range 8).map fun d =>
    let half := if c / 2 ^ (8 - d) = mb / 2 ^ (8 - d) then 0x100 + 0x100 * (mb / 2 ^ (7 - d) % 2) else 0
    .word (base + half + treeNode 8 c d) (c.testBit (7 - d))

/-- The bits that a symbol at `p` codes, on a lane in the coding state of `l` (R216 to R220). The byte that a matched
literal compares with lies before `DICT[0]` if `REP0 ≥ p`, and is a free value there (log 20). -/
def symbolBits (dict : Memory) (phase : Nat) (l : Lane) (p : Nat) : Symbol → List Decision :=
  let st := l.st.val
  let ps := (phase + p) % 2 ^ l.pb.toNat
  let prev := if p = 0 then 0 else byteAt dict (p - 1)
  let coder := 1846 + 768 * ((phase + p) % 2 ^ l.lp.toNat * 2 ^ l.lc.toNat + prev / 2 ^ (8 - l.lc.toNat))
  let rep0 := l.reps.rep0.toNat
  let mb := if rep0 < p then byteAt dict (p - (rep0 + 1))
    else (Config.byteBeforeDict (Memory.readBytes dict 0 (p + 1)) p rep0).toNat
  fun
  | .lit => .word (16 * st + ps) false
      :: if st < 7 then treeBits coder 8 (byteAt dict p) else matchedBits coder (byteAt dict p) mb
  | .mtch len dist =>
    [.word (16 * st + ps) true, .word (192 + st) false] ++ lenBits 818 (len - 2) ps ++ distBits dist len
  | .rep len r =>
    [.word (16 * st + ps) true, .word (192 + st) true]
      ++ (if r = 0 then [.word (204 + st) false, .word (240 + 16 * st + ps) true]
        else if r = 1 then [.word (204 + st) true, .word (216 + st) false]
        else [.word (204 + st) true, .word (216 + st) true, .word (228 + st) (decide (r = 3))])
      ++ lenBits 1332 (len - 2) ps
  | .shortRep =>
    [.word (16 * st + ps) true, .word (192 + st) true, .word (204 + st) false, .word (240 + 16 * st + ps) false]

/-! ## The parse (R251 to R258) -/

/-- The symbols, from `p` and the reps `reps` on, end at `pend` and are true copies: a decoder that has `D[0 .. p-1]`
and reads them gets `D[p .. pend-1]`. -/
def Spells (d : Memory) : Reps → Nat → List Symbol → Nat → Prop
  | _, p, [], pend => p = pend
  | reps, p, .lit :: rest, pend => Spells d reps (p + 1) rest pend
  | reps, p, .shortRep :: rest, pend =>
    reps.rep0.toNat < p ∧ Memory.read d p = Memory.read d (p - (reps.rep0.toNat + 1)) ∧ Spells d reps (p + 1) rest pend
  | reps, p, .mtch n dist :: rest, pend =>
    2 ≤ n ∧ n ≤ 273 ∧ dist < p ∧ (∀ i < n, Memory.read d (p + i) = Memory.read d (p - (dist + 1) + i))
      ∧ Spells d { rep0 := BitVec.ofNat 32 dist, rep1 := reps.rep0, rep2 := reps.rep1, rep3 := reps.rep2 } (p + n) rest pend
  | reps, p, .rep n r :: rest, pend =>
    2 ≤ n ∧ n ≤ 273 ∧ r < 4 ∧ (reps.get r).toNat < p
      ∧ (∀ i < n, Memory.read d (p + i) = Memory.read d (p - ((reps.get r).toNat + 1) + i))
      ∧ Spells d (reps.toFront r) (p + n) rest pend

/-- `MaxLen(p)` (R251). -/
def longest (x : ParseCtx) (p : Nat) : Nat := min 273 (x.ulim - p)

/-- `n` is `RepLen(p, r)` (R252): how far the bytes at `p` agree with those at the rep's distance, if two at least. -/
def IsRepLen (x : ParseCtx) (reps : Reps) (p r n : Nat) : Prop :=
  let dist := (reps.get r).toNat
  (p ≤ dist ∧ n = 0)
    ∨ (dist < p ∧ ∃ m ≤ longest x p,
        (∀ i < m, Memory.read x.sym.dict (p + i) = Memory.read x.sym.dict (p - (dist + 1) + i))
          ∧ (m < longest x p → Memory.read x.sym.dict (p + m) ≠ Memory.read x.sym.dict (p - (dist + 1) + m))
          ∧ n = if 2 ≤ m then m else 0)

/-- `BestRep(p)` (R252), as length and index: no rep is longer, and none with a lower index is as long. -/
def IsBestRep (x : ParseCtx) (reps : Reps) (p : Nat) : Option (Nat × Nat) → Prop
  | none => ∀ r < 4, IsRepLen x reps p r 0
  | some (n, r) =>
    r < 4 ∧ 2 ≤ n ∧ IsRepLen x reps p r n
      ∧ ∀ r' < 4, ∀ n', IsRepLen x reps p r' n' → n' ≤ n ∧ (r' < r → n' < n)

/-- `MfCand(p, Q)` (R253), as length and distance: what the query gives, cut to `MaxLen`, unless it is too short, or
short and as far as its limit. -/
def IsMatchCand (x : ParseCtx) (q : Query) (p : Nat) (o : Option (Nat × Nat)) : Prop :=
  let n := min (q.run x p).1 (longest x p)
  let dist := (q.run x p).2
  let dropped := n < 2 ∨ (n = 2 ∧ x.limit2 ≤ dist) ∨ (n = 3 ∧ x.limit3 ≤ dist) ∨ (n = 4 ∧ x.limit4 ≤ dist)
  (dropped ∧ o = none) ∨ (¬ dropped ∧ o = some (n, dist))

/-- The gain of a candidate is `g` (R254). -/
def HasGain (x : ParseCtx) : Cand → Int → Prop
  | .mtch n dist, g => ∃ e : Nat, 2 ^ e ≤ dist + 1 ∧ dist + 1 < 2 ^ (e + 1) ∧ g = (x.gainK : Int) * n - e
  | .rep n r, g => g = (x.gainK : Int) * n - r + x.gainRep

/-- `Gain(c') > Gain(c) + margin`. -/
def GainsMore (x : ParseCtx) (c c' : Cand) (margin : Nat) : Prop := ∃ g g', HasGain x c g ∧ HasGain x c' g' ∧ g + margin < g'

/-- `Choose(p, Q)` (R255): a rep that reaches `MaxLen`, else a match that does, else the one there is, else the higher
gain, a tie going to the match. -/
def IsChoice (x : ParseCtx) (reps : Reps) (q : Query) (p : Nat) (o : Option Cand) : Prop :=
  ∃ m r, IsMatchCand x q p m ∧ IsBestRep x reps p r ∧
    match m, r with
    | none, none => o = none
    | some (n, dist), none => o = some (.mtch n dist)
    | none, some (k, j) => o = some (.rep k j)
    | some (n, dist), some (k, j) =>
      let repWins := k = longest x p ∨ (n ≠ longest x p ∧ GainsMore x (.mtch n dist) (.rep k j) 0)
      (repWins ∧ o = some (.rep k j)) ∨ (¬ repWins ∧ o = some (.mtch n dist))

/-- The lookahead from the candidate `c` at `q` finds `c'` at `q + k` worth the delay (R258). -/
def Defers (x : ParseCtx) (reps : Reps) (c : Cand) (q k : Nat) (c' : Cand) : Prop :=
  1 ≤ k ∧ k ≤ x.look ∧ c.len < longest x q ∧ q + k < x.ulim
    ∧ IsChoice x reps .getNextMatch (q + k) (some c') ∧ GainsMore x c c' (k * x.gainLazy)

/-- The lazy lookahead of R258 settles, from `c` at `q`, on `c'` at `q'`: it defers to the nearest position worth it, and
looks again from there. -/
inductive Settles (x : ParseCtx) (reps : Reps) : Cand → Nat → Cand → Nat → Prop
  | here (c : Cand) (q : Nat) : (∀ k c', ¬ Defers x reps c q k c') → Settles x reps c q c q
  | later (c c' c'' : Cand) (q k q'' : Nat) : Defers x reps c q k c' → (∀ j < k, ∀ d, ¬ Defers x reps c q j d) →
      Settles x reps c' (q + k) c'' q'' → Settles x reps c q c'' q''

/-- `Single(L, p)` (R256): a short rep where it is possible, else a literal. -/
def IsSingle (x : ParseCtx) (e : Enc) (p : Nat) (y : Symbol) : Prop :=
  let dist := e.lane.reps.rep0.toNat
  let copies := dist < p ∧ Memory.read x.sym.dict p = Memory.read x.sym.dict (p - (dist + 1))
  (copies ∧ y = .shortRep) ∨ (¬ copies ∧ y = .lit)

/-- `BudgetOK(L)` (R257). -/
def HasBudget (x : ParseCtx) (e : Enc) : Prop := e.rev.length + e.lane.rc.cacheSize.toNat + 26 + 4 ≤ x.cMax

/-- The positions from `p` to `q`, skipped by deferral, are coded one by one while the budget lasts (R258): the symbols,
the first position not coded, and the coder there. -/
inductive SinglesRun (x : ParseCtx) (q : Nat) : Nat → Enc → List Symbol → Nat → Enc → Prop
  | done (p : Nat) (e : Enc) : q ≤ p → SinglesRun x q p e [] p e
  | spent (p : Nat) (e : Enc) : p < q → ¬ HasBudget x e → SinglesRun x q p e [] p e
  | one (p p' : Nat) (e e₁ e' : Enc) (y : Symbol) (ys : List Symbol) : p < q → HasBudget x e → IsSingle x e p y →
      y.code x.sym p e = .ok e₁ → SinglesRun x q (p + 1) e₁ ys p' e' → SinglesRun x q p e (y :: ys) p' e'

/-- The symbol of a candidate. -/
def Cand.symbol : Cand → Symbol
  | .mtch n dist => .mtch n dist
  | .rep n r => .rep n r

/-- `ParseChunk(L, p, ulim)` (R258) from the coder `e`: the symbols coded, the first position not coded, and the coder
there. -/
inductive ParseRun (x : ParseCtx) : Nat → Enc → List Symbol → Nat → Enc → Prop
  | done (p : Nat) (e : Enc) : x.ulim ≤ p → ParseRun x p e [] p e
  | spent (p : Nat) (e : Enc) : p < x.ulim → ¬ HasBudget x e → ParseRun x p e [] p e
  | single (p p' : Nat) (e e₁ e' : Enc) (y : Symbol) (ys : List Symbol) : p < x.ulim →
      IsChoice x e.lane.reps .getMatch p none → HasBudget x e → IsSingle x e p y → y.code x.sym p e = .ok e₁ →
      ParseRun x (p + 1) e₁ ys p' e' → ParseRun x p e (y :: ys) p' e'
  | cut (p q p' : Nat) (e e' : Enc) (c c' : Cand) (ys : List Symbol) : p < x.ulim →
      IsChoice x e.lane.reps .getMatch p (some c) → Settles x e.lane.reps c p c' q → SinglesRun x q p e ys p' e' →
      ¬ HasBudget x e' → ParseRun x p e ys p' e'
  | cand (p q p' : Nat) (e e₁ e₂ e' : Enc) (c c' : Cand) (ys zs : List Symbol) : p < x.ulim →
      IsChoice x e.lane.reps .getMatch p (some c) → Settles x e.lane.reps c p c' q → SinglesRun x q p e ys q e₁ →
      HasBudget x e₁ → c'.symbol.code x.sym q e₁ = .ok e₂ → ParseRun x (q + c'.len) e₂ zs p' e' →
      ParseRun x p e (ys ++ c'.symbol :: zs) p' e'

/-- The coder of a chunk attempt before its first symbol (R285): the coder reset, nothing emitted, and the lane's coding
state, or the one of the state reset that the lane owes. -/
abbrev OpensChunk (s : State) (l : Lane) (e : Enc) : Prop :=
  e.rev = [] ∧ e.room = none ∧ e.lane.rc = { low := 0, range := 0xFFFFFFFF, cache := 0, cacheSize := 1 }
    ∧ (l.pending = 0 → e.lane.st = l.st ∧ e.lane.reps = l.reps ∧ e.lane.prob = l.prob
        ∧ e.lane.lc = l.lc ∧ e.lane.lp = l.lp ∧ e.lane.pb = l.pb)
    ∧ (l.pending ≠ 0 → e.lane.st = 0 ∧ e.lane.reps = { rep0 := 0, rep1 := 0, rep2 := 0, rep3 := 0 }
        ∧ (∀ i, ProbMem.read e.lane.prob i = 1024)
        ∧ e.lane.lc.toNat = s.cfg.lc ∧ e.lane.lp.toNat = s.cfg.lp ∧ e.lane.pb.toNat = s.cfg.pb)

end Sys2Proof.Machine
end

