-- ==== Sys2Proof/Certificates/Slice0/Obligations.lean ====
section
/-! DEFINITION. The statements for the provers, file by file of the spec. OBLIGATIONS.json gives each its rule and its
words. -/

section Statements

open Sys2Proof Sys2Proof.Machine

/-! ## 30_encoding.md -/

/-- Decoding the word of a well-formed command gives the command back: R110, R117, R119. -/
def Obligations.DecodeOfEncode : Prop :=
  ∀ i : Instr, i.WellFormed → decode (encode i) = .ok i

/-- A word the decoder accepts is the word of the command it gives, and that command is well formed: R110, R111. -/
def Obligations.EncodeOfDecode : Prop :=
  ∀ (w : Word) (i : Instr), decode w = .ok i → encode i = w ∧ i.WellFormed

/-- A word is a command exactly when its opcode is in the map and every bit outside `OPC` and the used fields is 0; a
reserved opcode is rejected as such: R111, R113, R114, R117, R118. -/
def Obligations.LegalWordsDecode : Prop :=
  ∀ w : Word,
    ((∃ i, decode w = .ok i) ↔ legalWord w = true)
      ∧ (decode w = .error .reservedOpcode ↔ usedBits (w &&& 0xFF).toNat = none)

/-- The example words of R120. -/
def Obligations.SampleWords : Prop :=
  decode 0x00010002 = .ok (.rcBit 0 true) ∧ decode 0x00080203 = .ok (.rcTree 2 8)
    ∧ decode 0x00020123 = .ok (.encRep 1 2) ∧ decode 0x00001032 = .ok (.encSlice 0 true)
    ∧ decode 0x00000033 = .ok .encBlock

/-- A host write of a command word to `CMD` while idle sets `BUSY` and zeroes `RES0..RES2`, and nothing else changes but
the copy of their values from which reads are answered while busy: every host read but one of `STATUS` gives after the
write what it gave before; `CMD` reads 0. That the registers are 0 while reads give the values from before is how the model
reads R38 and R112 together with R91 and R97 (log 8, DEDUCED): R32, R38, R91, R97, R112. -/
def Obligations.CommandIssue : Prop :=
  ∀ (s : State) (w : Word), s.inReset = false → s.busy = false →
    s.hostWrite .reg 0x004 .word w
        = { s with pending := some w, res := { res0 := 0, res1 := 0, res2 := 0 }, resBefore := s.res }
      ∧ (s.hostWrite .reg 0x004 .word w).statusWord = s.statusWord ||| 1
      ∧ (∀ (sp : Space) (a : Nat) (n : AccessSize), ¬ (sp = .reg ∧ a = 0x008) →
        (s.hostWrite .reg 0x004 .word w).hostRead sp a n = s.hostRead sp a n)
      ∧ s.hostRead .reg 0x004 .word = 0

/-- A step with a pending word that decodes runs that command: when the host does nothing, when the sequencer has its
turn, and after `withFetchWord`. What the step adds is that it takes the input. That an empty list of inputs gives the
sequencer its turn, and what `withFetchWord` stands for, are the model's choice (log 7). -/
def Obligations.StepRunsCommand : Prop :=
  ∀ (s : State) (w : Word) (i : Instr) (rest : List Input), decode w = .ok i →
    (s.pending = some w → s.inputs = [] → step s = exec i s)
      ∧ (s.pending = some w → s.inputs = .sequencer :: rest → step s = exec i { s with inputs := rest })
      ∧ step (s.withFetchWord 32 w.toNat) = exec i { s.issue w with inReset := false }

/-- A pending word that is no command faults `ILLEGAL_COMMAND` with `ERR_INFO` holding the word: R113, R114. -/
def Obligations.IllegalWordFaults : Prop :=
  ∀ (s : State) (w : Word), s.pending = some w → s.inputs = [] → legalWord w = false →
    ∃ t, step s = .next t ∧ t.status = { s.status with err := true, code := .illegalCommand } ∧ t.errInfo = w
      ∧ t.pending = none ∧ ResultsAre t 0 0 0 ∧ t.lanes = s.lanes ∧ t.out = s.out ∧ t.table = s.table
      ∧ t.stream = s.stream ∧ KeepsOutput s t ∧ t.dict = s.dict ∧ t.cfg = s.cfg ∧ t.args = s.args

/-! ## 60_exceptions.md -/

/-- If a pending command completes, the completion is normal, a fault that changes what R356 says and nothing else, or,
with a cancel request up, a cancellation that changes what R362 says and nothing else: R355, R356, R362. -/
def Obligations.CompletionKinds : Prop :=
  ∀ (s t : State) (w : Word), s.pending = some w → s.inputs = [] → step s = .next t →
    (CompletesOk s t ∧ KeepsHostState s t)
      ∨ (∃ c : Code, c.isFault = true
          ∧ t = { s with
              pending := none, control := { s.control with cancel := false }
              status := { s.status with err := true, code := c }, errInfo := w
              res := { res0 := 0, res1 := 0, res2 := 0 }, draws := s.draws + 1 })
      ∨ (s.control.cancel = true ∧ ContextIsReset s t ∧ t.pending = none
          ∧ t.control = { s.control with cancel := false }
          ∧ t.status = { s.status with canceled := true, code := .canceled }
          ∧ t.errInfo = s.errInfo ∧ ResultsAre t 0 0 0)

/-- A command without a cancellation point ignores the request, and so does a run that passes none, because a start check
fails or the block is empty; a run that passes one either is cancelled as a whole or ends as it would have without the
request, whichever the draw of R363 says: R362, R363. -/
def Obligations.CancelIsAllOrNothing : Prop :=
  ∀ (i : Instr) (s : State),
    let quiet := { s with control := { s.control with cancel := false } }
    (i.canCancel = false → exec i s = exec i quiet)
      ∧ (exec i s = exec i quiet ∨ (i.canCancel = true ∧ s.control.cancel = true ∧ exec i s = .next s.cancelCommit))
      ∧ ((startFault i s).isSome ∨ (i = .encBlock ∧ s.cfg.blkStart = s.cfg.blkEnd) → exec i s = exec i quiet)
      ∧ (i.canCancel = true → startFault i s = none → (i = .encBlock → s.cfg.blkStart ≠ s.cfg.blkEnd) →
        s.control.cancel = true →
        exec i s = if Config.cancelObserved s.draws then .next s.cancelCommit else exec i quiet)

/-- `IRQ` is raised exactly while `IRQ_EN` is 1 and one of `DONE`, `ERR`, `CANCELED` is 1; a write to `CONTROL`, busy or
idle, raises or lowers it at once, a write of ones to the sticky bits clears them, and it is low after reset: R365. -/
def Obligations.InterruptLine : Prop :=
  (∀ s : State,
    s.irq = (s.controlWord.getLsbD 1
      && (s.statusWord.getLsbD 1 || s.statusWord.getLsbD 2 || s.statusWord.getLsbD 3)))
    ∧ (∀ (s : State) (v : Word), s.inReset = false →
      (s.hostWrite .reg 0x00C .word v).irq
          = (v.getLsbD 1 && (s.statusWord.getLsbD 1 || s.statusWord.getLsbD 2 || s.statusWord.getLsbD 3))
        ∧ (s.hostWrite .reg 0x008 .word v).irq
          = (s.controlWord.getLsbD 1 && (s.statusWord.getLsbD 1 && !v.getLsbD 1
              || s.statusWord.getLsbD 2 && !v.getLsbD 2 || s.statusWord.getLsbD 3 && !v.getLsbD 3)))
    ∧ ∀ (n : Nat) (p : Params), (State.resetWith n p).controlWord = 0 ∧ (State.resetWith n p).irq = false

/-! ## 10_state.md: what commands may write -/

/-- No command writes a parameter, a configuration or argument register, `DICT`, `IRQ_EN` or `REJECTED`, nor makes or
unmakes a lane: R37, R81, R355. -/
def Obligations.CommandsKeepHostState : Prop :=
  ∀ (i : Instr) (s t : State), exec i s = .next t → KeepsHostState s t ∧ t.lanes.length = s.lanes.length

/-- With no cancel request: the table changes only in `MF_CREATE`, `MF_BUILD` and `CLEAR`; the stream only in
`ENC_BLOCK`, `STREAM_BEGIN`, `STREAM_END` and `CLEAR`; a lane command changes its own lane only, and a command without a
lane no lane but in `ENC_BLOCK` and `CLEAR`: R58, R59, R140. -/
def Obligations.CommandsKeepOtherUnits : Prop :=
  ∀ (i : Instr) (s t : State), s.control.cancel = false → exec i s = .next t →
    (i ≠ .mfCreate → i ≠ .mfBuild → i ≠ .clear → t.table = s.table)
      ∧ (i ≠ .encBlock → i ≠ .streamBegin → i ≠ .streamEnd → i ≠ .clear → t.stream = s.stream)
      ∧ (∀ L, i.lane? = some L → ∀ k, k ≠ L → t.lanes[k]? = s.lanes[k]?)
      ∧ (i.lane? = none → i ≠ .encBlock → i ≠ .clear → t.lanes = s.lanes)

/-- A command writes `OUT` only inside the bytes of R95: the lane window from `LANE_OUT_BASE + LANE_OUT_LEN` on, or
`[OUT_POS, OUT_LIMIT)`, or none. -/
def Obligations.OutWrittenInWindow : Prop :=
  ∀ (i : Instr) (s t : State), exec i s = .next t →
    ∀ a : Nat, a < (i.outWindow s).1 ∨ (i.outWindow s).2 ≤ a → Memory.read t.out a = Memory.read s.out a

/-- No command reads `OUT`: with other bytes in it, a command does the same to everything else, and each byte of `OUT` is
either one that it writes, and then the same, or one that it leaves, in both: R82. -/
def Obligations.OutNeverRead : Prop :=
  ∀ (i : Instr) (s t : State) (o : Memory), exec i s = .next t →
    ∃ o' : Memory, exec i { s with out := o } = .next { t with out := o' }
      ∧ (Memory.wf s.out = true → Memory.wf o = true → ∀ a : Nat,
        Memory.read o' a = Memory.read t.out a
          ∨ (Memory.read o' a = Memory.read o a ∧ Memory.read t.out a = Memory.read s.out a))

/-- No command reads what the spec leaves undefined, `Prob` while `INIT = 0`, `SNAP` while `SNAP_VALID = 0`, `STAGE`,
the slots while `TABLE_VALID = 0`: two states that differ there only end in states that differ there only: R55, R56, R60. -/
def Obligations.UndefinedNeverRead : Prop :=
  ∀ (i : Instr) (s s' : State), s.definedPart = s'.definedPart →
    outcomeDefinedPart (exec i s) = outcomeDefinedPart (exec i s')

/-! ## 20_memory.md and the host's accesses -/

/-- While busy, every performed write but one to `STATUS` or `CONTROL` sets `REJECTED` and changes nothing else; those
two are accepted; a refused access sets nothing; and reads are accepted: those of `RES0..RES2` return the values from before
the command, the others but that of `STATUS` what they return while idle. The model's choice (log 9, DEDUCED): that a
refused access leaves `REJECTED` alone, and that a write to a read-only register or a reserved offset sets it. The values
that a read of `RES0..RES2` gives follow log 8 (DEDUCED): R63, R88, R91, R97, R359. -/
def Obligations.BusyWritesRejected : Prop :=
  ∀ (s : State) (sp : Space) (a : Nat) (n : AccessSize) (v : Word), s.inReset = false → s.busy = true →
    (s.performed sp a n = true → ¬ (sp = .reg ∧ (a = 0x008 ∨ a = 0x00C)) →
      s.hostWrite sp a n v = { s with status := { s.status with rejected := true } })
    ∧ (s.performed sp a n = false → s.hostWrite sp a n v = s)
    ∧ s.hostWrite .reg 0x008 .word v = { s with status := (s.hostWrite .reg 0x008 .word v).status }
    ∧ (∀ k, k = 1 ∨ k = 2 ∨ k = 3 ∨ k = 4 →
      (s.hostWrite .reg 0x008 .word v).statusWord.getLsbD k = (s.statusWord.getLsbD k && !v.getLsbD k))
    ∧ s.hostWrite .reg 0x00C .word v
      = { s with control := { cancel := s.control.cancel || v.getLsbD 0, irqEn := v.getLsbD 1 } }
    ∧ (sp ≠ .reg → s.hostRead sp a n = { s with pending := none }.hostRead sp a n)
    ∧ (∀ r, r ∉ [0x008, 0x024, 0x028, 0x02C] →
      s.hostRead .reg r .word = { s with pending := none }.hostRead .reg r .word)
    ∧ s.hostRead .reg 0x024 .word = s.resBefore.res0 ∧ s.hostRead .reg 0x028 .word = s.resBefore.res1
    ∧ s.hostRead .reg 0x02C .word = s.resBefore.res2

/-- An access that is misaligned or runs past the end of its space, and one to `REG` that is not a whole aligned word, is
refused: a read returns 0, a write changes nothing: R84, R85, R86. -/
def Obligations.RefusedAccesses : Prop :=
  ∀ (s : State) (sp : Space) (a : Nat) (n : AccessSize) (v : Word),
    a % n.bytes ≠ 0 ∨ s.spaceSize sp < a + n.bytes ∨ (sp = .reg ∧ n ≠ .word) →
    s.hostRead sp a n = 0 ∧ s.hostWrite sp a n v = s

/-- A performed `DICT` write while idle clears `TABLE_VALID` exactly when it writes below `TABLE_END`, and
changes no byte outside the access and nothing else: R87. -/
def Obligations.DictWriteInvalidates : Prop :=
  ∀ (s : State) (a : Nat) (n : AccessSize) (v : Word),
    s.inReset = false → s.busy = false → s.performed .dict a n = true →
    let t := s.hostWrite .dict a n v
    ((∃ i, a ≤ i ∧ i < a + n.bytes ∧ i < s.table.fin.toNat) → t.table.valid = false)
      ∧ ((∀ i, a ≤ i → i < a + n.bytes → s.table.fin.toNat ≤ i) → t.table.valid = s.table.valid)
      ∧ t = { s with dict := t.dict, table := { s.table with valid := t.table.valid } }
      ∧ ∀ b : Nat, b < a ∨ a + n.bytes ≤ b → Memory.read t.dict b = Memory.read s.dict b

/-- What a performed write to `DICT` or `OUT` stores, a read of the same bytes returns, least significant byte first; a
write to `OUT` changes no other byte and nothing else: R83, R84, R97. -/
def Obligations.MemoryReadsBack : Prop :=
  ∀ (s : State) (a : Nat) (n : AccessSize) (v : Word),
    s.MemoryOk → s.inReset = false → s.busy = false →
    (s.performed .dict a n = true →
      (s.hostWrite .dict a n v).hostRead .dict a n = BitVec.ofNat 32 (v.toNat % 2 ^ (8 * n.bytes))
        ∧ ∀ k < n.bytes, byteAt (s.hostWrite .dict a n v).dict (a + k) = v.toNat / 2 ^ (8 * k) % 256)
      ∧ (s.performed .out a n = true →
        let t := s.hostWrite .out a n v
        t.hostRead .out a n = BitVec.ofNat 32 (v.toNat % 2 ^ (8 * n.bytes))
          ∧ (∀ k < n.bytes, byteAt t.out (a + k) = v.toNat / 2 ^ (8 * k) % 256)
          ∧ t = { s with out := t.out }
          ∧ ∀ b : Nat, b < a ∨ a + n.bytes ≤ b → Memory.read t.out b = Memory.read s.out b)

/-- An idle write to a readable and writable register stores the written bits, those of reserved places aside, and no
other register of the aperture reads otherwise than before; a write to a read-only register or a reserved offset changes
nothing: R30, R51, R97. -/
def Obligations.RegisterWritesReadBack : Prop :=
  ∀ (s : State) (v : Word), s.inReset = false → s.busy = false → s.nLanes ≤ 16 →
    (∀ r ∈ storedRegs,
      (s.hostWrite .reg r.1 .word v).hostRead .reg r.1 .word = v &&& r.2
        ∧ ∀ b, b ≠ r.1 → (s.hostWrite .reg r.1 .word v).hostRead .reg b .word = s.hostRead .reg b .word)
      ∧ (∀ L < s.nLanes, ∀ r ∈ storedLaneRegs,
        (s.hostWrite .reg (0x100 + 0x40 * L + r) .word v).hostRead .reg (0x100 + 0x40 * L + r) .word = v
          ∧ ∀ b, b ≠ 0x100 + 0x40 * L + r →
            (s.hostWrite .reg (0x100 + 0x40 * L + r) .word v).hostRead .reg b .word = s.hostRead .reg b .word)
      ∧ (∀ r ∈ readOnlyRegs, s.hostWrite .reg r .word v = s)
      ∧ (∀ L < s.nLanes, ∀ r ∈ readOnlyLaneRegs, s.hostWrite .reg (0x100 + 0x40 * L + r) .word v = s)
      ∧ (∀ a, 0x9C ≤ a ∧ a < 0xEC ∨ 0x100 + 0x40 * s.nLanes ≤ a →
        s.hostWrite .reg a .word v = s ∧ s.hostRead .reg a .word = 0)

/-- No host read changes any state of the block: R97. -/
def Obligations.ReadsChangeNothing : Prop :=
  ∀ (s : State) (sp : Space) (a : Nat) (n : AccessSize) (rest : List Input),
    s.inputs = .read sp a n :: rest →
    step s = .next { s with inputs := rest, readData := s.hostRead sp a n }

/-- A write to `STATUS`, busy or idle, clears each of `DONE`, `ERR`, `CANCELED`, `REJECTED` where it has a 1 and changes
nothing else; a write to `CONTROL` stores `IRQ_EN`, and sets `CANCEL` where it has a 1 while busy: R33, R34. -/
def Obligations.StatusAndControlWrites : Prop :=
  ∀ (s : State) (v : Word), s.inReset = false →
    (∀ t, t = s.hostWrite .reg 0x008 .word v →
      t = { s with status := t.status } ∧ t.status.code = s.status.code
        ∧ ∀ k < 32, t.statusWord.getLsbD k
            = (s.statusWord.getLsbD k && !((k == 1 || k == 2 || k == 3 || k == 4) && v.getLsbD k)))
      ∧ ∀ t, t = s.hostWrite .reg 0x00C .word v →
        t = { s with control := t.control }
          ∧ t.control.irqEn = v.getLsbD 1
          ∧ t.control.cancel = (s.control.cancel || (s.busy && v.getLsbD 0))

/-! ## 70_reset_and_hazards.md -/

/-- Right after reset every register reads the value of R30, R51 and R52, no stream is open, no table exists, no lane is
initialised: R64, R390, R391. -/
def Obligations.ResetValues : Prop :=
  ∀ (n : Nat) (p : Params), 1 ≤ n → n ≤ 16 →
    let s := State.resetWith n p
    (∀ r ∈ resetWords, s.hostRead .reg r.1 .word = r.2)
      ∧ s.hostRead .reg 0x074 .word = p.outCap ∧ s.hostRead .reg 0x0EC .word = p.stageCap
      ∧ s.hostRead .reg 0x0F4 .word = p.dictCap ∧ s.hostRead .reg 0x0F8 .word = p.outCap
      ∧ s.hostRead .reg 0x0FC .word = p.tableCap
      ∧ (s.hostRead .reg 0x0F0 .word).toNat = n + 256 * p.nMf.toNat
      ∧ (∀ L < n, ∀ r ∈ resetLaneWords, s.hostRead .reg (0x100 + 0x40 * L + r.1) .word = r.2)
      ∧ s.stream.ckData = [] ∧ s.irq = false

/-- Asserting reset abandons a running command, whose work is lost, and returns the block to its reset state; while it is
asserted reads return 0 and writes have no effect: R390. The model's choices: that every reset empties `DICT` and `OUT`
(log 5) and gives `Prob`, `SNAP`, `STAGE` and the table's storage the contents of `State.resetWith` (log 6), all of which the
spec leaves undefined; when the registers take their reset values (log 10); and that a reset keeps `draws` (log 3) and
`readData` (log 12), which are no state of the block. -/
def Obligations.ResetAbandons : Prop :=
  ∀ (s : State) (rest : List Input) (sp : Space) (a : Nat) (n : AccessSize) (v : Word),
    (s.inputs = .assertReset :: rest →
      step s = .next { State.resetWith s.nLanes s.params with
        inReset := true, inputs := rest, readData := s.readData, draws := s.draws })
      ∧ (s.inReset = true → s.hostRead sp a n = 0 ∧ s.hostWrite sp a n v = s)
      ∧ (s.inputs = .releaseReset :: rest → step s = .next { s with inReset := false, inputs := rest })

/-! ## Invariants of every step -/

/-- Every memory keeps its canonical form, and no byte outside `DICT_CAP` or `OUT_CAP` is ever written. -/
def Obligations.MemoryOkKept : Prop :=
  ∀ s t : State, s.MemoryOk → step s = .next t → t.MemoryOk

/-- A healthy coder stays healthy, and no step of a block whose coders are healthy stops: every pending command
completes: R144, R259, R373. -/
def Obligations.HealthyNeverStops : Prop :=
  ∀ s : State, s.Healthy → ∃ t, step s = .next t ∧ t.Healthy

/-- While `TABLE_VALID = 1` the table is that of the present `DICT`, as R175 and R176 say: kept by every step. -/
def Obligations.TableContractKept : Prop :=
  ∀ s t : State, s.TableContract → step s = .next t → t.TableContract

/-- Reserved bits stay 0, `CANCEL` is up only while busy, the result registers hold 0 while busy, codes 5 and 7 are never
written, latched properties stay legal: kept by every step. That the result registers hold 0 while a host read of them
gives the values from before the command is how the model reads R38 and R112 together with R91 and R97 (log 8, DEDUCED). -/
def Obligations.RegistersOkKept : Prop :=
  ∀ s t : State, s.RegistersOk → step s = .next t → t.RegistersOk

/-- The four invariants hold right after reset, for every instance. The model's choices: the instance that `State.reset` is,
eight lanes and `Params.reference` (log 1), and what the memories and the undefined storage hold at reset (logs 5, 6). -/
def Obligations.InvariantsAtReset : Prop :=
  ∀ (n : Nat) (p : Params),
    (State.resetWith n p).MemoryOk ∧ (State.resetWith n p).Healthy ∧ (State.resetWith n p).TableContract
      ∧ (State.resetWith n p).RegistersOk ∧ State.reset = State.resetWith 8 Params.reference

/-! ## 45_control.md -/

/-- `NOP` is the word 0 alone, completes and changes nothing else; `CLEAR` completes with the context reset and nothing
else: R330, R331. -/
def Obligations.NopAndClearResult : Prop :=
  (∀ w : Word, w &&& 0xFF = 0 → w ≠ 0 → decode w = .error .unusedBitSet) ∧ ∀ s : State,
    (∃ t, exec .nop s = .next t ∧ CompletesOk s t ∧ KeepsHostState s t ∧ ResultsAre t 0 0 0
      ∧ t.lanes = s.lanes ∧ t.table = s.table ∧ t.stream = s.stream ∧ KeepsOutput s t ∧ t.out = s.out)
    ∧ ∃ t, exec .clear s = .next t ∧ CompletesOk s t ∧ KeepsHostState s t ∧ ResultsAre t 0 0 0 ∧ ContextIsReset s t

/-- `PROB_READ` returns a word, `PROB_WRITE` replaces one and no other; on an uninitialised lane, at an index past
`PROB_WORDS`, for a value outside `31..2017` and on a lane that does not exist they fault: R333, R334. -/
def Obligations.ProbAccess : Prop :=
  ∀ (s : State) (L : Nat), s.MemoryOk →
    (s.nLanes ≤ L → exec (.probRead L) s = .next (s.faultCommit (encode (.probRead L)) .invalidParameter)
      ∧ exec (.probWrite L) s = .next (s.faultCommit (encode (.probWrite L)) .invalidParameter))
    ∧ ∀ l : Lane, s.lanes[L]? = some l →
    let i := s.args.arg0.toNat
    let v := s.args.arg1.toNat
    let ok := l.init = true ∧ i < 1846 + 768 * 2 ^ (l.lc.toNat + l.lp.toNat)
    (ok → ∃ t, exec (.probRead L) s = .next t ∧ LaneOnly s t L l ∧ ResultsAre t (ProbMem.read l.prob i).toNat 0 0)
      ∧ (ok → 31 ≤ v → v ≤ 2017 →
        ∃ t l', exec (.probWrite L) s = .next t ∧ LaneOnly s t L l' ∧ ResultsAre t 0 0 0
          ∧ l' = { l with prob := l'.prob }
          ∧ ∀ j, (ProbMem.read l'.prob j).toNat = if j = i then v else (ProbMem.read l.prob j).toNat)
      ∧ (l.init = false → exec (.probRead L) s = .next (s.faultCommit (encode (.probRead L)) .sequenceError)
        ∧ exec (.probWrite L) s = .next (s.faultCommit (encode (.probWrite L)) .sequenceError))
      ∧ (l.init = true → ¬ i < 1846 + 768 * 2 ^ (l.lc.toNat + l.lp.toNat) →
        exec (.probRead L) s = .next (s.faultCommit (encode (.probRead L)) .invalidParameter)
          ∧ exec (.probWrite L) s = .next (s.faultCommit (encode (.probWrite L)) .invalidParameter))
      ∧ (ok → v < 31 ∨ 2017 < v →
        exec (.probWrite L) s = .next (s.faultCommit (encode (.probWrite L)) .invalidParameter))

/-! ## 40_range_coder.md -/

/-- `RC_RESET` on a lane with a well-formed window: `low` 0, `range` 0xFFFFFFFF, `cache` 0, `cache_size` 1, nothing else;
otherwise it faults: R140, R142. -/
def Obligations.RcResetResult : Prop :=
  ∀ (s : State) (L : Nat),
    (∀ l, s.lanes[L]? = some l → l.outLen.toNat ≤ l.outCap.toNat →
      l.outBase.toNat + l.outCap.toNat ≤ s.params.outCap.toNat →
      ∃ t, exec (.rcReset L) s = .next t ∧ ResultsAre t 0 0 0
        ∧ LaneOnly s t L { l with rc := { low := 0, range := 0xFFFFFFFF, cache := 0, cacheSize := 1 } })
      ∧ (s.nLanes ≤ L → exec (.rcReset L) s = .next (s.faultCommit (encode (.rcReset L)) .invalidParameter))
      ∧ (∀ l, s.lanes[L]? = some l →
        l.outCap.toNat < l.outLen.toNat ∨ s.params.outCap.toNat < l.outBase.toNat + l.outCap.toNat →
        exec (.rcReset L) s = .next (s.faultCommit (encode (.rcReset L)) .invalidParameter))

/-- The lane window is a sink that takes exactly its free bytes: a coding operation gives what it gives with an unbounded
sink if the bytes emitted fit, and `DESTINATION_TOO_SMALL` if they do not: R141. -/
def Obligations.WindowOverrun : Prop :=
  ∀ (f : Enc → Except Halt Enc) (x : SymCtx) (a b c d : Nat) (bit : Bool),
    f = encodeBit a bit ∨ f = encodeDirect a b ∨ f = encodeTree a b c ∨ f = encodeTreeRev a b c ∨ f = flush
      ∨ f = encodeLiteral x a ∨ f = encodeMatch x a b c ∨ f = encodeRep x a b d ∨ f = encodeShortRep x a →
    ∀ (l : Lane) (n : Nat),
      let free := { lane := l, rev := [], room := none : Enc }
      let bounded := { lane := l, rev := [], room := some n : Enc }
      (∀ e, f free = .ok e →
        (e.rev.length ≤ n → f bounded = .ok { e with room := some n })
          ∧ (n < e.rev.length → f bounded = .error (.fault .destinationTooSmall)))
        ∧ ∀ h, f free = .error h → f bounded = .error h ∨ f bounded = .error (.fault .destinationTooSmall)

/-- `RC_BIT` on a healthy lane with room for the pending bytes and one more: the probability adapts, no other does, at
most one shift follows, and the number the coder stands for gains exactly the split point for a 1 and nothing for a 0,
scaled by the shift. It faults on a lane that does not exist, a malformed window, an uninitialised lane, and an index
past `PROB_WORDS`: R143, R144, R145. -/
def Obligations.RcBitResult : Prop :=
  ∀ (s : State) (L : Nat) (b : Bool), CodingStartFaults s L (.rcBit L b)
    ∧ ∀ l : Lane, s.lanes[L]? = some l →
    (s.windowLegal l = true → l.init = true → 1846 + 768 * 2 ^ (l.lc.toNat + l.lp.toNat) ≤ s.args.arg0.toNat →
      exec (.rcBit L b) s = .next (s.faultCommit (encode (.rcBit L b)) .invalidParameter))
    ∧ (s.MemoryOk → l.Ready s 1 → l.init = true → s.args.arg0.toNat < l.probWords →
    let i := s.args.arg0.toNat
    let p := (ProbMem.read l.prob i).toNat
    let bound := l.rc.range.toNat / 2 ^ 11 * p
    ∃ t l' bytes k, exec (.rcBit L b) s = .next t ∧ WindowCoded s t L l l' bytes ∧ CoderOnly l l' ∧ l'.Healthy
      ∧ (∀ j, (ProbMem.read l'.prob j).toNat = if j = i then adapted p b else (ProbMem.read l.prob j).toNat)
      ∧ k ≤ 1 ∧ bytes.length + l'.rc.cacheSize.toNat = l.rc.cacheSize.toNat + k
      ∧ l'.rc.range.toNat = 256 ^ k * (if b then l.rc.range.toNat - bound else bound)
      ∧ codeValue bytes l'.rc = 256 ^ k * (codeValue [] l.rc + if b then bound else 0))

/-- `RC_TREE` and `RC_TREE_REV` code the bits of the symbol along one path of the tree: each word on the path adapts to
the bit coded with it, no other word changes, and the coder moves as that many bits coded one by one move it. They fault on
a lane that does not exist, a malformed window, an uninitialised lane, 0 or more than 16 bits, and a tree past
`PROB_WORDS`: R148 to R151. -/
def Obligations.RcTreeResult : Prop :=
  ∀ (s : State) (L n : Nat),
    (∀ i : Instr, i = .rcTree L n ∨ i = .rcTreeRev L n → CodingStartFaults s L i
      ∧ ∀ l : Lane, s.lanes[L]? = some l → s.windowLegal l = true → l.init = true →
        n = 0 ∨ 16 < n ∨ 1846 + 768 * 2 ^ (l.lc.toNat + l.lp.toNat) ≤ s.args.arg0.toNat + 2 ^ n - 1 →
        exec i s = .next (s.faultCommit (encode i) .invalidParameter))
    ∧ ∀ l : Lane,
    s.MemoryOk → s.lanes[L]? = some l → l.Ready s 16 → l.init = true → 1 ≤ n → n ≤ 16 →
    s.args.arg0.toNat + 2 ^ n - 1 < l.probWords →
    let base := s.args.arg0.toNat
    let sym := s.args.arg1.toNat % 2 ^ n
    let word (node : Nat) := (ProbMem.read l.prob (base + node)).toNat
    (∃ t l' bytes, exec (.rcTree L n) s = .next t ∧ WindowCoded s t L l l' bytes ∧ CoderOnly l l' ∧ l'.Healthy
      ∧ (∀ d < n, (ProbMem.read l'.prob (base + treeNode n sym d)).toNat
          = adapted (word (treeNode n sym d)) (sym.testBit (n - 1 - d)))
      ∧ (∀ j, (∀ d < n, j ≠ base + treeNode n sym d) → ProbMem.read l'.prob j = ProbMem.read l.prob j)
      ∧ CodesTo l l' bytes ((List.range n).foldl
          (fun c d => c.bit (word (treeNode n sym d)) (sym.testBit (n - 1 - d))) (.ofLane l)))
    ∧ ∃ t l' bytes, exec (.rcTreeRev L n) s = .next t ∧ WindowCoded s t L l l' bytes ∧ CoderOnly l l' ∧ l'.Healthy
      ∧ (∀ d < n, (ProbMem.read l'.prob (base + treeRevNode sym d)).toNat
          = adapted (word (treeRevNode sym d)) (sym.testBit d))
      ∧ (∀ j, (∀ d < n, j ≠ base + treeRevNode sym d) → ProbMem.read l'.prob j = ProbMem.read l.prob j)
      ∧ CodesTo l l' bytes ((List.range n).foldl
          (fun c d => c.bit (word (treeRevNode sym d)) (sym.testBit d)) (.ofLane l))

/-- `RC_DIRECT` with `nbits` in 1..32 codes the low bits of `ARG1`, the highest first, each with probability one half: the
coder moves as that many halvings move it, with at most four shifts, and no probability changes. Other counts, a lane that
does not exist and a malformed window fault: R146, R147. -/
def Obligations.RcDirectResult : Prop :=
  ∀ (s : State) (L n : Nat), WindowStartFaults s L (.rcDirect L n)
    ∧ ∀ l : Lane, s.MemoryOk → s.lanes[L]? = some l →
    (l.Ready s 4 → 1 ≤ n → n ≤ 32 →
      let v := s.args.arg1.toNat % 2 ^ n
      let c := (List.range n).foldl (fun c d => c.half (v.testBit (n - 1 - d))) (CodedNumber.ofLane l)
      ∃ t l' bytes, exec (.rcDirect L n) s = .next t ∧ WindowCoded s t L l l' bytes ∧ CoderOnly l l' ∧ l'.Healthy
        ∧ l'.prob = l.prob ∧ CodesTo l l' bytes c ∧ c.shifts ≤ 4)
      ∧ (s.windowLegal l = true → n = 0 ∨ 32 < n →
        exec (.rcDirect L n) s = .next (s.faultCommit (encode (.rcDirect L n)) .invalidParameter))

/-- `RC_FLUSH` emits exactly `cache_size + 4` bytes, whose big-endian value is the number the coder stood for, and leaves
`low` 0, `cache_size` 1 and `range` as it was; without room for them it faults `DESTINATION_TOO_SMALL`, and on a lane that
does not exist or a malformed window `INVALID_PARAMETER`: R152, R153. -/
def Obligations.RcFlushResult : Prop :=
  ∀ (s : State) (L : Nat), WindowStartFaults s L (.rcFlush L)
    ∧ ∀ l : Lane,
    s.MemoryOk → s.lanes[L]? = some l → l.rc.Healthy → s.windowLegal l = true →
    (l.outLen.toNat + l.rc.cacheSize.toNat + 4 ≤ l.outCap.toNat →
      ∃ t l' bytes, exec (.rcFlush L) s = .next t ∧ WindowCoded s t L l l' bytes
        ∧ l' = { l with
            rc := { low := 0, range := l.rc.range, cache := 0, cacheSize := 1 }, outLen := l'.outLen }
        ∧ bytes.length = l.rc.cacheSize.toNat + 4 ∧ bigEndian bytes = codeValue [] l.rc)
      ∧ (l.outCap.toNat < l.outLen.toNat + l.rc.cacheSize.toNat + 4 → l.rc.cacheSize.toNat + 4 < 2 ^ 32 →
        exec (.rcFlush L) s = .next (s.faultCommit (encode (.rcFlush L)) .destinationTooSmall))

/-- `RC_PRICE` returns the entry that R154's algorithm computes, for a 1 that of the mirrored index, and touches nothing
else; above 2047 it faults: R154, R155. -/
def Obligations.RcPriceResult : Prop :=
  ∀ (s : State) (b : Bool),
    let p := s.args.arg0.toNat
    (p ≤ 2047 →
      ∃ t, exec (.rcPrice b) s = .next t ∧ CompletesOk s t ∧ KeepsHostState s t
        ∧ ResultsAre t (priceFormula (if b then (2047 - p) / 16 else p / 16)) 0 0
        ∧ t.lanes = s.lanes ∧ t.table = s.table ∧ t.stream = s.stream ∧ KeepsOutput s t ∧ KeepsOut s t)
      ∧ (2047 < p → exec (.rcPrice b) s = .next (s.faultCommit (encode (.rcPrice b)) .invalidParameter))

/-! ## 41_match_finder.md -/

/-- `MF_CREATE` takes the form by `DICT_SIZE`, makes the table invalid and records its size; an illegal size or a table
larger than `TABLE_CAP` faults: R173, R180. -/
def Obligations.MfCreateResult : Prop :=
  ∀ s : State,
    let n := s.cfg.dictSize.toNat
    let bytes := if 2 ^ 26 < n then 20 * ((n + 3) / 4) else 4 * n
    (4096 ≤ n → n ≤ 2 ^ 30 → bytes ≤ s.params.tableCap.toNat →
      ∃ t, exec .mfCreate s = .next t ∧ CompletesOk s t ∧ KeepsHostState s t ∧ ResultsAre t 0 0 0
        ∧ t.table = { created := true, isStruct := decide (2 ^ 26 < n), valid := false, size := s.cfg.dictSize
                      fin := 0, caplen := 0, storage := t.table.storage }
        ∧ t.lanes = s.lanes ∧ t.stream = s.stream ∧ KeepsOutput s t ∧ KeepsOut s t)
      ∧ (n < 4096 ∨ 2 ^ 30 < n → exec .mfCreate s = .next (s.faultCommit (encode .mfCreate) .invalidParameter))
      ∧ (4096 ≤ n → n ≤ 2 ^ 30 → s.params.tableCap.toNat < bytes →
        exec .mfCreate s = .next (s.faultCommit (encode .mfCreate) .outOfMemory))

/-- `MF_BUILD` under its start checks and no cancel request builds the table of R175 (R176) over `DICT[0 .. BLK_END-1]`
with `CAPLEN = min(DEPTH, LEN_FIELD_MAX)`; each start check faults: R174, R175, R181. -/
def Obligations.MfBuildResult : Prop :=
  ∀ s : State,
    let paramsLegal := 6 ≤ s.cfg.depth ∧ s.cfg.depth ≤ 254 ∧ s.cfg.bufResize ≤ 4
    let blockLegal := s.cfg.blkStart.toNat ≤ s.cfg.blkEnd.toNat ∧ s.cfg.blkEnd.toNat ≤ s.table.size.toNat
      ∧ s.cfg.blkEnd.toNat ≤ s.params.dictCap.toNat
    (s.TableContract → s.table.created = true → paramsLegal → blockLegal → s.control.cancel = false →
      let cap := min s.cfg.depth (if s.table.isStruct then 255 else 63)
      ∃ t, exec .mfBuild s = .next t ∧ CompletesOk s t ∧ KeepsHostState s t ∧ ResultsAre t 0 0 0
        ∧ t.table.created = true ∧ t.table.isStruct = s.table.isStruct ∧ t.table.size = s.table.size
        ∧ t.table.valid = true ∧ t.table.fin = s.cfg.blkEnd ∧ t.table.caplen.toNat = cap
        ∧ (∀ p < s.cfg.blkEnd.toNat,
            SlotContract s.params.mfMode (Memory.readBytes s.dict 0 s.cfg.blkEnd.toNat) cap p (t.table.slot p))
        ∧ t.lanes = s.lanes ∧ t.stream = s.stream ∧ KeepsOutput s t ∧ KeepsOut s t)
    ∧ (s.table.created = false → exec .mfBuild s = .next (s.faultCommit (encode .mfBuild) .sequenceError))
    ∧ (s.table.created = true → ¬ paramsLegal ∨ ¬ blockLegal →
      exec .mfBuild s = .next (s.faultCommit (encode .mfBuild) .invalidParameter))

/-- `MF_GET_MATCH` at a position of a valid table returns the slot's distance and its length, extended byte by byte at
that distance if and only if it reached the cap: R187, R189. -/
def Obligations.MfGetMatchResult : Prop :=
  ∀ s : State, s.TableContract → s.table.valid = true → s.args.arg0.toNat < s.table.fin.toNat →
    let p := s.args.arg0.toNat
    let lim := min 273 (s.table.fin.toNat - p)
    ∃ t n dist, exec .mfGetMatch s = .next t ∧ CompletesOk s t ∧ KeepsHostState s t ∧ ResultsAre t n dist 0
      ∧ (s.table.slot p = .null → n = 0 ∧ dist = 0)
      ∧ (∀ q len, s.table.slot p = .entry q len →
          dist = p - q - 1 ∧ q < p
            ∧ (len ≠ s.table.caplen.toNat → n = len)
            ∧ (len = s.table.caplen.toNat →
              len ≤ n ∧ n ≤ lim
                ∧ (∀ i, len ≤ i → i < n → Memory.read s.dict (p + i) = Memory.read s.dict (q + i))
                ∧ (n < lim → Memory.read s.dict (p + n) ≠ Memory.read s.dict (q + n))))
      ∧ t.lanes = s.lanes ∧ t.table = s.table ∧ t.stream = s.stream ∧ KeepsOutput s t ∧ KeepsOut s t

/-- `MF_GET_NEXT_MATCH` returns no match where the slots of `p-1` and `p` hold the same distance, else what
`MF_GET_MATCH` returns; `MF_READ_SLOT` returns the raw slot; without a valid table, or at or past `TABLE_END`, the queries
fault: R188, R189, R190, R191. -/
def Obligations.MfOtherQueriesResult : Prop :=
  ∀ s : State,
    let p := s.args.arg0.toNat
    let continues := 1 ≤ p ∧ ∃ q' len' q len, s.table.slot (p - 1) = .entry q' len' ∧ s.table.slot p = .entry q len
      ∧ q' + 1 = q
    (s.TableContract → s.table.valid = true → p < s.table.fin.toNat →
      (∃ t t', exec .mfGetMatch s = .next t' ∧ exec .mfGetNextMatch s = .next t
        ∧ (continues → ResultsAre t 0 0 0) ∧ (¬ continues → t = t')
        ∧ CompletesOk s t ∧ KeepsHostState s t
        ∧ t.lanes = s.lanes ∧ t.table = s.table ∧ t.stream = s.stream ∧ KeepsOutput s t ∧ KeepsOut s t)
      ∧ ∃ t, exec .mfReadSlot s = .next t ∧ CompletesOk s t ∧ KeepsHostState s t
        ∧ (s.table.slot p = .null → ResultsAre t 0xFFFFFFFF 0 0)
        ∧ (∀ q len, s.table.slot p = .entry q len → ResultsAre t q len 0)
        ∧ t.lanes = s.lanes ∧ t.table = s.table ∧ t.stream = s.stream ∧ KeepsOutput s t ∧ KeepsOut s t)
    ∧ ∀ i : Instr, i = .mfGetMatch ∨ i = .mfGetNextMatch ∨ i = .mfReadSlot →
      (s.table.valid = false → exec i s = .next (s.faultCommit (encode i) .sequenceError))
        ∧ (s.table.valid = true → s.table.fin.toNat ≤ p →
          exec i s = .next (s.faultCommit (encode i) .invalidParameter))

/-- Every slot of a table under its contract is a match: `q < p`, the bytes agree, and the match ends in the block:
R179. -/
def Obligations.MatchesAreValid : Prop :=
  ∀ (s : State) (p q len : Nat), s.TableContract → s.table.valid = true → p < s.table.fin.toNat →
    s.table.slot p = .entry q len →
    q < p ∧ p - q - 1 < p ∧ p + len ≤ s.table.fin.toNat
      ∧ ∀ i < len, Memory.read s.dict (p + i) = Memory.read s.dict (q + i)

/-- The source's procedure, seed pass and refinement, builds exactly the canonical table: R182, R183. -/
def Obligations.RadixBuildsCanonicalTable : Prop :=
  ∀ (d : List Byte) (c draw : Nat), 2 ≤ c → radixSlots d c = buildSlots .canonical draw d c

/-! ## 42_lzma_symbols.md -/

/-- `ENC_RESET_STATE` latches legal properties, zeroes `STATE` and the reps, sets every probability to 1024, `INIT` to 1
and `SNAP_VALID` to 0; illegal properties and a lane that does not exist fault: R221. -/
def Obligations.EncResetStateResult : Prop :=
  ∀ (s : State) (L : Nat),
    (s.nLanes ≤ L →
      exec (.encResetState L) s = .next (s.faultCommit (encode (.encResetState L)) .invalidParameter))
    ∧ ∀ l : Lane, s.lanes[L]? = some l →
    (s.cfg.lc + s.cfg.lp ≤ 4 → s.cfg.pb ≤ 4 →
      ∃ t l', exec (.encResetState L) s = .next t ∧ LaneOnly s t L l' ∧ ResultsAre t 0 0 0
        ∧ l'.lc.toNat = s.cfg.lc ∧ l'.lp.toNat = s.cfg.lp ∧ l'.pb.toNat = s.cfg.pb
        ∧ (∀ i, ProbMem.read l'.prob i = 1024)
        ∧ l' = { l with
            lc := l'.lc, lp := l'.lp, pb := l'.pb, prob := l'.prob, st := 0
            reps := { rep0 := 0, rep1 := 0, rep2 := 0, rep3 := 0 }, init := true, snapValid := false })
      ∧ (4 < s.cfg.lc + s.cfg.lp ∨ 4 < s.cfg.pb →
        exec (.encResetState L) s = .next (s.faultCommit (encode (.encResetState L)) .invalidParameter))

/-- `ENC_SNAPSHOT` stores `STATE`, the reps and the probabilities; `ENC_ROLLBACK` brings them back and leaves the coder,
`LANE_POS` and the window alone; each faults `SEQUENCE_ERROR` without its guard, and on a lane that does not exist
`INVALID_PARAMETER`: R226, R227. -/
def Obligations.SnapshotAndRollback : Prop :=
  ∀ (s : State) (L : Nat),
    (s.nLanes ≤ L → exec (.encSnapshot L) s = .next (s.faultCommit (encode (.encSnapshot L)) .invalidParameter)
      ∧ exec (.encRollback L) s = .next (s.faultCommit (encode (.encRollback L)) .invalidParameter))
    ∧ ∀ l : Lane, s.lanes[L]? = some l →
    (l.init = true → ∃ t, exec (.encSnapshot L) s = .next t ∧ ResultsAre t 0 0 0
      ∧ LaneOnly s t L { l with snap := { st := l.st, reps := l.reps, prob := l.prob }, snapValid := true })
    ∧ (l.snapValid = true → ∃ t, exec (.encRollback L) s = .next t ∧ ResultsAre t 0 0 0
      ∧ LaneOnly s t L { l with st := l.snap.st, reps := l.snap.reps, prob := l.snap.prob, init := true })
    ∧ (l.init = false → exec (.encSnapshot L) s = .next (s.faultCommit (encode (.encSnapshot L)) .sequenceError))
    ∧ (l.snapValid = false → exec (.encRollback L) s = .next (s.faultCommit (encode (.encRollback L)) .sequenceError))

/-- `ENC_LITERAL`: `LANE_POS` becomes `p + 1`, `STATE` moves by R211, the reps stay; of the probabilities only the
`isMatch` word, which adapts to 0, and words of the position's literal coder change; the coder moves as the flag and the
eight bits of `D[p]`, plain or matched, on the words of R217 move it, and those words adapt: R211, R216, R217, R222. -/
def Obligations.EncLiteralResult : Prop :=
  ∀ (s : State) (L : Nat) (l : Lane),
    let p := s.args.arg0.toNat
    s.MemoryOk → s.lanes[L]? = some l → l.Ready s 9 → l.init = true →
    s.cfg.blkEnd.toNat ≤ s.params.dictCap.toNat →
    p < s.cfg.blkEnd.toNat → (7 ≤ l.st.val → l.reps.rep0.toNat < p) →
    let spos := s.cfg.posPhase + p
    let prev := if p = 0 then 0 else byteAt s.dict (p - 1)
    let flag := 16 * l.st.val + spos % 2 ^ l.pb.toNat
    let coder := 1846 + 768 * (spos % 2 ^ l.lp.toNat * 2 ^ l.lc.toNat + prev / 2 ^ (8 - l.lc.toNat))
    ∃ t l' bytes, exec (.encLiteral L) s = .next t ∧ WindowCoded s t L l l' bytes ∧ SymbolOnly l l' ∧ l'.Healthy
      ∧ l'.pos.toNat = p + 1 ∧ l'.st.val = afterLiteral l.st.val ∧ l'.reps = l.reps
      ∧ (ProbMem.read l'.prob flag).toNat = adapted (ProbMem.read l.prob flag).toNat false
      ∧ (∀ j, j ≠ flag → j < coder ∨ coder + 768 ≤ j → ProbMem.read l'.prob j = ProbMem.read l.prob j)
      ∧ CodesBits l l' bytes (symbolBits s.dict s.cfg.posPhase l p .lit)

/-- `ENC_MATCH`: `LANE_POS` becomes `p + len`, `STATE` moves by R211, the distance enters the reps at the front; the flag
words adapt to 1 and 0, and no literal or rep-length word changes; the coder moves as the flags, the length of R214 and the
distance of R215 move it, and the words they use adapt: R211, R214, R215, R218, R223. -/
def Obligations.EncMatchResult : Prop :=
  ∀ (s : State) (L : Nat) (l : Lane),
    let p := s.args.arg0.toNat
    let len := s.args.arg1.toNat
    let dist := s.args.arg2
    s.MemoryOk → s.lanes[L]? = some l → l.Ready s 26 → l.init = true →
    s.cfg.blkEnd.toNat ≤ s.params.dictCap.toNat →
    2 ≤ len → len ≤ 273 → p + len ≤ s.cfg.blkEnd.toNat → dist.toNat < p →
    let flag := 16 * l.st.val + (s.cfg.posPhase + p) % 2 ^ l.pb.toNat
    ∃ t l' bytes, exec (.encMatch L) s = .next t ∧ WindowCoded s t L l l' bytes ∧ SymbolOnly l l' ∧ l'.Healthy
      ∧ l'.pos.toNat = p + len ∧ l'.st.val = afterMatch l.st.val
      ∧ l'.reps = { rep0 := dist, rep1 := l.reps.rep0, rep2 := l.reps.rep1, rep3 := l.reps.rep2 }
      ∧ (l.pb.toNat ≤ 4 → (ProbMem.read l'.prob flag).toNat = adapted (ProbMem.read l.prob flag).toNat true
          ∧ (ProbMem.read l'.prob (192 + l.st.val)).toNat
              = adapted (ProbMem.read l.prob (192 + l.st.val)).toNat false
          ∧ ∀ j, 1332 ≤ j → ProbMem.read l'.prob j = ProbMem.read l.prob j)
      ∧ CodesBits l l' bytes (symbolBits s.dict s.cfg.posPhase l p (.mtch len dist.toNat))

/-- `ENC_REP` moves the named rep to the front and `LANE_POS` to `p + len`; `ENC_SHORTREP` leaves the reps and moves it
to `p + 1`; `STATE` moves by R211; the coder moves as the flags that name the rep, and of `ENC_REP` the length of R214,
move it, and the words they use adapt: R211, R214, R219, R220, R224, R225. -/
def Obligations.EncRepResult : Prop :=
  ∀ (s : State) (L r : Nat) (l : Lane),
    let p := s.args.arg0.toNat
    let len := s.args.arg1.toNat
    s.MemoryOk → s.lanes[L]? = some l → l.Ready s 16 → l.init = true →
    s.cfg.blkEnd.toNat ≤ s.params.dictCap.toNat →
    (2 ≤ len → len ≤ 273 → p + len ≤ s.cfg.blkEnd.toNat → r < 4 → (l.reps.get r).toNat < p →
      ∃ t l' bytes, exec (.encRep L r) s = .next t ∧ WindowCoded s t L l l' bytes ∧ SymbolOnly l l' ∧ l'.Healthy
        ∧ l'.pos.toNat = p + len ∧ l'.st.val = afterRep l.st.val
        ∧ [l'.reps.rep0, l'.reps.rep1, l'.reps.rep2, l'.reps.rep3]
            = l.reps.get r :: ([l.reps.rep0, l.reps.rep1, l.reps.rep2, l.reps.rep3].eraseIdx r)
        ∧ (l.pb.toNat ≤ 4 → ∀ j, 1846 ≤ j → ProbMem.read l'.prob j = ProbMem.read l.prob j)
        ∧ CodesBits l l' bytes (symbolBits s.dict s.cfg.posPhase l p (.rep len r)))
    ∧ (p < s.cfg.blkEnd.toNat → l.reps.rep0.toNat < p →
      ∃ t l' bytes, exec (.encShortRep L) s = .next t ∧ WindowCoded s t L l l' bytes ∧ SymbolOnly l l' ∧ l'.Healthy
        ∧ l'.pos.toNat = p + 1 ∧ l'.st.val = afterShortRep l.st.val ∧ l'.reps = l.reps
        ∧ (l.pb.toNat ≤ 4 → ∀ j, 432 ≤ j → ProbMem.read l'.prob j = ProbMem.read l.prob j)
        ∧ CodesBits l l' bytes (symbolBits s.dict s.cfg.posPhase l p .shortRep))

/-- A command whose start checks do not all pass faults with the code of the first that fails, in the order of R351: the
symbol commands on a lane that does not exist, a malformed window, `INIT = 0`, `BLK_END > DICT_CAP` and their operands, and
every other command on its own list. In a healthy block the only other faults are those R351 lists for the command: R228,
R351, R353. -/
def Obligations.StartChecksFault : Prop :=
  ∀ (i : Instr) (s : State),
    (∀ c, startFault i s = some c → exec i s = .next (s.faultCommit (encode i) c))
    ∧ (s.Healthy → startFault i s = none → ∀ c : Code, c.isFault = true →
      exec i s = .next (s.faultCommit (encode i) c) → c ∈ execFaults i)

/-- In the chunk context one symbol adds at most 26 to the bytes emitted and pending. In either context it codes exactly
the bits of R214 to R220 that the four symbol commands code, on the same words, and moves `STATE` and the reps as they do.
The byte a matched literal compares with where `REP0 ≥ p` is a free value (log 20): R211, R214 to R220, R257. -/
def Obligations.SymbolGrowth : Prop :=
  (∀ (x : SymCtx) (p len dist r : Nat) (e e' : Enc),
    e.lane.Healthy → e.room = none → len ≤ 273 → dist < 2 ^ 32 →
    encodeLiteral x p e = .ok e' ∨ encodeMatch x p len dist e = .ok e' ∨ encodeRep x p len r e = .ok e'
      ∨ encodeShortRep x p e = .ok e' →
    e'.rev.length + e'.lane.rc.cacheSize.toNat ≤ e.rev.length + e.lane.rc.cacheSize.toNat + 26)
  ∧ ∀ (x : SymCtx) (p : Nat) (y : Symbol) (e e' : Enc),
    e.lane.Healthy → ProbMem.wf e.lane.prob = true → y.Legal → y.code x p e = .ok e' →
    e'.lane.Healthy ∧ e'.room = e.room
      ∧ (e'.coded, wordsOf e'.lane.prob)
        = decided (e.coded, wordsOf e.lane.prob) (symbolBits x.dict x.phase e.lane p y)
      ∧ e'.lane.st.val = y.stateAfter e.lane.st.val ∧ e'.lane.reps.list = y.repsAfter e.lane.reps.list
      ∧ e'.lane = { e.lane with
          rc := e'.lane.rc, prob := e'.lane.prob, st := e'.lane.st, reps := e'.lane.reps }

/-! ## 44_lzma2_stream.md -/

/-- `SLICE_BEGIN` with no open stream sets `LANE_POS`, `PENDING` and `SLICE_OPEN` and nothing else if `CheckSlice` passes,
and faults `INVALID_PARAMETER` if it does not; an open stream faults `SEQUENCE_ERROR`, a lane that does not exist
`INVALID_PARAMETER`: R290, R291. -/
def Obligations.SliceBeginResult : Prop :=
  ∀ (s : State) (L : Nat) (dr : Bool),
    (s.nLanes ≤ L → exec (.sliceBegin L dr) s = .next (s.faultCommit (encode (.sliceBegin L dr)) .invalidParameter))
    ∧ ∀ l : Lane, s.lanes[L]? = some l →
      let checkSlice :=
        s.cfg.blkStart.toNat ≤ s.cfg.blkEnd.toNat ∧ s.cfg.blkEnd.toNat ≤ s.params.dictCap.toNat
          ∧ (s.cfg.dictReset = true ↔ s.cfg.blkStart.toNat = 0) ∧ (s.cfg.dictReset = true → s.cfg.posPhase = 0)
          ∧ s.cfg.blkStart.toNat ≤ l.sliceStart.toNat ∧ l.sliceStart.toNat < l.sliceEnd.toNat
          ∧ l.sliceEnd.toNat ≤ s.cfg.blkEnd.toNat ∧ (dr = true ↔ l.sliceStart.toNat = 0)
      (s.stream.isOpen = false → checkSlice →
        ∃ t, exec (.sliceBegin L dr) s = .next t ∧ ResultsAre t 0 0 0
          ∧ LaneOnly s t L { l with pos := l.sliceStart, pending := if dr then 3 else 2, sliceOpen := true })
      ∧ (s.stream.isOpen = false → ¬ checkSlice →
        exec (.sliceBegin L dr) s = .next (s.faultCommit (encode (.sliceBegin L dr)) .invalidParameter))
      ∧ (s.stream.isOpen = true →
        exec (.sliceBegin L dr) s = .next (s.faultCommit (encode (.sliceBegin L dr)) .sequenceError))

/-- `ENC_CHUNK` under its start checks and with room for every chunk it could write completes: it covers `u` positions,
at least one and at most `CHUNK_U_MAX`, writes `RES0` bytes at `OUT_POS` and no other, and counts both. The room asked for,
six bytes a position, is more than R289 needs. A start check that fails faults with its code, and a run whose bytes do not
fit before `OUT_LIMIT`, which with more room completes, faults `DESTINATION_TOO_SMALL`: R285, R286, R293, R295, R296,
R297. -/
def Obligations.EncChunkCompletes : Prop :=
  ∀ (s : State) (L : Nat),
    (∀ c, startFault (.encChunk L) s = some c → exec (.encChunk L) s = .next (s.faultCommit (encode (.encChunk L)) c))
    ∧ (∀ limit cap b, Starts (.encChunk L) s → exec (.encChunk L) (s.withRoom limit cap) = .next b → CompletesOk s b →
      s.cfg.outLimit.toNat < s.outPos.toNat + b.res.res0.toNat →
      exec (.encChunk L) s = .next (s.faultCommit (encode (.encChunk L)) .destinationTooSmall))
    ∧ ∀ l : Lane,
    s.MemoryOk → s.lanes[L]? = some l → Starts (.encChunk L) s → l.Healthy →
    s.outPos.toNat + 6 * (l.sliceEnd.toNat - l.pos.toNat) ≤ s.cfg.outLimit.toNat →
    ∃ t l' bytes u kind, exec (.encChunk L) s = .next t ∧ CompletesOk s t ∧ KeepsHostState s t
      ∧ ResultsAre t bytes.length u kind ∧ 1 ≤ u ∧ u ≤ s.cfg.chunkUMax.toNat
      ∧ t.outPos.toNat = s.outPos.toNat + bytes.length ∧ WritesOut s t s.outPos.toNat bytes
      ∧ t.counters.consumed = s.counters.consumed + BitVec.ofNat 64 u
      ∧ t.counters.produced = s.counters.produced + BitVec.ofNat 64 bytes.length
      ∧ t.table = s.table ∧ t.stream = s.stream ∧ t.lanes = s.lanes.set L l'
      ∧ l'.pos.toNat = l.pos.toNat + u ∧ l'.sliceOpen = decide (l'.pos.toNat < l'.sliceEnd.toNat)
      ∧ l'.rc = { low := 0, range := 0xFFFFFFFF, cache := 0, cacheSize := 1 }
      ∧ l'.sliceStart = l.sliceStart ∧ l'.sliceEnd = l.sliceEnd ∧ l'.outBase = l.outBase ∧ l'.outCap = l.outCap
      ∧ l'.outLen = l.outLen ∧ l'.init = true ∧ l'.snapValid = true ∧ l'.Healthy

/-- The symbols and bytes of a completed `ENC_CHUNK`. The positions it covers are coded as R258 says, from the state R285
says, and, with a valid table, the symbols are true copies that spell those positions. Compressed (`RES2 = 0`): the header
of R280 with the level `PENDING`, then the code of those symbols, flushed as R152 says, with `5 ≤ c ≤ CHUNK_C_MAX` and
`c + STORE_MARGIN < u`; afterwards no reset is owed. Stored (`RES2` chunks, the positions by 65536): `u + 3·RES2` bytes,
each chunk as R280 says, and the lane's coding state as before the attempt: R152, R258, R280, R281, R283 to R288. -/
def Obligations.ChunkFormat : Prop :=
  ∀ (s t : State) (L : Nat) (l l' : Lane),
    s.MemoryOk → s.lanes[L]? = some l → l.Healthy → l.pending ≠ 1 → exec (.encChunk L) s = .next t → CompletesOk s t →
    t.lanes[L]? = some l' →
    let n := t.res.res0.toNat
    let u := t.res.res1.toNat
    let kind := t.res.res2.toNat
    let a := s.outPos.toNat
    let p := l.pos.toNat
    let head := if l.pending = 0 then 5 else 6
    1 ≤ u ∧ u ≤ 2 ^ 21
      ∧ ∃ e₀ e e' ys, OpensChunk s l e₀
        ∧ ParseRun (s.parseCtx (min l.sliceEnd.toNat (p + s.cfg.chunkUMax.toNat))) p e₀ ys (p + u) e
        ∧ flush e = .ok e' ∧ e'.rev.length = e.rev.length + e.lane.rc.cacheSize.toNat + 4
        ∧ bigEndian e'.bytes = codeValue e.bytes e.lane.rc
        ∧ (s.TableContract → Spells s.dict e₀.lane.reps p ys (p + u))
        ∧ (kind = 0 ↔ e'.rev.length + s.cfg.storeMargin.toNat < u)
        ∧ (kind = 0 →
            let c := n - head
            n = head + c ∧ 5 ≤ c ∧ c ≤ s.cfg.chunkCMax.toNat ∧ c ≤ 2 ^ 16 ∧ c + s.cfg.storeMargin.toNat < u
              ∧ CompressedHeaderAt t.out a l.pending.toNat u c
                  ((l'.pb.toNat * 5 + l'.lp.toNat) * 9 + l'.lc.toNat)
              ∧ Memory.readBytes t.out (a + head) c = e'.bytes
              ∧ l'.st = e.lane.st ∧ l'.reps = e.lane.reps ∧ l'.prob = e.lane.prob ∧ l'.pending = 0)
        ∧ (kind ≠ 0 →
            kind = (u + 65535) / 65536 ∧ n = u + 3 * kind
              ∧ (∀ j < kind, StoredChunkAt t.out s.dict (a + 65539 * j) (if l.pending = 3 ∧ j = 0 then 1 else 2)
                  (min 65536 (u - 65536 * j)) (p + 65536 * j))
              ∧ l'.pending = (if l.pending = 3 then 2 else l.pending)
              ∧ l'.st = e₀.lane.st ∧ l'.reps = e₀.lane.reps ∧ l'.prob = e₀.lane.prob)

/-- `ENC_SLICE` under its start checks and with room for every chunk it could write completes: it encodes the whole
slice. The room asked for, six bytes a position, is more than R289 needs. A start check that fails faults with its code, and
a run whose bytes do not fit before `OUT_LIMIT`, which with more room completes, faults `DESTINATION_TOO_SMALL`: R291, R294,
R295, R296, R297. -/
def Obligations.EncSliceCompletes : Prop :=
  ∀ (s : State) (L : Nat) (dr : Bool),
    (∀ c, startFault (.encSlice L dr) s = some c →
      exec (.encSlice L dr) s = .next (s.faultCommit (encode (.encSlice L dr)) c))
    ∧ (∀ limit cap b, Starts (.encSlice L dr) s → exec (.encSlice L dr) (s.withRoom limit cap) = .next b →
      CompletesOk s b → s.cfg.outLimit.toNat < s.outPos.toNat + b.res.res0.toNat →
      exec (.encSlice L dr) s = .next (s.faultCommit (encode (.encSlice L dr)) .destinationTooSmall))
    ∧ ∀ l : Lane,
    let n := l.sliceEnd.toNat - l.sliceStart.toNat
    s.MemoryOk → s.lanes[L]? = some l → Starts (.encSlice L dr) s → s.outPos.toNat + 6 * n ≤ s.cfg.outLimit.toNat →
    ∃ t l' bytes chunks, exec (.encSlice L dr) s = .next t ∧ CompletesOk s t ∧ KeepsHostState s t
      ∧ ResultsAre t bytes.length n chunks ∧ 1 ≤ chunks
      ∧ t.outPos.toNat = s.outPos.toNat + bytes.length ∧ WritesOut s t s.outPos.toNat bytes
      ∧ t.counters.consumed = s.counters.consumed + BitVec.ofNat 64 n
      ∧ t.counters.produced = s.counters.produced + BitVec.ofNat 64 bytes.length
      ∧ t.table = s.table ∧ t.stream = s.stream ∧ t.lanes = s.lanes.set L l'
      ∧ l'.pos = l.sliceEnd ∧ l'.sliceOpen = false
      ∧ l'.rc = { low := 0, range := 0xFFFFFFFF, cache := 0, cacheSize := 1 }
      ∧ l'.sliceStart = l.sliceStart ∧ l'.sliceEnd = l.sliceEnd ∧ l'.outBase = l.outBase ∧ l'.outCap = l.outCap
      ∧ l'.outLen = l.outLen ∧ l'.init = true ∧ l'.Healthy

/-- A completed `ENC_SLICE` leaves `OUT`, `OUT_POS`, the counters and every lane as `SLICE_BEGIN` and `ENC_CHUNK` while
`SLICE_OPEN = 1` do: R294. -/
def Obligations.SliceIsItsChunks : Prop :=
  ∀ (s t : State) (L : Nat) (l : Lane) (dr : Bool),
    s.lanes[L]? = some l → s.control.cancel = false → exec (.encSlice L dr) s = .next t → CompletesOk s t →
    ∃ a b n, exec (.sliceBegin L dr) s = .next a ∧ runChunks L n a = .next b
      ∧ (∀ k, b.lanes[L]? = some k → k.sliceOpen = false)
      ∧ b.out = t.out ∧ b.outPos = t.outPos ∧ b.counters = t.counters ∧ b.lanes = t.lanes

/-- `ENC_BLOCK`. An empty block completes and changes nothing but the status. Any other block, under its start checks and
with room in `STAGE` and `OUT`, is split into equal slices, the last taking the rest, one on each of the first
`min(N_ACTIVE, len)` lanes; the other lanes are untouched; an open stream gains the block's bytes. What a completed
command writes is, in lane order, what `ENC_SLICE` writes for each slice, and each lane ends as that command leaves it. A
start check that fails faults with its code, a slice larger than `STAGE_CAP` `OUT_OF_MEMORY`, and a block that does not fit
before `OUT_LIMIT` `DESTINATION_TOO_SMALL`: R295 to R301, R313. That `STAGE` keeps a slice's bytes is the model's choice
(log 16), and the lanes are compared without it. -/
def Obligations.EncBlockResult : Prop :=
  ∀ s : State,
    let start := s.cfg.blkStart.toNat
    let len := s.cfg.blkEnd.toNat - start
    let k := s.sliceCount
    (∀ c, startFault .encBlock s = some c → exec .encBlock s = .next (s.faultCommit (encode .encBlock) c))
    ∧ (startFault .encBlock s = none → len = 0 →
      ∃ t, exec .encBlock s = .next t ∧ CompletesOk s t ∧ KeepsHostState s t ∧ ResultsAre t 0 0 0
        ∧ t.lanes = s.lanes ∧ t.table = s.table ∧ t.stream = s.stream ∧ KeepsOutput s t ∧ KeepsOut s t)
    ∧ (∀ sizes : List Nat, Starts .encBlock s → 0 < len → sizes.length = k →
      (∀ i n, sizes[i]? = some n → SliceSize s i n) →
      ((∃ n ∈ sizes, s.params.stageCap.toNat < n) →
        exec .encBlock s = .next (s.faultCommit (encode .encBlock) .outOfMemory))
      ∧ ((∀ n ∈ sizes, n ≤ s.params.stageCap.toNat) → s.cfg.outLimit.toNat < s.outPos.toNat + sizes.sum →
        exec .encBlock s = .next (s.faultCommit (encode .encBlock) .destinationTooSmall)))
    ∧ (∀ t, s.MemoryOk → s.control.cancel = false → 0 < len → exec .encBlock s = .next t → CompletesOk s t →
      ∃ parts : List (List Byte × Word), parts.length = k
        ∧ WritesOut s t s.outPos.toNat (parts.map Prod.fst).flatten
        ∧ t.res.res0.toNat = (parts.map Prod.fst).flatten.length ∧ t.res.res2 = (parts.map Prod.snd).sum
        ∧ ∀ i bytes chunks, parts[i]? = some (bytes, chunks) →
          ∃ b l l', exec (s.sliceCommand i) (s.onSlice i) = .next b ∧ CompletesOk s b
            ∧ WritesOut s b s.outPos.toNat bytes ∧ b.res.res0.toNat = bytes.length ∧ b.res.res2 = chunks
            ∧ b.lanes[i]? = some l ∧ t.lanes[i]? = some l' ∧ l' = { l with stage := l'.stage })
    ∧ (s.MemoryOk → Starts .encBlock s → 0 < len → s.outPos.toNat + 6 * len ≤ s.cfg.outLimit.toNat →
      6 * len ≤ s.params.stageCap.toNat →
      ∃ t bytes chunks, exec .encBlock s = .next t ∧ CompletesOk s t ∧ KeepsHostState s t
        ∧ ResultsAre t bytes.length len chunks ∧ k ≤ chunks
        ∧ t.outPos.toNat = s.outPos.toNat + bytes.length ∧ WritesOut s t s.outPos.toNat bytes
        ∧ t.counters.consumed = s.counters.consumed + BitVec.ofNat 64 len
        ∧ t.counters.produced = s.counters.produced + BitVec.ofNat 64 bytes.length
        ∧ t.table = s.table ∧ t.lanes.length = s.lanes.length
        ∧ (s.stream.isOpen = false → t.stream = s.stream)
        ∧ (s.stream.isOpen = true → t.stream = { s.stream with
            needDr := false, ckData := s.stream.ckData ++ Memory.readBytes s.dict start len })
        ∧ (∀ i < k, ∃ l, t.lanes[i]? = some l ∧ l.sliceStart.toNat = start + i * (len / k)
            ∧ l.sliceEnd.toNat = (if i + 1 = k then start + len else start + (i + 1) * (len / k))
            ∧ l.pos = l.sliceEnd ∧ l.sliceOpen = false ∧ l.init = true)
        ∧ (∀ i, k ≤ i → t.lanes[i]? = s.lanes[i]?))

/-- `STREAM_BEGIN` opens a stream: it writes the property byte, the smallest size class that holds `DICT_SIZE` with the
checksum flag in bit 7, unless it is omitted, and latches the options; an open stream, an illegal size, illegal output
registers and a byte without room fault: R310. -/
def Obligations.StreamBeginResult : Prop :=
  ∀ s : State, s.MemoryOk →
    (s.stream.isOpen = false → 4096 ≤ s.cfg.dictSize.toNat → s.cfg.dictSize.toNat ≤ 2 ^ 30 → s.outLegal = true →
      s.cfg.omitProp = true ∨ s.outPos.toNat + 1 ≤ s.cfg.outLimit.toNat →
      ∃ t bytes, exec .streamBegin s = .next t ∧ CompletesOk s t ∧ KeepsHostState s t
        ∧ ResultsAre t bytes.length 0 0 ∧ WritesOut s t s.outPos.toNat bytes
        ∧ (s.cfg.omitProp = true → bytes = [])
        ∧ (s.cfg.omitProp = false → ∃ k b, bytes = [b] ∧ k ≤ 40
            ∧ b.toNat = k + (if s.cfg.checksumEn then 128 else 0)
            ∧ s.cfg.dictSize.toNat ≤ (2 + k % 2) * 2 ^ (k / 2 + 11)
            ∧ ∀ j < k, (2 + j % 2) * 2 ^ (j / 2 + 11) < s.cfg.dictSize.toNat)
        ∧ t.outPos.toNat = s.outPos.toNat + bytes.length
        ∧ t.counters.produced = s.counters.produced + BitVec.ofNat 64 bytes.length
        ∧ t.counters.consumed = s.counters.consumed
        ∧ t.stream = { isOpen := true, needDr := true, ck := s.cfg.checksumEn, omitP := s.cfg.omitProp
                       dict := s.cfg.dictSize, ckData := [] }
        ∧ t.lanes = s.lanes ∧ t.table = s.table)
    ∧ (s.stream.isOpen = true → exec .streamBegin s = .next (s.faultCommit (encode .streamBegin) .sequenceError))
    ∧ (s.stream.isOpen = false →
      s.cfg.dictSize.toNat < 4096 ∨ 2 ^ 30 < s.cfg.dictSize.toNat ∨ s.cfg.outLimit.toNat < s.outPos.toNat
        ∨ s.params.outCap.toNat < s.cfg.outLimit.toNat →
      exec .streamBegin s = .next (s.faultCommit (encode .streamBegin) .invalidParameter))
    ∧ (s.stream.isOpen = false → 4096 ≤ s.cfg.dictSize.toNat → s.cfg.dictSize.toNat ≤ 2 ^ 30 → s.outLegal = true →
      s.cfg.omitProp = false → s.cfg.outLimit.toNat < s.outPos.toNat + 1 →
      exec .streamBegin s = .next (s.faultCommit (encode .streamBegin) .destinationTooSmall))

/-- `STREAM_END` writes the terminator and, if the stream latched it, the checksum of the encoded bytes, least
significant byte first, and closes the stream; with no stream open, illegal output registers or too little room it
faults: R311. -/
def Obligations.StreamEndResult : Prop :=
  ∀ s : State, s.MemoryOk →
    (s.stream.isOpen = true → s.outLegal = true →
      s.outPos.toNat + (if s.stream.ck then 5 else 1) ≤ s.cfg.outLimit.toNat →
      let sum := (Config.checksum s.stream.ckData).toNat
      ∃ t bytes, exec .streamEnd s = .next t ∧ CompletesOk s t ∧ KeepsHostState s t
        ∧ ResultsAre t bytes.length 0 0 ∧ WritesOut s t s.outPos.toNat bytes
        ∧ bytes.map BitVec.toNat
            = 0 :: (if s.stream.ck then
                [sum % 256, sum / 256 % 256, sum / 65536 % 256, sum / 16777216 % 256] else [])
        ∧ t.outPos.toNat = s.outPos.toNat + bytes.length
        ∧ t.counters.produced = s.counters.produced + BitVec.ofNat 64 bytes.length
        ∧ t.counters.consumed = s.counters.consumed
        ∧ t.stream.stateWord = 0 ∧ t.stream.dict = 0 ∧ t.stream.ckData = []
        ∧ t.lanes = s.lanes ∧ t.table = s.table)
    ∧ (s.stream.isOpen = false → exec .streamEnd s = .next (s.faultCommit (encode .streamEnd) .sequenceError))
    ∧ (s.stream.isOpen = true →
      s.cfg.outLimit.toNat < s.outPos.toNat ∨ s.params.outCap.toNat < s.cfg.outLimit.toNat →
      exec .streamEnd s = .next (s.faultCommit (encode .streamEnd) .invalidParameter))
    ∧ (s.stream.isOpen = true → s.outLegal = true →
      s.cfg.outLimit.toNat < s.outPos.toNat + (if s.stream.ck then 5 else 1) →
      exec .streamEnd s = .next (s.faultCommit (encode .streamEnd) .destinationTooSmall))

/-! ## 43_parse.md -/

/-- `ParseChunk` codes exactly the run that R258 describes, over the candidates of R252 and R253, the gains of R254, the
choice of R255, the single symbol of R256, the budget of R257 and the lookahead of R258, for every lookahead that
`STRATEGY` can select: it ends with a coder and a position if and only if that run does: R251 to R258. -/
def Obligations.ParseFollowsRules : Prop :=
  ∀ (x : ParseCtx) (p pend : Nat) (e e' : Enc), x.look ≤ 2 →
    (parseChunk x (x.ulim - p) p e = .ok (pend, e') ↔ ∃ ys, ParseRun x p e ys pend e')

end Statements
end

