-- ==== Sys2Proof/Laws/Memory.lean ====
section
/-! SUPPORT. The laws of the canonical sparse memories, of `DICT` and `OUT`, and of the probability memory: read after
write, and the canonical form kept by every operation. -/

namespace Sys2Proof.Machine

/-! ## Sparse memories -/

variable {V : Type} [DecidableEq V]

theorem sparseGet_of_lt (d : V) (m : List (Nat × V)) (lo a : Nat) (h : sparseWfFrom d lo m = true) (ha : a < lo) :
    sparseGet d m a = d := by
  induction m generalizing lo with
  | nil => rfl
  | cons x m ih =>
    obtain ⟨k, w⟩ := x
    simp only [sparseWfFrom, Bool.and_eq_true, decide_eq_true_eq] at h
    rw [sparseGet, if_neg (by omega)]
    exact ih (k + 1) h.2 (by omega)

theorem sparseGet_set_same (d : V) (m : List (Nat × V)) (a lo : Nat) (v : V) (h : sparseWfFrom d lo m = true) :
    sparseGet d (sparseSet d m a v) a = v := by
  induction m generalizing lo with
  | nil =>
    by_cases hv : v = d <;> simp [sparseSet, sparseGet, hv]
  | cons x m ih =>
    obtain ⟨k, w⟩ := x
    simp only [sparseWfFrom, Bool.and_eq_true, decide_eq_true_eq] at h
    rw [sparseSet]
    split
    · split
      · next hak hv =>
        rw [sparseGet, if_neg (by omega), hv]
        exact sparseGet_of_lt d m (k + 1) a h.2 (by omega)
      · simp [sparseGet]
    · split
      · split
        · next hak hv =>
          rw [hv]
          exact sparseGet_of_lt d m (k + 1) a h.2 (by omega)
        · next hak _ => simp [sparseGet, hak]
      · next h1 h2 =>
        rw [sparseGet, if_neg h2]
        exact ih (k + 1) h.2

theorem sparseGet_set_other (d : V) (m : List (Nat × V)) (a b : Nat) (v : V) (hab : b ≠ a) :
    sparseGet d (sparseSet d m a v) b = sparseGet d m b := by
  induction m with
  | nil =>
    by_cases hv : v = d <;> simp [sparseSet, sparseGet, hv, hab]
  | cons x m ih =>
    obtain ⟨k, w⟩ := x
    rw [sparseSet]
    split
    · split
      · rfl
      · rw [sparseGet, if_neg hab]
    · split
      · next hak =>
        have hbk : b ≠ k := fun e => hab (e.trans hak.symm)
        split
        · rw [sparseGet, if_neg hbk]
        · simp [sparseGet, hbk]
      · rw [sparseGet, sparseGet]
        split
        · rfl
        · exact ih

theorem sparseWfFrom_mono (d : V) (m : List (Nat × V)) (lo lo' : Nat) (h : sparseWfFrom d lo m = true) (hl : lo' ≤ lo) :
    sparseWfFrom d lo' m = true := by
  cases m with
  | nil => rfl
  | cons x m =>
    obtain ⟨k, w⟩ := x
    simp only [sparseWfFrom, Bool.and_eq_true, decide_eq_true_eq] at h ⊢
    exact ⟨⟨by omega, h.1.2⟩, h.2⟩

theorem sparseSet_wfFrom (d : V) (m : List (Nat × V)) (a lo : Nat) (v : V) (h : sparseWfFrom d lo m = true)
    (ha : lo ≤ a) : sparseWfFrom d lo (sparseSet d m a v) = true := by
  induction m generalizing lo with
  | nil =>
    by_cases hv : v = d <;> simp [sparseSet, sparseWfFrom, hv, ha]
  | cons x m ih =>
    obtain ⟨k, w⟩ := x
    have h0 := h
    simp only [sparseWfFrom, Bool.and_eq_true, decide_eq_true_eq] at h
    rw [sparseSet]
    split
    · split
      · exact h0
      · next hak hv =>
        simp only [sparseWfFrom, Bool.and_eq_true, decide_eq_true_eq]
        exact ⟨⟨ha, hv⟩, ⟨by omega, h.1.2⟩, h.2⟩
    · split
      · split
        · exact sparseWfFrom_mono d m (k + 1) lo h.2 (by omega)
        · next hv =>
          simp only [sparseWfFrom, Bool.and_eq_true, decide_eq_true_eq]
          exact ⟨⟨h.1.1, hv⟩, h.2⟩
      · simp only [sparseWfFrom, Bool.and_eq_true, decide_eq_true_eq]
        exact ⟨h.1, ih (k + 1) h.2 (by omega)⟩

theorem sparseSet_wf (d : V) (m : List (Nat × V)) (a : Nat) (v : V) (h : sparseWf d m = true) :
    sparseWf d (sparseSet d m a v) = true :=
  sparseSet_wfFrom d m a 0 v h (Nat.zero_le a)

/-- A write lists no new address but its own. -/
theorem mem_sparseSet (d : V) (m : List (Nat × V)) (a : Nat) (v : V) (x : Nat × V) (h : x ∈ sparseSet d m a v) :
    x ∈ m ∨ x = (a, v) := by
  induction m with
  | nil =>
    by_cases hv : v = d <;> simp_all [sparseSet]
  | cons y m ih =>
    obtain ⟨k, w⟩ := y
    rw [sparseSet] at h
    split at h
    · split at h
      · exact .inl h
      · rcases List.mem_cons.mp h with h | h
        · exact .inr h
        · exact .inl h
    · split at h
      · next hak =>
        split at h
        · exact .inl (List.mem_cons_of_mem _ h)
        · rcases List.mem_cons.mp h with h | h
          · exact .inr (by rw [h, hak])
          · exact .inl (List.mem_cons_of_mem _ h)
      · rcases List.mem_cons.mp h with h | h
        · exact .inl (by rw [h]; exact List.mem_cons_self)
        · rcases ih h with h | h
          · exact .inl (List.mem_cons_of_mem _ h)
          · exact .inr h

/-! ## `DICT` and `OUT` -/

theorem Memory.write_wf (m : Memory) (a : Nat) (b : Byte) (h : Memory.wf m = true) :
    Memory.wf (Memory.write m a b) = true :=
  sparseSet_wf _ m a b h

theorem Memory.writeBytes_wf (m : Memory) (a : Nat) (bs : List Byte) (h : Memory.wf m = true) :
    Memory.wf (Memory.writeBytes m a bs) = true := by
  induction bs generalizing m a with
  | nil => exact h
  | cons b bs ih => exact ih _ _ (Memory.write_wf m a b h)

theorem Memory.read_write_same (m : Memory) (a : Nat) (b : Byte) (h : Memory.wf m = true) :
    Memory.read (Memory.write m a b) a = b :=
  sparseGet_set_same _ m a 0 b h

theorem Memory.read_write_other (m : Memory) (a c : Nat) (b : Byte) (hc : c ≠ a) :
    Memory.read (Memory.write m a b) c = Memory.read m c :=
  sparseGet_set_other _ m a c b hc

theorem Memory.read_writeBytes_outside (m : Memory) (a c : Nat) (bs : List Byte) (hc : c < a ∨ a + bs.length ≤ c) : Memory.read (Memory.writeBytes m a bs) c = Memory.read m c := by
  induction bs generalizing m a with
  | nil => rfl
  | cons b bs ih =>
    simp only [List.length_cons] at hc
    rw [Memory.writeBytes, ih _ _ (by omega)]
    exact Memory.read_write_other m a c b (by omega)

theorem Memory.read_writeBytes_inside (m : Memory) (a i : Nat) (bs : List Byte) (h : Memory.wf m = true)
    (hi : i < bs.length) : Memory.read (Memory.writeBytes m a bs) (a + i) = bs[i] := by
  induction bs generalizing m a i with
  | nil => simp at hi
  | cons b bs ih =>
    rw [Memory.writeBytes]
    cases i with
    | zero =>
      rw [Memory.read_writeBytes_outside _ _ _ _ (by omega)]
      exact Memory.read_write_same m a b h
    | succ i =>
      have := ih (Memory.write m a b) (a + 1) i (Memory.write_wf m a b h) (by simpa using hi)
      rw [show a + (i + 1) = a + 1 + i by omega]
      simpa using this

theorem Memory.readBytes_writeBytes (m : Memory) (a : Nat) (bs : List Byte) (h : Memory.wf m = true) :
    Memory.readBytes (Memory.writeBytes m a bs) a bs.length = bs := by
  apply List.ext_getElem
  · simp [Memory.readBytes]
  · intro i h1 h2
    simp only [Memory.readBytes, List.getElem_map, List.getElem_range]
    exact Memory.read_writeBytes_inside m a i bs h h2

theorem Memory.writeBytes_append (m : Memory) (a : Nat) (xs ys : List Byte) :
    Memory.writeBytes m a (xs ++ ys) = Memory.writeBytes (Memory.writeBytes m a xs) (a + xs.length) ys := by
  induction xs generalizing m a with
  | nil => rfl
  | cons b xs ih =>
    simp only [List.cons_append, Memory.writeBytes, List.length_cons]
    rw [ih, show a + 1 + xs.length = a + (xs.length + 1) by omega]

/-- Every listed byte after a write is a listed byte of before or one of the bytes written. -/
theorem Memory.mem_writeBytes (m : Memory) (a : Nat) (bs : List Byte) (x : Host.Cell)
    (h : x ∈ Memory.writeBytes m a bs) : x ∈ m ∨ (a ≤ x.1 ∧ x.1 < a + bs.length) := by
  induction bs generalizing m a with
  | nil => exact .inl h
  | cons b bs ih =>
    rw [List.length_cons]
    rcases ih _ _ h with h | h
    · rcases mem_sparseSet _ m a b x h with h | h
      · exact .inl h
      · exact .inr (by rw [h]; omega)
    · exact .inr (by omega)

theorem Memory.readBytes_length (m : Memory) (a n : Nat) : (Memory.readBytes m a n).length = n := by
  simp [Memory.readBytes]

theorem Memory.readBytes_getElem (m : Memory) (a n i : Nat) (h : i < n) :
    (Memory.readBytes m a n)[i]? = some (Memory.read m (a + i)) := by
  simp [Memory.readBytes, h]

/-- Memories that read alike give the same bytes. -/
theorem Memory.readBytes_congr (m m' : Memory) (a n : Nat)
    (h : ∀ i < n, Memory.read m (a + i) = Memory.read m' (a + i)) :
    Memory.readBytes m a n = Memory.readBytes m' a n :=
  List.map_congr_left fun i hi => h i (List.mem_range.mp hi)

/-! ## Multi-byte accesses -/

theorem leBytes_length (v n : Nat) : (leBytes v n).length = n := by
  induction n generalizing v with
  | zero => rfl
  | succ n ih => simp [leBytes, ih]

theorem Memory.readLe_writeBytes (m : Memory) (a v n : Nat) (h : Memory.wf m = true) :
    Memory.readLe (Memory.writeBytes m a (leBytes v n)) a n = v % 2 ^ (8 * n) := by
  induction n generalizing m a v with
  | zero => simp [Memory.readLe, Nat.mod_one]
  | succ n ih =>
    rw [leBytes, Memory.writeBytes, Memory.readLe, ih _ _ _ (Memory.write_wf m a _ h),
      Memory.read_writeBytes_outside _ _ _ _ (by omega),
      Memory.read_write_same m a _ h, BitVec.toNat_ofNat,
      show 8 * (n + 1) = 8 + 8 * n by omega, Nat.pow_add, Nat.mod_mul]

/-! ## Probability memories -/

theorem ProbMem.write_wf (m : ProbMem) (i : Nat) (v : ProbWord) (h : ProbMem.wf m = true) :
    ProbMem.wf (ProbMem.write m i v) = true :=
  sparseSet_wf _ m i v h

theorem ProbMem.read_write_same (m : ProbMem) (i : Nat) (v : ProbWord) (h : ProbMem.wf m = true) :
    ProbMem.read (ProbMem.write m i v) i = v :=
  sparseGet_set_same _ m i 0 v h

theorem ProbMem.read_write_other (m : ProbMem) (i j : Nat) (v : ProbWord) (hj : j ≠ i) :
    ProbMem.read (ProbMem.write m i v) j = ProbMem.read m j :=
  sparseGet_set_other _ m i j v hj

theorem ProbMem.resetAll_read (i : Nat) : ProbMem.read ProbMem.resetAll i = 1024 := rfl

end Sys2Proof.Machine
end

