-- ==== Sys2Proof/Laws/State.lean ====
section
/-! SUPPORT. What each named update does to each field of the state, of a lane and of a coder, true by computation, so that
no proof unfolds a record update. -/

namespace Sys2Proof.Machine

/-! ### `State.setLane` -/

@[simp] theorem State.setLane_params (s : State) (n : Nat) (l : Lane) : (s.setLane n l).params = s.params := rfl
@[simp] theorem State.setLane_pending (s : State) (n : Nat) (l : Lane) : (s.setLane n l).pending = s.pending := rfl
@[simp] theorem State.setLane_status (s : State) (n : Nat) (l : Lane) : (s.setLane n l).status = s.status := rfl
@[simp] theorem State.setLane_control (s : State) (n : Nat) (l : Lane) : (s.setLane n l).control = s.control := rfl
@[simp] theorem State.setLane_errInfo (s : State) (n : Nat) (l : Lane) : (s.setLane n l).errInfo = s.errInfo := rfl
@[simp] theorem State.setLane_args (s : State) (n : Nat) (l : Lane) : (s.setLane n l).args = s.args := rfl
@[simp] theorem State.setLane_res (s : State) (n : Nat) (l : Lane) : (s.setLane n l).res = s.res := rfl
@[simp] theorem State.setLane_resBefore (s : State) (n : Nat) (l : Lane) : (s.setLane n l).resBefore = s.resBefore := rfl
@[simp] theorem State.setLane_cfg (s : State) (n : Nat) (l : Lane) : (s.setLane n l).cfg = s.cfg := rfl
@[simp] theorem State.setLane_outPos (s : State) (n : Nat) (l : Lane) : (s.setLane n l).outPos = s.outPos := rfl
@[simp] theorem State.setLane_counters (s : State) (n : Nat) (l : Lane) : (s.setLane n l).counters = s.counters := rfl
@[simp] theorem State.setLane_table (s : State) (n : Nat) (l : Lane) : (s.setLane n l).table = s.table := rfl
@[simp] theorem State.setLane_stream (s : State) (n : Nat) (l : Lane) : (s.setLane n l).stream = s.stream := rfl
@[simp] theorem State.setLane_lanes (s : State) (n : Nat) (l : Lane) : (s.setLane n l).lanes = s.lanes.set n l := rfl
@[simp] theorem State.setLane_dict (s : State) (n : Nat) (l : Lane) : (s.setLane n l).dict = s.dict := rfl
@[simp] theorem State.setLane_out (s : State) (n : Nat) (l : Lane) : (s.setLane n l).out = s.out := rfl
@[simp] theorem State.setLane_inReset (s : State) (n : Nat) (l : Lane) : (s.setLane n l).inReset = s.inReset := rfl
@[simp] theorem State.setLane_inputs (s : State) (n : Nat) (l : Lane) : (s.setLane n l).inputs = s.inputs := rfl
@[simp] theorem State.setLane_readData (s : State) (n : Nat) (l : Lane) : (s.setLane n l).readData = s.readData := rfl
@[simp] theorem State.setLane_draws (s : State) (n : Nat) (l : Lane) : (s.setLane n l).draws = s.draws := rfl

/-! ### `State.clearRes` -/

@[simp] theorem State.clearRes_params (s : State) : (s.clearRes).params = s.params := rfl
@[simp] theorem State.clearRes_pending (s : State) : (s.clearRes).pending = s.pending := rfl
@[simp] theorem State.clearRes_status (s : State) : (s.clearRes).status = s.status := rfl
@[simp] theorem State.clearRes_control (s : State) : (s.clearRes).control = s.control := rfl
@[simp] theorem State.clearRes_errInfo (s : State) : (s.clearRes).errInfo = s.errInfo := rfl
@[simp] theorem State.clearRes_args (s : State) : (s.clearRes).args = s.args := rfl
@[simp] theorem State.clearRes_res (s : State) : (s.clearRes).res = { res0 := 0, res1 := 0, res2 := 0 } := rfl
@[simp] theorem State.clearRes_resBefore (s : State) : (s.clearRes).resBefore = s.resBefore := rfl
@[simp] theorem State.clearRes_cfg (s : State) : (s.clearRes).cfg = s.cfg := rfl
@[simp] theorem State.clearRes_outPos (s : State) : (s.clearRes).outPos = s.outPos := rfl
@[simp] theorem State.clearRes_counters (s : State) : (s.clearRes).counters = s.counters := rfl
@[simp] theorem State.clearRes_table (s : State) : (s.clearRes).table = s.table := rfl
@[simp] theorem State.clearRes_stream (s : State) : (s.clearRes).stream = s.stream := rfl
@[simp] theorem State.clearRes_lanes (s : State) : (s.clearRes).lanes = s.lanes := rfl
@[simp] theorem State.clearRes_dict (s : State) : (s.clearRes).dict = s.dict := rfl
@[simp] theorem State.clearRes_out (s : State) : (s.clearRes).out = s.out := rfl
@[simp] theorem State.clearRes_inReset (s : State) : (s.clearRes).inReset = s.inReset := rfl
@[simp] theorem State.clearRes_inputs (s : State) : (s.clearRes).inputs = s.inputs := rfl
@[simp] theorem State.clearRes_readData (s : State) : (s.clearRes).readData = s.readData := rfl
@[simp] theorem State.clearRes_draws (s : State) : (s.clearRes).draws = s.draws := rfl

/-! ### `State.setRes` -/

@[simp] theorem State.setRes_params (s : State) (a b c : Nat) : (s.setRes a b c).params = s.params := rfl
@[simp] theorem State.setRes_pending (s : State) (a b c : Nat) : (s.setRes a b c).pending = s.pending := rfl
@[simp] theorem State.setRes_status (s : State) (a b c : Nat) : (s.setRes a b c).status = s.status := rfl
@[simp] theorem State.setRes_control (s : State) (a b c : Nat) : (s.setRes a b c).control = s.control := rfl
@[simp] theorem State.setRes_errInfo (s : State) (a b c : Nat) : (s.setRes a b c).errInfo = s.errInfo := rfl
@[simp] theorem State.setRes_args (s : State) (a b c : Nat) : (s.setRes a b c).args = s.args := rfl
@[simp] theorem State.setRes_res (s : State) (a b c : Nat) : (s.setRes a b c).res = { res0 := BitVec.ofNat 32 a, res1 := BitVec.ofNat 32 b, res2 := BitVec.ofNat 32 c } := rfl
@[simp] theorem State.setRes_resBefore (s : State) (a b c : Nat) : (s.setRes a b c).resBefore = s.resBefore := rfl
@[simp] theorem State.setRes_cfg (s : State) (a b c : Nat) : (s.setRes a b c).cfg = s.cfg := rfl
@[simp] theorem State.setRes_outPos (s : State) (a b c : Nat) : (s.setRes a b c).outPos = s.outPos := rfl
@[simp] theorem State.setRes_counters (s : State) (a b c : Nat) : (s.setRes a b c).counters = s.counters := rfl
@[simp] theorem State.setRes_table (s : State) (a b c : Nat) : (s.setRes a b c).table = s.table := rfl
@[simp] theorem State.setRes_stream (s : State) (a b c : Nat) : (s.setRes a b c).stream = s.stream := rfl
@[simp] theorem State.setRes_lanes (s : State) (a b c : Nat) : (s.setRes a b c).lanes = s.lanes := rfl
@[simp] theorem State.setRes_dict (s : State) (a b c : Nat) : (s.setRes a b c).dict = s.dict := rfl
@[simp] theorem State.setRes_out (s : State) (a b c : Nat) : (s.setRes a b c).out = s.out := rfl
@[simp] theorem State.setRes_inReset (s : State) (a b c : Nat) : (s.setRes a b c).inReset = s.inReset := rfl
@[simp] theorem State.setRes_inputs (s : State) (a b c : Nat) : (s.setRes a b c).inputs = s.inputs := rfl
@[simp] theorem State.setRes_readData (s : State) (a b c : Nat) : (s.setRes a b c).readData = s.readData := rfl
@[simp] theorem State.setRes_draws (s : State) (a b c : Nat) : (s.setRes a b c).draws = s.draws := rfl

/-! ### `State.consume` -/

@[simp] theorem State.consume_params (s : State) (n : Nat) : (s.consume n).params = s.params := rfl
@[simp] theorem State.consume_pending (s : State) (n : Nat) : (s.consume n).pending = s.pending := rfl
@[simp] theorem State.consume_status (s : State) (n : Nat) : (s.consume n).status = s.status := rfl
@[simp] theorem State.consume_control (s : State) (n : Nat) : (s.consume n).control = s.control := rfl
@[simp] theorem State.consume_errInfo (s : State) (n : Nat) : (s.consume n).errInfo = s.errInfo := rfl
@[simp] theorem State.consume_args (s : State) (n : Nat) : (s.consume n).args = s.args := rfl
@[simp] theorem State.consume_res (s : State) (n : Nat) : (s.consume n).res = s.res := rfl
@[simp] theorem State.consume_resBefore (s : State) (n : Nat) : (s.consume n).resBefore = s.resBefore := rfl
@[simp] theorem State.consume_cfg (s : State) (n : Nat) : (s.consume n).cfg = s.cfg := rfl
@[simp] theorem State.consume_outPos (s : State) (n : Nat) : (s.consume n).outPos = s.outPos := rfl
@[simp] theorem State.consume_counters (s : State) (n : Nat) : (s.consume n).counters = { s.counters with consumed := s.counters.consumed + BitVec.ofNat 64 n } := rfl
@[simp] theorem State.consume_table (s : State) (n : Nat) : (s.consume n).table = s.table := rfl
@[simp] theorem State.consume_stream (s : State) (n : Nat) : (s.consume n).stream = s.stream := rfl
@[simp] theorem State.consume_lanes (s : State) (n : Nat) : (s.consume n).lanes = s.lanes := rfl
@[simp] theorem State.consume_dict (s : State) (n : Nat) : (s.consume n).dict = s.dict := rfl
@[simp] theorem State.consume_out (s : State) (n : Nat) : (s.consume n).out = s.out := rfl
@[simp] theorem State.consume_inReset (s : State) (n : Nat) : (s.consume n).inReset = s.inReset := rfl
@[simp] theorem State.consume_inputs (s : State) (n : Nat) : (s.consume n).inputs = s.inputs := rfl
@[simp] theorem State.consume_readData (s : State) (n : Nat) : (s.consume n).readData = s.readData := rfl
@[simp] theorem State.consume_draws (s : State) (n : Nat) : (s.consume n).draws = s.draws := rfl

/-! ### `State.contextReset` -/

@[simp] theorem State.contextReset_params (s : State) : (s.contextReset).params = s.params := rfl
@[simp] theorem State.contextReset_pending (s : State) : (s.contextReset).pending = s.pending := rfl
@[simp] theorem State.contextReset_status (s : State) : (s.contextReset).status = s.status := rfl
@[simp] theorem State.contextReset_control (s : State) : (s.contextReset).control = s.control := rfl
@[simp] theorem State.contextReset_errInfo (s : State) : (s.contextReset).errInfo = s.errInfo := rfl
@[simp] theorem State.contextReset_args (s : State) : (s.contextReset).args = s.args := rfl
@[simp] theorem State.contextReset_res (s : State) : (s.contextReset).res = s.res := rfl
@[simp] theorem State.contextReset_resBefore (s : State) : (s.contextReset).resBefore = s.resBefore := rfl
@[simp] theorem State.contextReset_cfg (s : State) : (s.contextReset).cfg = s.cfg := rfl
@[simp] theorem State.contextReset_outPos (s : State) : (s.contextReset).outPos = s.outPos := rfl
@[simp] theorem State.contextReset_counters (s : State) : (s.contextReset).counters = { consumed := 0, produced := 0 } := rfl
@[simp] theorem State.contextReset_table (s : State) : (s.contextReset).table = { s.table with valid := false, fin := 0, caplen := 0 } := rfl
@[simp] theorem State.contextReset_stream (s : State) : (s.contextReset).stream = .closed := rfl
@[simp] theorem State.contextReset_lanes (s : State) : (s.contextReset).lanes = s.lanes.map Lane.contextReset := rfl
@[simp] theorem State.contextReset_dict (s : State) : (s.contextReset).dict = s.dict := rfl
@[simp] theorem State.contextReset_out (s : State) : (s.contextReset).out = s.out := rfl
@[simp] theorem State.contextReset_inReset (s : State) : (s.contextReset).inReset = s.inReset := rfl
@[simp] theorem State.contextReset_inputs (s : State) : (s.contextReset).inputs = s.inputs := rfl
@[simp] theorem State.contextReset_readData (s : State) : (s.contextReset).readData = s.readData := rfl
@[simp] theorem State.contextReset_draws (s : State) : (s.contextReset).draws = s.draws := rfl

/-! ### `State.release` -/

@[simp] theorem State.release_params (s : State) : (s.release).params = s.params := rfl
@[simp] theorem State.release_pending (s : State) : (s.release).pending = none := rfl
@[simp] theorem State.release_status (s : State) : (s.release).status = s.status := rfl
@[simp] theorem State.release_control (s : State) : (s.release).control = { s.control with cancel := false } := rfl
@[simp] theorem State.release_errInfo (s : State) : (s.release).errInfo = s.errInfo := rfl
@[simp] theorem State.release_args (s : State) : (s.release).args = s.args := rfl
@[simp] theorem State.release_res (s : State) : (s.release).res = s.res := rfl
@[simp] theorem State.release_resBefore (s : State) : (s.release).resBefore = s.resBefore := rfl
@[simp] theorem State.release_cfg (s : State) : (s.release).cfg = s.cfg := rfl
@[simp] theorem State.release_outPos (s : State) : (s.release).outPos = s.outPos := rfl
@[simp] theorem State.release_counters (s : State) : (s.release).counters = s.counters := rfl
@[simp] theorem State.release_table (s : State) : (s.release).table = s.table := rfl
@[simp] theorem State.release_stream (s : State) : (s.release).stream = s.stream := rfl
@[simp] theorem State.release_lanes (s : State) : (s.release).lanes = s.lanes := rfl
@[simp] theorem State.release_dict (s : State) : (s.release).dict = s.dict := rfl
@[simp] theorem State.release_out (s : State) : (s.release).out = s.out := rfl
@[simp] theorem State.release_inReset (s : State) : (s.release).inReset = s.inReset := rfl
@[simp] theorem State.release_inputs (s : State) : (s.release).inputs = s.inputs := rfl
@[simp] theorem State.release_readData (s : State) : (s.release).readData = s.readData := rfl
@[simp] theorem State.release_draws (s : State) : (s.release).draws = s.draws + 1 := rfl

/-! ### `State.complete` -/

@[simp] theorem State.complete_params (s : State) : (s.complete).params = s.params := rfl
@[simp] theorem State.complete_pending (s : State) : (s.complete).pending = none := rfl
@[simp] theorem State.complete_status (s : State) : (s.complete).status = { s.status with done := true, code := .ok } := rfl
@[simp] theorem State.complete_control (s : State) : (s.complete).control = { s.control with cancel := false } := rfl
@[simp] theorem State.complete_errInfo (s : State) : (s.complete).errInfo = s.errInfo := rfl
@[simp] theorem State.complete_args (s : State) : (s.complete).args = s.args := rfl
@[simp] theorem State.complete_res (s : State) : (s.complete).res = s.res := rfl
@[simp] theorem State.complete_resBefore (s : State) : (s.complete).resBefore = s.resBefore := rfl
@[simp] theorem State.complete_cfg (s : State) : (s.complete).cfg = s.cfg := rfl
@[simp] theorem State.complete_outPos (s : State) : (s.complete).outPos = s.outPos := rfl
@[simp] theorem State.complete_counters (s : State) : (s.complete).counters = s.counters := rfl
@[simp] theorem State.complete_table (s : State) : (s.complete).table = s.table := rfl
@[simp] theorem State.complete_stream (s : State) : (s.complete).stream = s.stream := rfl
@[simp] theorem State.complete_lanes (s : State) : (s.complete).lanes = s.lanes := rfl
@[simp] theorem State.complete_dict (s : State) : (s.complete).dict = s.dict := rfl
@[simp] theorem State.complete_out (s : State) : (s.complete).out = s.out := rfl
@[simp] theorem State.complete_inReset (s : State) : (s.complete).inReset = s.inReset := rfl
@[simp] theorem State.complete_inputs (s : State) : (s.complete).inputs = s.inputs := rfl
@[simp] theorem State.complete_readData (s : State) : (s.complete).readData = s.readData := rfl
@[simp] theorem State.complete_draws (s : State) : (s.complete).draws = s.draws + 1 := rfl

/-! ### `State.faultCommit` -/

@[simp] theorem State.faultCommit_params (s : State) (w : Word) (c : Code) : (s.faultCommit w c).params = s.params := rfl
@[simp] theorem State.faultCommit_pending (s : State) (w : Word) (c : Code) : (s.faultCommit w c).pending = none := rfl
@[simp] theorem State.faultCommit_status (s : State) (w : Word) (c : Code) : (s.faultCommit w c).status = { s.status with err := true, code := c } := rfl
@[simp] theorem State.faultCommit_control (s : State) (w : Word) (c : Code) : (s.faultCommit w c).control = { s.control with cancel := false } := rfl
@[simp] theorem State.faultCommit_errInfo (s : State) (w : Word) (c : Code) : (s.faultCommit w c).errInfo = w := rfl
@[simp] theorem State.faultCommit_args (s : State) (w : Word) (c : Code) : (s.faultCommit w c).args = s.args := rfl
@[simp] theorem State.faultCommit_res (s : State) (w : Word) (c : Code) : (s.faultCommit w c).res = { res0 := 0, res1 := 0, res2 := 0 } := rfl
@[simp] theorem State.faultCommit_resBefore (s : State) (w : Word) (c : Code) : (s.faultCommit w c).resBefore = s.resBefore := rfl
@[simp] theorem State.faultCommit_cfg (s : State) (w : Word) (c : Code) : (s.faultCommit w c).cfg = s.cfg := rfl
@[simp] theorem State.faultCommit_outPos (s : State) (w : Word) (c : Code) : (s.faultCommit w c).outPos = s.outPos := rfl
@[simp] theorem State.faultCommit_counters (s : State) (w : Word) (c : Code) : (s.faultCommit w c).counters = s.counters := rfl
@[simp] theorem State.faultCommit_table (s : State) (w : Word) (c : Code) : (s.faultCommit w c).table = s.table := rfl
@[simp] theorem State.faultCommit_stream (s : State) (w : Word) (c : Code) : (s.faultCommit w c).stream = s.stream := rfl
@[simp] theorem State.faultCommit_lanes (s : State) (w : Word) (c : Code) : (s.faultCommit w c).lanes = s.lanes := rfl
@[simp] theorem State.faultCommit_dict (s : State) (w : Word) (c : Code) : (s.faultCommit w c).dict = s.dict := rfl
@[simp] theorem State.faultCommit_out (s : State) (w : Word) (c : Code) : (s.faultCommit w c).out = s.out := rfl
@[simp] theorem State.faultCommit_inReset (s : State) (w : Word) (c : Code) : (s.faultCommit w c).inReset = s.inReset := rfl
@[simp] theorem State.faultCommit_inputs (s : State) (w : Word) (c : Code) : (s.faultCommit w c).inputs = s.inputs := rfl
@[simp] theorem State.faultCommit_readData (s : State) (w : Word) (c : Code) : (s.faultCommit w c).readData = s.readData := rfl
@[simp] theorem State.faultCommit_draws (s : State) (w : Word) (c : Code) : (s.faultCommit w c).draws = s.draws + 1 := rfl

/-! ### `State.cancelCommit` -/

@[simp] theorem State.cancelCommit_params (s : State) : (s.cancelCommit).params = s.params := rfl
@[simp] theorem State.cancelCommit_pending (s : State) : (s.cancelCommit).pending = none := rfl
@[simp] theorem State.cancelCommit_status (s : State) : (s.cancelCommit).status = { s.status with canceled := true, code := .canceled } := rfl
@[simp] theorem State.cancelCommit_control (s : State) : (s.cancelCommit).control = { s.control with cancel := false } := rfl
@[simp] theorem State.cancelCommit_errInfo (s : State) : (s.cancelCommit).errInfo = s.errInfo := rfl
@[simp] theorem State.cancelCommit_args (s : State) : (s.cancelCommit).args = s.args := rfl
@[simp] theorem State.cancelCommit_res (s : State) : (s.cancelCommit).res = { res0 := 0, res1 := 0, res2 := 0 } := rfl
@[simp] theorem State.cancelCommit_resBefore (s : State) : (s.cancelCommit).resBefore = s.resBefore := rfl
@[simp] theorem State.cancelCommit_cfg (s : State) : (s.cancelCommit).cfg = s.cfg := rfl
@[simp] theorem State.cancelCommit_outPos (s : State) : (s.cancelCommit).outPos = s.outPos := rfl
@[simp] theorem State.cancelCommit_counters (s : State) : (s.cancelCommit).counters = { consumed := 0, produced := 0 } := rfl
@[simp] theorem State.cancelCommit_table (s : State) : (s.cancelCommit).table = { s.table with valid := false, fin := 0, caplen := 0 } := rfl
@[simp] theorem State.cancelCommit_stream (s : State) : (s.cancelCommit).stream = .closed := rfl
@[simp] theorem State.cancelCommit_lanes (s : State) : (s.cancelCommit).lanes = s.lanes.map Lane.contextReset := rfl
@[simp] theorem State.cancelCommit_dict (s : State) : (s.cancelCommit).dict = s.dict := rfl
@[simp] theorem State.cancelCommit_out (s : State) : (s.cancelCommit).out = s.out := rfl
@[simp] theorem State.cancelCommit_inReset (s : State) : (s.cancelCommit).inReset = s.inReset := rfl
@[simp] theorem State.cancelCommit_inputs (s : State) : (s.cancelCommit).inputs = s.inputs := rfl
@[simp] theorem State.cancelCommit_readData (s : State) : (s.cancelCommit).readData = s.readData := rfl
@[simp] theorem State.cancelCommit_draws (s : State) : (s.cancelCommit).draws = s.draws + 1 := rfl

/-! ### `State.issue` -/

@[simp] theorem State.issue_params (s : State) (w : Word) : (s.issue w).params = s.params := rfl
@[simp] theorem State.issue_pending (s : State) (w : Word) : (s.issue w).pending = some w := rfl
@[simp] theorem State.issue_status (s : State) (w : Word) : (s.issue w).status = s.status := rfl
@[simp] theorem State.issue_control (s : State) (w : Word) : (s.issue w).control = s.control := rfl
@[simp] theorem State.issue_errInfo (s : State) (w : Word) : (s.issue w).errInfo = s.errInfo := rfl
@[simp] theorem State.issue_args (s : State) (w : Word) : (s.issue w).args = s.args := rfl
@[simp] theorem State.issue_res (s : State) (w : Word) : (s.issue w).res = { res0 := 0, res1 := 0, res2 := 0 } := rfl
@[simp] theorem State.issue_resBefore (s : State) (w : Word) : (s.issue w).resBefore = s.res := rfl
@[simp] theorem State.issue_cfg (s : State) (w : Word) : (s.issue w).cfg = s.cfg := rfl
@[simp] theorem State.issue_outPos (s : State) (w : Word) : (s.issue w).outPos = s.outPos := rfl
@[simp] theorem State.issue_counters (s : State) (w : Word) : (s.issue w).counters = s.counters := rfl
@[simp] theorem State.issue_table (s : State) (w : Word) : (s.issue w).table = s.table := rfl
@[simp] theorem State.issue_stream (s : State) (w : Word) : (s.issue w).stream = s.stream := rfl
@[simp] theorem State.issue_lanes (s : State) (w : Word) : (s.issue w).lanes = s.lanes := rfl
@[simp] theorem State.issue_dict (s : State) (w : Word) : (s.issue w).dict = s.dict := rfl
@[simp] theorem State.issue_out (s : State) (w : Word) : (s.issue w).out = s.out := rfl
@[simp] theorem State.issue_inReset (s : State) (w : Word) : (s.issue w).inReset = s.inReset := rfl
@[simp] theorem State.issue_inputs (s : State) (w : Word) : (s.issue w).inputs = s.inputs := rfl
@[simp] theorem State.issue_readData (s : State) (w : Word) : (s.issue w).readData = s.readData := rfl
@[simp] theorem State.issue_draws (s : State) (w : Word) : (s.issue w).draws = s.draws := rfl

@[simp] theorem State.issue_visibleRes (s : State) (w : Word) : (s.issue w).visibleRes = s.res := rfl

/-! ### `State.visibleRes` -/

@[simp] theorem State.visibleRes_idle (s : State) (h : s.busy = false) : s.visibleRes = s.res := by
  simp [State.visibleRes, h]

@[simp] theorem State.visibleRes_busy (s : State) (h : s.busy = true) : s.visibleRes = s.resBefore := by
  simp [State.visibleRes, h]

/-! ### `State.reject` -/

@[simp] theorem State.reject_params (s : State) : (s.reject).params = s.params := rfl
@[simp] theorem State.reject_pending (s : State) : (s.reject).pending = s.pending := rfl
@[simp] theorem State.reject_status (s : State) : (s.reject).status = { s.status with rejected := true } := rfl
@[simp] theorem State.reject_control (s : State) : (s.reject).control = s.control := rfl
@[simp] theorem State.reject_errInfo (s : State) : (s.reject).errInfo = s.errInfo := rfl
@[simp] theorem State.reject_args (s : State) : (s.reject).args = s.args := rfl
@[simp] theorem State.reject_res (s : State) : (s.reject).res = s.res := rfl
@[simp] theorem State.reject_resBefore (s : State) : (s.reject).resBefore = s.resBefore := rfl
@[simp] theorem State.reject_cfg (s : State) : (s.reject).cfg = s.cfg := rfl
@[simp] theorem State.reject_outPos (s : State) : (s.reject).outPos = s.outPos := rfl
@[simp] theorem State.reject_counters (s : State) : (s.reject).counters = s.counters := rfl
@[simp] theorem State.reject_table (s : State) : (s.reject).table = s.table := rfl
@[simp] theorem State.reject_stream (s : State) : (s.reject).stream = s.stream := rfl
@[simp] theorem State.reject_lanes (s : State) : (s.reject).lanes = s.lanes := rfl
@[simp] theorem State.reject_dict (s : State) : (s.reject).dict = s.dict := rfl
@[simp] theorem State.reject_out (s : State) : (s.reject).out = s.out := rfl
@[simp] theorem State.reject_inReset (s : State) : (s.reject).inReset = s.inReset := rfl
@[simp] theorem State.reject_inputs (s : State) : (s.reject).inputs = s.inputs := rfl
@[simp] theorem State.reject_readData (s : State) : (s.reject).readData = s.readData := rfl
@[simp] theorem State.reject_draws (s : State) : (s.reject).draws = s.draws := rfl

/-! ### `Lane.contextReset` -/

@[simp] theorem Lane.contextReset_sliceStart (l : Lane) : (l.contextReset).sliceStart = l.sliceStart := rfl
@[simp] theorem Lane.contextReset_sliceEnd (l : Lane) : (l.contextReset).sliceEnd = l.sliceEnd := rfl
@[simp] theorem Lane.contextReset_pos (l : Lane) : (l.contextReset).pos = 0 := rfl
@[simp] theorem Lane.contextReset_outBase (l : Lane) : (l.contextReset).outBase = l.outBase := rfl
@[simp] theorem Lane.contextReset_outCap (l : Lane) : (l.contextReset).outCap = l.outCap := rfl
@[simp] theorem Lane.contextReset_outLen (l : Lane) : (l.contextReset).outLen = l.outLen := rfl
@[simp] theorem Lane.contextReset_st (l : Lane) : (l.contextReset).st = 0 := rfl
@[simp] theorem Lane.contextReset_pending (l : Lane) : (l.contextReset).pending = 3 := rfl
@[simp] theorem Lane.contextReset_init (l : Lane) : (l.contextReset).init = false := rfl
@[simp] theorem Lane.contextReset_snapValid (l : Lane) : (l.contextReset).snapValid = false := rfl
@[simp] theorem Lane.contextReset_lc (l : Lane) : (l.contextReset).lc = 3 := rfl
@[simp] theorem Lane.contextReset_lp (l : Lane) : (l.contextReset).lp = 0 := rfl
@[simp] theorem Lane.contextReset_pb (l : Lane) : (l.contextReset).pb = 2 := rfl
@[simp] theorem Lane.contextReset_sliceOpen (l : Lane) : (l.contextReset).sliceOpen = false := rfl
@[simp] theorem Lane.contextReset_reps (l : Lane) : (l.contextReset).reps = .reset := rfl
@[simp] theorem Lane.contextReset_rc (l : Lane) : (l.contextReset).rc = .reset := rfl
@[simp] theorem Lane.contextReset_prob (l : Lane) : (l.contextReset).prob = l.prob := rfl
@[simp] theorem Lane.contextReset_snap (l : Lane) : (l.contextReset).snap = l.snap := rfl
@[simp] theorem Lane.contextReset_stage (l : Lane) : (l.contextReset).stage = l.stage := rfl

/-! ### `Lane.resetState` -/

@[simp] theorem Lane.resetState_sliceStart (l : Lane) (lc lp pb : Nat) : (l.resetState lc lp pb).sliceStart = l.sliceStart := rfl
@[simp] theorem Lane.resetState_sliceEnd (l : Lane) (lc lp pb : Nat) : (l.resetState lc lp pb).sliceEnd = l.sliceEnd := rfl
@[simp] theorem Lane.resetState_pos (l : Lane) (lc lp pb : Nat) : (l.resetState lc lp pb).pos = l.pos := rfl
@[simp] theorem Lane.resetState_outBase (l : Lane) (lc lp pb : Nat) : (l.resetState lc lp pb).outBase = l.outBase := rfl
@[simp] theorem Lane.resetState_outCap (l : Lane) (lc lp pb : Nat) : (l.resetState lc lp pb).outCap = l.outCap := rfl
@[simp] theorem Lane.resetState_outLen (l : Lane) (lc lp pb : Nat) : (l.resetState lc lp pb).outLen = l.outLen := rfl
@[simp] theorem Lane.resetState_st (l : Lane) (lc lp pb : Nat) : (l.resetState lc lp pb).st = 0 := rfl
@[simp] theorem Lane.resetState_pending (l : Lane) (lc lp pb : Nat) : (l.resetState lc lp pb).pending = l.pending := rfl
@[simp] theorem Lane.resetState_init (l : Lane) (lc lp pb : Nat) : (l.resetState lc lp pb).init = true := rfl
@[simp] theorem Lane.resetState_snapValid (l : Lane) (lc lp pb : Nat) : (l.resetState lc lp pb).snapValid = false := rfl
@[simp] theorem Lane.resetState_lc (l : Lane) (lc lp pb : Nat) : (l.resetState lc lp pb).lc = BitVec.ofNat 3 lc := rfl
@[simp] theorem Lane.resetState_lp (l : Lane) (lc lp pb : Nat) : (l.resetState lc lp pb).lp = BitVec.ofNat 3 lp := rfl
@[simp] theorem Lane.resetState_pb (l : Lane) (lc lp pb : Nat) : (l.resetState lc lp pb).pb = BitVec.ofNat 3 pb := rfl
@[simp] theorem Lane.resetState_sliceOpen (l : Lane) (lc lp pb : Nat) : (l.resetState lc lp pb).sliceOpen = l.sliceOpen := rfl
@[simp] theorem Lane.resetState_reps (l : Lane) (lc lp pb : Nat) : (l.resetState lc lp pb).reps = .reset := rfl
@[simp] theorem Lane.resetState_rc (l : Lane) (lc lp pb : Nat) : (l.resetState lc lp pb).rc = l.rc := rfl
@[simp] theorem Lane.resetState_prob (l : Lane) (lc lp pb : Nat) : (l.resetState lc lp pb).prob = [] := rfl
@[simp] theorem Lane.resetState_snap (l : Lane) (lc lp pb : Nat) : (l.resetState lc lp pb).snap = l.snap := rfl
@[simp] theorem Lane.resetState_stage (l : Lane) (lc lp pb : Nat) : (l.resetState lc lp pb).stage = l.stage := rfl

/-! ### `Lane.takeSnapshot` -/

@[simp] theorem Lane.takeSnapshot_sliceStart (l : Lane) : (l.takeSnapshot).sliceStart = l.sliceStart := rfl
@[simp] theorem Lane.takeSnapshot_sliceEnd (l : Lane) : (l.takeSnapshot).sliceEnd = l.sliceEnd := rfl
@[simp] theorem Lane.takeSnapshot_pos (l : Lane) : (l.takeSnapshot).pos = l.pos := rfl
@[simp] theorem Lane.takeSnapshot_outBase (l : Lane) : (l.takeSnapshot).outBase = l.outBase := rfl
@[simp] theorem Lane.takeSnapshot_outCap (l : Lane) : (l.takeSnapshot).outCap = l.outCap := rfl
@[simp] theorem Lane.takeSnapshot_outLen (l : Lane) : (l.takeSnapshot).outLen = l.outLen := rfl
@[simp] theorem Lane.takeSnapshot_st (l : Lane) : (l.takeSnapshot).st = l.st := rfl
@[simp] theorem Lane.takeSnapshot_pending (l : Lane) : (l.takeSnapshot).pending = l.pending := rfl
@[simp] theorem Lane.takeSnapshot_init (l : Lane) : (l.takeSnapshot).init = l.init := rfl
@[simp] theorem Lane.takeSnapshot_snapValid (l : Lane) : (l.takeSnapshot).snapValid = true := rfl
@[simp] theorem Lane.takeSnapshot_lc (l : Lane) : (l.takeSnapshot).lc = l.lc := rfl
@[simp] theorem Lane.takeSnapshot_lp (l : Lane) : (l.takeSnapshot).lp = l.lp := rfl
@[simp] theorem Lane.takeSnapshot_pb (l : Lane) : (l.takeSnapshot).pb = l.pb := rfl
@[simp] theorem Lane.takeSnapshot_sliceOpen (l : Lane) : (l.takeSnapshot).sliceOpen = l.sliceOpen := rfl
@[simp] theorem Lane.takeSnapshot_reps (l : Lane) : (l.takeSnapshot).reps = l.reps := rfl
@[simp] theorem Lane.takeSnapshot_rc (l : Lane) : (l.takeSnapshot).rc = l.rc := rfl
@[simp] theorem Lane.takeSnapshot_prob (l : Lane) : (l.takeSnapshot).prob = l.prob := rfl
@[simp] theorem Lane.takeSnapshot_snap (l : Lane) : (l.takeSnapshot).snap = { st := l.st, reps := l.reps, prob := l.prob } := rfl
@[simp] theorem Lane.takeSnapshot_stage (l : Lane) : (l.takeSnapshot).stage = l.stage := rfl

/-! ### `Lane.rollBack` -/

@[simp] theorem Lane.rollBack_sliceStart (l : Lane) : (l.rollBack).sliceStart = l.sliceStart := rfl
@[simp] theorem Lane.rollBack_sliceEnd (l : Lane) : (l.rollBack).sliceEnd = l.sliceEnd := rfl
@[simp] theorem Lane.rollBack_pos (l : Lane) : (l.rollBack).pos = l.pos := rfl
@[simp] theorem Lane.rollBack_outBase (l : Lane) : (l.rollBack).outBase = l.outBase := rfl
@[simp] theorem Lane.rollBack_outCap (l : Lane) : (l.rollBack).outCap = l.outCap := rfl
@[simp] theorem Lane.rollBack_outLen (l : Lane) : (l.rollBack).outLen = l.outLen := rfl
@[simp] theorem Lane.rollBack_st (l : Lane) : (l.rollBack).st = l.snap.st := rfl
@[simp] theorem Lane.rollBack_pending (l : Lane) : (l.rollBack).pending = l.pending := rfl
@[simp] theorem Lane.rollBack_init (l : Lane) : (l.rollBack).init = l.init := rfl
@[simp] theorem Lane.rollBack_snapValid (l : Lane) : (l.rollBack).snapValid = l.snapValid := rfl
@[simp] theorem Lane.rollBack_lc (l : Lane) : (l.rollBack).lc = l.lc := rfl
@[simp] theorem Lane.rollBack_lp (l : Lane) : (l.rollBack).lp = l.lp := rfl
@[simp] theorem Lane.rollBack_pb (l : Lane) : (l.rollBack).pb = l.pb := rfl
@[simp] theorem Lane.rollBack_sliceOpen (l : Lane) : (l.rollBack).sliceOpen = l.sliceOpen := rfl
@[simp] theorem Lane.rollBack_reps (l : Lane) : (l.rollBack).reps = l.snap.reps := rfl
@[simp] theorem Lane.rollBack_rc (l : Lane) : (l.rollBack).rc = l.rc := rfl
@[simp] theorem Lane.rollBack_prob (l : Lane) : (l.rollBack).prob = l.snap.prob := rfl
@[simp] theorem Lane.rollBack_snap (l : Lane) : (l.rollBack).snap = l.snap := rfl
@[simp] theorem Lane.rollBack_stage (l : Lane) : (l.rollBack).stage = l.stage := rfl

/-! ### `Lane.openSlice` -/

@[simp] theorem Lane.openSlice_sliceStart (l : Lane) (dr : Bool) : (l.openSlice dr).sliceStart = l.sliceStart := rfl
@[simp] theorem Lane.openSlice_sliceEnd (l : Lane) (dr : Bool) : (l.openSlice dr).sliceEnd = l.sliceEnd := rfl
@[simp] theorem Lane.openSlice_pos (l : Lane) (dr : Bool) : (l.openSlice dr).pos = l.sliceStart := rfl
@[simp] theorem Lane.openSlice_outBase (l : Lane) (dr : Bool) : (l.openSlice dr).outBase = l.outBase := rfl
@[simp] theorem Lane.openSlice_outCap (l : Lane) (dr : Bool) : (l.openSlice dr).outCap = l.outCap := rfl
@[simp] theorem Lane.openSlice_outLen (l : Lane) (dr : Bool) : (l.openSlice dr).outLen = l.outLen := rfl
@[simp] theorem Lane.openSlice_st (l : Lane) (dr : Bool) : (l.openSlice dr).st = l.st := rfl
@[simp] theorem Lane.openSlice_pending (l : Lane) (dr : Bool) : (l.openSlice dr).pending = if dr then 3 else 2 := rfl
@[simp] theorem Lane.openSlice_init (l : Lane) (dr : Bool) : (l.openSlice dr).init = l.init := rfl
@[simp] theorem Lane.openSlice_snapValid (l : Lane) (dr : Bool) : (l.openSlice dr).snapValid = l.snapValid := rfl
@[simp] theorem Lane.openSlice_lc (l : Lane) (dr : Bool) : (l.openSlice dr).lc = l.lc := rfl
@[simp] theorem Lane.openSlice_lp (l : Lane) (dr : Bool) : (l.openSlice dr).lp = l.lp := rfl
@[simp] theorem Lane.openSlice_pb (l : Lane) (dr : Bool) : (l.openSlice dr).pb = l.pb := rfl
@[simp] theorem Lane.openSlice_sliceOpen (l : Lane) (dr : Bool) : (l.openSlice dr).sliceOpen = true := rfl
@[simp] theorem Lane.openSlice_reps (l : Lane) (dr : Bool) : (l.openSlice dr).reps = l.reps := rfl
@[simp] theorem Lane.openSlice_rc (l : Lane) (dr : Bool) : (l.openSlice dr).rc = l.rc := rfl
@[simp] theorem Lane.openSlice_prob (l : Lane) (dr : Bool) : (l.openSlice dr).prob = l.prob := rfl
@[simp] theorem Lane.openSlice_snap (l : Lane) (dr : Bool) : (l.openSlice dr).snap = l.snap := rfl
@[simp] theorem Lane.openSlice_stage (l : Lane) (dr : Bool) : (l.openSlice dr).stage = l.stage := rfl

/-! ### `Lane.closeChunk` -/

@[simp] theorem Lane.closeChunk_sliceStart (l : Lane) (n : Nat) : (l.closeChunk n).sliceStart = l.sliceStart := rfl
@[simp] theorem Lane.closeChunk_sliceEnd (l : Lane) (n : Nat) : (l.closeChunk n).sliceEnd = l.sliceEnd := rfl
@[simp] theorem Lane.closeChunk_pos (l : Lane) (n : Nat) : (l.closeChunk n).pos = BitVec.ofNat 32 n := rfl
@[simp] theorem Lane.closeChunk_outBase (l : Lane) (n : Nat) : (l.closeChunk n).outBase = l.outBase := rfl
@[simp] theorem Lane.closeChunk_outCap (l : Lane) (n : Nat) : (l.closeChunk n).outCap = l.outCap := rfl
@[simp] theorem Lane.closeChunk_outLen (l : Lane) (n : Nat) : (l.closeChunk n).outLen = l.outLen := rfl
@[simp] theorem Lane.closeChunk_st (l : Lane) (n : Nat) : (l.closeChunk n).st = l.st := rfl
@[simp] theorem Lane.closeChunk_pending (l : Lane) (n : Nat) : (l.closeChunk n).pending = l.pending := rfl
@[simp] theorem Lane.closeChunk_init (l : Lane) (n : Nat) : (l.closeChunk n).init = l.init := rfl
@[simp] theorem Lane.closeChunk_snapValid (l : Lane) (n : Nat) : (l.closeChunk n).snapValid = l.snapValid := rfl
@[simp] theorem Lane.closeChunk_lc (l : Lane) (n : Nat) : (l.closeChunk n).lc = l.lc := rfl
@[simp] theorem Lane.closeChunk_lp (l : Lane) (n : Nat) : (l.closeChunk n).lp = l.lp := rfl
@[simp] theorem Lane.closeChunk_pb (l : Lane) (n : Nat) : (l.closeChunk n).pb = l.pb := rfl
@[simp] theorem Lane.closeChunk_sliceOpen (l : Lane) (n : Nat) : (l.closeChunk n).sliceOpen = (l.sliceOpen && !decide (n = l.sliceEnd.toNat)) := rfl
@[simp] theorem Lane.closeChunk_reps (l : Lane) (n : Nat) : (l.closeChunk n).reps = l.reps := rfl
@[simp] theorem Lane.closeChunk_rc (l : Lane) (n : Nat) : (l.closeChunk n).rc = .reset := rfl
@[simp] theorem Lane.closeChunk_prob (l : Lane) (n : Nat) : (l.closeChunk n).prob = l.prob := rfl
@[simp] theorem Lane.closeChunk_snap (l : Lane) (n : Nat) : (l.closeChunk n).snap = l.snap := rfl
@[simp] theorem Lane.closeChunk_stage (l : Lane) (n : Nat) : (l.closeChunk n).stage = l.stage := rfl

/-! ### `Enc.setRc` -/

@[simp] theorem Enc.setRc_lane (e : Enc) (r : Rc) : (e.setRc r).lane = { e.lane with rc := r } := rfl
@[simp] theorem Enc.setRc_rev (e : Enc) (r : Rc) : (e.setRc r).rev = e.rev := rfl
@[simp] theorem Enc.setRc_room (e : Enc) (r : Rc) : (e.setRc r).room = e.room := rfl

/-! ### `Enc.setProb` -/

@[simp] theorem Enc.setProb_lane (e : Enc) (i p : Nat) : (e.setProb i p).lane = { e.lane with prob := ProbMem.write e.lane.prob i (BitVec.ofNat 11 p) } := rfl
@[simp] theorem Enc.setProb_rev (e : Enc) (i p : Nat) : (e.setProb i p).rev = e.rev := rfl
@[simp] theorem Enc.setProb_room (e : Enc) (i p : Nat) : (e.setProb i p).room = e.room := rfl

/-! ### `Enc.setSt` -/

@[simp] theorem Enc.setSt_lane (e : Enc) (st : Fin 12) : (e.setSt st).lane = { e.lane with st := st } := rfl
@[simp] theorem Enc.setSt_rev (e : Enc) (st : Fin 12) : (e.setSt st).rev = e.rev := rfl
@[simp] theorem Enc.setSt_room (e : Enc) (st : Fin 12) : (e.setSt st).room = e.room := rfl

/-! ### `Enc.setReps` -/

@[simp] theorem Enc.setReps_lane (e : Enc) (r : Reps) : (e.setReps r).lane = { e.lane with reps := r } := rfl
@[simp] theorem Enc.setReps_rev (e : Enc) (r : Reps) : (e.setReps r).rev = e.rev := rfl
@[simp] theorem Enc.setReps_room (e : Enc) (r : Reps) : (e.setReps r).room = e.room := rfl

/-! ### `Enc.setPos` -/

@[simp] theorem Enc.setPos_lane (e : Enc) (p : Nat) : (e.setPos p).lane = { e.lane with pos := BitVec.ofNat 32 p } := rfl
@[simp] theorem Enc.setPos_rev (e : Enc) (p : Nat) : (e.setPos p).rev = e.rev := rfl
@[simp] theorem Enc.setPos_room (e : Enc) (p : Nat) : (e.setPos p).room = e.room := rfl

/-! ### Lanes -/

theorem State.setLane_same (s : State) (n : Nat) (l : Lane) (h : s.lanes[n]? = some l) : s.setLane n l = s := by
  have : s.lanes.set n l = s.lanes := by
    apply List.ext_getElem?
    intro i
    rw [List.getElem?_set]
    split
    · next hi =>
      subst hi
      obtain ⟨hlt, hl⟩ := List.getElem?_eq_some_iff.mp h
      simp [hlt, hl]
    · rfl
  unfold State.setLane
  rw [this]

@[simp] theorem State.getLane_some (s : State) (n : Nat) (l : Lane) (h : s.lanes[n]? = some l) : s.getLane n = .ok l := by
  simp [State.getLane, h]

@[simp] theorem State.getLane_none (s : State) (n : Nat) (h : s.lanes[n]? = none) :
    s.getLane n = .error (.fault .invalidParameter) := by
  simp [State.getLane, h]

/-- `getLane` answers the lane there is, and faults `INVALID_PARAMETER` otherwise. -/
theorem State.getLane_ok (s : State) (n : Nat) (l : Lane) : s.getLane n = .ok l ↔ s.lanes[n]? = some l := by
  unfold State.getLane
  split <;> simp_all

end Sys2Proof.Machine
end

