-- ==== Sys2Proof/Laws/Commands.lean ====
section
/-! SUPPORT. What the operations that commands are made of can do: checks, results, the output write, the window commit,
and the one commit that concludes every command. -/

namespace Sys2Proof.Machine

/-! ## Computations that may halt -/

theorem bind_ok {A B : Type} (x : Except Halt A) (f : A → Except Halt B) (r : B) :
    (x >>= f) = .ok r ↔ ∃ a, x = .ok a ∧ f a = .ok r := by
  cases x with
  | ok a => simp [bind, Except.bind]
  | error h => simp [bind, Except.bind]

theorem bind_error {A B : Type} (x : Except Halt A) (f : A → Except Halt B) (h : Halt) :
    (x >>= f) = .error h ↔ x = .error h ∨ ∃ a, x = .ok a ∧ f a = .error h := by
  cases x with
  | ok a => simp [bind, Except.bind]
  | error k => simp [bind, Except.bind]

theorem check_ok (b : Bool) (c : Code) (u : Unit) : check b c = .ok u ↔ b = true := by
  cases b <;> simp [check]

theorem check_error (b : Bool) (c : Code) (h : Halt) : check b c = .error h ↔ b = false ∧ h = .fault c := by
  cases b <;> simp [check, eq_comm]

theorem cancelPoint_ok (s : State) (u : Unit) : s.cancelPoint = .ok u ↔ s.cancelRequested = false := by
  unfold State.cancelPoint
  cases s.cancelRequested <;> simp

theorem cancelPoint_error (s : State) (h : Halt) :
    s.cancelPoint = .error h ↔ s.cancelRequested = true ∧ h = .canceled := by
  unfold State.cancelPoint
  cases s.cancelRequested <;> simp [eq_comm]

/-- A cancellation needs a request (R362). -/
theorem cancelRequested_control (s : State) (h : s.cancelRequested = true) : s.control.cancel = true := by
  unfold State.cancelRequested at h
  exact (Bool.and_eq_true_iff.mp h).1

/-! ## The conclusion of a command (R355) -/

/-- Everything a concluded command can do. -/
theorem conclude_next (i : Instr) (s t : State) (body : State → Except Halt State) (h : conclude i s body = .next t) :
    (∃ s', body s.clearRes = .ok s' ∧ t = s'.complete)
      ∨ (∃ c, body s.clearRes = .error (.fault c) ∧ t = s.faultCommit (encode i) c)
      ∨ (body s.clearRes = .error .canceled ∧ t = s.cancelCommit) := by
  unfold conclude at h
  split at h
  · next s' hb => exact .inl ⟨s', hb, (Host.Outcome.next.inj h).symm⟩
  · next c hb => exact .inr (.inl ⟨c, hb, (Host.Outcome.next.inj h).symm⟩)
  · next hb => exact .inr (.inr ⟨hb, (Host.Outcome.next.inj h).symm⟩)
  · cases h

theorem conclude_ok (i : Instr) (s s' : State) (body : State → Except Halt State) (h : body s.clearRes = .ok s') :
    conclude i s body = .next s'.complete := by
  unfold conclude
  rw [h]

theorem conclude_fault (i : Instr) (s : State) (body : State → Except Halt State) (c : Code)
    (h : body s.clearRes = .error (.fault c)) : conclude i s body = .next (s.faultCommit (encode i) c) := by
  unfold conclude
  rw [h]

theorem conclude_canceled (i : Instr) (s : State) (body : State → Except Halt State)
    (h : body s.clearRes = .error .canceled) : conclude i s body = .next s.cancelCommit := by
  unfold conclude
  rw [h]

/-! ## Output (R296, R297) -/

theorem writeOut_ok (s t : State) (bytes : List Byte) :
    s.writeOut bytes = .ok t ↔
      s.outPos.toNat + bytes.length ≤ s.cfg.outLimit.toNat
        ∧ t = { s with
            out := Memory.writeBytes s.out s.outPos.toNat bytes
            outPos := BitVec.ofNat 32 (s.outPos.toNat + bytes.length)
            counters := { s.counters with produced := s.counters.produced + BitVec.ofNat 64 bytes.length } } := by
  unfold State.writeOut
  by_cases h : s.outPos.toNat + bytes.length ≤ s.cfg.outLimit.toNat
  · simp [check, h, bind, Except.bind, pure, Except.pure, eq_comm]
  · simp [check, h, bind, Except.bind]

theorem writeOut_error (s : State) (bytes : List Byte) (h : Halt) :
    s.writeOut bytes = .error h ↔
      s.cfg.outLimit.toNat < s.outPos.toNat + bytes.length ∧ h = .fault .destinationTooSmall := by
  unfold State.writeOut
  by_cases hf : s.outPos.toNat + bytes.length ≤ s.cfg.outLimit.toNat
  · simp [check, hf, bind, Except.bind, pure, Except.pure]
  · simp [check, hf, bind, Except.bind, eq_comm]
    omega

/-- What a performed output write leaves in `OUT`, `OUT_POS` and `PRODUCED`. -/
theorem writeOut_writes (s t : State) (bytes : List Byte) (hm : Memory.wf s.out = true)
    (h : s.writeOut bytes = .ok t) :
    WritesOut s t s.outPos.toNat bytes ∧ t.outPos.toNat = s.outPos.toNat + bytes.length
      ∧ t.counters.produced = s.counters.produced + BitVec.ofNat 64 bytes.length
      ∧ t.counters.consumed = s.counters.consumed ∧ Memory.wf t.out = true := by
  obtain ⟨hf, rfl⟩ := (writeOut_ok s t bytes).mp h
  refine ⟨⟨Memory.readBytes_writeBytes _ _ _ hm, fun b hb => ?_⟩, ?_, rfl, rfl, Memory.writeBytes_wf _ _ _ hm⟩
  · exact Memory.read_writeBytes_outside _ _ _ _ hb
  · have := s.cfg.outLimit.isLt
    simp only [BitVec.toNat_ofNat]
    omega

/-! ## The lane window (R140, R141) -/

theorem windowLane_ok (s : State) (L : Nat) (l : Lane) :
    s.windowLane L = .ok l ↔ s.lanes[L]? = some l ∧ s.windowLegal l = true := by
  unfold State.windowLane
  simp only [bind_ok, State.getLane_ok, check_ok, pure, Except.pure, Except.ok.injEq]
  constructor
  · rintro ⟨l', h1, _, h2, rfl⟩
    exact ⟨h1, h2⟩
  · rintro ⟨h1, h2⟩
    exact ⟨l, h1, (), h2, rfl⟩

theorem codingLane_ok (s : State) (L : Nat) (l : Lane) :
    s.codingLane L = .ok l ↔ s.lanes[L]? = some l ∧ s.windowLegal l = true ∧ l.init = true := by
  unfold State.codingLane
  simp only [bind_ok, windowLane_ok, check_ok, pure, Except.pure, Except.ok.injEq]
  constructor
  · rintro ⟨l', ⟨h1, h2⟩, _, h3, rfl⟩
    exact ⟨h1, h2, h3⟩
  · rintro ⟨h1, h2, h3⟩
    exact ⟨l, ⟨h1, h2⟩, (), h3, rfl⟩

theorem symbolLane_ok (s : State) (L : Nat) (l : Lane) :
    s.symbolLane L = .ok l ↔
      s.lanes[L]? = some l ∧ s.windowLegal l = true ∧ l.init = true
        ∧ s.cfg.blkEnd.toNat ≤ s.params.dictCap.toNat := by
  unfold State.symbolLane
  simp only [bind_ok, codingLane_ok, check_ok, decide_eq_true_eq, pure, Except.pure, Except.ok.injEq]
  constructor
  · rintro ⟨l', ⟨h1, h2, h3⟩, _, h4, rfl⟩
    exact ⟨h1, h2, h3, h4⟩
  · rintro ⟨h1, h2, h3, h4⟩
    exact ⟨l, ⟨h1, h2, h3⟩, (), h4, rfl⟩

theorem probLane_ok (s : State) (L : Nat) (l : Lane) :
    s.probLane L = .ok l ↔
      s.lanes[L]? = some l ∧ l.init = true ∧ s.args.arg0.toNat < probWords l.lc.toNat l.lp.toNat := by
  unfold State.probLane
  simp only [bind_ok, State.getLane_ok, check_ok, decide_eq_true_eq, pure, Except.pure, Except.ok.injEq]
  constructor
  · rintro ⟨l', h1, _, h2, _, h3, rfl⟩
    exact ⟨h1, h2, h3⟩
  · rintro ⟨h1, h2, h3⟩
    exact ⟨l, h1, (), h2, (), h3, rfl⟩

theorem queryPos_ok (s : State) (p : Nat) :
    s.queryPos = .ok p ↔ s.table.valid = true ∧ s.args.arg0.toNat < s.table.fin.toNat ∧ p = s.args.arg0.toNat := by
  unfold State.queryPos
  simp only [bind_ok, check_ok, decide_eq_true_eq, pure, Except.pure, Except.ok.injEq]
  constructor
  · rintro ⟨_, h1, _, h2, rfl⟩
    exact ⟨h1, h2, rfl⟩
  · rintro ⟨h1, h2, rfl⟩
    exact ⟨(), h1, (), h2, rfl⟩

/-- The window commit: the coder's lane with `LANE_OUT_LEN` advanced, the bytes in `OUT`, nothing else. -/
theorem commitWindow_writes (s : State) (L : Nat) (e : Enc) (hm : Memory.wf s.out = true)
    (hroom : e.lane.outLen.toNat + e.rev.length < 2 ^ 32) :
    let t := s.commitWindow L e
    t = { s with lanes := t.lanes, out := t.out }
      ∧ t.lanes = s.lanes.set L { e.lane with outLen := BitVec.ofNat 32 (e.lane.outLen.toNat + e.bytes.length) }
      ∧ (BitVec.ofNat 32 (e.lane.outLen.toNat + e.bytes.length)).toNat = e.lane.outLen.toNat + e.bytes.length
      ∧ WritesOut s t (e.lane.outBase.toNat + e.lane.outLen.toNat) e.bytes ∧ Memory.wf t.out = true := by
  have hlen : e.bytes.length = e.rev.length := by simp [Enc.bytes]
  refine ⟨rfl, ?_, ?_, ⟨Memory.readBytes_writeBytes _ _ _ hm, fun b hb => ?_⟩, Memory.writeBytes_wf _ _ _ hm⟩
  · rw [hlen]; rfl
  · rw [hlen, BitVec.toNat_ofNat, Nat.mod_eq_of_lt hroom]
  · exact Memory.read_writeBytes_outside _ _ _ _ hb

end Sys2Proof.Machine
end

