-- ==== Sys2Proof/Laws/Checks.lean ====
section
/-! SUPPORT. The lists of start checks (R351): what the first failure of a list is, and that each group of checks fails
exactly where the model's own legality test does. -/

namespace Sys2Proof.Machine

@[simp] theorem firstFailure_nil : Checks.firstFailure [] = none := rfl

@[simp] theorem firstFailure_cons (ok : Bool) (c : Code) (rest : Checks) :
    Checks.firstFailure ((ok, c) :: rest) = if ok then Checks.firstFailure rest else some c := rfl

/-- Of two lists in order, the second counts only where the first passes. -/
theorem firstFailure_append (a b : Checks) :
    Checks.firstFailure (a ++ b) = (match Checks.firstFailure a with | none => Checks.firstFailure b | some c => some c) := by
  induction a with
  | nil => rfl
  | cons x a ih =>
    obtain ⟨ok, c⟩ := x
    cases ok
    · rfl
    · simpa using ih

/-- Checks of one code fail with it unless all of them hold. -/
theorem firstFailure_invalidUnless (l : List Bool) :
    Checks.firstFailure (invalidUnless l) = if l.all id then none else some .invalidParameter := by
  induction l with
  | nil => rfl
  | cons b l ih => cases b <;> simp_all [invalidUnless]

theorem windowChecks_failure (s : State) (l : Lane) :
    (s.windowChecks l).firstFailure = if s.windowLegal l then none else some .invalidParameter := by
  simp [State.windowChecks, firstFailure_invalidUnless, State.windowLegal]

theorem outChecks_failure (s : State) :
    s.outChecks.firstFailure = if s.outLegal then none else some .invalidParameter := by
  simp [State.outChecks, firstFailure_invalidUnless, State.outLegal]

/-- A group of `INVALID_PARAMETER` checks followed by one that fails likewise. -/
theorem ite_then (a b : Bool) (c : Code) :
    (match (if a then none else some c) with
      | none => if b then none else some c
      | some d => some d) = (if a && b then none else some c : Option Code) := by
  cases a <;> rfl

theorem encConfigChecks_failure (s : State) :
    s.encConfigChecks.firstFailure = if s.encConfigLegal then none else some .invalidParameter := by
  unfold State.encConfigChecks
  rw [firstFailure_append, firstFailure_invalidUnless, outChecks_failure, ite_then]
  congr 2
  simp only [State.encConfigLegal, Cfg.propsLegal, chunkULimit, chunkCMin, chunkCLimit, List.all_cons, List.all_nil, id,
    Bool.and_true, Bool.and_assoc]
  rfl

theorem blockChecks_failure (s : State) :
    s.blockChecks.firstFailure = if s.blockLegal then none else some .invalidParameter := by
  unfold State.blockChecks
  rw [firstFailure_invalidUnless]
  congr 1
  simp only [State.blockLegal, List.all_cons, List.all_nil, id, Bool.and_true, Bool.and_assoc, eq_iff_iff]
  cases s.cfg.dictReset <;> simp

theorem sliceChecks_failure (s : State) (l : Lane) :
    (s.sliceChecks l).firstFailure = if s.blockLegal && s.sliceInBlock l then none else some .invalidParameter := by
  unfold State.sliceChecks
  rw [firstFailure_append, blockChecks_failure, firstFailure_invalidUnless]
  cases s.blockLegal <;> simp [State.sliceInBlock, and_assoc]

theorem tableChecks_failure (s : State) :
    s.tableChecks.firstFailure = if s.tableFits then none else some .sequenceError := by
  cases h : s.table.valid <;> simp [State.tableChecks, State.tableFits, h]

theorem initChecks_failure (l : Lane) :
    l.initChecks.firstFailure = if l.init then none else some .sequenceError := by
  simp [Lane.initChecks]

theorem indexChecks_failure (l : Lane) (i : Nat) :
    (l.indexChecks i).firstFailure = if i < l.probWords then none else some .invalidParameter := by
  unfold Lane.indexChecks Lane.probWords Machine.probWords
  rw [firstFailure_invalidUnless]
  simp only [List.all_cons, List.all_nil, id, Bool.and_true, decide_eq_true_eq]

/-- A lane command on a lane that does not exist fails its first check. -/
theorem laneChecks_none (s : State) (lane : Nat) (more : Lane → Checks) (h : s.lanes[lane]? = none) :
    (s.laneChecks lane more).firstFailure = some .invalidParameter := by
  simp [State.laneChecks, h]

theorem laneChecks_some (s : State) (lane : Nat) (more : Lane → Checks) (l : Lane) (h : s.lanes[lane]? = some l) :
    s.laneChecks lane more = more l := by
  simp [State.laneChecks, h]

end Sys2Proof.Machine
end

