-- ==== Sys2Proof/Laws/Coder.lean ====
section
/-! SUPPORT. What the range coder's primitives can do (40_range_coder.md): one lemma for `ShiftLow`, one for the
renormalisation after a coding step, one for `EncodeBit`, and the arithmetic of the number a coder stands for. -/

namespace Sys2Proof.Machine

/-! ## Big-endian numbers -/

theorem bigEndian_append (xs ys : List Byte) :
    bigEndian (xs ++ ys) = bigEndian xs * 256 ^ ys.length + bigEndian ys := by
  unfold bigEndian
  rw [List.foldl_append]
  generalize List.foldl (fun n (b : Byte) => n * 256 + b.toNat) 0 xs = x
  induction ys generalizing x with
  | nil => simp
  | cons b ys ih =>
    rw [List.foldl_cons, ih, List.foldl_cons, ih (0 * 256 + b.toNat), List.length_cons, Nat.pow_succ]
    ring

theorem bigEndian_singleton (b : Byte) : bigEndian [b] = b.toNat := by simp [bigEndian]

theorem bigEndian_replicate (n : Nat) (b : Byte) : bigEndian (List.replicate n b) * 255 + b.toNat = b.toNat * 256 ^ n := by
  induction n with
  | zero => simp [bigEndian]
  | succ n ih =>
    rw [List.replicate_succ', bigEndian_append, bigEndian_singleton, List.length_singleton, Nat.pow_one, Nat.pow_succ]
    generalize bigEndian (List.replicate n b) = x at ih ⊢
    generalize 256 ^ n = y at ih ⊢
    generalize b.toNat = z at ih ⊢
    rw [← Nat.mul_assoc, ← ih]
    ring

theorem bigEndian_ff (n : Nat) : bigEndian (List.replicate n (255 : Byte)) + 1 = 256 ^ n := by
  have := bigEndian_replicate n (255 : Byte)
  rw [show (255 : Byte).toNat = 255 by decide] at this
  generalize 256 ^ n = y at this ⊢
  omega

theorem bigEndian_zero (n : Nat) : bigEndian (List.replicate n (0 : Byte)) = 0 := by
  have := bigEndian_replicate n (0 : Byte)
  rw [show (0 : Byte).toNat = 0 by decide] at this
  omega

/-! ## The pieces of `ShiftLow` -/

theorem emitRun_ok (first rest : Byte) (k : Nat) (e e' : Enc) :
    emitRun first rest k e = .ok e' ↔
      (∀ n, e.room = some n → e.rev.length + k ≤ n)
        ∧ e' = { e with rev := List.replicate (k - 1) rest ++ first :: e.rev } := by
  unfold emitRun
  split
  · next n hn =>
    split
    · next h => simp [hn, h, eq_comm]
    · next h => simp [hn, h]
  · next hn => simp [hn, eq_comm]

theorem emitRun_error (first rest : Byte) (k : Nat) (e : Enc) (h : Halt) :
    emitRun first rest k e = .error h ↔
      (∃ n, e.room = some n ∧ n < e.rev.length + k) ∧ h = .fault .destinationTooSmall := by
  unfold emitRun
  split
  · next n hn =>
    split
    · next hf => simp [hn]; omega
    · next hf => simp [hn, eq_comm]; omega
  · next hn => simp [hn]

theorem pushByte_ok (e e' : Enc) :
    pushByte e = .ok e' ↔
      e.lane.rc.cacheSize.toNat ≠ 2 ^ 32 - 1
        ∧ e' = e.setRc { e.lane.rc with
            cacheSize := e.lane.rc.cacheSize + 1
            low := BitVec.ofNat 33 (e.lane.rc.low.toNat % 2 ^ 24 * 2 ^ 8) } := by
  unfold pushByte
  by_cases h : e.lane.rc.cacheSize.toNat = 2 ^ 32 - 1
  · simp [h]
  · simp only [h, if_false, Except.ok.injEq, ne_eq, not_false_eq_true, true_and]
    exact eq_comm

theorem flushPending_ok (e e' : Enc) :
    flushPending e = .ok e' ↔
      e.lane.rc.cacheSize ≠ 0
        ∧ (∀ n, e.room = some n → e.rev.length + e.lane.rc.cacheSize.toNat ≤ n)
        ∧ e' = { lane := { e.lane with rc := { e.lane.rc with
                  cacheSize := 0, cache := BitVec.ofNat 8 (e.lane.rc.low.toNat / 2 ^ 24) } }
                 rev := List.replicate (e.lane.rc.cacheSize.toNat - 1)
                     (BitVec.ofNat 8 (0xFF + e.lane.rc.low.toNat / 2 ^ 32))
                   ++ BitVec.ofNat 8 (e.lane.rc.cache.toNat + e.lane.rc.low.toNat / 2 ^ 32) :: e.rev
                 room := e.room } := by
  unfold flushPending
  by_cases h : e.lane.rc.cacheSize = 0
  · simp [h]
  · simp only [h, if_false, bind_ok, emitRun_ok, pure, Except.pure, Except.ok.injEq, ne_eq, not_false_eq_true, true_and]
    constructor
    · rintro ⟨a, ⟨h1, rfl⟩, rfl⟩
      exact ⟨h1, rfl⟩
    · rintro ⟨h1, rfl⟩
      exact ⟨_, ⟨h1, rfl⟩, rfl⟩

theorem pushed_low_lt (low : BitVec 33) : (BitVec.ofNat 33 (low.toNat % 2 ^ 24 * 2 ^ 8)).toNat = low.toNat % 2 ^ 24 * 2 ^ 8 := by
  rw [BitVec.toNat_ofNat, Nat.mod_eq_of_lt]
  omega

/-! ## `ShiftLow` (R143) -/

/-- Everything `ShiftLow` does to a coder with a pending byte: only the coder registers but `range`, and the output,
change; emitted and pending bytes grow by one; `low` loses its top byte; and, unless a carry meets a cached 0xFF, the
number the coder stands for is multiplied by 256. -/
theorem shiftLow_ok (e e' : Enc) (h : shiftLow e = .ok e') (hc : 1 ≤ e.lane.rc.cacheSize.toNat) :
    e'.room = e.room ∧ e'.lane = { e.lane with rc := e'.lane.rc }
      ∧ e'.lane.rc.range = e.lane.rc.range
      ∧ e'.lane.rc.low.toNat = e.lane.rc.low.toNat % 2 ^ 24 * 2 ^ 8
      ∧ 1 ≤ e'.lane.rc.cacheSize.toNat
      ∧ e'.rev.length + e'.lane.rc.cacheSize.toNat = e.rev.length + e.lane.rc.cacheSize.toNat + 1
      ∧ (e.lane.rc.cache.toNat + e.lane.rc.low.toNat / 2 ^ 32 ≤ 255 →
          codeValue e'.bytes e'.lane.rc = 256 * codeValue e.bytes e.lane.rc)
      ∧ (e'.lane.rc.cache = e.lane.rc.cache
            ∧ 0xFF000000 ≤ e.lane.rc.low.toNat ∧ e.lane.rc.low.toNat < 2 ^ 32
          ∨ e'.lane.rc.cache.toNat = e.lane.rc.low.toNat / 2 ^ 24 % 256
            ∧ (e.lane.rc.low.toNat < 0xFF000000 ∨ 2 ^ 32 ≤ e.lane.rc.low.toNat)) := by
  have hlow := e.lane.rc.low.isLt
  have hcs := e.lane.rc.cacheSize.isLt
  unfold shiftLow at h
  split at h
  · next hfl =>
    obtain ⟨m, h1, h2⟩ := (bind_ok _ _ _).mp h
    obtain ⟨-, -, rfl⟩ := (flushPending_ok _ _).mp h1
    obtain ⟨-, rfl⟩ := (pushByte_ok _ _).mp h2
    refine ⟨rfl, rfl, rfl, pushed_low_lt _, ?_, ?_, fun hcarry => ?_, .inr ⟨?_, hfl⟩⟩
    · simp
    · simp
      omega
    · obtain ⟨n, hn⟩ : ∃ n, e.lane.rc.cacheSize.toNat = n + 1 := ⟨_, (Nat.sub_add_cancel hc).symm⟩
      have hb : e.bytes = e.rev.reverse := rfl
      simp only [codeValue, Enc.bytes, Enc.setRc, hn, Nat.add_sub_cancel, List.reverse_append, List.reverse_cons,
        List.reverse_replicate, List.append_assoc, List.singleton_append, bigEndian_append,
        List.length_replicate, List.length_cons, pushed_low_lt]
      rw [show ((0 : Word) + 1).toNat - 1 = 0 by decide, Nat.pow_zero,
        show ∀ (b : Byte) (bs : List Byte), b :: bs = [b] ++ bs from fun _ _ => rfl, bigEndian_append,
        bigEndian_singleton, BitVec.toNat_ofNat, BitVec.toNat_ofNat, Nat.mod_eq_of_lt (by omega)]
      simp only [List.length_replicate]
      rcases Nat.lt_or_ge e.lane.rc.low.toNat (2 ^ 32) with hl | hl
      · have hd : e.lane.rc.low.toNat / 2 ^ 32 = 0 := Nat.div_eq_of_lt hl
        rw [hd]
        have hff := bigEndian_ff n
        rw [show (BitVec.ofNat 8 (0xFF + 0) : Byte) = 255 by decide]
        rw [Nat.pow_succ]
        have h24 : e.lane.rc.low.toNat = e.lane.rc.low.toNat / 2 ^ 24 % 2 ^ 8 * 2 ^ 24 + e.lane.rc.low.toNat % 2 ^ 24 := by
          omega
        generalize bigEndian (List.replicate n (255 : Byte)) = f at hff ⊢
        generalize 256 ^ n = P at hff ⊢
        obtain rfl : P = f + 1 := hff.symm
        generalize bigEndian e.rev.reverse = B
        generalize e.lane.rc.cache.toNat = c
        generalize e.lane.rc.low.toNat / 2 ^ 24 % 2 ^ 8 = x at h24 ⊢
        generalize e.lane.rc.low.toNat % 2 ^ 24 = y at h24 ⊢
        rw [h24]
        simp only [Nat.add_sub_cancel]
        ring
      · have hd : e.lane.rc.low.toNat / 2 ^ 32 = 1 := by omega
        rw [hd]
        rw [show (BitVec.ofNat 8 (0xFF + 1) : Byte) = 0 by decide, bigEndian_zero]
        rw [Nat.pow_succ]
        have h24 : e.lane.rc.low.toNat
            = 2 ^ 32 + (e.lane.rc.low.toNat / 2 ^ 24 % 2 ^ 8 * 2 ^ 24 + e.lane.rc.low.toNat % 2 ^ 24) := by
          omega
        have hP : 1 ≤ 256 ^ n := Nat.one_le_pow _ _ (by decide)
        obtain ⟨f, hf⟩ : ∃ f, 256 ^ n = f + 1 := ⟨_, (Nat.sub_add_cancel hP).symm⟩
        rw [hf]
        generalize bigEndian e.rev.reverse = B
        generalize e.lane.rc.cache.toNat = c
        generalize e.lane.rc.low.toNat / 2 ^ 24 % 2 ^ 8 = x at h24 ⊢
        generalize e.lane.rc.low.toNat % 2 ^ 24 = y at h24 ⊢
        rw [h24]
        simp only [Nat.add_sub_cancel]
        ring
    · simp
  · next hfl =>
    obtain ⟨hne, rfl⟩ := (pushByte_ok _ _).mp h
    have hcs1 : (e.lane.rc.cacheSize + 1).toNat = e.lane.rc.cacheSize.toNat + 1 := by
      rw [BitVec.toNat_add, show (1 : Word).toNat = 1 by decide, Nat.mod_eq_of_lt (by omega)]
    refine ⟨rfl, rfl, rfl, pushed_low_lt _, ?_, ?_, fun _ => ?_, .inl ⟨rfl, by omega, by omega⟩⟩
    · simp only [Enc.setRc_lane, hcs1]
      omega
    · simp only [Enc.setRc_lane, Enc.setRc_rev, hcs1]
      omega
    · obtain ⟨n, hn⟩ : ∃ n, e.lane.rc.cacheSize.toNat = n + 1 := ⟨_, (Nat.sub_add_cancel hc).symm⟩
      simp only [codeValue, Enc.bytes, Enc.setRc, hcs1, hn, Nat.add_sub_cancel, Nat.pow_succ]
      have hpl := pushed_low_lt e.lane.rc.low
      generalize (BitVec.ofNat 33 (e.lane.rc.low.toNat % 2 ^ 24 * 2 ^ 8)).toNat = pl at hpl ⊢
      subst hpl
      have h24 : e.lane.rc.low.toNat = 255 * 2 ^ 24 + e.lane.rc.low.toNat % 2 ^ 24 := by omega
      have hP : 1 ≤ 256 ^ n := Nat.one_le_pow _ _ (by decide)
      obtain ⟨f, hf⟩ : ∃ f, 256 ^ n = f + 1 := ⟨_, (Nat.sub_add_cancel hP).symm⟩
      rw [hf]
      generalize bigEndian e.rev.reverse = B
      generalize e.lane.rc.cache.toNat = c
      generalize e.lane.rc.low.toNat % 2 ^ 24 = y at h24 ⊢
      rw [h24, show (f + 1) * 256 - 1 = f * 256 + 255 by omega]
      simp only [Nat.add_sub_cancel]
      ring

/-- A shift runs where a byte is pending, the count of pending bytes can grow, and the sink takes the pending bytes. -/
theorem shiftLow_runs (e : Enc) (hc : 1 ≤ e.lane.rc.cacheSize.toNat) (hmax : e.lane.rc.cacheSize.toNat < 2 ^ 32 - 1)
    (hroom : ∀ n, e.room = some n → e.rev.length + e.lane.rc.cacheSize.toNat ≤ n) : ∃ e', shiftLow e = .ok e' := by
  have h0 : e.lane.rc.cacheSize ≠ 0 := by
    intro h
    rw [h] at hc
    exact absurd hc (by decide)
  unfold shiftLow
  split
  · refine ⟨_, (bind_ok _ _ _).mpr ⟨_, (flushPending_ok _ _).mpr ⟨h0, hroom, rfl⟩, (pushByte_ok _ _).mpr ⟨?_, rfl⟩⟩⟩
    show (0 : Word).toNat ≠ 2 ^ 32 - 1
    decide
  · exact ⟨_, (pushByte_ok _ _).mpr ⟨by omega, rfl⟩⟩

/-- A shift of `low = 0` leaves one zero byte pending. -/
theorem shiftLow_zero (e e' : Enc) (h : shiftLow e = .ok e') (hl : e.lane.rc.low.toNat = 0) :
    e'.lane.rc = { low := 0, range := e.lane.rc.range, cache := 0, cacheSize := 1 } := by
  unfold shiftLow at h
  rw [if_pos (by omega)] at h
  obtain ⟨m, h1, h2⟩ := (bind_ok _ _ _).mp h
  obtain ⟨-, -, rfl⟩ := (flushPending_ok _ _).mp h1
  obtain ⟨-, rfl⟩ := (pushByte_ok _ _).mp h2
  have hl' : e.lane.rc.low = 0 := BitVec.eq_of_toNat_eq hl
  simp [hl']

/-! ## `Flush` (R152) -/

/-- Everything a flush does to a coder with a pending byte in which no carry meets a cached 0xFF: the bytes it has then
emitted are the number it stood for, it has none pending, and `range` stays. -/
theorem flush_ok (e e' : Enc) (h : flush e = .ok e') (hc : 1 ≤ e.lane.rc.cacheSize.toNat)
    (hcarry : e.lane.rc.cache.toNat + e.lane.rc.low.toNat / 2 ^ 32 ≤ 255) :
    e'.room = e.room ∧ e'.lane = { e.lane with
        rc := { low := 0, range := e.lane.rc.range, cache := 0, cacheSize := 1 } }
      ∧ e'.rev.length = e.rev.length + e.lane.rc.cacheSize.toNat + 4
      ∧ bigEndian e'.bytes = codeValue e.bytes e.lane.rc := by
  obtain ⟨e₁, h₁, h⟩ := (bind_ok _ _ _).mp h
  obtain ⟨e₂, h₂, h⟩ := (bind_ok _ _ _).mp h
  obtain ⟨e₃, h₃, h⟩ := (bind_ok _ _ _).mp h
  obtain ⟨e₄, h₄, h⟩ := (bind_ok _ _ _).mp h
  obtain ⟨e₅, h₅, h⟩ := (bind_ok _ _ _).mp h
  obtain rfl := Except.ok.inj h
  obtain ⟨r₁, l₁, g₁, w₁, c₁, n₁, v₁, -⟩ := shiftLow_ok e e₁ h₁ hc
  obtain ⟨r₂, l₂, g₂, w₂, c₂, n₂, v₂, -⟩ := shiftLow_ok e₁ e₂ h₂ c₁
  obtain ⟨r₃, l₃, g₃, w₃, c₃, n₃, v₃, -⟩ := shiftLow_ok e₂ e₃ h₃ c₂
  obtain ⟨r₄, l₄, g₄, w₄, c₄, n₄, v₄, -⟩ := shiftLow_ok e₃ e₄ h₄ c₃
  obtain ⟨r₅, l₅, g₅, w₅, c₅, n₅, v₅, -⟩ := shiftLow_ok e₄ e₅ h₅ c₄
  have hz : e₄.lane.rc.low.toNat = 0 := by omega
  have hrc := shiftLow_zero e₄ e₅ h₅ hz
  have b₁ := e₁.lane.rc.cache.isLt
  have b₂ := e₂.lane.rc.cache.isLt
  have b₃ := e₃.lane.rc.cache.isLt
  have b₄ := e₄.lane.rc.cache.isLt
  replace v₁ := v₁ hcarry
  replace v₂ := v₂ (by omega)
  replace v₃ := v₃ (by omega)
  replace v₄ := v₄ (by omega)
  replace v₅ := v₅ (by omega)
  have hg : e₄.lane.rc.range = e.lane.rc.range := by rw [g₄, g₃, g₂, g₁]
  rw [hg] at hrc
  have hcs : e₅.lane.rc.cacheSize.toNat = 1 := by
    rw [hrc]
    rfl
  refine ⟨by rw [r₅, r₄, r₃, r₂, r₁], by rw [l₅, hrc, l₄, l₃, l₂, l₁], by omega, ?_⟩
  have hv : codeValue e₅.bytes e₅.lane.rc = bigEndian e₅.bytes * 256 ^ 5 := by
    rw [hrc]
    simp [codeValue]
    ring
  have : bigEndian e₅.bytes * 256 ^ 5 = 256 * (256 * (256 * (256 * (256 * codeValue e.bytes e.lane.rc)))) := by
    rw [← hv, v₅, v₄, v₃, v₂, v₁]
  omega

/-! ## Renormalisation (R144, R146) -/

/-- What holds of a coder between narrowing the range and renormalising it: as `Rc.Healthy`, but the range may be short
of one byte. -/
abbrev Rc.Narrowed (r : Rc) : Prop :=
  2 ^ 16 ≤ r.range.toNat ∧ r.low.toNat + r.range.toNat < 2 ^ 33 ∧ 1 ≤ r.cacheSize.toNat
    ∧ (r.cache.toNat = 255 → r.low.toNat + r.range.toNat ≤ 2 ^ 32)

/-- The coder with its range widened by a byte. -/
def Enc.widen (e : Enc) : Enc := e.setRc { e.lane.rc with range := BitVec.ofNat 32 (e.lane.rc.range.toNat * 2 ^ 8) }

/-- From a narrowed coder one shift is enough. -/
theorem renormalise_one (e : Enc) (h : e.lane.rc.Narrowed) :
    renormalise renormRounds e = if e.lane.rc.range.toNat < 2 ^ 24 then shiftLow e.widen else .ok e := by
  obtain ⟨h16, -, hc, -⟩ := h
  unfold renormRounds renormalise
  split
  · next hlt =>
    change (shiftLow e.widen >>= fun x => renormalise 3 x) = shiftLow e.widen
    cases hs : shiftLow e.widen with
    | error x => rfl
    | ok e' =>
      have hr : e'.lane.rc.range.toNat = e.lane.rc.range.toNat * 2 ^ 8 := by
        rw [(shiftLow_ok _ _ hs hc).2.2.1]
        change (BitVec.ofNat 32 (e.lane.rc.range.toNat * 2 ^ 8)).toNat = _
        rw [BitVec.toNat_ofNat, Nat.mod_eq_of_lt (by omega)]
      change renormalise 3 e' = .ok e'
      unfold renormalise
      rw [if_neg (by omega)]
  · rfl

/-- Everything a renormalisation does to a narrowed coder: at most one shift, after which the coder is healthy and stands
for the same number, scaled. -/
theorem renormalise_ok (e e' : Enc) (hn : e.lane.rc.Narrowed) (h : renormalise renormRounds e = .ok e') :
    ∃ k ≤ 1, e'.lane.rc.Healthy ∧ e'.room = e.room ∧ e'.lane = { e.lane with rc := e'.lane.rc }
      ∧ e'.rev.length + e'.lane.rc.cacheSize.toNat = e.rev.length + e.lane.rc.cacheSize.toNat + k
      ∧ e'.lane.rc.range.toNat = 256 ^ k * e.lane.rc.range.toNat
      ∧ codeValue e'.bytes e'.lane.rc = 256 ^ k * codeValue e.bytes e.lane.rc := by
  rw [renormalise_one e hn] at h
  obtain ⟨h16, hsum, hc, hff⟩ := hn
  have hcache := e.lane.rc.cache.isLt
  split at h
  · next hlt =>
    obtain ⟨hroom, hlane, hrange, hlow, hcs, hlen, hval, hcase⟩ := shiftLow_ok _ _ h hc
    have hr : e'.lane.rc.range.toNat = e.lane.rc.range.toNat * 2 ^ 8 := by
      rw [hrange]
      change (BitVec.ofNat 32 (e.lane.rc.range.toNat * 2 ^ 8)).toNat = _
      rw [BitVec.toNat_ofNat, Nat.mod_eq_of_lt (by omega)]
    have hl : e'.lane.rc.low.toNat = e.lane.rc.low.toNat % 2 ^ 24 * 2 ^ 8 := hlow
    refine ⟨1, Nat.le_refl 1, ⟨by omega, by omega, hcs, fun hx => ?_⟩, hroom, ?_, hlen, by omega, ?_⟩
    · rcases hcase with ⟨h1, h2, h3⟩ | ⟨h1, h2⟩
      · have h1' : e'.lane.rc.cache.toNat = e.lane.rc.cache.toNat := congrArg BitVec.toNat h1
        have h2' : 0xFF000000 ≤ e.lane.rc.low.toNat := h2
        have h3' : e.lane.rc.low.toNat < 2 ^ 32 := h3
        have := hff (by omega)
        omega
      · have h1' : e'.lane.rc.cache.toNat = e.lane.rc.low.toNat / 2 ^ 24 % 256 := h1
        have h2' : e.lane.rc.low.toNat < 0xFF000000 ∨ 2 ^ 32 ≤ e.lane.rc.low.toNat := h2
        omega
    · rw [hlane]
      rfl
    · rw [Nat.pow_one]
      refine hval ?_
      change e.lane.rc.cache.toNat + e.lane.rc.low.toNat / 2 ^ 32 ≤ 255
      by_cases hx : e.lane.rc.cache.toNat = 255
      · have := hff hx
        omega
      · omega
  · next hge =>
    obtain rfl := (Except.ok.inj h).symm
    exact ⟨0, Nat.zero_le 1, ⟨by omega, hsum, hc, hff⟩, rfl, rfl, by omega, by omega, by omega⟩

/-- A renormalisation runs where a shift would. -/
theorem renormalise_runs (e : Enc) (hn : e.lane.rc.Narrowed) (hmax : e.lane.rc.cacheSize.toNat < 2 ^ 32 - 1)
    (hroom : ∀ n, e.room = some n → e.rev.length + e.lane.rc.cacheSize.toNat ≤ n) :
    ∃ e', renormalise renormRounds e = .ok e' := by
  rw [renormalise_one e hn]
  split
  · exact shiftLow_runs e.widen hn.2.2.1 hmax hroom
  · exact ⟨e, rfl⟩

/-! ## Coding a bit (R144, R146) -/

/-- Narrowing by a probability in range leaves a healthy coder narrowed, and moves the number it stands for by the split
point for a 1 and not at all for a 0. -/
theorem splitRange_narrowed (i : Nat) (b : Bool) (e : Enc) (h : e.lane.rc.Healthy) (hp : 31 ≤ e.prob i ∧ e.prob i ≤ 2017) :
    let bound := e.lane.rc.range.toNat / 2 ^ 11 * e.prob i
    let r := (splitRange i b e).lane.rc
    r.Narrowed ∧ r.range.toNat = (if b then e.lane.rc.range.toNat - bound else bound)
      ∧ r.low.toNat = e.lane.rc.low.toNat + (if b then bound else 0)
      ∧ r.cache = e.lane.rc.cache ∧ r.cacheSize = e.lane.rc.cacheSize
      ∧ (splitRange i b e).rev = e.rev ∧ (splitRange i b e).room = e.room := by
  obtain ⟨h24, hsum, hc, hff⟩ := h
  obtain ⟨hp1, hp2⟩ := hp
  have hr := e.lane.rc.range.isLt
  have hlo : e.lane.rc.range.toNat / 2 ^ 11 * 31 ≤ e.lane.rc.range.toNat / 2 ^ 11 * e.prob i := Nat.mul_le_mul_left _ hp1
  have hhi : e.lane.rc.range.toNat / 2 ^ 11 * e.prob i ≤ e.lane.rc.range.toNat / 2 ^ 11 * 2017 := Nat.mul_le_mul_left _ hp2
  intro bound
  have hb : bound = e.lane.rc.range.toNat / 2 ^ 11 * e.prob i := rfl
  rw [← hb] at hlo hhi
  have h1 : (BitVec.ofNat 32 bound).toNat = bound := by rw [BitVec.toNat_ofNat, Nat.mod_eq_of_lt (by omega)]
  have h2 : (BitVec.ofNat 32 (e.lane.rc.range.toNat - bound)).toNat = e.lane.rc.range.toNat - bound := by
    rw [BitVec.toNat_ofNat, Nat.mod_eq_of_lt (by omega)]
  have h3 : (BitVec.ofNat 33 (e.lane.rc.low.toNat + bound)).toNat = e.lane.rc.low.toNat + bound := by
    rw [BitVec.toNat_ofNat, Nat.mod_eq_of_lt (by omega)]
  cases b
  · refine ⟨⟨?_, ?_, hc, fun hx => ?_⟩, h1, rfl, rfl, rfl, rfl, rfl⟩
    · change 2 ^ 16 ≤ (BitVec.ofNat 32 bound).toNat
      omega
    · change e.lane.rc.low.toNat + (BitVec.ofNat 32 bound).toNat < 2 ^ 33
      omega
    · have := hff hx
      change e.lane.rc.low.toNat + (BitVec.ofNat 32 bound).toNat ≤ 2 ^ 32
      omega
  · refine ⟨⟨?_, ?_, hc, fun hx => ?_⟩, h2, h3, rfl, rfl, rfl, rfl⟩
    · change 2 ^ 16 ≤ (BitVec.ofNat 32 (e.lane.rc.range.toNat - bound)).toNat
      omega
    · change (BitVec.ofNat 33 (e.lane.rc.low.toNat + bound)).toNat
        + (BitVec.ofNat 32 (e.lane.rc.range.toNat - bound)).toNat < 2 ^ 33
      omega
    · have := hff hx
      change (BitVec.ofNat 33 (e.lane.rc.low.toNat + bound)).toNat
        + (BitVec.ofNat 32 (e.lane.rc.range.toNat - bound)).toNat ≤ 2 ^ 32
      omega

/-- Halving the range leaves a healthy coder narrowed. -/
theorem halveRange_narrowed (b : Bool) (e : Enc) (h : e.lane.rc.Healthy) :
    let half := e.lane.rc.range.toNat / 2
    let r := (halveRange b e).lane.rc
    r.Narrowed ∧ r.range.toNat = half ∧ r.low.toNat = e.lane.rc.low.toNat + (if b then half else 0)
      ∧ r.cache = e.lane.rc.cache ∧ r.cacheSize = e.lane.rc.cacheSize
      ∧ (halveRange b e).rev = e.rev ∧ (halveRange b e).room = e.room
      ∧ (halveRange b e).lane = { e.lane with rc := r } := by
  obtain ⟨h24, hsum, hc, hff⟩ := h
  have hr := e.lane.rc.range.isLt
  have h1 : (BitVec.ofNat 32 (e.lane.rc.range.toNat / 2)).toNat = e.lane.rc.range.toNat / 2 := by
    rw [BitVec.toNat_ofNat, Nat.mod_eq_of_lt (by omega)]
  have h2 : (BitVec.ofNat 33 (e.lane.rc.low.toNat + e.lane.rc.range.toNat / 2)).toNat
      = e.lane.rc.low.toNat + e.lane.rc.range.toNat / 2 := by
    rw [BitVec.toNat_ofNat, Nat.mod_eq_of_lt (by omega)]
  cases b
  · refine ⟨⟨?_, ?_, hc, fun hx => ?_⟩, h1, rfl, rfl, rfl, rfl, rfl, rfl⟩
    · change 2 ^ 16 ≤ (BitVec.ofNat 32 (e.lane.rc.range.toNat / 2)).toNat
      omega
    · change e.lane.rc.low.toNat + (BitVec.ofNat 32 (e.lane.rc.range.toNat / 2)).toNat < 2 ^ 33
      omega
    · have := hff hx
      change e.lane.rc.low.toNat + (BitVec.ofNat 32 (e.lane.rc.range.toNat / 2)).toNat ≤ 2 ^ 32
      omega
  · refine ⟨⟨?_, ?_, hc, fun hx => ?_⟩, h1, h2, rfl, rfl, rfl, rfl, rfl⟩
    · change 2 ^ 16 ≤ (BitVec.ofNat 32 (e.lane.rc.range.toNat / 2)).toNat
      omega
    · change (BitVec.ofNat 33 (e.lane.rc.low.toNat + e.lane.rc.range.toNat / 2)).toNat
        + (BitVec.ofNat 32 (e.lane.rc.range.toNat / 2)).toNat < 2 ^ 33
      omega
    · have := hff hx
      change (BitVec.ofNat 33 (e.lane.rc.low.toNat + e.lane.rc.range.toNat / 2)).toNat
        + (BitVec.ofNat 32 (e.lane.rc.range.toNat / 2)).toNat ≤ 2 ^ 32
      omega

/-! ## The coder in exact numbers -/

/-- A renormalisation is exact. -/
theorem renormalise_coded (e e' : Enc) (hn : e.lane.rc.Narrowed) (h : renormalise renormRounds e = .ok e') :
    e'.coded = e.coded.renormalised := by
  obtain ⟨k, hk, ⟨h24, -⟩, -, -, hlen, hrange, hval⟩ := renormalise_ok e e' hn h
  have hlt := e'.lane.rc.range.isLt
  match k, hk with
  | 0, _ =>
    have hr : e'.lane.rc.range.toNat = e.lane.rc.range.toNat := by omega
    have hge : ¬ e.coded.range < 2 ^ 24 := by
      change ¬ e.lane.rc.range.toNat < 2 ^ 24
      omega
    rw [CodedNumber.renormalised, if_neg hge]
    simp only [Enc.coded, CodedNumber.mk.injEq]
    exact ⟨hr, by rw [hval, Nat.pow_zero, Nat.one_mul], by omega⟩
  | 1, _ =>
    have hr : e'.lane.rc.range.toNat = e.lane.rc.range.toNat * 256 := by omega
    have hlow : e.coded.range < 2 ^ 24 := by
      change e.lane.rc.range.toNat < 2 ^ 24
      omega
    rw [CodedNumber.renormalised, if_pos hlow]
    simp only [Enc.coded, CodedNumber.mk.injEq]
    exact ⟨hr, by rw [hval, Nat.pow_one, Nat.mul_comm], by omega⟩

/-- Raising `low` raises the number by as much. -/
theorem codeValue_low (bytes : List Byte) (r r' : Rc) (d : Nat) (hc : r'.cache = r.cache) (hs : r'.cacheSize = r.cacheSize)
    (hl : r'.low.toNat = r.low.toNat + d) : codeValue bytes r' = codeValue bytes r + d := by
  unfold codeValue
  rw [hc, hs, hl, Nat.add_assoc]

/-- Coding a bit with a probability in range from a healthy coder is exact (R144). -/
theorem encodeBit_coded (i : Nat) (b : Bool) (e e' : Enc) (h : e.lane.rc.Healthy) (hp : 31 ≤ e.prob i ∧ e.prob i ≤ 2017)
    (hok : encodeBit i b e = .ok e') : e'.coded = e.coded.bit (e.prob i) b := by
  obtain ⟨hn, hr, hl, hc, hs, hrev, -⟩ := splitRange_narrowed i b e h hp
  rw [renormalise_coded _ e' hn hok]
  have hv := codeValue_low e.bytes _ _ _ hc hs hl
  have hb : (splitRange i b e).bytes = e.bytes := congrArg List.reverse hrev
  cases b <;>
    simp_all [Enc.coded, CodedNumber.bit]

/-- Coding a bit with probability one half from a healthy coder is exact (R146). -/
theorem halveRange_coded (b : Bool) (e e' : Enc) (h : e.lane.rc.Healthy)
    (hok : renormalise renormRounds (halveRange b e) = .ok e') : e'.coded = e.coded.half b := by
  obtain ⟨hn, hr, hl, hc, hs, hrev, -⟩ := halveRange_narrowed b e h
  rw [renormalise_coded _ e' hn hok]
  have hv := codeValue_low e.bytes _ _ _ hc hs hl
  have hb : (halveRange b e).bytes = e.bytes := congrArg List.reverse hrev
  cases b <;>
    simp_all [Enc.coded, CodedNumber.half]

end Sys2Proof.Machine
end

