-- ==== Sys2Proof/Laws/Parse.lean ====
section
/-! SUPPORT. The parse's functions are the only ones that R252 to R257 allow: each is what Safety.lean's description of
its rule says, and nothing else is. -/

namespace Sys2Proof.Machine

/-! ## Rep candidates (R252) -/

/-- `n` is how far the bytes at `a` and `b` agree, up to `lim`. -/
def IsRunLen (m : Memory) (a b lim n : Nat) : Prop :=
  n ≤ lim ∧ (∀ i < n, Memory.read m (a + i) = Memory.read m (b + i))
    ∧ (n < lim → Memory.read m (a + n) ≠ Memory.read m (b + n))

theorem runLen_isRunLen (m : Memory) (lim : Nat) : ∀ a b, IsRunLen m a b lim (Memory.runLen m a b lim) := by
  induction lim with
  | zero => exact fun a b => ⟨Nat.le_refl 0, fun i hi => absurd hi (Nat.not_lt_zero i), fun h => absurd h (Nat.lt_irrefl 0)⟩
  | succ lim ih =>
    intro a b
    unfold Memory.runLen
    split
    · next heq =>
      obtain ⟨h1, h2, h3⟩ := ih (a + 1) (b + 1)
      refine ⟨by omega, fun i hi => ?_, fun hlt => ?_⟩
      · match i with
        | 0 => exact heq
        | j + 1 =>
          have := h2 j (by omega)
          rwa [Nat.add_right_comm, Nat.add_right_comm b] at this
      · have := h3 (by omega)
        rwa [Nat.add_assoc a, Nat.add_assoc b] at this
    · next hne => exact ⟨by omega, fun i hi => absurd hi (Nat.not_lt_zero i), fun _ => hne⟩

theorem isRunLen_unique {m : Memory} {a b lim n k : Nat} (hn : IsRunLen m a b lim n) (hk : IsRunLen m a b lim k) : n = k := by
  obtain ⟨h1, h2, h3⟩ := hn
  obtain ⟨k1, k2, k3⟩ := hk
  rcases Nat.lt_trichotomy n k with h | h | h
  · exact absurd (k2 n h) (h3 (by omega))
  · exact h
  · exact absurd (h2 k h) (k3 (by omega))

theorem longest_eq (x : ParseCtx) (p : Nat) : longest x p = x.maxLen p := rfl

theorem isRepLen_iff (x : ParseCtx) (reps : Reps) (p r n : Nat) : IsRepLen x reps p r n ↔ n = repLen x reps p r := by
  unfold IsRepLen repLen
  simp only [longest_eq]
  split
  · next h => exact ⟨fun hn => hn.elim And.right fun hn => absurd hn.1 (by omega), fun hn => .inl ⟨h, hn⟩⟩
  · next h =>
    have hrun := runLen_isRunLen x.sym.dict (x.maxLen p) p (p - ((reps.get r).toNat + 1))
    constructor
    · rintro (⟨hle, -⟩ | ⟨-, m, h1, h2, h3, rfl⟩)
      · exact absurd hle h
      · rw [isRunLen_unique hrun ⟨h1, h2, h3⟩]
    · rintro rfl
      exact .inr ⟨by omega, _, hrun.1, hrun.2.1, hrun.2.2, rfl⟩

theorem repLen_zero_or (x : ParseCtx) (reps : Reps) (p r : Nat) : repLen x reps p r = 0 ∨ 2 ≤ repLen x reps p r := by
  unfold repLen
  dsimp only
  split
  · exact .inl rfl
  · split
    · next h => exact .inr h
    · exact .inl rfl

/-- `o` is the best of the reps below `k` (R252). -/
def BestBelow (x : ParseCtx) (reps : Reps) (p k : Nat) : Option (Nat × Nat) → Prop
  | none => ∀ r < k, repLen x reps p r = 0
  | some (n, r) => r < k ∧ 2 ≤ n ∧ n = repLen x reps p r
      ∧ ∀ r' < k, repLen x reps p r' ≤ n ∧ (r' < r → repLen x reps p r' < n)

theorem bestBelow_step (x : ParseCtx) (reps : Reps) (p k : Nat) (o : Option (Nat × Nat)) (h : BestBelow x reps p k o) :
    BestBelow x reps p (k + 1) (betterRep o (repLen x reps p k) k) := by
  have hz := repLen_zero_or x reps p k
  match o with
  | none =>
    simp only [betterRep]
    split
    · next h2 =>
      refine ⟨by omega, h2, rfl, fun r hr => ?_⟩
      by_cases hk : r = k
      · subst hk
        exact ⟨Nat.le_refl _, fun hlt => absurd hlt (Nat.lt_irrefl r)⟩
      · have := h r (by omega)
        omega
    · next h2 =>
      intro r hr
      by_cases hk : r = k
      · subst hk
        omega
      · exact h r (by omega)
  | some (n, j) =>
    obtain ⟨hj, hn2, hn, hall⟩ := h
    simp only [betterRep]
    split
    · next hlt =>
      refine ⟨by omega, by omega, rfl, fun r hr => ?_⟩
      by_cases hk : r = k
      · subst hk
        exact ⟨Nat.le_refl _, fun hlt => absurd hlt (Nat.lt_irrefl r)⟩
      · have := (hall r (by omega)).1
        omega
    · next hge =>
      refine ⟨by omega, hn2, hn, fun r hr => ?_⟩
      by_cases hk : r = k
      · subst hk
        omega
      · exact hall r (by omega)

theorem bestRep_bestBelow (x : ParseCtx) (reps : Reps) (p : Nat) : BestBelow x reps p 4 (bestRep x reps p) :=
  bestBelow_step x reps p 3 _ <| bestBelow_step x reps p 2 _ <| bestBelow_step x reps p 1 _ <|
    bestBelow_step x reps p 0 none fun r hr => absurd hr (Nat.not_lt_zero r)

theorem bestBelow_unique {x : ParseCtx} {reps : Reps} {p k : Nat} {o o' : Option (Nat × Nat)}
    (h : BestBelow x reps p k o) (h' : BestBelow x reps p k o') : o = o' := by
  match o, o' with
  | none, none => rfl
  | none, some (n, r) => exact absurd (h r h'.1) (by have := h'.2.1; have := h'.2.2.1; omega)
  | some (n, r), none => exact absurd (h' r h.1) (by have := h.2.1; have := h.2.2.1; omega)
  | some (n, r), some (m, q) =>
    obtain ⟨hr, -, hn, hall⟩ := h
    obtain ⟨hq, -, hm, hall'⟩ := h'
    have a := hall q hq
    have b := hall' r hr
    have hnm : n = m := by omega
    have hrq : r = q := by
      rcases Nat.lt_trichotomy r q with hlt | heq | hlt
      · have := b.2 hlt
        omega
      · exact heq
      · have := a.2 hlt
        omega
    rw [hnm, hrq]

theorem isBestRep_iff (x : ParseCtx) (reps : Reps) (p : Nat) (o : Option (Nat × Nat)) :
    IsBestRep x reps p o ↔ o = bestRep x reps p := by
  have hb : IsBestRep x reps p o ↔ BestBelow x reps p 4 o := by
    match o with
    | none => simp only [IsBestRep, BestBelow, isRepLen_iff, eq_comm]
    | some (n, r) =>
      simp only [IsBestRep, BestBelow, isRepLen_iff]
      exact and_congr Iff.rfl (and_congr Iff.rfl (and_congr Iff.rfl
        ⟨fun h r' hr => h r' hr _ rfl, fun h r' hr n' hn => hn ▸ h r' hr⟩))
  rw [hb]
  exact ⟨fun h => bestBelow_unique h (bestRep_bestBelow x reps p), fun h => h ▸ bestRep_bestBelow x reps p⟩

/-! ## Match candidates, gains and the choice (R253 to R255) -/

theorem isMatchCand_iff (x : ParseCtx) (q : Query) (p : Nat) (o : Option (Nat × Nat)) :
    IsMatchCand x q p o ↔ o = mfCand x q p := by
  unfold IsMatchCand mfCand
  simp only [longest_eq]
  generalize min (q.run x p).1 (x.maxLen p) = n
  generalize (q.run x p).2 = dist
  have hd : (n < 2 ∨ (n = 2 ∧ x.limit2 ≤ dist) ∨ (n = 3 ∧ x.limit3 ≤ dist) ∨ (n = 4 ∧ x.limit4 ≤ dist))
      ↔ n < 2 ∨ (n ≤ 4 ∧ x.limit n ≤ dist) := by
    by_cases h2 : n < 2
    · simp [h2]
    · unfold ParseCtx.limit
      split
      · omega
      · split <;> omega
  rw [hd]
  by_cases h2 : n < 2
  · simp [h2]
  · by_cases hl : n ≤ 4 ∧ x.limit n ≤ dist
    · simp [h2, hl]
    · simp [h2, hl]

theorem hasGain_iff (x : ParseCtx) (c : Cand) (g : Int) : HasGain x c g ↔ g = gain x c := by
  cases c with
  | mtch n dist =>
    simp only [HasGain, gain]
    constructor
    · rintro ⟨e, h1, h2, rfl⟩
      have : Nat.log2 (dist + 1) = e := (Nat.log2_eq_iff (by omega)).mpr ⟨h1, h2⟩
      rw [this]
      push_cast
      rfl
    · rintro rfl
      have := (Nat.log2_eq_iff (n := dist + 1) (k := Nat.log2 (dist + 1)) (by omega)).mp rfl
      exact ⟨_, this.1, this.2, by push_cast; rfl⟩
  | rep n r =>
    simp only [HasGain, gain]
    push_cast
    exact Iff.rfl

theorem gainsMore_iff (x : ParseCtx) (c c' : Cand) (k : Nat) : GainsMore x c c' k ↔ gain x c + (k : Int) < gain x c' := by
  simp only [GainsMore, hasGain_iff]
  exact ⟨fun ⟨_, _, h1, h2, h⟩ => h1 ▸ h2 ▸ h, fun h => ⟨_, _, rfl, rfl, h⟩⟩

/-- `Choose` is the only choice that R255 allows. -/
theorem isChoice_iff (x : ParseCtx) (reps : Reps) (q : Query) (p : Nat) (o : Option Cand) :
    IsChoice x reps q p o ↔ o = choose x reps q p := by
  simp only [IsChoice, isMatchCand_iff, isBestRep_iff, exists_eq_left, gainsMore_iff, longest_eq, exists_and_left]
  unfold choose
  cases mfCand x q p with
  | none => cases bestRep x reps p <;> rfl
  | some m =>
    cases bestRep x reps p with
    | none => rfl
    | some r =>
      obtain ⟨n, dist⟩ := m
      obtain ⟨k, j⟩ := r
      simp only [Option.map_some, Cand.len]
      by_cases hk : k = x.maxLen p
      · simp [hk]
      · by_cases hn : n = x.maxLen p
        · simp [hk, hn]
        · by_cases hg : gain x (.mtch n dist) < gain x (.rep k j)
          · simp [hk, hn, hg]
          · simp [hk, hn, hg]

/-! ## The lookahead (R258) -/

theorem defers_iff (x : ParseCtx) (reps : Reps) (c c' : Cand) (q k : Nat) :
    Defers x reps c q k c' ↔ 1 ≤ k ∧ (k ≤ x.look ∧ c.len < x.maxLen q ∧ q + k < x.ulim)
      ∧ choose x reps .getNextMatch (q + k) = some c' ∧ gain x c + ((k * x.gainLazy : Nat) : Int) < gain x c' := by
  simp only [Defers, isChoice_iff, gainsMore_iff, longest_eq, and_assoc, eq_comm (a := some c')]

/-- From `c` at `q`, with the delays below `k` found not worth it, enough rounds settle as R258 says. -/
theorem lookahead_settles (x : ParseCtx) (reps : Reps) (hl : x.look ≤ 2) (fuel : Nat) :
    ∀ (c : Cand) (q k : Nat), 1 ≤ k → 3 * (x.ulim - q) + 1 ≤ fuel + k → (∀ j < k, ∀ d, ¬ Defers x reps c q j d) →
      Settles x reps c q (lookahead x reps fuel c q k).1 (lookahead x reps fuel c q k).2 := by
  induction fuel with
  | zero =>
    intro c q k hk hf hno
    refine .here c q fun j d hd => ?_
    by_cases hj : j < k
    · exact hno j hj d hd
    · have := (defers_iff ..).mp hd
      omega
  | succ fuel ih =>
    intro c q k hk hf hno
    unfold lookahead
    split
    · next hgo =>
      have next : (∀ d, ¬ Defers x reps c q k d) →
          Settles x reps c q (lookahead x reps fuel c q (k + 1)).1 (lookahead x reps fuel c q (k + 1)).2 := by
        intro hnk
        refine ih c q (k + 1) (by omega) (by omega) fun j hj d => ?_
        by_cases hjk : j = k
        · exact hjk ▸ hnk d
        · exact hno j (by omega) d
      split
      · next c2 hc2 =>
        split
        · next hg =>
          refine .later c c2 _ q k _ ((defers_iff ..).mpr ⟨hk, hgo, hc2, hg⟩) hno (ih c2 (q + k) 1 (Nat.le_refl 1) ?_ ?_)
          · omega
          · intro j hj d hd
            have := ((defers_iff ..).mp hd).1
            omega
        · next hg =>
          refine next fun d hd => hg ?_
          obtain ⟨-, -, hcd, hgd⟩ := (defers_iff ..).mp hd
          rw [hc2] at hcd
          cases hcd
          exact hgd
      · next hc2 =>
        refine next fun d hd => ?_
        have := ((defers_iff ..).mp hd).2.2.1
        rw [hc2] at this
        cases this
    · next hstop =>
      refine .here c q fun j d hd => ?_
      by_cases hj : j < k
      · exact hno j hj d hd
      · have := (defers_iff ..).mp hd
        omega

/-- A deferral is to one place only: the nearest. -/
theorem defers_first_unique {x : ParseCtx} {reps : Reps} {c d d' : Cand} {q k k' : Nat}
    (h : Defers x reps c q k d) (hno : ∀ j < k, ∀ e, ¬ Defers x reps c q j e)
    (h' : Defers x reps c q k' d') (hno' : ∀ j < k', ∀ e, ¬ Defers x reps c q j e) : k = k' ∧ d = d' := by
  have hk : k = k' := by
    rcases Nat.lt_trichotomy k k' with hlt | heq | hlt
    · exact absurd h (hno' k hlt d)
    · exact heq
    · exact absurd h' (hno k' hlt d')
  subst hk
  have a := ((defers_iff ..).mp h).2.2.1
  have b := ((defers_iff ..).mp h').2.2.1
  exact ⟨rfl, Option.some.inj (a.symm.trans b)⟩

/-- The lookahead settles on one candidate at one position. -/
theorem settles_unique {x : ParseCtx} {reps : Reps} {c d : Cand} {q m : Nat} (h : Settles x reps c q d m) :
    ∀ d' m', Settles x reps c q d' m' → d = d' ∧ m = m' := by
  induction h with
  | here c q hno =>
    intro d' m' h'
    cases h' with
    | here => exact ⟨rfl, rfl⟩
    | later => next hd _ _ => exact absurd hd (hno _ _)
  | later c c1 c2 q k q2 hd hno _ ih =>
    intro d' m' h'
    cases h' with
    | here => next hno' => exact absurd hd (hno' _ _)
    | later =>
      next hd' hno' hs =>
        obtain ⟨rfl, rfl⟩ := defers_first_unique hd hno hd' hno'
        exact ih d' m' hs

/-- The lookahead of R258 and the model's are one. -/
theorem settles_iff (x : ParseCtx) (reps : Reps) (hl : x.look ≤ 2) (c c' : Cand) (q q' : Nat) :
    Settles x reps c q c' q' ↔ lookahead x reps (3 * (x.ulim - q)) c q 1 = (c', q') := by
  have hs := lookahead_settles x reps hl (3 * (x.ulim - q)) c q 1 (Nat.le_refl 1) (Nat.le_refl _)
    fun j hj d hd => by
      have := ((defers_iff ..).mp hd).1
      omega
  constructor
  · intro h
    obtain ⟨h1, h2⟩ := settles_unique hs c' q' h
    exact Prod.ext h1 h2
  · intro h
    rw [h] at hs
    exact hs

/-! ## Single symbols and the budget (R256, R257) -/

theorem hasBudget_iff (x : ParseCtx) (e : Enc) : HasBudget x e ↔ budgetOk x e = true := by
  simp [HasBudget, budgetOk]

/-- Where `y` is the symbol R256 takes, coding it is `Single`. -/
theorem isSingle_code (x : ParseCtx) (e : Enc) (p : Nat) (y : Symbol) (h : IsSingle x e p y) :
    y.code x.sym p e = encodeSingle x p e := by
  unfold encodeSingle
  simp only [Nat.sub_sub]
  rcases h with ⟨hc, rfl⟩ | ⟨hc, rfl⟩
  · rw [if_pos hc]
    rfl
  · rw [if_neg hc]
    rfl

theorem isSingle_exists (x : ParseCtx) (e : Enc) (p : Nat) : ∃ y, IsSingle x e p y := by
  by_cases h : e.lane.reps.rep0.toNat < p
      ∧ Memory.read x.sym.dict p = Memory.read x.sym.dict (p - (e.lane.reps.rep0.toNat + 1))
  · exact ⟨.shortRep, .inl ⟨h, rfl⟩⟩
  · exact ⟨.lit, .inr ⟨h, rfl⟩⟩

theorem cand_code (x : ParseCtx) (p : Nat) (c : Cand) (e : Enc) : c.symbol.code x.sym p e = encodeCand x p c e := by
  cases c <;> rfl

/-- A run of single symbols: what `encodeSingles` answers is the run that R258 describes. -/
theorem encodeSingles_run (x : ParseCtx) (n : Nat) : ∀ (p : Nat) (e : Enc) (r : Run), encodeSingles x n p e = .ok r →
    ∃ ys, SinglesRun x (p + n) p e ys r.pos r.enc ∧ (r.stopped = false → r.pos = p + n)
      ∧ (r.stopped = true → r.pos < p + n ∧ ¬ HasBudget x r.enc) := by
  induction n with
  | zero =>
    intro p e r h
    obtain rfl := (Except.ok.inj h).symm
    exact ⟨[], .done p e (Nat.le_refl p), fun _ => rfl, fun h => Bool.noConfusion h⟩
  | succ n ih =>
    intro p e r h
    unfold encodeSingles at h
    split at h
    · next hb =>
      obtain ⟨e1, he, h⟩ := (bind_ok _ _ _).mp h
      obtain ⟨ys, hrun, hgo, hstop⟩ := ih (p + 1) e1 r h
      obtain ⟨y, hy⟩ := isSingle_exists x e p
      rw [Nat.add_right_comm] at hrun hgo hstop
      exact ⟨y :: ys, .one p _ e e1 _ y ys (by omega) ((hasBudget_iff x e).mpr hb) hy
        ((isSingle_code x e p y hy).trans he) hrun, hgo, hstop⟩
    · next hb =>
      obtain rfl := (Except.ok.inj h).symm
      have hno : ¬ HasBudget x e := fun hh => hb ((hasBudget_iff x e).mp hh)
      exact ⟨[], .spent p e (by omega) hno, fun h => Bool.noConfusion h, fun _ => ⟨Nat.lt_add_of_pos_right (Nat.succ_pos n), hno⟩⟩

end Sys2Proof.Machine
end

