-- ==== Sys2Proof/Laws/PerInstr.lean ====
section
/-! SUPPORT. Facts about every command as syntax, one lemma per constructor. Family `Opcode`: the low eight bits of a
command's word are its opcode, whatever its fields hold (30_encoding.md R110, R117). -/

namespace Sys2Proof

theorem opcode_lt (i : Instr) : i.opcode < 2 ^ 8 := by cases i <;> simp [Instr.opcode]

theorem cmdOpc_cmdWord (opc lane flg imm : Nat) (h : opc < 2 ^ 8) : cmdOpc (cmdWord opc lane flg imm) = opc := by
  unfold cmdOpc cmdWord
  rw [BitVec.toNat_ofNat]
  omega

namespace Laws.Opcode

/-- The opcode field of a command's word. -/
def Statement (i : Instr) : Prop := cmdOpc (encode i) = i.opcode

theorem nop : Statement (.nop) := cmdOpc_cmdWord _ _ _ _ (opcode_lt _)
theorem rcReset (lane : Nat) : Statement (.rcReset lane) := cmdOpc_cmdWord _ _ _ _ (opcode_lt _)
theorem rcBit (lane : Nat) (bit : Bool) : Statement (.rcBit lane bit) := cmdOpc_cmdWord _ _ _ _ (opcode_lt _)
theorem rcTree (lane : Nat) (nbits : Nat) : Statement (.rcTree lane nbits) := cmdOpc_cmdWord _ _ _ _ (opcode_lt _)
theorem rcTreeRev (lane : Nat) (nbits : Nat) : Statement (.rcTreeRev lane nbits) := cmdOpc_cmdWord _ _ _ _ (opcode_lt _)
theorem rcDirect (lane : Nat) (nbits : Nat) : Statement (.rcDirect lane nbits) := cmdOpc_cmdWord _ _ _ _ (opcode_lt _)
theorem rcFlush (lane : Nat) : Statement (.rcFlush lane) := cmdOpc_cmdWord _ _ _ _ (opcode_lt _)
theorem rcPrice (bit : Bool) : Statement (.rcPrice bit) := cmdOpc_cmdWord _ _ _ _ (opcode_lt _)
theorem mfCreate : Statement (.mfCreate) := cmdOpc_cmdWord _ _ _ _ (opcode_lt _)
theorem mfBuild : Statement (.mfBuild) := cmdOpc_cmdWord _ _ _ _ (opcode_lt _)
theorem mfGetMatch : Statement (.mfGetMatch) := cmdOpc_cmdWord _ _ _ _ (opcode_lt _)
theorem mfGetNextMatch : Statement (.mfGetNextMatch) := cmdOpc_cmdWord _ _ _ _ (opcode_lt _)
theorem mfReadSlot : Statement (.mfReadSlot) := cmdOpc_cmdWord _ _ _ _ (opcode_lt _)
theorem encResetState (lane : Nat) : Statement (.encResetState lane) := cmdOpc_cmdWord _ _ _ _ (opcode_lt _)
theorem encLiteral (lane : Nat) : Statement (.encLiteral lane) := cmdOpc_cmdWord _ _ _ _ (opcode_lt _)
theorem encMatch (lane : Nat) : Statement (.encMatch lane) := cmdOpc_cmdWord _ _ _ _ (opcode_lt _)
theorem encRep (lane : Nat) (r : Nat) : Statement (.encRep lane r) := cmdOpc_cmdWord _ _ _ _ (opcode_lt _)
theorem encShortRep (lane : Nat) : Statement (.encShortRep lane) := cmdOpc_cmdWord _ _ _ _ (opcode_lt _)
theorem encSnapshot (lane : Nat) : Statement (.encSnapshot lane) := cmdOpc_cmdWord _ _ _ _ (opcode_lt _)
theorem encRollback (lane : Nat) : Statement (.encRollback lane) := cmdOpc_cmdWord _ _ _ _ (opcode_lt _)
theorem probRead (lane : Nat) : Statement (.probRead lane) := cmdOpc_cmdWord _ _ _ _ (opcode_lt _)
theorem probWrite (lane : Nat) : Statement (.probWrite lane) := cmdOpc_cmdWord _ _ _ _ (opcode_lt _)
theorem sliceBegin (lane : Nat) (dr : Bool) : Statement (.sliceBegin lane dr) := cmdOpc_cmdWord _ _ _ _ (opcode_lt _)
theorem encChunk (lane : Nat) : Statement (.encChunk lane) := cmdOpc_cmdWord _ _ _ _ (opcode_lt _)
theorem encSlice (lane : Nat) (dr : Bool) : Statement (.encSlice lane dr) := cmdOpc_cmdWord _ _ _ _ (opcode_lt _)
theorem encBlock : Statement (.encBlock) := cmdOpc_cmdWord _ _ _ _ (opcode_lt _)
theorem streamBegin : Statement (.streamBegin) := cmdOpc_cmdWord _ _ _ _ (opcode_lt _)
theorem streamEnd : Statement (.streamEnd) := cmdOpc_cmdWord _ _ _ _ (opcode_lt _)
theorem clear : Statement (.clear) := cmdOpc_cmdWord _ _ _ _ (opcode_lt _)

end Laws.Opcode

end Sys2Proof
end

