-- ==== Sys2Proof/Laws/Step.lean ====
section
/-! SUPPORT. What a step and a host write can do, each said once: the cases by which an invariant of every step is
proved. -/

namespace Sys2Proof.Machine

/-- Everything the sequencer's turn can do. -/
theorem sequencerTurn_cases (u t : State) (h : sequencerTurn u = .next t) :
    (u.pending = none ∧ t = u)
      ∨ (∃ w i, u.pending = some w ∧ decode w = .ok i ∧ exec i u = .next t)
      ∨ ∃ w e, u.pending = some w ∧ decode w = .error e ∧ t = u.faultCommit w .illegalCommand := by
  unfold sequencerTurn at h
  split at h
  · next w hw =>
    unfold runWord at h
    split at h
    · next i hi => exact .inr (.inl ⟨w, i, hw, hi, h⟩)
    · next e he => exact .inr (.inr ⟨w, e, hw, he, (Host.Outcome.next.inj h).symm⟩)
  · next hw => exact .inl ⟨hw, (Host.Outcome.next.inj h).symm⟩

/-- Everything a step can do. -/
theorem step_cases (s t : State) (h : step s = .next t) :
    (∃ sp a n rest, s.inputs = .read sp a n :: rest
        ∧ t = { s with inputs := rest, readData := { s with inputs := rest }.hostRead sp a n })
      ∨ (∃ sp a n v rest, s.inputs = .write sp a n v :: rest ∧ t = { s with inputs := rest }.hostWrite sp a n v)
      ∨ (∃ rest, s.inputs = .assertReset :: rest ∧ t = { s with inputs := rest }.assertReset)
      ∨ (∃ rest, s.inputs = .releaseReset :: rest ∧ t = { s with inputs := rest }.releaseReset)
      ∨ (s.inputs = [] ∧ sequencerTurn s = .next t)
      ∨ ∃ rest, s.inputs = .sequencer :: rest ∧ sequencerTurn { s with inputs := rest } = .next t := by
  unfold step nextEvent at h
  split at h
  · next hi => exact .inr (.inr (.inr (.inr (.inl ⟨hi, h⟩))))
  · next i rest hi =>
    cases i with
    | read sp a n => exact .inl ⟨sp, a, n, rest, hi, (Host.Outcome.next.inj h).symm⟩
    | write sp a n v => exact .inr (.inl ⟨sp, a, n, v, rest, hi, (Host.Outcome.next.inj h).symm⟩)
    | sequencer => exact .inr (.inr (.inr (.inr (.inr ⟨rest, hi, h⟩))))
    | assertReset => exact .inr (.inr (.inl ⟨rest, hi, (Host.Outcome.next.inj h).symm⟩))
    | releaseReset => exact .inr (.inr (.inr (.inl ⟨rest, hi, (Host.Outcome.next.inj h).symm⟩)))

/-- Everything a host write can do. -/
theorem hostWrite_cases (s : State) (sp : Space) (a : Nat) (n : AccessSize) (v : Word) :
    ((s.inReset = true ∨ s.performed sp a n = false) ∧ s.hostWrite sp a n v = s)
      ∨ (s.inReset = false ∧ s.performed sp a n = true
        ∧ ((s.busy = true ∧ s.hostWrite sp a n v = s.reject)
          ∨ (sp = .reg ∧ s.regName a = .block .status ∧ s.hostWrite sp a n v = s.clearSticky v)
          ∨ (sp = .reg ∧ s.regName a = .block .control ∧ s.hostWrite sp a n v = s.writeControl v)
          ∨ (sp = .reg ∧ s.busy = false ∧ ∃ r, s.regName a = .block r ∧ r ≠ .status ∧ r ≠ .control
              ∧ s.hostWrite sp a n v = s.writeReg r v)
          ∨ (sp = .reg ∧ s.busy = false ∧ ∃ L r l, s.regName a = .lane L r ∧ s.lanes[L]? = some l
              ∧ s.hostWrite sp a n v = s.setLane L (l.writeReg r v))
          ∨ (sp = .reg ∧ s.busy = false ∧ s.hostWrite sp a n v = s)
          ∨ (sp = .dict ∧ s.busy = false ∧ s.hostWrite sp a n v = s.writeDict a (leBytes v.toNat n.bytes))
          ∨ (sp = .out ∧ s.busy = false
              ∧ s.hostWrite sp a n v = { s with out := Memory.writeBytes s.out a (leBytes v.toNat n.bytes) }))) := by
  unfold State.hostWrite
  cases hr : s.inReset
  case true => simp
  case false =>
    cases hp : s.performed sp a n
    case false => simp
    case true =>
      cases hb : s.busy
      · cases sp with
        | dict => simp
        | out => simp
        | reg =>
          cases hn : s.regName a with
          | block r => cases r <;> simp [State.writeRegAt, hn, hb, State.writeReg]
          | lane L r => cases hl : s.lanes[L]? <;> simp [State.writeRegAt, hn, hb, hl]
          | reserved => simp [State.writeRegAt, hn, hb]
      · cases sp with
        | dict => simp
        | out => simp
        | reg =>
          cases hn : s.regName a with
          | block r => cases r <;> simp [State.writeRegAt, hn, hb]
          | lane L r => simp [State.writeRegAt, hn, hb]
          | reserved => simp [State.writeRegAt, hn, hb]

end Sys2Proof.Machine
end

