-- ==== Sys2Proof/Laws/Symbols.lean ====
section
/-! SUPPORT. What the coding operations built from `EncodeBit` do, as the lists of decisions of Safety.lean: one lemma for
each of R144, R146, R148, R150, R214, R215 and for each symbol of R217 to R220. -/

namespace Sys2Proof.Machine

/-! ## Decisions -/

@[simp] theorem decided_nil (c : CodedNumber × (Nat → Nat)) : decided c [] = c := rfl

@[simp] theorem decided_cons (c : CodedNumber × (Nat → Nat)) (d : Decision) (ds : List Decision) :
    decided c (d :: ds) = decided (Decision.move c d) ds := rfl

theorem decided_append (c : CodedNumber × (Nat → Nat)) (ds es : List Decision) :
    decided c (ds ++ es) = decided (decided c ds) es := List.foldl_append ..

/-- The words that a list of decisions does not use stay. -/
theorem decided_other (c : CodedNumber × (Nat → Nat)) (ds : List Decision) (j : Nat)
    (h : ∀ i b, .word i b ∈ ds → j ≠ i) : (decided c ds).2 j = c.2 j := by
  induction ds generalizing c with
  | nil => rfl
  | cons d ds ih =>
    rw [decided_cons, ih _ fun i b hi => h i b (List.mem_cons_of_mem _ hi)]
    cases d with
    | word i b => exact if_neg (h i b (List.mem_cons_self ..))
    | direct b => rfl

/-! ## Words in range -/

theorem ProbMem.mem_of_read (m : ProbMem) (i : Nat) : ProbMem.read m i = probInit ∨ ∃ k, (k, ProbMem.read m i) ∈ m := by
  unfold ProbMem.read
  induction m with
  | nil => exact .inl rfl
  | cons x m ih =>
    unfold sparseGet
    split
    · exact .inr ⟨x.1, List.mem_cons_self ..⟩
    · exact ih.imp id fun ⟨k, hk⟩ => ⟨k, List.mem_cons_of_mem _ hk⟩

theorem ProbMem.InRange.read {m : ProbMem} (h : ProbMem.InRange m) (i : Nat) :
    31 ≤ (ProbMem.read m i).toNat ∧ (ProbMem.read m i).toNat ≤ 2017 := by
  rcases ProbMem.mem_of_read m i with hi | ⟨k, hk⟩
  · rw [hi]
    decide
  · exact h _ hk

/-- Adapting keeps a word in range. -/
theorem adapted_inRange (p : Nat) (b : Bool) (h : 31 ≤ p ∧ p ≤ 2017) : 31 ≤ adapted p b ∧ adapted p b ≤ 2017 := by
  cases b
  · change 31 ≤ p + (2048 - p) / 32 ∧ p + (2048 - p) / 32 ≤ 2017
    omega
  · change 31 ≤ p - p / 32 ∧ p - p / 32 ≤ 2017
    omega

/-! ## One coding operation -/

/-- What coding needs of a coder. -/
structure Enc.Good (e : Enc) : Prop where
  healthy : e.lane.rc.Healthy
  inRange : ProbMem.InRange e.lane.prob
  wf      : ProbMem.wf e.lane.prob = true

/-- `e'` is `e` after coding the decisions `ds`: nothing of the lane but the coder and the words has changed. -/
structure Enc.Codes (ds : List Decision) (e e' : Enc) : Prop where
  good  : e'.Good
  room  : e'.room = e.room
  lane  : e'.lane = { e.lane with rc := e'.lane.rc, prob := e'.lane.prob }
  moved : (e'.coded, wordsOf e'.lane.prob) = decided (e.coded, wordsOf e.lane.prob) ds

theorem Enc.Codes.refl (e : Enc) (h : e.Good) : Enc.Codes [] e e := ⟨h, rfl, rfl, rfl⟩

theorem Enc.Codes.trans {ds ds' : List Decision} {e e₁ e₂ : Enc} (h : Enc.Codes ds e e₁) (h' : Enc.Codes ds' e₁ e₂) :
    Enc.Codes (ds ++ ds') e e₂ where
  good := h'.good
  room := h'.room.trans h.room
  lane := h'.lane.trans (by rw [h.lane])
  moved := by rw [h'.moved, h.moved, decided_append]

/-- `EncodeBit` codes one decision (R144). -/
theorem encodeBit_codes (i : Nat) (b : Bool) (e e' : Enc) (h : e.Good) (hok : encodeBit i b e = .ok e') :
    Enc.Codes [.word i b] e e' := by
  have hp := h.inRange.read i
  obtain ⟨hn, -, -, -, -, -, hroom⟩ := splitRange_narrowed i b e h.healthy hp
  obtain ⟨-, -, hh, hr, hl, -⟩ := renormalise_ok _ e' hn hok
  have hprob : e'.lane.prob = ProbMem.write e.lane.prob i (BitVec.ofNat 11 (adapted (e.prob i) b)) := by
    rw [hl]
    cases b <;> rfl
  have ha := adapted_inRange (e.prob i) b hp
  have hv : (BitVec.ofNat 11 (adapted (e.prob i) b)).toNat = adapted (e.prob i) b := by
    rw [BitVec.toNat_ofNat, Nat.mod_eq_of_lt (by omega)]
  refine ⟨⟨hh, fun x hx => ?_, hprob ▸ ProbMem.write_wf _ _ _ h.wf⟩, hr.trans hroom, ?_, Prod.ext ?_ (funext fun j => ?_)⟩
  · rw [hprob] at hx
    rcases mem_sparseSet _ _ _ _ x hx with hx | hx
    · exact h.inRange x hx
    · rw [hx, hv]
      exact ha
  · rw [hl]
    cases b <;> rfl
  · exact encodeBit_coded i b e e' h.healthy hp hok
  · change (ProbMem.read e'.lane.prob j).toNat = if j = i then adapted (e.prob i) b else (ProbMem.read e.lane.prob j).toNat
    rw [hprob]
    split
    · next hj => rw [hj, ProbMem.read_write_same _ _ _ h.wf, hv]
    · next hj => rw [ProbMem.read_write_other _ _ _ _ hj]

/-- One round of `EncodeDirect` codes one decision (R146). -/
theorem halveRange_codes (b : Bool) (e e' : Enc) (h : e.Good) (hok : renormalise renormRounds (halveRange b e) = .ok e') :
    Enc.Codes [.direct b] e e' := by
  obtain ⟨hn, -, -, -, -, -, hroom, hlane⟩ := halveRange_narrowed b e h.healthy
  obtain ⟨-, -, hh, hr, hl, -⟩ := renormalise_ok _ e' hn hok
  have hl' : e'.lane = { e.lane with rc := e'.lane.rc } := by rw [hl, hlane]
  have hprob : e'.lane.prob = e.lane.prob := by rw [hl']
  refine ⟨⟨hh, hprob ▸ h.inRange, hprob ▸ h.wf⟩, hr.trans hroom, by rw [hl'], Prod.ext ?_ ?_⟩
  · exact halveRange_coded b e e' h.healthy hok
  · change wordsOf e'.lane.prob = wordsOf e.lane.prob
    rw [hprob]

/-! ## Lists of decisions as recursions -/

theorem directBits_succ (v n : Nat) : directBits v (n + 1) = .direct (v.testBit n) :: directBits v n := by
  unfold directBits
  rw [List.range_succ_eq_map, List.map_cons, List.map_map]
  congr 1
  refine List.map_congr_left fun d _ => ?_
  simp only [Function.comp, show n + 1 - 1 - (d + 1) = n - 1 - d by omega]

/-- `EncodeDirect` (R146). -/
theorem encodeDirect_codes (v n : Nat) : ∀ e e' : Enc, e.Good → encodeDirect v n e = .ok e' →
    Enc.Codes (directBits v n) e e' := by
  induction n with
  | zero =>
    intro e e' h hok
    obtain rfl := (Except.ok.inj hok).symm
    exact .refl e' h
  | succ n ih =>
    intro e e' h hok
    obtain ⟨e₁, h₁, h₂⟩ := (bind_ok _ _ _).mp hok
    have c₁ := halveRange_codes _ e e₁ h h₁
    rw [directBits_succ]
    exact c₁.trans (ih e₁ e' c₁.good h₂)

/-- The bits of a tree from the index `m` on. -/
theorem treeFrom_succ (base s n m : Nat) :
    ((List.range (n + 1)).map fun d =>
        Decision.word (base + (m * 2 ^ d + s % 2 ^ (n + 1) / 2 ^ (n + 1 - d))) (s.testBit (n + 1 - 1 - d)))
      = .word (base + m) (s.testBit n) :: (List.range n).map fun d =>
          .word (base + ((2 * m + (s.testBit n).toNat) * 2 ^ d + s % 2 ^ n / 2 ^ (n - d))) (s.testBit (n - 1 - d)) := by
  rw [List.range_succ_eq_map, List.map_cons, List.map_map]
  have h0 : s % 2 ^ (n + 1) / 2 ^ (n + 1 - 0) = 0 := Nat.div_eq_of_lt (Nat.mod_lt _ (Nat.two_pow_pos _))
  rw [h0, Nat.pow_zero, Nat.mul_one, Nat.add_zero]
  congr 1
  refine List.map_congr_left fun d hd => ?_
  have hd : d < n := List.mem_range.mp hd
  have hb : (s.testBit n).toNat = s / 2 ^ n % 2 := Nat.toNat_testBit s n
  have hm : s % 2 ^ (n + 1) = s % 2 ^ n + 2 ^ n * (s / 2 ^ n % 2) := by rw [Nat.pow_succ, Nat.mod_mul]
  have hp : 2 ^ n = 2 ^ (n - d) * 2 ^ d := by rw [← Nat.pow_add, Nat.sub_add_cancel (Nat.le_of_lt hd)]
  simp only [Function.comp, show n + 1 - 1 - (d + 1) = n - 1 - d by omega, show n + 1 - (d + 1) = n - d by omega]
  rw [hb, hm, hp, Nat.mul_assoc, Nat.add_mul_div_left _ _ (Nat.two_pow_pos _), ← hp, Nat.pow_succ]
  congr 2
  ring

/-- `EncodeTree` (R148). -/
theorem encodeTreeFrom_codes (base s n : Nat) : ∀ (m : Nat) (e e' : Enc), e.Good → encodeTreeFrom base s n m e = .ok e' →
    Enc.Codes ((List.range n).map fun d => .word (base + (m * 2 ^ d + s % 2 ^ n / 2 ^ (n - d))) (s.testBit (n - 1 - d)))
      e e' := by
  induction n with
  | zero =>
    intro m e e' h hok
    obtain rfl := (Except.ok.inj hok).symm
    exact .refl e' h
  | succ n ih =>
    intro m e e' h hok
    obtain ⟨e₁, h₁, h₂⟩ := (bind_ok _ _ _).mp hok
    have c₁ := encodeBit_codes _ _ e e₁ h h₁
    rw [treeFrom_succ]
    exact c₁.trans (ih _ e₁ e' c₁.good h₂)

theorem encodeTree_codes (base n s : Nat) (hs : s < 2 ^ n) (e e' : Enc) (h : e.Good) (hok : encodeTree base n s e = .ok e') :
    Enc.Codes (treeBits base n s) e e' := by
  have c := encodeTreeFrom_codes base s n 1 e e' h hok
  simp only [Nat.one_mul, Nat.mod_eq_of_lt hs] at c
  exact c

/-- The index of `treeRevNode`, from `m` on. -/
def treeRevFrom (m s : Nat) : Nat → Nat
  | 0 => m
  | d + 1 => 2 * treeRevFrom m s d + s / 2 ^ d % 2

/-- The index after the lowest bit. -/
theorem treeRevFrom_succ (m s d : Nat) : treeRevFrom m s (d + 1) = treeRevFrom (2 * m + s % 2) (s / 2) d := by
  induction d with
  | zero => simp [treeRevFrom]
  | succ d ih => rw [treeRevFrom, ih, treeRevFrom, Nat.div_div_eq_div_mul, Nat.pow_succ, Nat.mul_comm (2 ^ d)]

theorem treeRevFrom_one (s d : Nat) : treeRevFrom 1 s d = treeRevNode s d := by
  induction d with
  | zero => rfl
  | succ d ih => rw [treeRevFrom, treeRevNode, ih]

/-- `EncodeTreeRev` (R150). -/
theorem encodeTreeRevFrom_codes (base n : Nat) : ∀ (s m : Nat) (e e' : Enc), e.Good →
    encodeTreeRevFrom base n s m e = .ok e' →
    Enc.Codes ((List.range n).map fun d => .word (base + treeRevFrom m s d) (s.testBit d)) e e' := by
  induction n with
  | zero =>
    intro s m e e' h hok
    obtain rfl := (Except.ok.inj hok).symm
    exact .refl e' h
  | succ n ih =>
    intro s m e e' h hok
    obtain ⟨e₁, h₁, h₂⟩ := (bind_ok _ _ _).mp hok
    have c₁ := encodeBit_codes _ _ e e₁ h h₁
    have c := c₁.trans (ih _ _ e₁ e' c₁.good h₂)
    rw [List.range_succ_eq_map, List.map_cons, List.map_map]
    refine Eq.subst (motive := fun l => Enc.Codes l e e') ?_ c
    rw [List.singleton_append]
    congr 1
    refine List.map_congr_left fun d _ => ?_
    simp only [Function.comp, Nat.succ_eq_add_one]
    rw [treeRevFrom_succ, Nat.testBit_succ, Nat.toNat_testBit, Nat.pow_zero, Nat.div_one]

theorem encodeTreeRev_codes (base n s : Nat) (e e' : Enc) (h : e.Good) (hok : encodeTreeRev base n s e = .ok e') :
    Enc.Codes (treeRevBits base n s) e e' := by
  have c := encodeTreeRevFrom_codes base n s 1 e e' h hok
  simp only [treeRevFrom_one] at c
  exact c

/-! ## Lengths and distances -/

/-- `EncodeLen` (R214). -/
theorem encodeLen_codes (base l ps : Nat) (hl : l ≤ 271) (e e' : Enc) (h : e.Good) (hok : encodeLen base l ps e = .ok e') :
    Enc.Codes (lenBits base l ps) e e' := by
  unfold encodeLen at hok
  unfold lenBits
  split at hok
  · next h8 =>
    rw [if_pos h8]
    obtain ⟨e₁, h₁, h₂⟩ := (bind_ok _ _ _).mp hok
    have c₁ := encodeBit_codes _ _ e e₁ h h₁
    exact c₁.trans (encodeTree_codes _ _ _ h8 e₁ e' c₁.good h₂)
  · next h8 =>
    rw [if_neg h8]
    split at hok
    · next h16 =>
      rw [if_pos h16]
      obtain ⟨e₁, h₁, hok⟩ := (bind_ok _ _ _).mp hok
      obtain ⟨e₂, h₂, h₃⟩ := (bind_ok _ _ _).mp hok
      have c₁ := encodeBit_codes _ _ e e₁ h h₁
      have c₂ := encodeBit_codes _ _ e₁ e₂ c₁.good h₂
      exact c₁.trans (c₂.trans (encodeTree_codes _ _ _ (by omega) e₂ e' c₂.good h₃))
    · next h16 =>
      rw [if_neg h16]
      obtain ⟨e₁, h₁, hok⟩ := (bind_ok _ _ _).mp hok
      obtain ⟨e₂, h₂, h₃⟩ := (bind_ok _ _ _).mp hok
      have c₁ := encodeBit_codes _ _ e e₁ h h₁
      have c₂ := encodeBit_codes _ _ e₁ e₂ c₁.good h₂
      exact c₁.trans (c₂.trans (encodeTree_codes _ _ _ (by omega) e₂ e' c₂.good h₃))

theorem slotOf_eq (dist : Nat) : slotOf dist = posSlot dist := by
  unfold slotOf posSlot
  rw [Nat.toNat_testBit]

theorem slotOf_lt (dist : Nat) (h : dist < 2 ^ 32) : slotOf dist < 64 := by
  unfold slotOf
  split
  · omega
  · next h4 =>
    have := (Nat.log2_lt (by omega : dist ≠ 0)).mpr h
    omega

/-- `EncodeDist` (R215). -/
theorem encodeDist_codes (dist len : Nat) (hd : dist < 2 ^ 32) (e e' : Enc) (h : e.Good)
    (hok : encodeDist dist len e = .ok e') : Enc.Codes (distBits dist len) e e' := by
  unfold encodeDist at hok
  simp only [← slotOf_eq] at hok
  obtain ⟨e₁, h₁, hok⟩ := (bind_ok _ _ _).mp hok
  have c₁ := encodeTree_codes _ _ _ (slotOf_lt dist hd) e e₁ h h₁
  unfold distBits
  refine c₁.trans ?_
  split at hok
  · next h4 =>
    rw [if_pos h4]
    obtain rfl := (Except.ok.inj hok).symm
    exact .refl e' c₁.good
  · next h4 =>
    rw [if_neg h4]
    split at hok
    · next h14 =>
      rw [if_pos h14]
      exact encodeTreeRev_codes _ _ _ e₁ e' c₁.good hok
    · next h14 =>
      rw [if_neg h14]
      obtain ⟨e₂, h₂, h₃⟩ := (bind_ok _ _ _).mp hok
      have c₂ := encodeDirect_codes _ _ e₁ e₂ c₁.good h₂
      exact c₂.trans (encodeTreeRev_codes _ _ _ e₂ e' c₂.good h₃)

/-! ## Literals -/

/-- The offset `offs` of R217 before the round `d`. -/
def matchedOffs (c mb d : Nat) : Nat := if c / 2 ^ (8 - d) = mb / 2 ^ (8 - d) then 0x100 else 0

theorem matchedOffs_zero (c mb : Nat) (hc : c < 256) (hm : mb < 256) : matchedOffs c mb 0 = 0x100 := by
  unfold matchedOffs
  rw [if_pos (by omega)]

theorem testBit_shifted (x d k : Nat) (hk : d + 1 ≤ k) :
    (x * 2 ^ d * 2).testBit k = x.testBit (k - (d + 1)) := by
  rw [Nat.mul_assoc, ← Nat.pow_succ, Nat.mul_comm, Nat.testBit_two_pow_mul]
  simp [hk]

theorem matchedOffs_succ (c mb d : Nat) (hd : d < 8) :
    matchedOffs c mb d ^^^ (matchedOffs c mb d &&& (mb * 2 ^ d * 2 ^^^ (c + 0x100) * 2 ^ d * 2)) = matchedOffs c mb (d + 1) := by
  have hbit : ((c + 0x100).testBit (7 - d)) = c.testBit (7 - d) := by
    rw [Nat.add_comm, show 0x100 = 2 ^ 8 by rfl]
    exact Nat.testBit_two_pow_add_gt (by omega) _
  have hx : (mb * 2 ^ d * 2 ^^^ (c + 0x100) * 2 ^ d * 2).testBit 8 = (mb.testBit (7 - d) ^^ c.testBit (7 - d)) := by
    rw [Nat.testBit_xor, testBit_shifted _ _ _ (by omega), testBit_shifted _ _ _ (by omega),
      show 8 - (d + 1) = 7 - d by omega, hbit]
  generalize mb * 2 ^ d * 2 ^^^ (c + 0x100) * 2 ^ d * 2 = x at hx ⊢
  have hsplit : ∀ y : Nat, y / 2 ^ (8 - (d + 1)) = 2 * (y / 2 ^ (8 - d)) + y / 2 ^ (7 - d) % 2 := fun y => by
    have h1 : y / 2 ^ (8 - d) = y / 2 ^ (7 - d) / 2 := by
      rw [Nat.div_div_eq_div_mul, ← Nat.pow_succ, Nat.succ_eq_add_one, show 7 - d + 1 = 8 - d by omega]
    rw [show 8 - (d + 1) = 7 - d by omega, h1]
    omega
  have hmb := Nat.toNat_testBit mb (7 - d)
  have hcb := Nat.toNat_testBit c (7 - d)
  have hand : 0x100 &&& x = (x.testBit 8).toNat * 2 ^ 8 := by
    rw [Nat.and_comm]
    exact Nat.and_two_pow x 8
  unfold matchedOffs
  rw [hsplit c, hsplit mb]
  split
  · next h =>
    rw [hand, hx, h, ← hmb, ← hcb]
    cases mb.testBit (7 - d) <;> cases c.testBit (7 - d) <;> simp
  · next h =>
    rw [if_neg (by omega)]
    simp

/-- One bit of a matched literal. -/
def matchedBit (base c mb d : Nat) : Decision :=
  let half := if c / 2 ^ (8 - d) = mb / 2 ^ (8 - d) then 0x100 + 0x100 * (mb / 2 ^ (7 - d) % 2) else 0
  .word (base + half + treeNode 8 c d) (c.testBit (7 - d))

theorem matchedBit_eq (base c mb d : Nat) (hd : d < 8) :
    Decision.word (base + matchedOffs c mb d + (mb * 2 ^ d * 2 &&& matchedOffs c mb d) + (c + 0x100) * 2 ^ d / 2 ^ 8)
        (((c + 0x100) * 2 ^ d).testBit 7)
      = matchedBit base c mb d := by
  have hand : mb * 2 ^ d * 2 &&& 0x100 = 0x100 * (mb / 2 ^ (7 - d) % 2) := by
    rw [show (0x100 : Nat) = 2 ^ 8 by rfl, Nat.and_two_pow, testBit_shifted _ _ _ (by omega), Nat.toNat_testBit,
      show 8 - (d + 1) = 7 - d by omega, Nat.mul_comm]
  have hnode : (c + 0x100) * 2 ^ d / 2 ^ 8 = treeNode 8 c d := by
    have h8 : 2 ^ 8 = 2 ^ (8 - d) * 2 ^ d := by rw [← Nat.pow_add, Nat.sub_add_cancel (by omega)]
    unfold treeNode
    rw [h8, Nat.mul_div_mul_right _ _ (Nat.two_pow_pos _), show c + 0x100 = c + 2 ^ (8 - d) * 2 ^ d from congrArg (c + ·) h8,
      Nat.add_mul_div_left _ _ (Nat.two_pow_pos _), Nat.add_comm]
  have hbit : ((c + 0x100) * 2 ^ d).testBit 7 = c.testBit (7 - d) := by
    rw [Nat.mul_comm, Nat.testBit_two_pow_mul, Nat.add_comm c, show (0x100 : Nat) = 2 ^ 8 by rfl,
      Nat.testBit_two_pow_add_gt (by omega)]
    simp
    omega
  unfold matchedBit matchedOffs
  rw [hnode, hbit]
  split
  · rw [hand, Nat.add_assoc base]
  · simp

/-- The rounds of a matched literal (R217). -/
theorem matchedLiteralFrom_codes (base c mb : Nat) (n : Nat) : ∀ (d : Nat) (e e' : Enc), d + n = 8 → e.Good →
    matchedLiteralFrom base n (mb * 2 ^ d) (matchedOffs c mb d) ((c + 0x100) * 2 ^ d) e = .ok e' →
    Enc.Codes ((List.range n).map fun k => matchedBit base c mb (d + k)) e e' := by
  induction n with
  | zero =>
    intro d e e' _ h hok
    obtain rfl := (Except.ok.inj hok).symm
    exact .refl e' h
  | succ n ih =>
    intro d e e' hd h hok
    obtain ⟨e₁, h₁, h₂⟩ := (bind_ok _ _ _).mp hok
    have c₁ := encodeBit_codes _ _ e e₁ h h₁
    rw [matchedBit_eq _ _ _ _ (by omega)] at c₁
    dsimp only at h₂
    rw [matchedOffs_succ _ _ _ (by omega), Nat.mul_assoc, ← Nat.pow_succ, Nat.mul_assoc (c + 0x100), ← Nat.pow_succ] at h₂
    have c₂ := ih (d + 1) e₁ e' (by omega) c₁.good h₂
    rw [List.range_succ_eq_map, List.map_cons, List.map_map]
    refine Eq.subst (motive := fun l => Enc.Codes l e e') ?_ (c₁.trans c₂)
    rw [List.singleton_append, Nat.add_zero]
    congr 1
    refine List.map_congr_left fun k _ => ?_
    simp only [Function.comp, Nat.succ_eq_add_one, show d + 1 + k = d + (k + 1) by omega]

theorem matchedLiteral_codes (base c mb : Nat) (hc : c < 256) (hm : mb < 256) (e e' : Enc) (h : e.Good)
    (hok : matchedLiteralFrom base 8 mb 0x100 (c + 0x100) e = .ok e') : Enc.Codes (matchedBits base c mb) e e' := by
  have c' := matchedLiteralFrom_codes base c mb 8 0 e e' rfl h
    (by rw [matchedOffs_zero c mb hc hm, Nat.pow_zero, Nat.mul_one, Nat.mul_one]; exact hok)
  simp only [Nat.zero_add] at c'
  exact c'

/-! ## Symbols -/

theorem literalNext_val : ∀ s : Fin 12, (literalNext s).val = afterLiteral s.val := by decide
theorem matchNext_val : ∀ s : Fin 12, (matchNext s).val = afterMatch s.val := by decide
theorem repNext_val : ∀ s : Fin 12, (repNext s).val = afterRep s.val := by decide
theorem shortRepNext_val : ∀ s : Fin 12, (shortRepNext s).val = afterShortRep s.val := by decide

/-- The bits that say which rep it is (R219). -/
theorem encodeRepIndex_codes (st r ps : Nat) (e e' : Enc) (h : e.Good) (hok : encodeRepIndex st r ps e = .ok e') :
    Enc.Codes (if r = 0 then [.word (204 + st) false, .word (240 + 16 * st + ps) true]
      else if r = 1 then [.word (204 + st) true, .word (216 + st) false]
      else [.word (204 + st) true, .word (216 + st) true, .word (228 + st) (decide (r = 3))]) e e' := by
  unfold encodeRepIndex at hok
  split at hok
  · next h0 =>
    rw [if_pos h0]
    obtain ⟨e₁, h₁, h₂⟩ := (bind_ok _ _ _).mp hok
    have c₁ := encodeBit_codes _ _ e e₁ h h₁
    exact c₁.trans (encodeBit_codes _ _ e₁ e' c₁.good h₂)
  · next h0 =>
    rw [if_neg h0]
    obtain ⟨e₁, h₁, hok⟩ := (bind_ok _ _ _).mp hok
    have c₁ := encodeBit_codes _ _ e e₁ h h₁
    split at hok
    · next h1 =>
      rw [if_pos h1]
      exact c₁.trans (encodeBit_codes _ _ e₁ e' c₁.good hok)
    · next h1 =>
      rw [if_neg h1]
      obtain ⟨e₂, h₂, h₃⟩ := (bind_ok _ _ _).mp hok
      have c₂ := encodeBit_codes _ _ e₁ e₂ c₁.good h₂
      exact c₁.trans (c₂.trans (encodeBit_codes _ _ e₂ e' c₂.good h₃))

/-- Coding the decisions `ds` and then setting the reps and `STATE`. -/
theorem Enc.Codes.finish {ds : List Decision} {e e₁ : Enc} (c : Enc.Codes ds e e₁) (reps : Reps) (st : Fin 12) :
    let e' := (e₁.setReps reps).setSt st
    e'.Good ∧ e'.room = e.room ∧ (e'.coded, wordsOf e'.lane.prob) = decided (e.coded, wordsOf e.lane.prob) ds
      ∧ e'.lane = { e.lane with rc := e'.lane.rc, prob := e'.lane.prob, st := e'.lane.st, reps := e'.lane.reps } := by
  refine ⟨⟨c.good.healthy, c.good.inRange, c.good.wf⟩, c.room, c.moved, ?_⟩
  rw [Enc.setSt_lane, Enc.setReps_lane, c.lane]

/-- Everything that coding a legal symbol does to a good coder (R217 to R220): the bits of Safety.lean, and the coding
state after it. -/
theorem Symbol.code_codes (x : SymCtx) (p : Nat) (y : Symbol) (hy : y.Legal) (e e' : Enc) (h : e.Good)
    (hok : y.code x p e = .ok e') :
    e'.Good ∧ e'.room = e.room
      ∧ (e'.coded, wordsOf e'.lane.prob)
          = decided (e.coded, wordsOf e.lane.prob) (symbolBits x.dict x.phase e.lane p y)
      ∧ e'.lane = { e.lane with
          rc := e'.lane.rc, prob := e'.lane.prob, st := e'.lane.st, reps := e'.lane.reps }
      ∧ e'.lane.st.val = y.stateAfter e.lane.st.val ∧ e'.lane.reps.list = y.repsAfter e.lane.reps.list := by
  cases y with
  | lit =>
    obtain ⟨e₁, h₁, hok⟩ := (bind_ok _ _ _).mp hok
    obtain ⟨e₂, h₂, rfl⟩ : ∃ e₂, (if e.lane.st.val < 7 then
        encodeTree (literalAt + 768 * litState x e.lane p) 8 (Memory.read x.dict p).toNat e₁
        else matchedLiteralFrom (literalAt + 768 * litState x e.lane p) 8
          (matchedByte x p e₁.lane.reps.rep0.toNat).toNat 0x100 ((Memory.read x.dict p).toNat + 0x100) e₁) = .ok e₂
        ∧ e' = e₂.setSt (literalNext e.lane.st) := by
      dsimp only at hok
      split at hok
      · next h7 =>
        obtain ⟨e₂, h₂, hok⟩ := (bind_ok _ _ _).mp hok
        exact ⟨e₂, by rw [if_pos h7]; exact h₂, (Except.ok.inj hok).symm⟩
      · next h7 =>
        obtain ⟨e₂, h₂, hok⟩ := (bind_ok _ _ _).mp hok
        exact ⟨e₂, by rw [if_neg h7]; exact h₂, (Except.ok.inj hok).symm⟩
    have c₁ := encodeBit_codes _ _ e e₁ h h₁
    have hreps : e₁.lane.reps = e.lane.reps := by rw [c₁.lane]
    have c : Enc.Codes (symbolBits x.dict x.phase e.lane p .lit) e e₂ := by
      refine Eq.subst (motive := fun l => Enc.Codes l e e₂) ?_ (c₁.trans (?_ : Enc.Codes (if e.lane.st.val < 7 then
        treeBits (literalAt + 768 * litState x e.lane p) 8 (byteAt x.dict p) else
        matchedBits (literalAt + 768 * litState x e.lane p) (byteAt x.dict p)
          (matchedByte x p e.lane.reps.rep0.toNat).toNat) e₁ e₂))
      · have hmb : (matchedByte x p e.lane.reps.rep0.toNat).toNat
            = if e.lane.reps.rep0.toNat < p then byteAt x.dict (p - (e.lane.reps.rep0.toNat + 1))
              else (Config.byteBeforeDict (Memory.readBytes x.dict 0 (p + 1)) p e.lane.reps.rep0.toNat).toNat := by
          unfold matchedByte
          split
          · rw [Nat.sub_sub]
            rfl
          · rfl
        rw [hmb]
        simp only [symbolBits, isMatchAt, Nat.zero_add, literalAt, litState, posState, prevByte, List.singleton_append,
          byteAt]
      · split at h₂
        · next h7 =>
          rw [if_pos h7]
          exact encodeTree_codes _ _ _ (Memory.read x.dict p).isLt e₁ e₂ c₁.good h₂
        · next h7 =>
          rw [if_neg h7]
          rw [hreps] at h₂
          exact matchedLiteral_codes _ _ _ (Memory.read x.dict p).isLt (BitVec.isLt _) e₁ e₂ c₁.good h₂
    have hl : e₂.lane.reps = e.lane.reps := by rw [c.lane]
    obtain ⟨a1, a2, a3, a4⟩ := c.finish e₂.lane.reps (literalNext e.lane.st)
    exact ⟨a1, a2, a3, a4, literalNext_val _, congrArg Reps.list hl⟩
  | shortRep =>
    obtain ⟨e₁, h₁, hok⟩ := (bind_ok _ _ _).mp hok
    obtain ⟨e₂, h₂, hok⟩ := (bind_ok _ _ _).mp hok
    obtain ⟨e₃, h₃, hok⟩ := (bind_ok _ _ _).mp hok
    obtain ⟨e₄, h₄, hok⟩ := (bind_ok _ _ _).mp hok
    obtain rfl := (Except.ok.inj hok).symm
    have c₁ := encodeBit_codes _ _ e e₁ h h₁
    have c₂ := encodeBit_codes _ _ e₁ e₂ c₁.good h₂
    have c₃ := encodeBit_codes _ _ e₂ e₃ c₂.good h₃
    have c := c₁.trans (c₂.trans (c₃.trans (encodeBit_codes _ _ e₃ e₄ c₃.good h₄)))
    have hl : e₄.lane.reps = e.lane.reps := by rw [c.lane]
    obtain ⟨a1, a2, a3, a4⟩ := c.finish e₄.lane.reps (shortRepNext e.lane.st)
    refine ⟨a1, a2, a3.trans ?_, a4, shortRepNext_val _, congrArg Reps.list hl⟩
    simp only [symbolBits, isMatchAt, Nat.zero_add, posState, isRepAt, isRepG0At, isRep0LongAt, List.singleton_append]
  | mtch n dist =>
    obtain ⟨e₁, h₁, hok⟩ := (bind_ok _ _ _).mp hok
    obtain ⟨e₂, h₂, hok⟩ := (bind_ok _ _ _).mp hok
    obtain ⟨e₃, h₃, hok⟩ := (bind_ok _ _ _).mp hok
    obtain ⟨e₄, h₄, hok⟩ := (bind_ok _ _ _).mp hok
    obtain rfl := (Except.ok.inj hok).symm
    obtain ⟨hn2, hn, hd⟩ := hy
    have c₁ := encodeBit_codes _ _ e e₁ h h₁
    have c₂ := encodeBit_codes _ _ e₁ e₂ c₁.good h₂
    have c₃ := encodeLen_codes _ _ _ (by omega) e₂ e₃ c₂.good h₃
    have c := c₁.trans (c₂.trans (c₃.trans (encodeDist_codes _ _ hd e₃ e₄ c₃.good h₄)))
    have hl : e₄.lane.reps = e.lane.reps := by rw [c.lane]
    obtain ⟨a1, a2, a3, a4⟩ := c.finish (e₄.lane.reps.push (BitVec.ofNat 32 dist)) (matchNext e.lane.st)
    refine ⟨a1, a2, a3.trans ?_, a4, matchNext_val _, ?_⟩
    · simp only [symbolBits, isMatchAt, Nat.zero_add, posState, isRepAt, lenEncAt, List.cons_append, List.nil_append]
    · simp only [Enc.setSt_lane, Enc.setReps_lane, hl]
      rfl
  | rep n r =>
    obtain ⟨e₁, h₁, hok⟩ := (bind_ok _ _ _).mp hok
    obtain ⟨e₂, h₂, hok⟩ := (bind_ok _ _ _).mp hok
    obtain ⟨e₃, h₃, hok⟩ := (bind_ok _ _ _).mp hok
    obtain ⟨e₄, h₄, hok⟩ := (bind_ok _ _ _).mp hok
    obtain rfl := (Except.ok.inj hok).symm
    obtain ⟨hn2, hn, hr⟩ := hy
    have c₁ := encodeBit_codes _ _ e e₁ h h₁
    have c₂ := encodeBit_codes _ _ e₁ e₂ c₁.good h₂
    have c₃ := c₁.trans (c₂.trans (encodeRepIndex_codes _ _ _ e₂ e₃ c₂.good h₃))
    have hl : e₃.lane.reps = e.lane.reps := by rw [c₃.lane]
    have c₄ := encodeLen_codes _ _ _ (by omega) (e₃.setReps (e₃.lane.reps.toFront r)) e₄
      ⟨c₃.good.healthy, c₃.good.inRange, c₃.good.wf⟩ h₄
    refine ⟨⟨c₄.good.healthy, c₄.good.inRange, c₄.good.wf⟩, c₄.room.trans c₃.room, c₄.moved.trans ?_, ?_,
      repNext_val _, ?_⟩
    · refine (congrArg (decided · _) c₃.moved).trans ?_
      rw [← decided_append]
      simp only [symbolBits, isMatchAt, Nat.zero_add, posState, isRepAt, repLenEncAt, List.cons_append, List.nil_append]
    · rw [Enc.setSt_lane, c₄.lane, Enc.setReps_lane, c₃.lane]
    · have : e₄.lane.reps = e.lane.reps.toFront r := by rw [c₄.lane, Enc.setReps_lane, hl]
      simp only [Enc.setSt_lane, this, Symbol.repsAfter]
      rcases r with _ | _ | _ | _ | r
      · rfl
      · rfl
      · rfl
      · rfl
      · omega

/-! ## From the coder to the lane (R141) -/

/-- A count of shifts that starts at `k` ends that much higher. -/
def CodedNumber.raise (c : CodedNumber) (k : Nat) : CodedNumber := { c with shifts := c.shifts + k }

theorem CodedNumber.renormalised_raise (c : CodedNumber) (k : Nat) : (c.raise k).renormalised = c.renormalised.raise k := by
  unfold CodedNumber.renormalised CodedNumber.raise
  split
  · simp only [CodedNumber.mk.injEq, true_and]
    omega
  · rfl

theorem decided_raise (c : CodedNumber) (w : Nat → Nat) (k : Nat) (ds : List Decision) :
    decided (c.raise k, w) ds = ((decided (c, w) ds).1.raise k, (decided (c, w) ds).2) := by
  induction ds generalizing c w with
  | nil => rfl
  | cons d ds ih =>
    have hd : Decision.move (c.raise k, w) d = ((Decision.move (c, w) d).1.raise k, (Decision.move (c, w) d).2) := by
      cases d with
      | word i b =>
        refine Prod.ext ?_ rfl
        cases b
        · exact CodedNumber.renormalised_raise { c with range := c.range / 2 ^ 11 * w i } k
        · exact CodedNumber.renormalised_raise
            { c with range := c.range - c.range / 2 ^ 11 * w i, value := c.value + c.range / 2 ^ 11 * w i } k
      | direct b =>
        exact Prod.ext
          (CodedNumber.renormalised_raise
            { c with range := c.range / 2, value := if b then c.value + c.range / 2 else c.value } k) rfl
    rw [decided_cons, hd, ih]
    rfl

/-- What a coder on a lane's window has coded, as the statements say it of the command. -/
theorem codesBits_of_coded (l : Lane) (e : Enc) (ds : List Decision)
    (h : (e.coded, wordsOf e.lane.prob) = decided (l.windowEnc.coded, wordsOf l.prob) ds) :
    CodesBits l e.lane e.bytes ds := by
  have hc : l.windowEnc.coded = (CodedNumber.ofLane l).raise l.rc.cacheSize.toNat := by
    simp [Enc.coded, Lane.windowEnc, CodedNumber.ofLane, CodedNumber.raise, Enc.bytes]
  rw [hc, decided_raise] at h
  have h1 := congrArg Prod.fst h
  have h2 := congrArg Prod.snd h
  have hs : e.coded.shifts = _ := congrArg CodedNumber.shifts h1
  refine ⟨⟨congrArg CodedNumber.range h1, congrArg CodedNumber.value h1, ?_⟩, fun j => congrFun h2 j⟩
  simp only [Enc.coded, CodedNumber.raise] at hs
  simp only [Enc.bytes, List.length_reverse]
  omega

end Sys2Proof.Machine
end

