-- ==== Sys2Proof/Tests/Slice0.lean ====
section
/-! SUPPORT. Tests: ill-formed commands, decoding of words written out from R117, one step of each command on a small
state with results from 95_test_vectors.md, and a witness for the hypotheses of each statement. -/

set_option Elab.async false

namespace Sys2Proof.Tests

open Sys2Proof Sys2Proof.Machine

/-! ## Small states -/

/-- A small instance with `n` lanes. -/
def labParams : Params :=
  { nMf := 1, dictCap := 4096, outCap := 4096, tableCap := 0x20000000, stageCap := 4096, mfMode := .canonical }

def lab : State := State.resetWith 2 labParams

def bytesOf (s : String) : List Byte := s.toList.map fun c => BitVec.ofNat 8 c.toNat

/-- The state after a command that answers one. -/
def after (i : Instr) (s : State) : State :=
  match exec i s with
  | .next t => t
  | .fault _ => s
  | .refused _ => s

/-- Does a command answer a next state? -/
def answers (i : Instr) (s : State) : Bool :=
  match exec i s with
  | .next _ => true
  | .fault _ => false
  | .refused _ => false

theorem exec_after {i : Instr} {s : State} (h : answers i s = true) : exec i s = .next (after i s) := by
  unfold answers at h
  unfold after
  split <;> simp_all

/-- The state after a step that answers one. -/
def stepped (s : State) : State :=
  match step s with
  | .next t => t
  | .fault _ => s
  | .refused _ => s

def withArgs (a b c : Word) (s : State) : State := { s with args := { s.args with arg0 := a, arg1 := b, arg2 := c } }

/-- `DICT = data`, `BLK = [0, |data|)`. -/
def withBlock (data : List Byte) (s : State) : State :=
  { s with
    dict := Memory.writeBytes [] 0 data
    cfg := { s.cfg with blkEnd := BitVec.ofNat 32 data.length } }

def withLane0 (l : Lane) (s : State) : State := { s with lanes := [l, .reset] }

def lane0 (s : State) : Lane := s.lanes.headD .reset

/-- Lane 0 after `ENC_RESET_STATE lane=0`, `RC_RESET lane=0` and `lane.setwin 0, 0, 64`. -/
def codingLane : Lane := { Lane.reset with init := true, outCap := 64 }

def coding : State := withLane0 codingLane lab

/-- `codingLane` with coder registers, `STATE` and reps. -/
def laneAt (low : BitVec 33) (range : Word) (cache : Byte) (st : Fin 12) (rep0 : Word) : Lane :=
  { codingLane with
    rc := { low := low, range := range, cache := cache, cacheSize := 1 }
    st := st, reps := { Reps.reset with rep0 := rep0 } }

/-- The words of lane 0's probability memory at the given indexes. -/
def probs (s : State) (is : List Nat) : List Nat := is.map fun i => (ProbMem.read (lane0 s).prob i).toNat

def outBytes (s : State) (n : Nat) : List Nat := (Memory.readBytes s.out 0 n).map BitVec.toNat

def results (s : State) : Nat × Nat × Nat := (s.res.res0.toNat, s.res.res1.toNat, s.res.res2.toNat)

/-- A valid table whose slots are given, for `DICT = data`. -/
def withTable (cap : Word) (slots : List Slot) (s : State) : State :=
  { s with table :=
    { created := true, isStruct := false, valid := true, size := 0x00100000, fin := s.cfg.blkEnd, caplen := cap
      storage := .ofSlots false slots } }

/-- After `MF_CREATE` with the reset `DICT_SIZE`. -/
def created : State :=
  { lab with table := { lab.table with created := true, size := 0x00100000 } }

/-- MF-1: `"abcabcabc"` with its table. -/
def mf1 : State :=
  withTable 42
    [.null, .null, .null, .entry 0 6, .entry 1 5, .entry 2 4, .entry 3 3, .entry 4 2, .null]
    (withBlock (bytesOf "abcabcabc") lab)

/-- Sixteen bytes 0x41 in lane 0's open slice, with their table and `STORE_MARGIN = 0`. -/
def run16 : State :=
  let s := withTable 42
    (.null :: (List.range 14).map (fun q => .entry q (15 - q)) ++ [.null])
    (withBlock (List.replicate 16 0x41) lab)
  { withLane0 { Lane.reset with sliceEnd := 16, sliceOpen := true } s with
    cfg := { s.cfg with storeMargin := 0 } }

/-- `run16` with a `STORE_MARGIN` that no chunk of it beats. -/
def run16Stored : State := { run16 with cfg := { run16.cfg with storeMargin := 16 } }

/-- A stream open since `STREAM_BEGIN`. -/
def streaming (ck : Bool) (s : State) : State :=
  { s with stream := { isOpen := true, needDr := true, ck := ck, omitP := false, dict := s.cfg.dictSize, ckData := [] } }

/-! ## Ill-formed commands (R110, R119) -/

theorem test_wellFormed_refuses_lane_16 :
    ([.rcReset 16, .rcBit 16 true, .rcTree 16 1, .rcTreeRev 16 1, .rcDirect 16 1, .rcFlush 16, .encResetState 16,
       .encLiteral 16, .encMatch 16, .encRep 16 0, .encShortRep 16, .encSnapshot 16, .encRollback 16,
       .probRead 16, .probWrite 16, .sliceBegin 16 true, .encChunk 16, .encSlice 16 true]
      : List Instr).all (fun i => !i.wellFormed) = true := by decide +kernel

theorem test_wellFormed_refuses_tree_nbits_32 :
    (Instr.rcTree 0 32).wellFormed = false ∧ (Instr.rcTreeRev 0 32).wellFormed = false := by decide +kernel

theorem test_wellFormed_refuses_direct_nbits_64 : (Instr.rcDirect 0 64).wellFormed = false := by decide +kernel

theorem test_wellFormed_refuses_rep_4 : (Instr.encRep 0 4).wellFormed = false := by decide +kernel

/-! ## Decoding: words written out from R117 -/

/-- Control: `OPC` alone. -/
theorem test_decode_control :
    decode 0b00000000000000000000000000000000 = .ok .nop
      ∧ decode 0b00000000000000000000000001010000 = .ok .clear := by decide +kernel

/-- Range coder: `LANE` in bits 11:8, `bit` in bit 16, `nbits` in bits 20:16 or 21:16. -/
theorem test_decode_range_coder :
    decode 0b00000000000000000000010100000001 = .ok (.rcReset 5)
      ∧ decode 0b00000000000000010000010100000010 = .ok (.rcBit 5 true)
      ∧ decode 0b00000000000100100000010100000011 = .ok (.rcTree 5 18)
      ∧ decode 0b00000000000100100000010100000100 = .ok (.rcTreeRev 5 18)
      ∧ decode 0b00000000001000010000010100000101 = .ok (.rcDirect 5 33)
      ∧ decode 0b00000000000000000000010100000110 = .ok (.rcFlush 5)
      ∧ decode 0b00000000000000010000000000000111 = .ok (.rcPrice true) := by decide +kernel

/-- Match finder: `OPC` alone. -/
theorem test_decode_match_finder :
    decode 0b00000000000000000000000000010000 = .ok .mfCreate
      ∧ decode 0b00000000000000000000000000010001 = .ok .mfBuild
      ∧ decode 0b00000000000000000000000000010010 = .ok .mfGetMatch
      ∧ decode 0b00000000000000000000000000010011 = .ok .mfGetNextMatch
      ∧ decode 0b00000000000000000000000000010100 = .ok .mfReadSlot := by decide +kernel

/-- Symbols: `LANE`, and `r` in bits 17:16 of `ENC_REP`. -/
theorem test_decode_symbols :
    decode 0b00000000000000000000111100100000 = .ok (.encResetState 15)
      ∧ decode 0b00000000000000000000111100100001 = .ok (.encLiteral 15)
      ∧ decode 0b00000000000000000000111100100010 = .ok (.encMatch 15)
      ∧ decode 0b00000000000000100000111100100011 = .ok (.encRep 15 2)
      ∧ decode 0b00000000000000000000111100100100 = .ok (.encShortRep 15)
      ∧ decode 0b00000000000000000000111100100101 = .ok (.encSnapshot 15)
      ∧ decode 0b00000000000000000000111100100110 = .ok (.encRollback 15)
      ∧ decode 0b00000000000000000000111100100111 = .ok (.probRead 15)
      ∧ decode 0b00000000000000000000111100101000 = .ok (.probWrite 15) := by decide +kernel

/-- Slices, blocks and streams: `LANE`, and `DR` in bit 12. -/
theorem test_decode_streams :
    decode 0b00000000000000000001001000110000 = .ok (.sliceBegin 2 true)
      ∧ decode 0b00000000000000000000001000110001 = .ok (.encChunk 2)
      ∧ decode 0b00000000000000000001001000110010 = .ok (.encSlice 2 true)
      ∧ decode 0b00000000000000000000000000110011 = .ok .encBlock
      ∧ decode 0b00000000000000000000000001000000 = .ok .streamBegin
      ∧ decode 0b00000000000000000000000001000001 = .ok .streamEnd := by decide +kernel

/-- FAULT-1 to FAULT-6, FAULT-11: words that are no command. -/
theorem test_decode_refuses :
    decode 0x00000008 = .error .reservedOpcode ∧ decode 0x00000034 = .error .reservedOpcode
      ∧ decode 0x000000FF = .error .reservedOpcode ∧ decode 0x00000100 = .error .unusedBitSet
      ∧ decode 0x00000107 = .error .unusedBitSet ∧ decode 0x00020002 = .error .unusedBitSet
      ∧ decode 0x00002030 = .error .unusedBitSet ∧ decode 0x00400005 = .error .unusedBitSet := by decide +kernel

/-- The words R120 writes beside their assembler text. -/
theorem test_encode_samples :
    encode (.rcBit 0 true) = 0x00010002 ∧ encode (.rcTree 2 8) = 0x00080203 ∧ encode (.encRep 1 2) = 0x00020123
      ∧ encode (.encSlice 0 true) = 0x00001032 ∧ encode .encBlock = 0x00000033 := by decide +kernel

/-- R120, R123. -/
theorem test_disassemble :
    disassemble 0x00080203 = "RC_TREE lane=2 nbits=8" ∧ disassemble 0x00001032 = "ENC_SLICE lane=0 dr"
      ∧ disassemble 0x00000008 = ".word 0x00000008" := by decide +kernel

theorem test_decodeTableWord :
    decodeTableWord 32 0x00020123 = some (.encRep 1 2) ∧ decodeTableWord 32 0x00000008 = none := by decide +kernel

/-! ## One step of each command -/

/-- CTRL-1. -/
theorem test_nop : (after .nop lab).statusWord = 0x00000002 ∧ results (after .nop lab) = (0, 0, 0) := by decide +kernel

/-- RC-6, R142. -/
theorem test_rcReset :
    (lane0 (after (.rcReset 0) (withLane0 (laneAt 0x120000000 0x01000000 0xA4 0 0) lab))).rc
      = { low := 0, range := 0xFFFFFFFF, cache := 0, cacheSize := 1 } := by decide +kernel

/-- FAULT-7, FAULT-30. -/
theorem test_rcReset_faults :
    (after (.rcReset 15) lab).statusWord = 0x00000304
      ∧ (after (.rcReset 0) (withLane0 { Lane.reset with outCap := 4, outLen := 5 } lab)).statusWord = 0x00000304 := by
  decide +kernel

/-- RC-1. -/
theorem test_rcBit :
    (lane0 (after (.rcBit 0 false) coding)).rc
        = { low := 0, range := 0x7FFFFC00, cache := 0, cacheSize := 1 }
      ∧ (lane0 (after (.rcBit 0 true) coding)).rc
        = { low := 0x7FFFFC00, range := 0x800003FF, cache := 0, cacheSize := 1 } := by decide +kernel

/-- RC-1, RC-10: adaptation, and its limits. -/
theorem test_rcBit_adapts :
    probs (after (.rcBit 0 true) coding) [0, 1] = [992, 1024]
      ∧ probs (after (.rcBit 0 true) (withLane0 { codingLane with prob := [(0, 31)] } lab)) [0] = [31]
      ∧ probs (after (.rcBit 0 false) (withLane0 { codingLane with prob := [(0, 2017)] } lab)) [0] = [2017] := by
  decide +kernel

/-- RC-3. -/
theorem test_rcTree :
    (lane0 (after (.rcTree 0 8) (withArgs 1846 0x41 0 coding))).rc
        = { low := 0x40FFFC00, range := 0x01000000, cache := 0, cacheSize := 1 }
      ∧ probs (after (.rcTree 0 8) (withArgs 1846 0x41 0 coding)) [1847, 1848, 1851, 2006] = [1056, 992, 1056, 992] := by
  decide +kernel

/-- FAULT-8, FAULT-9: the sequence check stands before the operand check. -/
theorem test_rcTree_faults :
    (after (.rcTree 0 0) lab).status.code = .sequenceError
      ∧ (after (.rcTree 0 0) coding).status.code = .invalidParameter := by decide +kernel

/-- RC-4. -/
theorem test_rcTreeRev :
    (lane0 (after (.rcTreeRev 0 4) (withArgs 802 6 0 coding))).rc
        = { low := 0x5FFFFC00, range := 0x10000000, cache := 0, cacheSize := 1 }
      ∧ probs (after (.rcTreeRev 0 4) (withArgs 802 6 0 coding)) [803, 804, 807, 813] = [1056, 992, 992, 1056] := by
  decide +kernel

/-- RC-2. -/
theorem test_rcDirect :
    (lane0 (after (.rcDirect 0 4) (withArgs 0 0xB 0 coding))).rc
      = { low := 0xAFFFFFFD, range := 0x0FFFFFFF, cache := 0, cacheSize := 1 } := by decide +kernel

/-- RC-7. -/
theorem test_rcDirect_run_of_ff :
    outBytes (after (.rcDirect 0 32) (withArgs 0 0xFFFFFFFF 0 coding)) 5 = [0x00, 0xFF, 0xFF, 0xFF, 0x00]
      ∧ (lane0 (after (.rcDirect 0 32) (withArgs 0 0xFFFFFFFF 0 coding))).rc
        = { low := 0x100, range := 0xFFFFFF00, cache := 0xF6, cacheSize := 1 } := by decide +kernel

/-- RC-2, RC-12. -/
theorem test_rcFlush :
    outBytes (after (.rcFlush 0) (withLane0 (laneAt 0xAFFFFFFD 0x0FFFFFFF 0 0 0) lab)) 5 = [0x00, 0xAF, 0xFF, 0xFF, 0xFD]
      ∧ (lane0 (after (.rcFlush 0) (withLane0 (laneAt 0xAFFFFFFD 0x0FFFFFFF 0 0 0) lab))).rc
        = { low := 0, range := 0x0FFFFFFF, cache := 0, cacheSize := 1 } := by decide +kernel

/-- RC-11: a window one byte too small. -/
theorem test_rcFlush_window_full :
    (after (.rcFlush 0) (withLane0 { laneAt 0xAFFFFFFD 0x0FFFFFFF 0 0 0 with outCap := 4 } lab)).status.code
        = .destinationTooSmall
      ∧ (after (.rcFlush 0) (withLane0 { laneAt 0xAFFFFFFD 0x0FFFFFFF 0 0 0 with outCap := 4 } lab)).errInfo
        = 0x00000006 := by decide +kernel

/-- RC-5: `ShiftLow` without and with a carry. -/
theorem test_shiftLow :
    (shiftLow { lane := laneAt 0xFF123456 0 0x12 0 0, rev := [], room := none }).toOption.map (fun e => (e.bytes, e.lane.rc.low))
        = some ([], 0x12345600)
      ∧ (shiftLow { lane := { codingLane with rc := { low := 0x112345600, range := 0, cache := 0x12, cacheSize := 2 } }
                    rev := [], room := none }).toOption.map (fun e => (e.bytes, e.lane.rc.low, e.lane.rc.cache))
        = some ([0x13, 0x00], 0x34560000, 0x12) := by decide +kernel

/-- PRICE-1, PRICE-2. -/
theorem test_rcPrice :
    results (after (.rcPrice false) (withArgs 1024 0 0 lab)) = (16, 0, 0)
      ∧ results (after (.rcPrice true) (withArgs 1024 0 0 lab)) = (17, 0, 0) := by decide +kernel

/-- PRICE-4, PRICE-5. -/
theorem test_rcPrice_ends :
    results (after (.rcPrice true) (withArgs 2047 0 0 lab)) = (128, 0, 0)
      ∧ (after (.rcPrice false) (withArgs 2048 0 0 lab)).status.code = .invalidParameter := by decide +kernel

/-- MF-8. -/
theorem test_mfCreate :
    (after .mfCreate lab).statusWord = 0x00010002 ∧ (after .mfCreate lab).table.size = 0x00100000 := by decide +kernel

/-- MF-7, FAULT-26. -/
theorem test_mfCreate_forms :
    (after .mfCreate { lab with cfg := { lab.cfg with dictSize := 0x04000001 } }).statusWord = 0x00030002
      ∧ (after .mfCreate { lab with cfg := { lab.cfg with dictSize := 4095 } }).statusWord = 0x00000304 := by decide +kernel

/-- MF-1, MF-8. -/
theorem test_mfBuild :
    (after .mfBuild (withBlock (bytesOf "abcabcabc") created)).table = mf1.table
      ∧ (after .mfBuild (withBlock (bytesOf "abcabcabc") created)).statusWord = 0x00050002 := by decide +kernel

/-- FAULT-24, FAULT-25. -/
theorem test_mfBuild_faults :
    (after .mfBuild lab).statusWord = 0x00000904
      ∧ (after .mfBuild { created with cfg := { created.cfg with mfParams := 0x205 } }).status.code
        = .invalidParameter := by decide +kernel

/-- R182, R183 on MF-2's block. -/
theorem test_radixSlots :
    radixSlots (bytesOf "AAAAAA") 42 = [.null, .entry 0 5, .entry 1 4, .entry 2 3, .entry 3 2, .null] := by
  decide +kernel

/-- MF-1. -/
theorem test_mfGetMatch :
    results (after .mfGetMatch (withArgs 3 0 0 mf1)) = (6, 2, 0)
      ∧ results (after .mfGetMatch (withArgs 0 0 0 mf1)) = (0, 0, 0) := by decide +kernel

/-- MF-6's extension past the cap, on a shorter run: cap 6, `E = 16`. -/
theorem test_mfGetMatch_extends :
    results (after .mfGetMatch (withArgs 1 0 0
      (withTable 6 [.null, .entry 0 6] (withBlock (List.replicate 16 0x41) lab)))) = (15, 0, 0) := by decide +kernel

/-- MF-1. -/
theorem test_mfGetNextMatch :
    results (after .mfGetNextMatch (withArgs 3 0 0 mf1)) = (6, 2, 0)
      ∧ results (after .mfGetNextMatch (withArgs 4 0 0 mf1)) = (0, 0, 0) := by decide +kernel

/-- MF-1. -/
theorem test_mfReadSlot :
    results (after .mfReadSlot (withArgs 3 0 0 mf1)) = (0, 6, 0)
      ∧ results (after .mfReadSlot (withArgs 0 0 0 mf1)) = (0xFFFFFFFF, 0, 0) := by decide +kernel

/-- MF-9. -/
theorem test_mfReadSlot_faults :
    (after .mfReadSlot (withArgs 9 0 0 mf1)).status.code = .invalidParameter
      ∧ (after .mfReadSlot created).status.code = .sequenceError := by decide +kernel

/-- SYM-9. -/
theorem test_encResetState :
    (lane0 (after (.encResetState 0) lab)).statusWord = 0x00020370
      ∧ (lane0 (after (.encResetState 0) { lab with cfg := { lab.cfg with lzProps := 0x20 } })).statusWord
        = 0x00002070 := by decide +kernel

/-- SYM-9: `lc + lp = 5`. -/
theorem test_encResetState_faults :
    (after (.encResetState 0) { lab with cfg := { lab.cfg with lzProps := 0x223 } }).status.code = .invalidParameter := by
  decide +kernel

/-- SYM-1. -/
theorem test_encLiteral :
    (lane0 (after (.encLiteral 0) (withBlock (bytesOf "A") coding))).rc.low = 0x7FFC0000
      ∧ (lane0 (after (.encLiteral 0) (withBlock (bytesOf "A") coding))).rc.range = 0x80000000
      ∧ (lane0 (after (.encLiteral 0) (withBlock (bytesOf "A") coding))).outLen = 1 := by decide +kernel

/-- SYM-4: a matched literal. -/
theorem test_encLiteral_matched :
    let t := after (.encLiteral 0)
      (withArgs 2 0 0 (withBlock (bytesOf "aab") (withLane0 (laneAt 0xDFFC0000 0x08000000 0 9 0) lab)))
    (lane0 t).rc.low = 0x84000000 ∧ (lane0 t).rc.range = 0x04000000 ∧ (lane0 t).st = 6 := by decide +kernel

/-- SYM-2: the match, after its three literals. -/
theorem test_encMatch :
    let t := after (.encMatch 0)
      (withArgs 3 3 2 (withBlock (bytesOf "abcabc") (withLane0 (laneAt 0x90774EA0 0x2672F160 0x88 0 0) lab)))
    (lane0 t).rc = { low := 0x4F5D0000, range := 0x02673000, cache := 0xA4, cacheSize := 1 }
      ∧ (lane0 t).st = 7 ∧ (lane0 t).reps = ⟨2, 0, 0, 0⟩ := by decide +kernel

/-- SYM-10. -/
theorem test_encMatch_faults :
    (after (.encMatch 0) (withArgs 3 3 3 (withBlock (bytesOf "abcabc") coding))).status.code = .invalidParameter
      ∧ (after (.encMatch 0) (withArgs 3 4 2 (withBlock (bytesOf "abcabc") coding))).status.code = .invalidParameter := by
  decide +kernel

/-- SYM-3: the rep, after SYM-2's symbols. -/
theorem test_encRep :
    let t := after (.encRep 0 0)
      (withArgs 6 3 0 (withBlock (bytesOf "abcabcabc") (withLane0 (laneAt 0x4F5D0000 0x02673000 0xA4 7 2) lab)))
    (lane0 t).rc.low = 0x533E3000 ∧ (lane0 t).rc.range = 0x02673000 ∧ (lane0 t).st = 11 := by decide +kernel

/-- SYM-5's rep1, and SYM-10's legal `r = 3`. -/
theorem test_encRep_reorders :
    let l := { codingLane with st := (7 : Fin 12), reps := ⟨5, 2, 0, 0⟩ }
    let t := after (.encRep 0 1) (withArgs 9 3 0 (withBlock (bytesOf "xyzxyQxyzxyz") (withLane0 l lab)))
    (lane0 t).reps = ⟨2, 5, 0, 0⟩ ∧ (lane0 t).st = 11
      ∧ (after (.encRep 0 3) (withArgs 1 2 0 (withBlock (bytesOf "aaa") coding))).status.done = true := by decide +kernel

/-- SYM-4: the short rep, after its first literal. -/
theorem test_encShortRep :
    let t := after (.encShortRep 0)
      (withArgs 1 0 0 (withBlock (bytesOf "aab") (withLane0 (laneAt 0x7FFC0000 0x80000000 0x30 0 0) lab)))
    (lane0 t).rc.low = 0xDFFC0000 ∧ (lane0 t).rc.range = 0x08000000 ∧ (lane0 t).st = 9 := by decide +kernel

/-- SYM-10. -/
theorem test_encShortRep_faults :
    (after (.encShortRep 0) (withBlock (bytesOf "aab") coding)).status.code = .invalidParameter := by decide +kernel

/-- The number a coder stands for after the symbols, by Safety.lean's lists of decisions alone. -/
def codedBy (d : Memory) : Lane → CodedNumber × (Nat → Nat) → List (Nat × Symbol) → CodedNumber
  | _, c, [] => c.1
  | l, c, (p, y) :: rest =>
    let reps := y.repsAfter l.reps.list
    codedBy d
      { l with
        st := Fin.ofNat 12 (y.stateAfter l.st.val)
        reps := ⟨reps.getD 0 0, reps.getD 1 0, reps.getD 2 0, reps.getD 3 0⟩ }
      (decided c (symbolBits d 0 l p y)) rest

/-- As `codedBy`, from `codingLane` and for a block of these bytes. -/
def codedFrom (data : String) (ys : List (Nat × Symbol)) : CodedNumber :=
  codedBy (withBlock (bytesOf data) lab).dict codingLane (.ofLane codingLane, fun _ => 1024) ys

/-- SYM-3: literals, a match, rep 0; the payload is the number (R152). -/
theorem test_symbolBits_match_and_rep :
    (codedFrom "abcabcabc" [(0, .lit), (1, .lit), (2, .lit), (3, .mtch 3 2), (6, .rep 3 0)]).value
      = 0x00309888A451533E3000 := by decide +kernel

/-- SYM-4 and SYM-5: a short rep, matched literals, rep 1. -/
theorem test_symbolBits_matched_literals :
    (codedFrom "aab" [(0, .lit), (1, .shortRep), (2, .lit)]).value = 0x0030E184000000
      ∧ (codedFrom "xyzxyQxyzxyz"
          [(0, .lit), (1, .lit), (2, .lit), (3, .mtch 2 2), (5, .lit), (6, .mtch 3 5), (9, .rep 3 1)]).value
        = 0x003C1E4BB775E4F88D44598000 := by decide +kernel

/-- R215's samples, and SYM-7's distance: slot 19, direct bits 15 in 4 bits, align value 1. -/
theorem test_distBits :
    [0, 1, 2, 3, 4, 5, 6, 7, 8, 11, 12, 127, 128, 1009, 2 ^ 30 - 1].map slotOf
        = [0, 1, 2, 3, 4, 4, 5, 5, 6, 6, 7, 13, 14, 19, 59]
      ∧ distBits 1009 40 = treeBits (432 + 64 * 3) 6 19 ++ directBits 15 4 ++ treeRevBits 802 4 1 := by decide +kernel

/-- SYM-8. -/
theorem test_encSnapshot : (lane0 (after (.encSnapshot 0) coding)).statusWord = 0x000203F0 := by decide +kernel

/-- SYM-8: `STATE` and the words come back, the coder stays. -/
theorem test_encRollback :
    let l := { laneAt 0x7FFC0000 0x80000000 0 4 9 with prob := [(0, 1056)], snapValid := true }
    let t := after (.encRollback 0) (withLane0 l lab)
    (lane0 t).st = 0 ∧ probs t [0] = [1024] ∧ (lane0 t).rc = l.rc := by decide +kernel

/-- SYM-10. -/
theorem test_encRollback_faults : (after (.encRollback 0) lab).statusWord = 0x00000904 := by decide +kernel

/-- CTRL-3 steps 2 and 3. -/
theorem test_probRead :
    results (after (.probRead 0) (withArgs 7989 0 0 coding)) = (1024, 0, 0)
      ∧ (after (.probRead 0) (withArgs 7990 0 0 coding)).statusWord = 0x00000304 := by decide +kernel

/-- CTRL-3 steps 4 to 7. -/
theorem test_probWrite :
    probs (after (.probWrite 0) (withArgs 0 2017 0 coding)) [0] = [2017]
      ∧ (after (.probWrite 0) (withArgs 0 2018 0 coding)).status.code = .invalidParameter
      ∧ (after (.probWrite 0) (withArgs 0 30 0 coding)).status.code = .invalidParameter
      ∧ probs (after (.probWrite 0) (withArgs 0 31 0 coding)) [0] = [31] := by decide +kernel

/-- CHUNK-1. -/
theorem test_sliceBegin :
    (lane0 (after (.sliceBegin 0 true)
      (withBlock (List.replicate 120 0x41) (withLane0 { Lane.reset with sliceEnd := 120 } lab)))).statusWord
      = 0x00120330 := by decide +kernel

/-- CHUNK-6, FAULT-22. -/
theorem test_sliceBegin_faults :
    (after (.sliceBegin 0 false) run16).status.code = .invalidParameter
      ∧ (after (.sliceBegin 0 true) (streaming false run16)).status.code = .sequenceError := by decide +kernel

/-- R285 and R287 on a short run: a level-3 chunk of 16 positions (the header of R280, the properties of SRC-1), and the
lane closed. -/
theorem test_encChunk :
    (outBytes (after (.encChunk 0) run16) 6) = [0xE0, 0x00, 0x0F, 0x00, (after (.encChunk 0) run16).outPos.toNat - 7, 0x5D]
      ∧ (lane0 (after (.encChunk 0) run16)).pos = 16 ∧ (lane0 (after (.encChunk 0) run16)).sliceOpen = false := by
  decide +kernel

/-- PARSE-2's input: the chunk is stored (R286, R288), and the lane is rolled back. -/
theorem test_encChunk_stored :
    let s := withTable 42
      [.null, .entry 0 7, .entry 1 6, .entry 2 5, .entry 3 4, .entry 4 3, .entry 5 2, .null]
      (withBlock (bytesOf "aaaaaaaa") (withLane0 { Lane.reset with sliceEnd := 8, sliceOpen := true } lab))
    outBytes (after (.encChunk 0) s) 11 = [0x01, 0x00, 0x07, 0x61, 0x61, 0x61, 0x61, 0x61, 0x61, 0x61, 0x61]
      ∧ (lane0 (after (.encChunk 0) s)).statusWord = 0x000203E0 ∧ results (after (.encChunk 0) s) = (11, 8, 1) := by
  decide +kernel

/-- STREAM-2's slice. -/
theorem test_encSlice :
    let s := withTable 42 [.null] (withBlock (bytesOf "A") (withLane0 { Lane.reset with sliceEnd := 1 } lab))
    outBytes (after (.encSlice 0 true) s) 4 = [0x01, 0x00, 0x00, 0x41] ∧ results (after (.encSlice 0 true) s) = (4, 1, 1) := by
  decide +kernel

/-- STREAM-14 with two lanes: `"ab"` on lanes 0 and 1. -/
theorem test_encBlock :
    let s := withTable 42 [.null, .null] (withBlock (bytesOf "ab") { lab with cfg := { lab.cfg with nActive := 2 } })
    outBytes (after .encBlock s) 8 = [0x01, 0x00, 0x00, 0x61, 0x02, 0x00, 0x00, 0x62]
      ∧ results (after .encBlock s) = (8, 2, 2) := by decide +kernel

/-- CHUNK-8, FAULT-14. -/
theorem test_encBlock_ends :
    results (after .encBlock lab) = (0, 0, 0) ∧ (after .encBlock lab).statusWord = 0x00000002
      ∧ (after .encBlock { lab with cfg := { lab.cfg with nActive := 3 } }).status.code = .invalidParameter := by decide +kernel

/-- STREAM-1, STREAM-5: property bytes. -/
theorem test_streamBegin :
    outBytes (after .streamBegin lab) 1 = [0x10] ∧ (after .streamBegin lab).stream.stateWord = 3
      ∧ outBytes (after .streamBegin { lab with cfg := { lab.cfg with streamOpts := 1 } }) 1 = [0x90] := by decide +kernel

/-- STREAM-16. -/
theorem test_dictClass :
    [4096, 4097, 2 ^ 20, 3 * 2 ^ 20, 2 ^ 30].map dictClass = [0x00, 0x01, 0x10, 0x13, 0x24] := by decide +kernel

/-- R311: the terminator; FAULT-23. -/
theorem test_streamEnd :
    results (after .streamEnd (streaming false lab)) = (1, 0, 0)
      ∧ (after .streamEnd (streaming false lab)).stream.isOpen = false
      ∧ (after .streamEnd lab).statusWord = 0x00000904 := by decide +kernel

/-- CTRL-2: the lane and the table after `CLEAR`. -/
theorem test_clear :
    (lane0 (after .clear (withLane0 (laneAt 5 6 7 8 9) mf1))).statusWord = 0x00020330
      ∧ (after .clear mf1).statusWord = 0x00010002 ∧ (after .clear mf1).dict = mf1.dict := by decide +kernel

/-! ## Host accesses and the step -/

/-- CTRL-4. -/
theorem test_irq :
    let s := { lab with control := { cancel := false, irqEn := true } }
    s.irq = false ∧ (stepped (s.withFetchWord 32 0)).irq = true ∧ (stepped (s.withFetchWord 32 8)).statusWord = 0x00000804 := by
  decide +kernel

/-- MEM-1. -/
theorem test_dict_byte_order :
    let s := lab.hostWrite .dict 0 .word 0x64636261
    s.hostRead .dict 0 .byte = 0x61 ∧ s.hostRead .dict 2 .half = 0x6463 ∧ s.hostRead .dict 0 .word = 0x64636261 := by
  decide +kernel

/-- MEM-2. -/
theorem test_refused_accesses :
    lab.hostRead .dict 4094 .word = 0 ∧ lab.hostRead .reg 0 .half = 0 ∧ lab.hostRead .reg 0 .word = 0x324D5A4C
      ∧ lab.hostWrite .reg 4 .byte 0x10 = lab := by decide +kernel

/-- MEM-3. -/
theorem test_reserved_bits :
    (lab.hostWrite .reg 0x068 .word 0xFFFFFFFF).hostRead .reg 0x068 .word = 0x000000F1
      ∧ (lab.hostWrite .reg 0x038 .word 0xFFFFFFFF).hostRead .reg 0x038 .word = 0x00000FFF
      ∧ lab.hostRead .reg 0x09C .word = 0 := by decide +kernel

/-- MEM-4. -/
theorem test_dict_write_invalidates :
    (mf1.hostWrite .dict 9 .byte 0x61).table.valid = true ∧ (mf1.hostWrite .dict 8 .byte 0x63).table.valid = false := by
  decide +kernel

/-- CTRL-6: a busy write is dropped. -/
theorem test_busy_write :
    let s := { created with pending := some 0x11 }
    (s.hostWrite .reg 0x064 .word 5).cfg.blkEnd = 0 ∧ (s.hostWrite .reg 0x064 .word 5).status.rejected = true
      ∧ (s.hostWrite .reg 0x00C .word 2).control.irqEn = true := by decide +kernel

/-- R91, R112, R356: while a command runs, `RES0` reads what it read before; after a fault it reads 0. -/
theorem test_results_while_busy :
    let s := { lab with res := { res0 := 7, res1 := 8, res2 := 9 } }
    let t := s.hostWrite .reg 0x004 .word 0x11
    t.res = { res0 := 0, res1 := 0, res2 := 0 }
      ∧ [0x024, 0x028, 0x02C].map (fun a => (t.hostRead .reg a .word).toNat) = [7, 8, 9]
      ∧ ((stepped t).hostRead .reg 0x024 .word = 0 ∧ (stepped t).status.err = true) := by decide +kernel

/-- CTRL-5, CANCEL-1: a cancel request, idle and busy, and the cancelled outcome. -/
theorem test_cancel :
    (lab.hostWrite .reg 0x00C .word 1).controlWord = 0
      ∧ ({ lab with pending := some 0x11 }.hostWrite .reg 0x00C .word 1).controlWord = 1
      ∧ created.cancelCommit.statusWord = 0x00010408 := by decide +kernel

/-- The word that `withFetchWord` places is the one the next step runs, from reset. -/
theorem test_withFetchWord :
    (stepped (State.reset.withFetchWord 32 0x10)).statusWord = 0x00010002
      ∧ (stepped (State.reset.withFetchWord 32 0x00010007)).res.res0 = 1 := by decide +kernel

/-! ## Witnesses: states and operands that meet the hypotheses of the statements -/

theorem witness_DecodeOfEncode :
    (Instr.rcTree 15 31).WellFormed ∧ (Instr.rcTreeRev 0 0).WellFormed ∧ (Instr.rcDirect 15 63).WellFormed
      ∧ (Instr.encRep 15 3).WellFormed ∧ (Instr.encSlice 15 true).WellFormed ∧ Instr.nop.WellFormed := by decide

theorem witness_EncodeOfDecode :
    decode 0x001F0F03 = .ok (.rcTree 15 31) ∧ decode 0x003F0F05 = .ok (.rcDirect 15 63)
      ∧ decode 0x00001F32 = .ok (.encSlice 15 true) ∧ decode 0x00000050 = .ok .clear := by decide

theorem witness_InterruptLine : lab.inReset = false := rfl

theorem witness_NopAndClearResult : (0x00000100 : Word) &&& 0xFF = 0 ∧ (0x00000100 : Word) ≠ 0 := by decide

theorem witness_CommandIssue :
    let s := { lab with res := { res0 := 7, res1 := 8, res2 := 9 } }
    s.inReset = false ∧ s.busy = false ∧ ¬ (Space.reg = .reg ∧ 0x004 = 0x008) ∧ ¬ (Space.dict = .reg ∧ 0x008 = 0x008) := by
  decide +kernel

/-- A pending `MF_CREATE`, with no input and with the sequencer's turn next. -/
theorem witness_StepRunsCommand :
    decode 0x10 = .ok .mfCreate
      ∧ { lab with pending := some 0x10 }.pending = some 0x10 ∧ { lab with pending := some 0x10 }.inputs = []
      ∧ { lab with pending := some 0x10, inputs := [.sequencer] }.inputs = .sequencer :: [] := by decide +kernel

theorem witness_IllegalWordFaults :
    let s := { lab with pending := some 0x00000107 }
    s.pending = some 0x00000107 ∧ s.inputs = [] ∧ legalWord 0x00000107 = false := by decide +kernel

/-- A command that completes, one that faults, and one with a cancel request up. -/
theorem witness_CompletionKinds :
    (∃ t, step { lab with pending := some 0x10 } = .next t) ∧ (∃ t, step { lab with pending := some 0x11 } = .next t)
      ∧ ∃ t, step { lab with pending := some 0x00, control := { cancel := true, irqEn := false } } = .next t :=
  ⟨⟨_, rfl⟩, ⟨_, rfl⟩, ⟨_, rfl⟩⟩

/-- A command without cancellation points; start checks that fail; an empty block; a chunk and a block, with a request up,
that pass their start checks. -/
theorem witness_CancelIsAllOrNothing :
    let up := { cancel := true, irqEn := false : Control }
    ((Instr.rcBit 0 true).canCancel = false ∧ Instr.mfBuild.canCancel = true)
      ∧ (startFault .mfBuild lab).isSome ∧ lab.cfg.blkStart = lab.cfg.blkEnd
      ∧ ((Instr.encChunk 0).canCancel = true ∧ startFault (.encChunk 0) { run16 with control := up } = none)
      ∧ (Instr.encBlock.canCancel = true ∧ startFault .encBlock { run16 with control := up } = none
        ∧ run16.cfg.blkStart ≠ run16.cfg.blkEnd) ∧ { run16 with control := up }.control.cancel = true := by
  decide +kernel

theorem witness_CommandsKeepHostState : (∃ t, exec (.probRead 0) coding = .next t) ∧ ∃ t, exec .clear mf1 = .next t :=
  ⟨⟨_, rfl⟩, ⟨_, rfl⟩⟩

/-- A command without a lane, and one on lane 0 beside lane 1. -/
theorem witness_CommandsKeepOtherUnits :
    coding.control.cancel = false ∧ (∃ t, exec (.probWrite 0) (withArgs 0 31 0 coding) = .next t)
      ∧ (Instr.probWrite 0).lane? = some 0 ∧ 1 < coding.lanes.length
      ∧ (∃ t, exec .mfCreate coding = .next t) ∧ Instr.mfCreate.lane? = none :=
  ⟨rfl, ⟨_, rfl⟩, rfl, by decide, ⟨_, rfl⟩, rfl⟩

/-- `RC_FLUSH` from a window that starts at 0, and the bytes before its start, at its end, and before `OUT_POS`. -/
theorem witness_OutWrittenInWindow :
    (∃ t, exec (.rcFlush 0) coding = .next t) ∧ (Instr.rcFlush 0).outWindow coding = (0, 64)
      ∧ (∃ t, exec .streamBegin { lab with outPos := 5 } = .next t)
      ∧ Instr.streamBegin.outWindow { lab with outPos := 5 } = (5, 4096) :=
  ⟨⟨_, rfl⟩, by decide +kernel, ⟨_, rfl⟩, by decide +kernel⟩

theorem witness_OutNeverRead :
    (∃ t, exec .streamBegin { lab with out := [(7, 7)] } = .next t)
      ∧ Memory.wf [(7, (7 : Byte))] = true ∧ Memory.wf [(0, (5 : Byte)), (9, 1)] = true :=
  ⟨⟨_, rfl⟩, by decide, by decide⟩

/-- Two states that differ in `Prob`, `SNAP`, `STAGE` and the slots while nothing of them is valid. -/
theorem witness_UndefinedNeverRead :
    let a := { lab with lanes := [Lane.reset] }
    let b := { lab with
      lanes := [{ Lane.reset with prob := [(3, 77)], snap := { Snapshot.reset with st := 5 }, stage := [1] }]
      table := { lab.table with storage := .packed [5] } }
    a.definedPart = b.definedPart ∧ a ≠ b := by decide +kernel

/-- A busy block, and writes to `CMD`, to the register after `CONTROL`, to the last word of `REG`, to the last byte of
`DICT` and to `OUT`; refused accesses. -/
theorem witness_BusyWritesRejected :
    let s := { lab with pending := some 0x11 }
    s.inReset = false ∧ s.busy = true ∧ s.performed .reg 0x004 .word = true ∧ s.performed .reg 0x010 .word = true
      ∧ s.performed .reg 0xFFC .word = true ∧ s.performed .dict 4095 .byte = true ∧ s.performed .out 0 .half = true
      ∧ ¬ (Space.dict = .reg ∧ (4095 = 0x008 ∨ 4095 = 0x00C))
      ∧ s.performed .dict 4096 .byte = false ∧ s.performed .reg 0x004 .half = false ∧ Space.out ≠ .reg
      ∧ 0x020 ∉ [0x008, 0x024, 0x028, 0x02C] ∧ 0x030 ∉ [0x008, 0x024, 0x028, 0x02C] := by
  decide +kernel

/-- A misaligned half, a word and a byte past the end, a half of a register. -/
theorem witness_RefusedAccesses :
    1 % AccessSize.half.bytes ≠ 0 ∧ lab.spaceSize .dict < 4096 + AccessSize.byte.bytes
      ∧ lab.spaceSize .out < 4096 + AccessSize.word.bytes ∧ (Space.reg = .reg ∧ AccessSize.half ≠ .word) := by
  decide +kernel

/-- The last byte below `TABLE_END`, and the first at it. -/
theorem witness_DictWriteInvalidates :
    mf1.inReset = false ∧ mf1.busy = false ∧ mf1.performed .dict 8 .byte = true ∧ mf1.performed .dict 9 .byte = true
      ∧ (∃ i, 8 ≤ i ∧ i < 8 + AccessSize.byte.bytes ∧ i < mf1.table.fin.toNat)
      ∧ (∀ i, 9 ≤ i → i < 9 + AccessSize.byte.bytes → mf1.table.fin.toNat ≤ i) :=
  ⟨by decide, by decide, by decide +kernel, by decide +kernel, ⟨8, by decide +kernel⟩,
    fun i h _ => Nat.le_trans (by decide +kernel) h⟩

theorem witness_MemoryReadsBack :
    mf1.MemoryOk ∧ mf1.inReset = false ∧ mf1.busy = false ∧ mf1.performed .dict 4092 .word = true
      ∧ mf1.performed .out 4095 .byte = true := by decide +kernel

/-- An idle block with sixteen lanes; the reserved ranges at their ends. -/
theorem witness_RegisterWritesReadBack :
    let s := State.resetWith 16 labParams
    s.inReset = false ∧ s.busy = false ∧ s.nLanes ≤ 16 ∧ 15 < s.nLanes
      ∧ ((0x9C ≤ 0xE8 ∧ 0xE8 < 0xEC) ∨ 0x100 + 0x40 * s.nLanes ≤ 0xE8)
      ∧ ((0x9C ≤ 0x500 ∧ 0x500 < 0xEC) ∨ 0x100 + 0x40 * s.nLanes ≤ 0x500) := by decide +kernel

theorem witness_ReadsChangeNothing :
    { lab with inputs := [.read .reg 0x008 .word] }.inputs = .read .reg 0x008 .word :: [] := rfl

theorem witness_StatusAndControlWrites : lab.inReset = false := rfl

theorem witness_ResetValues : (1 ≤ 1 ∧ 1 ≤ 16) ∧ (1 ≤ 16 ∧ 16 ≤ 16) := by decide

theorem witness_ResetAbandons :
    { lab with inputs := [.assertReset] }.inputs = .assertReset :: []
      ∧ { lab with inReset := true }.inReset = true
      ∧ { lab with inputs := [.releaseReset] }.inputs = .releaseReset :: [] := by decide +kernel

theorem witness_MemoryOkKept : mf1.MemoryOk ∧ ∃ t, step mf1 = .next t := ⟨by decide +kernel, _, rfl⟩

theorem witness_HealthyNeverStops :
    run16.Healthy ∧ (withLane0 (laneAt 0x1FEFFFFFF 0x01000000 0xFE 11 0) lab).Healthy := by decide +kernel

/-! ### A table under its contract -/

theorem slotContract_null {mode : MfMode} {d : List Byte} {c p : Nat} {x : Slot} (hx : x = .null)
    (h : ∀ q < p, ¬ Agrees d p q 2) : SlotContract mode d c p x := hx ▸ h

theorem slotContract_entry {mode : MfMode} {d : List Byte} {c p : Nat} {x : Slot} (link len : Nat)
    (hx : x = .entry link len)
    (h : link < p ∧ 2 ≤ len ∧ len ≤ c ∧ Agrees d p link len ∧ (∀ q < p, ∀ k, k ≤ c → Agrees d p q k → k ≤ len)
      ∧ (mode = .canonical → ∀ q < p, link < q → ¬ Agrees d p q len)) : SlotContract mode d c p x := hx ▸ h

/-- MF-1 with the cap 6, which slot 3 reaches. -/
def mf1Capped : State := withTable 6
  [.null, .null, .null, .entry 0 6, .entry 1 5, .entry 2 4, .entry 3 3, .entry 4 2, .null]
  (withBlock (bytesOf "abcabcabc") lab)

theorem mf1Capped_contract : mf1Capped.TableContract := by
  refine ⟨by decide +kernel, fun _ => ⟨by decide +kernel, by decide +kernel, by decide +kernel, by decide +kernel,
    by decide +kernel, fun p hp => ?_⟩⟩
  have hp9 : p < 9 := hp
  match p, hp9 with
  | 0, _ => exact slotContract_null (by decide +kernel) (by decide +kernel)
  | 1, _ => exact slotContract_null (by decide +kernel) (by decide +kernel)
  | 2, _ => exact slotContract_null (by decide +kernel) (by decide +kernel)
  | 3, _ => exact slotContract_entry 0 6 (by decide +kernel) (by decide +kernel)
  | 4, _ => exact slotContract_entry 1 5 (by decide +kernel) (by decide +kernel)
  | 5, _ => exact slotContract_entry 2 4 (by decide +kernel) (by decide +kernel)
  | 6, _ => exact slotContract_entry 3 3 (by decide +kernel) (by decide +kernel)
  | 7, _ => exact slotContract_entry 4 2 (by decide +kernel) (by decide +kernel)
  | 8, _ => exact slotContract_null (by decide +kernel) (by decide +kernel)
  | n + 9, h => exact absurd h (by omega)

theorem witness_TableContractKept : mf1Capped.TableContract ∧ ∃ t, step mf1Capped = .next t :=
  ⟨mf1Capped_contract, _, rfl⟩

theorem witness_RegistersOkKept :
    run16.RegistersOk ∧ (∃ t, step run16 = .next t)
      ∧ { lab with pending := some 0x11, control := { cancel := true, irqEn := false } }.RegistersOk :=
  ⟨by decide +kernel, ⟨_, rfl⟩, by decide +kernel⟩

/-- The last index of the probability memory and the first past it; the ends of the values; an uninitialised lane. -/
theorem witness_ProbAccess :
    coding.MemoryOk ∧ coding.lanes[0]? = some codingLane ∧ codingLane.init = true
      ∧ (withArgs 7989 31 0 coding).args.arg0.toNat < 1846 + 768 * 2 ^ (codingLane.lc.toNat + codingLane.lp.toNat)
      ∧ ¬ (withArgs 7990 0 0 coding).args.arg0.toNat < 1846 + 768 * 2 ^ (codingLane.lc.toNat + codingLane.lp.toNat)
      ∧ 31 ≤ (withArgs 0 31 0 coding).args.arg1.toNat ∧ (withArgs 0 2017 0 coding).args.arg1.toNat ≤ 2017
      ∧ (withArgs 0 30 0 coding).args.arg1.toNat < 31 ∧ 2017 < (withArgs 0 2018 0 coding).args.arg1.toNat
      ∧ lab.MemoryOk ∧ lab.lanes[0]? = some Lane.reset ∧ Lane.reset.init = false ∧ lab.nLanes ≤ 2 := by decide +kernel

/-- A window that ends at `OUT_CAP` and is full; no such lane; windows one too long. -/
theorem witness_RcResetResult :
    let full := { Lane.reset with outBase := 4032, outCap := 64, outLen := 64 }
    let far := { Lane.reset with outBase := 4033, outCap := 64 }
    let tooLong := { Lane.reset with outCap := 64, outLen := 65 }
    ((withLane0 full lab).lanes[0]? = some full ∧ full.outLen.toNat ≤ full.outCap.toNat
        ∧ full.outBase.toNat + full.outCap.toNat ≤ (withLane0 full lab).params.outCap.toNat)
      ∧ (withLane0 full lab).nLanes ≤ 2
      ∧ (withLane0 far lab).lanes[0]? = some far ∧ lab.params.outCap.toNat < far.outBase.toNat + far.outCap.toNat
      ∧ (withLane0 tooLong lab).lanes[0]? = some tooLong ∧ tooLong.outCap.toNat < tooLong.outLen.toNat := by decide +kernel

/-- `RC_FLUSH` with an unbounded sink emits five bytes: a window of five takes them, one of four does not; and an
operation that halts. -/
theorem witness_WindowOverrun :
    (∃ e, flush { lane := codingLane, rev := [], room := none } = .ok e ∧ e.rev.length ≤ 5 ∧ 4 < e.rev.length)
      ∧ ∃ h, flush { lane := { codingLane with rc := { Rc.reset with cacheSize := 0 } }, rev := [], room := none }
        = .error h :=
  ⟨⟨_, rfl, by decide +kernel, by decide +kernel⟩, _, rfl⟩

/-- A healthy lane with the least room, at the first and the last probability word, and at the first index past them; an
uninitialised lane; windows one too long. -/
theorem witness_RcBitResult :
    let l := { codingLane with outCap := 2 }
    let s := withLane0 l lab
    (s.MemoryOk ∧ s.lanes[0]? = some l ∧ l.Ready s 1 ∧ l.init = true ∧ s.args.arg0.toNat < l.probWords
      ∧ (withArgs 7989 0 0 s).args.arg0.toNat < l.probWords)
      ∧ s.windowLegal l = true ∧ 1846 + 768 * 2 ^ (l.lc.toNat + l.lp.toNat) ≤ (withArgs 7990 0 0 s).args.arg0.toNat
      ∧ lab.lanes[0]? = some Lane.reset ∧ lab.windowLegal Lane.reset = true ∧ Lane.reset.init = false := by decide +kernel

/-- `CodingStartFaults` and `WindowStartFaults`: no such lane, a window one byte too long, one byte past `OUT_CAP`. -/
theorem witness_WindowStartFaults :
    let far := { Lane.reset with outBase := 4033, outCap := 64 }
    let tooLong := { Lane.reset with outCap := 64, outLen := 65 }
    lab.lanes.length ≤ 2
      ∧ (withLane0 far lab).lanes[0]? = some far ∧ lab.params.outCap.toNat < far.outBase.toNat + far.outCap.toNat
      ∧ (withLane0 tooLong lab).lanes[0]? = some tooLong ∧ tooLong.outCap.toNat < tooLong.outLen.toNat := by decide +kernel

/-- One bit and, with the largest probability memory, thirteen; and a tree that ends one word past it. -/
theorem witness_RcTreeResult :
    let l := { codingLane with lc := (4 : BitVec 3), outCap := 17 }
    let s := withLane0 l lab
    (s.MemoryOk ∧ s.lanes[0]? = some l ∧ l.Ready s 16 ∧ l.init = true
      ∧ s.args.arg0.toNat + 2 ^ 1 - 1 < l.probWords ∧ (withArgs 5942 0x1FFF 0 s).args.arg0.toNat + 2 ^ 13 - 1 < l.probWords)
      ∧ s.windowLegal l = true
      ∧ 1846 + 768 * 2 ^ (l.lc.toNat + l.lp.toNat) ≤ (withArgs 5943 0 0 s).args.arg0.toNat + 2 ^ 13 - 1 := by
  decide +kernel

/-- The worked values of R149 (the literal tree of 'A') and R147 (`1011` in four direct bits) in exact numbers. -/
theorem test_codedNumber_examples :
    let start := CodedNumber.ofLane codingLane
    let tree := (List.range 8).foldl (fun c d => c.bit 1024 ((0x41).testBit (7 - d))) start
    let direct := (List.range 4).foldl (fun c d => c.half ((0xB).testBit (3 - d))) start
    (tree.range, tree.value, tree.shifts) = (0x01000000, 0x40FFFC00, 0)
      ∧ (direct.range, direct.value, direct.shifts) = (0x0FFFFFFF, 0xAFFFFFFD, 0) := by decide +kernel

theorem witness_RcDirectResult :
    let l := { codingLane with outCap := 5 }
    let s := withLane0 l lab
    s.MemoryOk ∧ s.lanes[0]? = some l ∧ l.Ready s 4 ∧ (1 ≤ 1 ∧ 1 ≤ 32) ∧ (1 ≤ 32 ∧ 32 ≤ 32)
      ∧ s.windowLegal l = true ∧ (0 = 0 ∨ 32 < 0) ∧ (33 = 0 ∨ 32 < 33) := by decide +kernel

/-- Exactly the bytes that the flush needs, and one fewer. -/
theorem witness_RcFlushResult :
    let l := { codingLane with outCap := 5 }
    let k := { codingLane with outCap := 4 }
    ((withLane0 l lab).MemoryOk ∧ (withLane0 l lab).lanes[0]? = some l ∧ l.rc.Healthy
        ∧ (withLane0 l lab).windowLegal l = true ∧ l.outLen.toNat + l.rc.cacheSize.toNat + 4 ≤ l.outCap.toNat)
      ∧ (withLane0 k lab).lanes[0]? = some k ∧ (withLane0 k lab).windowLegal k = true
      ∧ k.outCap.toNat < k.outLen.toNat + k.rc.cacheSize.toNat + 4 ∧ k.rc.cacheSize.toNat + 4 < 2 ^ 32 := by
  decide +kernel

theorem witness_RcPriceResult :
    (withArgs 0 0 0 lab).args.arg0.toNat ≤ 2047 ∧ (withArgs 2047 0 0 lab).args.arg0.toNat ≤ 2047
      ∧ 2047 < (withArgs 2048 0 0 lab).args.arg0.toNat := by decide +kernel

/-- `DICT_SIZE` at both ends of each form, on both sides of its bounds, and a table that does not fit. -/
theorem witness_MfCreateResult :
    (4 * 4096 ≤ labParams.tableCap.toNat ∧ 4 * 2 ^ 26 ≤ labParams.tableCap.toNat
        ∧ 20 * ((2 ^ 26 + 1 + 3) / 4) ≤ labParams.tableCap.toNat)
      ∧ { lab with cfg := { lab.cfg with dictSize := 4096 } }.cfg.dictSize.toNat = 4096
      ∧ { lab with cfg := { lab.cfg with dictSize := 0x04000001 } }.cfg.dictSize.toNat = 2 ^ 26 + 1
      ∧ { lab with cfg := { lab.cfg with dictSize := 4095 } }.cfg.dictSize.toNat < 4096
      ∧ 2 ^ 30 < { lab with cfg := { lab.cfg with dictSize := 0x40000001 } }.cfg.dictSize.toNat
      ∧ labParams.tableCap.toNat < 20 * ((2 ^ 30 + 3) / 4) := by decide +kernel

/-- `DEPTH` and `BUF_RESIZE` at both ends, an empty block and one of nine bytes. -/
theorem witness_MfBuildResult :
    let lo := { withBlock [] created with cfg := { (withBlock [] created).cfg with mfParams := 0x006 } }
    let hi := { withBlock (bytesOf "abcabcabc") created with
      cfg := { (withBlock (bytesOf "abcabcabc") created).cfg with mfParams := 0x4FE } }
    (lo.TableContract ∧ lo.table.created = true ∧ 6 ≤ lo.cfg.depth ∧ lo.cfg.depth ≤ 254 ∧ lo.cfg.bufResize ≤ 4
        ∧ lo.cfg.blkStart.toNat ≤ lo.cfg.blkEnd.toNat ∧ lo.cfg.blkEnd.toNat ≤ lo.table.size.toNat
        ∧ lo.cfg.blkEnd.toNat ≤ lo.params.dictCap.toNat ∧ lo.control.cancel = false)
      ∧ hi.TableContract ∧ hi.table.created = true ∧ 6 ≤ hi.cfg.depth ∧ hi.cfg.depth ≤ 254 ∧ hi.cfg.bufResize ≤ 4
      ∧ hi.cfg.blkStart.toNat ≤ hi.cfg.blkEnd.toNat ∧ hi.cfg.blkEnd.toNat ≤ hi.table.size.toNat
      ∧ hi.cfg.blkEnd.toNat ≤ hi.params.dictCap.toNat ∧ hi.control.cancel = false :=
  ⟨⟨⟨by decide +kernel, fun h => absurd h (by decide +kernel)⟩, by decide +kernel⟩,
    ⟨by decide +kernel, fun h => absurd h (by decide +kernel)⟩, by decide +kernel⟩

/-- No table; `DEPTH` 5 and 255, `BUF_RESIZE` 5; a block that ends before its start, past the table, past `DICT`. -/
theorem witness_MfBuildResult_faults :
    lab.table.created = false ∧ created.table.created = true
      ∧ (¬ 6 ≤ { created.cfg with mfParams := 0x205 }.depth ∧ ¬ { created.cfg with mfParams := 0x2FF }.depth ≤ 254
        ∧ ¬ { created.cfg with mfParams := 0x52A }.bufResize ≤ 4)
      ∧ (¬ { created.cfg with blkStart := 1 }.blkStart.toNat ≤ { created.cfg with blkStart := 1 }.blkEnd.toNat
        ∧ ¬ { created.cfg with blkEnd := 0x00100001 }.blkEnd.toNat ≤ created.table.size.toNat
        ∧ ¬ { created.cfg with blkEnd := 4097 }.blkEnd.toNat ≤ created.params.dictCap.toNat) := by decide +kernel

/-- A null slot, a slot that reached the cap, and one that did not. -/
theorem witness_MfGetMatchResult :
    mf1Capped.TableContract ∧ mf1Capped.table.valid = true
      ∧ (withArgs 8 0 0 mf1Capped).args.arg0.toNat < mf1Capped.table.fin.toNat
      ∧ mf1Capped.table.slot 8 = .null
      ∧ mf1Capped.table.slot 3 = .entry 0 6 ∧ 6 = mf1Capped.table.caplen.toNat
      ∧ mf1Capped.table.slot 4 = .entry 1 5 ∧ 5 ≠ mf1Capped.table.caplen.toNat :=
  ⟨mf1Capped_contract, by decide +kernel⟩

/-- Positions whose slots do and do not continue, at and past `TABLE_END`, and an invalid table. -/
theorem witness_MfOtherQueriesResult :
    mf1Capped.TableContract ∧ mf1Capped.table.valid = true
      ∧ (withArgs 4 0 0 mf1Capped).args.arg0.toNat < mf1Capped.table.fin.toNat
      ∧ (1 ≤ 4 ∧ mf1Capped.table.slot (4 - 1) = .entry 0 6 ∧ mf1Capped.table.slot 4 = .entry 1 5 ∧ 0 + 1 = 1)
      ∧ mf1Capped.table.slot 2 = .null ∧ mf1Capped.table.slot 3 = .entry 0 6
      ∧ mf1Capped.table.fin.toNat ≤ (withArgs 9 0 0 mf1Capped).args.arg0.toNat
      ∧ created.table.valid = false :=
  ⟨mf1Capped_contract, by decide +kernel⟩

theorem witness_MatchesAreValid :
    mf1Capped.TableContract ∧ mf1Capped.table.valid = true ∧ 7 < mf1Capped.table.fin.toNat
      ∧ mf1Capped.table.slot 7 = .entry 4 2 := ⟨mf1Capped_contract, by decide +kernel⟩

theorem witness_RadixBuildsCanonicalTable : 2 ≤ 2 ∧ 2 ≤ 254 := by decide

/-- `LC + LP = 4`, `PB = 4`; `LC + LP = 5`; `PB = 5`. -/
theorem witness_EncResetStateResult :
    lab.lanes[1]? = some Lane.reset
      ∧ ({ lab.cfg with lzProps := 0x413 }.lc + { lab.cfg with lzProps := 0x413 }.lp ≤ 4
        ∧ { lab.cfg with lzProps := 0x413 }.pb ≤ 4)
      ∧ 4 < { lab.cfg with lzProps := 0x223 }.lc + { lab.cfg with lzProps := 0x223 }.lp
      ∧ 4 < { lab.cfg with lzProps := 0x503 }.pb ∧ lab.nLanes ≤ 2 := by decide +kernel

theorem witness_SnapshotAndRollback :
    coding.lanes[0]? = some codingLane ∧ codingLane.init = true ∧ codingLane.snapValid = false
      ∧ lab.lanes[0]? = some Lane.reset ∧ Lane.reset.init = false ∧ Lane.reset.snapValid = false
      ∧ (withLane0 { codingLane with snapValid := true } lab).lanes[0]? = some { codingLane with snapValid := true }
      ∧ lab.nLanes ≤ 2 := by decide +kernel

/-- The last position of the block, after a match whose distance just fits, with the least room. -/
theorem witness_EncLiteralResult :
    let l := { laneAt 0x90774EA0 0x2672F160 0x88 7 1 with outCap := 10 }
    let s := withArgs 2 0 0 (withBlock (bytesOf "aab") (withLane0 l lab))
    s.MemoryOk ∧ s.lanes[0]? = some l ∧ l.Ready s 9 ∧ l.init = true
      ∧ s.cfg.blkEnd.toNat ≤ s.params.dictCap.toNat ∧ s.args.arg0.toNat < s.cfg.blkEnd.toNat
      ∧ (7 ≤ l.st.val → l.reps.rep0.toNat < s.args.arg0.toNat) := by decide +kernel

/-- The shortest match with the largest distance at its position, and the longest, both up to `BLK_END`. -/
theorem witness_EncMatchResult :
    let l := { codingLane with outCap := 27 }
    let s := withArgs 3 2 2 (withBlock (bytesOf "abXab") (withLane0 l lab))
    let m := withArgs 1 273 0 (withBlock (List.replicate 274 0x41) (withLane0 l lab))
    (s.MemoryOk ∧ s.lanes[0]? = some l ∧ l.Ready s 26 ∧ l.init = true
        ∧ s.cfg.blkEnd.toNat ≤ s.params.dictCap.toNat ∧ 2 ≤ s.args.arg1.toNat ∧ s.args.arg1.toNat ≤ 273
        ∧ s.args.arg0.toNat + s.args.arg1.toNat ≤ s.cfg.blkEnd.toNat ∧ s.args.arg2.toNat < s.args.arg0.toNat)
      ∧ m.MemoryOk ∧ m.lanes[0]? = some l ∧ l.Ready m 26 ∧ 2 ≤ m.args.arg1.toNat ∧ m.args.arg1.toNat ≤ 273
      ∧ m.args.arg0.toNat + m.args.arg1.toNat ≤ m.cfg.blkEnd.toNat ∧ m.args.arg2.toNat < m.args.arg0.toNat := by
  decide +kernel

/-- `r = 3` and `r = 0` at the end of the block, and a short rep at its last position. -/
theorem witness_EncRepResult :
    let l := { codingLane with reps := ⟨2, 0, 0, 2⟩, outCap := 17 }
    let s := withArgs 3 2 0 (withBlock (bytesOf "abXab") (withLane0 l lab))
    (s.MemoryOk ∧ s.lanes[0]? = some l ∧ l.Ready s 16 ∧ l.init = true
        ∧ s.cfg.blkEnd.toNat ≤ s.params.dictCap.toNat ∧ 2 ≤ s.args.arg1.toNat ∧ s.args.arg1.toNat ≤ 273
        ∧ s.args.arg0.toNat + s.args.arg1.toNat ≤ s.cfg.blkEnd.toNat ∧ 3 < 4
        ∧ (l.reps.get 3).toNat < s.args.arg0.toNat ∧ 0 < 4 ∧ (l.reps.get 0).toNat < s.args.arg0.toNat)
      ∧ (withArgs 4 0 0 s).args.arg0.toNat < s.cfg.blkEnd.toNat
      ∧ l.reps.rep0.toNat < (withArgs 4 0 0 s).args.arg0.toNat := by decide +kernel

/-- The symbol commands at each check of R228: no such lane, a malformed window, `INIT = 0`, `BLK_END` one past `DICT_CAP`,
and each operand at the first value that faults. -/
theorem witness_StartChecksFault_symbols :
    let l := { laneAt 0 0xFFFFFFFF 0 7 2 with reps := ⟨2, 2, 2, 2⟩ }
    let s := withBlock (bytesOf "abXab") (withLane0 l lab)
    let tooLong := { l with outLen := 65 }
    startFault (.encLiteral 2) s = some .invalidParameter
      ∧ startFault (.encMatch 0) (withLane0 tooLong s) = some .invalidParameter
      ∧ startFault (.encRep 1 0) s = some .sequenceError
      ∧ startFault (.encShortRep 0) { s with cfg := { s.cfg with blkEnd := 4097 } } = some .invalidParameter
      ∧ startFault (.encLiteral 0) (withArgs 5 0 0 s) = some .invalidParameter
      ∧ startFault (.encLiteral 0) (withArgs 2 0 0 s) = some .invalidParameter
      ∧ startFault (.encMatch 0) (withArgs 3 1 0 s) = some .invalidParameter
      ∧ startFault (.encMatch 0) (withArgs 1 274 0 s) = some .invalidParameter
      ∧ startFault (.encMatch 0) (withArgs 3 3 0 s) = some .invalidParameter
      ∧ startFault (.encMatch 0) (withArgs 3 2 3 s) = some .invalidParameter
      ∧ startFault (.encRep 0 3) (withArgs 2 2 0 s) = some .invalidParameter
      ∧ startFault (.encShortRep 0) (withArgs 2 0 0 s) = some .invalidParameter := by decide +kernel

/-- Of two failed checks the first gives the code (R353); and a healthy lane that passes its start checks and whose window
is full. -/
theorem witness_StartChecksFault :
    let full := { codingLane with outCap := 4 }
    startFault (.sliceBegin 2 true) (streaming true lab) = some .invalidParameter
      ∧ startFault (.sliceBegin 0 true) (streaming true lab) = some .sequenceError
      ∧ startFault (.rcTree 0 0) lab = some .sequenceError ∧ startFault (.rcTree 0 0) coding = some .invalidParameter
      ∧ (withLane0 full lab).Healthy ∧ startFault (.rcFlush 0) (withLane0 full lab) = none
      ∧ exec (.rcFlush 0) (withLane0 full lab)
        = .next ((withLane0 full lab).faultCommit (encode (.rcFlush 0)) .destinationTooSmall)
      ∧ Code.destinationTooSmall.isFault = true :=
  ⟨by decide +kernel, by decide +kernel, by decide +kernel, by decide +kernel, by decide +kernel, by decide +kernel, rfl, rfl⟩

/-- A literal, and the longest match at the largest distance. -/
theorem witness_SymbolGrowth :
    let e := { lane := codingLane, rev := [], room := none : Enc }
    let x := { dict := [], phase := 0 : SymCtx }
    e.lane.Healthy ∧ e.room = none ∧ (∃ e', encodeLiteral x 0 e = .ok e')
      ∧ 273 ≤ 273 ∧ 2 ^ 32 - 1 < 2 ^ 32 ∧ (∃ e', encodeMatch x 1 273 (2 ^ 32 - 1) e = .ok e')
      ∧ ProbMem.wf e.lane.prob = true ∧ (Symbol.mtch 273 (2 ^ 32 - 1)).Legal ∧ (Symbol.rep 2 3).Legal
      ∧ Symbol.lit.Legal ∧ Symbol.shortRep.Legal ∧ (∃ e', (Symbol.rep 2 3).code x 1 e = .ok e')
      ∧ (∃ e', Symbol.lit.code x 0 e = .ok e') ∧ ∃ e', Symbol.shortRep.code x 1 e = .ok e' :=
  ⟨by decide +kernel, rfl, ⟨_, rfl⟩, by decide, by decide, ⟨_, rfl⟩, by decide, ⟨by decide, by decide, by decide⟩,
    ⟨by decide, by decide, by decide⟩, trivial, trivial, ⟨_, rfl⟩, ⟨_, rfl⟩, ⟨_, rfl⟩⟩

/-- A slice of one position with the dictionary reset, one without, and an open stream; checks that fail. -/
theorem witness_SliceBeginResult :
    let l := { Lane.reset with sliceEnd := (1 : Word) }
    let k := { Lane.reset with sliceStart := (2 : Word), sliceEnd := 3 }
    let s := withBlock (bytesOf "abc") (withLane0 l lab)
    let u := withBlock (bytesOf "abc") (withLane0 k lab)
    (s.lanes[0]? = some l ∧ s.stream.isOpen = false ∧ s.cfg.blkStart.toNat ≤ s.cfg.blkEnd.toNat
        ∧ s.cfg.blkEnd.toNat ≤ s.params.dictCap.toNat ∧ (s.cfg.dictReset = true ↔ s.cfg.blkStart.toNat = 0)
        ∧ (s.cfg.dictReset = true → s.cfg.posPhase = 0) ∧ s.cfg.blkStart.toNat ≤ l.sliceStart.toNat
        ∧ l.sliceStart.toNat < l.sliceEnd.toNat ∧ l.sliceEnd.toNat ≤ s.cfg.blkEnd.toNat
        ∧ (true = true ↔ l.sliceStart.toNat = 0))
      ∧ (u.lanes[0]? = some k ∧ k.sliceStart.toNat < k.sliceEnd.toNat ∧ k.sliceEnd.toNat ≤ u.cfg.blkEnd.toNat
        ∧ (false = true ↔ k.sliceStart.toNat = 0))
      ∧ (streaming false s).stream.isOpen = true ∧ s.nLanes ≤ 2
      ∧ ¬ (false = true ↔ l.sliceStart.toNat = 0) ∧ ¬ Lane.reset.sliceStart.toNat < Lane.reset.sliceEnd.toNat := by
  decide +kernel

/-- A chunk with room; the same with room for five bytes; checks of R293 and R295 that fail, in order. -/
theorem witness_EncChunkCompletes :
    let tight := { run16 with cfg := { run16.cfg with outLimit := 5 } }
    (run16.MemoryOk ∧ run16.lanes[0]? = some (lane0 run16) ∧ Starts (.encChunk 0) run16 ∧ (lane0 run16).Healthy
      ∧ run16.outPos.toNat + 6 * ((lane0 run16).sliceEnd.toNat - (lane0 run16).pos.toNat) ≤ run16.cfg.outLimit.toNat)
      ∧ (Starts (.encChunk 0) tight
        ∧ exec (.encChunk 0) (tight.withRoom 4096 4096) = .next (after (.encChunk 0) (tight.withRoom 4096 4096))
        ∧ CompletesOk tight (after (.encChunk 0) (tight.withRoom 4096 4096))
        ∧ tight.cfg.outLimit.toNat
          < tight.outPos.toNat + (after (.encChunk 0) (tight.withRoom 4096 4096)).res.res0.toNat)
      ∧ startFault (.encChunk 0) lab = some .sequenceError
      ∧ startFault (.encChunk 0) { run16 with cfg := { run16.cfg with chunkCMax := 63 } } = some .invalidParameter
      ∧ startFault (.encChunk 0) { run16 with table := { run16.table with fin := 15 } } = some .sequenceError :=
  ⟨by decide +kernel, ⟨by decide +kernel, exec_after (by decide +kernel), by decide +kernel, by decide +kernel⟩,
    by decide +kernel⟩

/-- A chunk that is kept compressed, and ones that are stored, the last with a table under its contract. -/
theorem witness_ChunkFormat :
    let m := withLane0 { Lane.reset with sliceEnd := 9, sliceOpen := true } mf1Capped
    (run16.MemoryOk ∧ run16.lanes[0]? = some (lane0 run16) ∧ (lane0 run16).Healthy ∧ (lane0 run16).pending ≠ 1)
      ∧ exec (.encChunk 0) run16 = .next (after (.encChunk 0) run16) ∧ CompletesOk run16 (after (.encChunk 0) run16)
      ∧ (after (.encChunk 0) run16).res.res2 = 0
      ∧ exec (.encChunk 0) run16Stored = .next (after (.encChunk 0) run16Stored)
      ∧ CompletesOk run16Stored (after (.encChunk 0) run16Stored)
      ∧ (after (.encChunk 0) run16Stored).res.res2 ≠ 0
      ∧ m.TableContract ∧ m.MemoryOk ∧ (lane0 m).Healthy ∧ exec (.encChunk 0) m = .next (after (.encChunk 0) m)
      ∧ CompletesOk m (after (.encChunk 0) m) :=
  ⟨by decide +kernel, exec_after (by decide +kernel), by decide +kernel, by decide +kernel,
    exec_after (by decide +kernel), by decide +kernel, by decide +kernel, mf1Capped_contract, by decide +kernel,
    by decide +kernel, exec_after (by decide +kernel), by decide +kernel⟩

/-- A slice with room; the same with room for five bytes; a check of R291 that fails. -/
theorem witness_EncSliceCompletes :
    let tight := { run16 with cfg := { run16.cfg with outLimit := 5 } }
    (run16.MemoryOk ∧ run16.lanes[0]? = some (lane0 run16) ∧ Starts (.encSlice 0 true) run16
      ∧ run16.outPos.toNat + 6 * ((lane0 run16).sliceEnd.toNat - (lane0 run16).sliceStart.toNat)
        ≤ run16.cfg.outLimit.toNat)
      ∧ (Starts (.encSlice 0 true) tight
        ∧ exec (.encSlice 0 true) (tight.withRoom 4096 4096) = .next (after (.encSlice 0 true) (tight.withRoom 4096 4096))
        ∧ CompletesOk tight (after (.encSlice 0 true) (tight.withRoom 4096 4096))
        ∧ tight.cfg.outLimit.toNat
          < tight.outPos.toNat + (after (.encSlice 0 true) (tight.withRoom 4096 4096)).res.res0.toNat)
      ∧ startFault (.encSlice 0 false) run16 = some .invalidParameter :=
  ⟨by decide +kernel, ⟨by decide +kernel, exec_after (by decide +kernel), by decide +kernel, by decide +kernel⟩,
    by decide +kernel⟩

theorem witness_SliceIsItsChunks :
    run16.lanes[0]? = some (lane0 run16) ∧ run16.control.cancel = false
      ∧ exec (.encSlice 0 true) run16 = .next (after (.encSlice 0 true) run16)
      ∧ CompletesOk run16 (after (.encSlice 0 true) run16) :=
  ⟨by decide +kernel, by decide +kernel, exec_after (by decide +kernel), by decide +kernel⟩

/-- An empty block, and one of sixteen bytes on two lanes inside a stream; a check of R300 that fails. -/
theorem witness_EncBlockResult :
    let s := streaming true { run16 with cfg := { run16.cfg with nActive := 2 } }
    (startFault .encBlock lab = none ∧ lab.cfg.blkEnd.toNat - lab.cfg.blkStart.toNat = 0)
      ∧ s.MemoryOk ∧ Starts .encBlock s ∧ 0 < s.cfg.blkEnd.toNat - s.cfg.blkStart.toNat
      ∧ s.outPos.toNat + 6 * (s.cfg.blkEnd.toNat - s.cfg.blkStart.toNat) ≤ s.cfg.outLimit.toNat
      ∧ 6 * (s.cfg.blkEnd.toNat - s.cfg.blkStart.toNat) ≤ s.params.stageCap.toNat
      ∧ startFault .encBlock { s with cfg := { s.cfg with nActive := 3 } } = some .invalidParameter := by decide +kernel

/-- That block completes; and its slices, by their sizes, where `STAGE_CAP` and `OUT_LIMIT` are one byte too small. -/
theorem witness_EncBlockResult_slices :
    let s := streaming true { run16 with cfg := { run16.cfg with nActive := 2 } }
    let r (i : Nat) := (s.onSlice i).withRoom 4096 4096
    let n (i : Nat) := (after (s.sliceCommand i) (r i)).res.res0.toNat
    (s.control.cancel = false ∧ exec .encBlock s = .next (after .encBlock s) ∧ CompletesOk s (after .encBlock s))
      ∧ s.sliceCount = 2 ∧ (∀ i < 2, SliceSize s i (n i))
      ∧ { s.params with stageCap := 10 }.stageCap.toNat < n 0 ∧ n 0 ≤ s.params.stageCap.toNat
      ∧ n 1 ≤ s.params.stageCap.toNat ∧ { s.cfg with outLimit := 21 }.outLimit.toNat < s.outPos.toNat + [n 0, n 1].sum := by
  intro s r n
  refine ⟨⟨by decide +kernel, exec_after (by decide +kernel), by decide +kernel⟩, by decide +kernel, fun i hi => ?_,
    by decide +kernel, by decide +kernel, by decide +kernel, by decide +kernel⟩
  refine ⟨4096, 4096, after (s.sliceCommand i) (r i), exec_after ?_, ?_, rfl⟩
  · match i, hi with
    | 0, _ => decide +kernel
    | 1, _ => decide +kernel
  · match i, hi with
    | 0, _ => decide +kernel
    | 1, _ => decide +kernel

/-- Both ends of `DICT_SIZE`, one byte of room, no room with the property byte omitted, and an open stream. -/
theorem witness_StreamBeginResult :
    let lo := { lab with cfg := { lab.cfg with dictSize := 4096, outLimit := 1 } }
    let hi := { lab with cfg := { lab.cfg with dictSize := 0x40000000, outLimit := 0, streamOpts := 3 } }
    (lo.MemoryOk ∧ lo.stream.isOpen = false ∧ 4096 ≤ lo.cfg.dictSize.toNat ∧ lo.cfg.dictSize.toNat ≤ 2 ^ 30
        ∧ lo.outLegal = true ∧ lo.outPos.toNat + 1 ≤ lo.cfg.outLimit.toNat ∧ lo.cfg.omitProp = false)
      ∧ (hi.MemoryOk ∧ hi.stream.isOpen = false ∧ 4096 ≤ hi.cfg.dictSize.toNat ∧ hi.cfg.dictSize.toNat ≤ 2 ^ 30
        ∧ hi.outLegal = true ∧ hi.cfg.omitProp = true)
      ∧ (streaming false lab).MemoryOk ∧ (streaming false lab).stream.isOpen = true
      ∧ { lo.cfg with dictSize := 4095 }.dictSize.toNat < 4096
      ∧ 2 ^ 30 < { lo.cfg with dictSize := 0x40000001 }.dictSize.toNat
      ∧ lo.cfg.outLimit.toNat < { lo with outPos := 2 }.outPos.toNat
      ∧ lo.params.outCap.toNat < { lo.cfg with outLimit := 4097 }.outLimit.toNat
      ∧ { lo with outPos := 1 }.outLegal = true
      ∧ lo.cfg.outLimit.toNat < { lo with outPos := 1 }.outPos.toNat + 1 := by decide +kernel

/-- Just enough room for the terminator, and for the checksum as well; and no stream. -/
theorem witness_StreamEndResult :
    let a := streaming false { lab with cfg := { lab.cfg with outLimit := 1 } }
    let b := streaming true { lab with cfg := { lab.cfg with outLimit := 5 } }
    (a.MemoryOk ∧ a.stream.isOpen = true ∧ a.outLegal = true
        ∧ a.outPos.toNat + (if a.stream.ck then 5 else 1) ≤ a.cfg.outLimit.toNat)
      ∧ (b.MemoryOk ∧ b.stream.isOpen = true ∧ b.outLegal = true
        ∧ b.outPos.toNat + (if b.stream.ck then 5 else 1) ≤ b.cfg.outLimit.toNat)
      ∧ lab.stream.isOpen = false
      ∧ (a.cfg.outLimit.toNat < { a with outPos := 2 }.outPos.toNat
        ∧ a.params.outCap.toNat < { a.cfg with outLimit := 4097 }.outLimit.toNat)
      ∧ { b with outPos := 1 }.outLegal = true
      ∧ b.cfg.outLimit.toNat < { b with outPos := 1 }.outPos.toNat + (if b.stream.ck then 5 else 1) := by decide +kernel

/-- The parse of `run16` with both lookahead positions. -/
theorem witness_ParseFollowsRules :
    let x := { run16.parseCtx 16 with look := 2 }
    let e := { lane := (lane0 run16).openChunk run16.chunkCtx, rev := [], room := none : Enc }
    x.look ≤ 2 ∧ ∃ r, parseChunk x (x.ulim - 0) 0 e = .ok r ∧ r.1 = 16 := ⟨by decide, _, rfl, by decide +kernel⟩

end Sys2Proof.Tests
end

section
/-! SUPPORT. Two ways to follow a computation that may halt, step by step along its `do` block: `Ends` says how one
computation ends, `Alike` compares two of them. -/

namespace Sys2Proof.Machine

variable {A B C D : Type}

/-! ## How a computation ends -/

/-- `x` answers something that satisfies `P`, or halts in a way that satisfies `Q`. -/
def Ends (P : A → Prop) (Q : Halt → Prop) : Except Halt A → Prop
  | .ok a => P a
  | .error h => Q h

theorem Ends.bind {P : A → Prop} {R : B → Prop} {Q : Halt → Prop} {x : Except Halt A} {f : A → Except Halt B}
    (hx : Ends P Q x) (hf : ∀ a, P a → Ends R Q (f a)) : Ends R Q (x >>= f) := by
  cases x with
  | ok a => exact hf a hx
  | error h => exact hx

theorem Ends.imp {P P' : A → Prop} {Q Q' : Halt → Prop} {x : Except Halt A} (hx : Ends P Q x) (hP : ∀ a, P a → P' a)
    (hQ : ∀ h, Q h → Q' h) : Ends P' Q' x := by
  cases x with
  | ok a => exact hP a hx
  | error h => exact hQ h hx

/-- A computation also answers what it answers. -/
theorem Ends.answer {P : A → Prop} {Q : Halt → Prop} {x : Except Halt A} (hx : Ends P Q x) :
    Ends (fun a => x = .ok a ∧ P a) Q x := by
  cases x with
  | ok a => exact ⟨rfl, hx⟩
  | error h => exact hx

theorem Ends.of_ok {P : A → Prop} {Q : Halt → Prop} {x : Except Halt A} {a : A} (hx : Ends P Q x) (h : x = .ok a) : P a := by
  subst h
  exact hx

/-- The ways in which a command halts: by a fault of R350, by a cancellation where a request is up (R362), or in a loop
that never ends (log 11). -/
def Halt.Raised (cancel : Bool) : Halt → Prop
  | .fault c => c.isFault = true
  | .canceled => cancel = true
  | .neverEnds => True

theorem Halt.Raised.mono {h : Halt} (hr : h.Raised false) (cancel : Bool) : h.Raised cancel := by
  cases h with
  | fault c => exact hr
  | canceled => exact Bool.noConfusion (show false = true from hr)
  | neverEnds => trivial

theorem Ends.pure {P : A → Prop} {Q : Halt → Prop} {a : A} (h : P a) : Ends P Q (.ok a) := h

/-- After a check whose fault is one of R350. -/
theorem Ends.check {P : A → Prop} {ok : Bool} {c : Code} {cancel : Bool} {f : Unit → Except Halt A} (hc : c.isFault = true)
    (hf : ok = true → Ends P (Halt.Raised cancel) (f ())) : Ends P (Halt.Raised cancel) (check ok c >>= f) := by
  cases ok with
  | true => exact hf rfl
  | false => exact hc

/-! ## Two computations alike -/

/-- Both answer, and the answers are related by `R`, or both halt in the same way, one of `Q`. -/
inductive Alike (Q : Halt → Prop) (R : A → B → Prop) : Except Halt A → Except Halt B → Prop
  | ok {a : A} {b : B} : R a b → Alike Q R (.ok a) (.ok b)
  | error {h : Halt} : Q h → Alike Q R (.error h) (.error h)

theorem Alike.bind {Q : Halt → Prop} {R : A → B → Prop} {S : C → D → Prop} {x : Except Halt A} {y : Except Halt B}
    {f : A → Except Halt C} {g : B → Except Halt D} (hxy : Alike Q R x y) (hfg : ∀ a b, R a b → Alike Q S (f a) (g b)) :
    Alike Q S (x >>= f) (y >>= g) := by
  cases hxy with
  | ok h => exact hfg _ _ h
  | error h => exact .error h

theorem Alike.imp {Q Q' : Halt → Prop} {R R' : A → B → Prop} {x : Except Halt A} {y : Except Halt B} (hxy : Alike Q R x y)
    (hR : ∀ a b, R a b → R' a b) (hQ : ∀ h, Q h → Q' h) : Alike Q' R' x y := by
  cases hxy with
  | ok h => exact .ok (hR _ _ h)
  | error h => exact .error (hQ _ h)

theorem Alike.ite {Q : Halt → Prop} {R : A → B → Prop} {c : Prop} [Decidable c] {x x' : Except Halt A} {y y' : Except Halt B}
    (h : c → Alike Q R x y) (h' : ¬ c → Alike Q R x' y') : Alike Q R (if c then x else x') (if c then y else y') := by
  split
  · next hc => exact h hc
  · next hc => exact h' hc

/-- A computation ends as its comparison with itself says. -/
theorem Alike.ends {Q : Halt → Prop} {R : A → A → Prop} {x : Except Halt A} (h : Alike Q R x x) : Ends (fun a => R a a) Q x := by
  cases h with
  | ok h => exact h
  | error h => exact h

theorem Alike.of_ok {Q : Halt → Prop} {R : A → B → Prop} {x : Except Halt A} {y : Except Halt B} {a : A}
    (hxy : Alike Q R x y) (hx : x = .ok a) : ∃ b, y = .ok b ∧ R a b := by
  cases hxy with
  | ok h =>
    obtain rfl := Except.ok.inj hx
    exact ⟨_, rfl, h⟩
  | error h => cases hx

end Sys2Proof.Machine
end

section
/-! SUPPORT. The coding operations never look past the coder and the coding state of a lane, and write nothing else of it
(R140, R217 to R220): moved to another lane with the same coding state, they do the same there. -/

namespace Sys2Proof.Machine

/-! ## A coder on another lane -/

/-- A lane without its coder, its words, `STATE` and its reps: what no coding operation writes. -/
def Lane.uncoded (l : Lane) : Lane := { l with rc := .reset, prob := [], st := 0, reps := .reset }

/-- The coding state of `l` with its latched properties, in the lane `m`. -/
def Lane.graft (l m : Lane) : Lane :=
  { m with rc := l.rc, prob := l.prob, st := l.st, reps := l.reps, lc := l.lc, lp := l.lp, pb := l.pb }

/-- The coder `e` with its coding state on the lane `m`. -/
def Enc.graft (e : Enc) (m : Lane) : Enc := { e with lane := e.lane.graft m }

/-- The coder registers of `e` alone on the lane `m`. -/
def Enc.onto (e : Enc) (m : Lane) : Enc := { e with lane := { m with rc := e.lane.rc } }

theorem Enc.graft_self (e : Enc) : e.graft e.lane = e := rfl

theorem Enc.onto_self (e : Enc) : e.onto e.lane = e := rfl

/-- `x` codes from `e`, and `y` is the same on the lane `m`: nothing but coder registers and output changes. -/
def Moves (m : Lane) (e : Enc) : Except Halt Enc → Except Halt Enc → Prop :=
  Alike (Halt.Raised false) fun a b => b = a.onto m ∧ a = a.onto e.lane

/-- `x` codes from `e`, and `y` is the same with the coding state grafted on the lane `m`: nothing but the coding state
and the output changes. -/
def Grafts (m : Lane) (e : Enc) : Except Halt Enc → Except Halt Enc → Prop :=
  Alike (Halt.Raised false) fun a b => b = a.graft m ∧ a.lane.uncoded = e.lane.uncoded

variable {m : Lane} {e : Enc} {x y : Except Halt Enc} {f g : Enc → Except Halt Enc}

theorem Moves.bind (hxy : Moves m e x y) (hfg : ∀ a, Moves m a (f a) (g (a.onto m))) : Moves m e (x >>= f) (y >>= g) := by
  refine Alike.bind hxy ?_
  rintro a _ ⟨rfl, ha⟩
  refine (hfg a).imp ?_ fun _ h => h
  rintro c _ ⟨rfl, hc⟩
  rw [ha] at hc
  exact ⟨rfl, hc⟩

theorem Grafts.bind (hxy : Grafts m e x y) (hfg : ∀ a, Grafts m a (f a) (g (a.graft m))) :
    Grafts m e (x >>= f) (y >>= g) := by
  refine Alike.bind hxy ?_
  rintro a _ ⟨rfl, ha⟩
  refine (hfg a).imp ?_ fun _ h => h
  rintro c _ ⟨rfl, hc⟩
  exact ⟨rfl, hc.trans ha⟩

theorem Grafts.ok {a : Enc} (ha : a.lane.uncoded = e.lane.uncoded) : Grafts m e (.ok a) (.ok (a.graft m)) := Alike.ok ⟨rfl, ha⟩

/-- What moves to every lane moves with the coding state. -/
theorem Moves.grafts (h : ∀ n, Moves n e (f e) (f (e.onto n))) : Grafts m e (f e) (f (e.graft m)) := by
  refine (h (e.lane.graft m)).imp ?_ fun _ h => h
  rintro a _ ⟨rfl, ha⟩
  rw [ha]
  exact ⟨rfl, rfl⟩

/-! ## The coder (R143 to R152) -/

theorem emitRun_moves (first rest : Byte) (k : Nat) : Moves m e (emitRun first rest k e) (emitRun first rest k (e.onto m)) := by
  unfold emitRun
  cases hr : e.room with
  | none =>
    simp only [Enc.onto, hr]
    exact .ok ⟨rfl, rfl⟩
  | some n =>
    simp only [Enc.onto, hr]
    split
    · exact .ok ⟨rfl, rfl⟩
    · exact .error rfl

theorem setRc_moves (rc : Rc) : Moves m e (.ok (e.setRc rc)) (.ok ((e.onto m).setRc rc)) := .ok ⟨rfl, rfl⟩

theorem flushPending_moves : Moves m e (flushPending e) (flushPending (e.onto m)) := by
  unfold flushPending
  exact .ite (fun _ => .error trivial) fun _ => (emitRun_moves _ _ _).bind fun _ => setRc_moves _

theorem pushByte_moves : Moves m e (pushByte e) (pushByte (e.onto m)) := by
  unfold pushByte
  exact .ite (fun _ => .error rfl) fun _ => setRc_moves _

theorem shiftLow_moves : Moves m e (shiftLow e) (shiftLow (e.onto m)) := by
  unfold shiftLow
  exact .ite (fun _ => flushPending_moves.bind fun _ => pushByte_moves) fun _ => pushByte_moves

theorem renormalise_moves (fuel : Nat) : ∀ e, Moves m e (renormalise fuel e) (renormalise fuel (e.onto m)) := by
  induction fuel with
  | zero => exact fun e => .error trivial
  | succ fuel ih =>
    intro e
    unfold renormalise
    exact .ite (fun _ => Moves.bind (shiftLow_moves (e := e.widen)) ih) fun _ => .ok ⟨rfl, rfl⟩

theorem encodeDirect_moves (v n : Nat) : ∀ e, Moves m e (encodeDirect v n e) (encodeDirect v n (e.onto m)) := by
  induction n with
  | zero => exact fun e => .ok ⟨rfl, rfl⟩
  | succ n ih => exact fun e => Moves.bind (renormalise_moves renormRounds (halveRange (v.testBit n) e)) ih

theorem shiftLows_moves (k : Nat) : ∀ e, Moves m e (shiftLows k e) (shiftLows k (e.onto m)) := by
  induction k with
  | zero => exact fun e => .ok ⟨rfl, rfl⟩
  | succ k ih => exact fun e => shiftLow_moves.bind ih

theorem flush_moves : Moves m e (flush e) (flush (e.onto m)) := shiftLows_moves 5 e

theorem encodeDirect_grafts (v n : Nat) : Grafts m e (encodeDirect v n e) (encodeDirect v n (e.graft m)) :=
  Moves.grafts fun _ => encodeDirect_moves v n e

theorem flush_grafts : Grafts m e (flush e) (flush (e.graft m)) := Moves.grafts fun _ => flush_moves

theorem splitRange_graft (i : Nat) (b : Bool) : splitRange i b (e.graft m) = (splitRange i b e).graft m := by
  cases b <;> rfl

theorem splitRange_uncoded (i : Nat) (b : Bool) : (splitRange i b e).lane.uncoded = e.lane.uncoded := by
  cases b <;> rfl

theorem encodeBit_grafts (i : Nat) (b : Bool) : Grafts m e (encodeBit i b e) (encodeBit i b (e.graft m)) := by
  unfold encodeBit
  rw [splitRange_graft]
  refine (Moves.grafts fun _ => renormalise_moves renormRounds (splitRange i b e)).imp ?_ fun _ h => h
  rintro a _ ⟨rfl, ha⟩
  exact ⟨rfl, ha.trans (splitRange_uncoded i b)⟩

theorem encodeTreeFrom_grafts (base s n : Nat) :
    ∀ k e, Grafts m e (encodeTreeFrom base s n k e) (encodeTreeFrom base s n k (e.graft m)) := by
  induction n with
  | zero => exact fun k e => .ok rfl
  | succ n ih => exact fun k e => (encodeBit_grafts _ _).bind (ih _)

theorem encodeTree_grafts (base n s : Nat) : Grafts m e (encodeTree base n s e) (encodeTree base n s (e.graft m)) :=
  encodeTreeFrom_grafts base s n 1 e

theorem encodeTreeRevFrom_grafts (base n : Nat) :
    ∀ s k e, Grafts m e (encodeTreeRevFrom base n s k e) (encodeTreeRevFrom base n s k (e.graft m)) := by
  induction n with
  | zero => exact fun s k e => .ok rfl
  | succ n ih => exact fun s k e => (encodeBit_grafts _ _).bind (ih _ _)

theorem encodeTreeRev_grafts (base n s : Nat) :
    Grafts m e (encodeTreeRev base n s e) (encodeTreeRev base n s (e.graft m)) :=
  encodeTreeRevFrom_grafts base n s 1 e

/-! ## Symbols (R214 to R220) -/

theorem encodeLen_grafts (base l ps : Nat) : Grafts m e (encodeLen base l ps e) (encodeLen base l ps (e.graft m)) := by
  unfold encodeLen
  split
  · exact (encodeBit_grafts _ _).bind fun _ => encodeTree_grafts _ _ _
  · split <;> exact (encodeBit_grafts _ _).bind fun _ => (encodeBit_grafts _ _).bind fun _ => encodeTree_grafts _ _ _

theorem encodeDist_grafts (dist len : Nat) : Grafts m e (encodeDist dist len e) (encodeDist dist len (e.graft m)) := by
  unfold encodeDist
  refine (encodeTree_grafts _ _ _).bind fun a => ?_
  dsimp only
  split
  · exact .ok rfl
  · split
    · exact encodeTreeRev_grafts _ _ _
    · exact (encodeDirect_grafts _ _).bind fun _ => encodeTreeRev_grafts _ _ _

theorem matchedLiteralFrom_grafts (base n : Nat) : ∀ mb offs sym e,
    Grafts m e (matchedLiteralFrom base n mb offs sym e) (matchedLiteralFrom base n mb offs sym (e.graft m)) := by
  induction n with
  | zero => exact fun mb offs sym e => .ok rfl
  | succ n ih => exact fun mb offs sym e => (encodeBit_grafts _ _).bind (ih _ _ _)

theorem encodeLiteral_grafts (x : SymCtx) (p : Nat) : Grafts m e (encodeLiteral x p e) (encodeLiteral x p (e.graft m)) := by
  unfold encodeLiteral
  exact (encodeBit_grafts _ _).bind fun _ => .ite (fun _ => (encodeTree_grafts _ _ _).bind fun _ => .ok rfl)
    fun _ => (matchedLiteralFrom_grafts _ _ _ _ _ _).bind fun _ => .ok rfl

theorem encodeMatch_grafts (x : SymCtx) (p len dist : Nat) :
    Grafts m e (encodeMatch x p len dist e) (encodeMatch x p len dist (e.graft m)) :=
  (encodeBit_grafts _ _).bind fun _ => (encodeBit_grafts _ _).bind fun _ => (encodeLen_grafts _ _ _).bind fun _ =>
    (encodeDist_grafts _ _).bind fun _ => .ok rfl

theorem encodeRepIndex_grafts (st r ps : Nat) :
    Grafts m e (encodeRepIndex st r ps e) (encodeRepIndex st r ps (e.graft m)) := by
  unfold encodeRepIndex
  split
  · exact (encodeBit_grafts _ _).bind fun _ => encodeBit_grafts _ _
  · refine (encodeBit_grafts _ _).bind fun a => ?_
    split
    · exact encodeBit_grafts _ _
    · exact (encodeBit_grafts _ _).bind fun _ => encodeBit_grafts _ _

theorem encodeRep_grafts (x : SymCtx) (p len r : Nat) :
    Grafts m e (encodeRep x p len r e) (encodeRep x p len r (e.graft m)) :=
  (encodeBit_grafts _ _).bind fun _ => (encodeBit_grafts _ _).bind fun _ => (encodeRepIndex_grafts _ _ _).bind fun a =>
    (encodeLen_grafts (e := a.setReps (a.lane.reps.toFront r)) _ _ _).bind fun _ => .ok rfl

theorem encodeShortRep_grafts (x : SymCtx) (p : Nat) :
    Grafts m e (encodeShortRep x p e) (encodeShortRep x p (e.graft m)) :=
  (encodeBit_grafts _ _).bind fun _ => (encodeBit_grafts _ _).bind fun _ => (encodeBit_grafts _ _).bind fun _ =>
    (encodeBit_grafts _ _).bind fun _ => .ok rfl

/-- The operations that the commands on a lane's window run (R140, R228). -/
inductive Coding : (Enc → Except Halt Enc) → Prop
  | bit (i : Nat) (b : Bool) : Coding (encodeBit i b)
  | tree (base n s : Nat) : Coding (encodeTree base n s)
  | treeRev (base n s : Nat) : Coding (encodeTreeRev base n s)
  | direct (v n : Nat) : Coding (encodeDirect v n)
  | flush : Coding flush
  | literal (x : SymCtx) (p : Nat) : Coding (encodeLiteral x p)
  | mtch (x : SymCtx) (p len dist : Nat) : Coding (encodeMatch x p len dist)
  | rep (x : SymCtx) (p len r : Nat) : Coding (encodeRep x p len r)
  | shortRep (x : SymCtx) (p : Nat) : Coding (encodeShortRep x p)

theorem Coding.grafts (h : Coding f) (e : Enc) : Grafts m e (f e) (f (e.graft m)) := by
  cases h with
  | bit i b => exact encodeBit_grafts i b
  | tree base n s => exact encodeTree_grafts base n s
  | treeRev base n s => exact encodeTreeRev_grafts base n s
  | direct v n => exact encodeDirect_grafts v n
  | flush => exact flush_grafts
  | literal x p => exact encodeLiteral_grafts x p
  | mtch x p len dist => exact encodeMatch_grafts x p len dist
  | rep x p len r => exact encodeRep_grafts x p len r
  | shortRep x p => exact encodeShortRep_grafts x p

/-- What a coding operation leaves of a lane, and how it halts. -/
theorem Coding.ends (h : Coding f) (e : Enc) (cancel : Bool) :
    Ends (fun a => f e = .ok a ∧ a.lane.uncoded = e.lane.uncoded) (Halt.Raised cancel) (f e) :=
  ((h.grafts (m := e.lane) e).ends.answer).imp (fun _ ha => ⟨ha.1, ha.2.2⟩) fun _ hh => hh.mono cancel

end Sys2Proof.Machine
end

section
/-! SUPPORT. The parse and the chunk attempt (R251 to R258, R285) on another lane, and what they leave of a lane. -/

namespace Sys2Proof.Machine

variable {m : Lane} {e : Enc}

/-! ## The parse -/

/-- As `Grafts`, for a run of single symbols. -/
def RunGrafts (m : Lane) (e : Enc) : Except Halt Run → Except Halt Run → Prop :=
  Alike (Halt.Raised false) fun a b => b = { a with enc := a.enc.graft m } ∧ a.enc.lane.uncoded = e.lane.uncoded

/-- As `Grafts`, for a parse. -/
def ParseGrafts (m : Lane) (e : Enc) : Except Halt (Nat × Enc) → Except Halt (Nat × Enc) → Prop :=
  Alike (Halt.Raised false) fun a b => b = (a.1, a.2.graft m) ∧ a.2.lane.uncoded = e.lane.uncoded

theorem encodeSingle_grafts (x : ParseCtx) (p : Nat) : Grafts m e (encodeSingle x p e) (encodeSingle x p (e.graft m)) :=
  .ite (fun _ => encodeShortRep_grafts _ _) fun _ => encodeLiteral_grafts _ _

theorem encodeCand_grafts (x : ParseCtx) (p : Nat) (c : Cand) :
    Grafts m e (encodeCand x p c e) (encodeCand x p c (e.graft m)) := by
  cases c with
  | mtch n dist => exact encodeMatch_grafts _ _ _ _
  | rep n r => exact encodeRep_grafts _ _ _ _

theorem encodeSingles_grafts (x : ParseCtx) (n : Nat) :
    ∀ p e, RunGrafts m e (encodeSingles x n p e) (encodeSingles x n p (e.graft m)) := by
  induction n with
  | zero => exact fun p e => .ok ⟨rfl, rfl⟩
  | succ n ih =>
    intro p e
    unfold encodeSingles
    refine .ite (fun _ => Alike.bind (encodeSingle_grafts x p) ?_) fun _ => .ok ⟨rfl, rfl⟩
    rintro a _ ⟨rfl, ha⟩
    exact (ih (p + 1) a).imp (fun _ _ h => ⟨h.1, h.2.trans ha⟩) fun _ h => h

theorem parseRound_grafts (x : ParseCtx) (p : Nat) (e : Enc) :
    RunGrafts m e (parseRound x p e) (parseRound x p (e.graft m)) := by
  unfold parseRound
  change RunGrafts m e (match choose x e.lane.reps .getMatch p with | none => _ | some c => _)
    (match choose x e.lane.reps .getMatch p with | none => _ | some c => _)
  cases choose x e.lane.reps .getMatch p with
  | none => exact encodeSingles_grafts x 1 p e
  | some c =>
    refine (encodeSingles_grafts x _ p e).bind ?_
    rintro a _ ⟨rfl, ha⟩
    refine .ite (fun _ => .ok ⟨rfl, ha⟩) fun _ => .ite (fun _ => ?_) fun _ => .ok ⟨rfl, ha⟩
    refine Alike.bind (encodeCand_grafts x _ _) ?_
    rintro b _ ⟨rfl, hb⟩
    exact .ok ⟨rfl, hb.trans ha⟩

theorem parseChunk_grafts (x : ParseCtx) (fuel : Nat) :
    ∀ p e, ParseGrafts m e (parseChunk x fuel p e) (parseChunk x fuel p (e.graft m)) := by
  induction fuel with
  | zero => exact fun p e => .ok ⟨rfl, rfl⟩
  | succ fuel ih =>
    intro p e
    unfold parseChunk
    refine .ite (fun _ => (parseRound_grafts x p e).bind ?_) fun _ => .ok ⟨rfl, rfl⟩
    rintro a _ ⟨rfl, ha⟩
    exact .ite (fun _ => .ok ⟨rfl, ha⟩) fun _ => (ih a.pos a.enc).imp (fun _ _ h => ⟨h.1, h.2.trans ha⟩) fun _ h => h

/-! ## A chunk attempt -/

/-- A coder with another `STAGE` on its lane. -/
def Enc.withStage (e : Enc) (g : List Byte) : Enc := { e with lane := { e.lane with stage := g } }

/-- A chunk attempt's result with another `STAGE` on its lane. -/
def ChunkResult.withStage (c : ChunkResult) (g : List Byte) : ChunkResult := { c with lane := { c.lane with stage := g } }

/-- Grafting on a lane that differs in `STAGE` only replaces `STAGE`. -/
theorem Enc.graft_stage (e : Enc) (l : Lane) (g : List Byte) (h : e.lane.uncoded = l.uncoded) :
    e.graft { l with stage := g } = e.withStage g := by
  change ({ e with lane := e.lane.graft { l.uncoded with stage := g } } : Enc) = e.withStage g
  rw [← h]
  rfl

theorem finishChunk_withStage (x : ChunkCtx) (l l' : Lane) (pend : Nat) (e : Enc) (g : List Byte) (hpos : l'.pos = l.pos) :
    finishChunk x l' pend (e.withStage g) = (finishChunk x l pend e).withStage g := by
  unfold finishChunk
  rw [hpos]
  change (if e.rev.length + x.margin < pend - l.pos.toNat then _ else _) = _
  by_cases h : e.rev.length + x.margin < pend - l.pos.toNat <;> simp only [h, if_true, if_false] <;> rfl

/-- A chunk attempt on `l`: its result is finished from a coder that left all but the coding state of the opened lane as it
was, and a lane that opens to the same one, `STAGE` aside, has the same result, `STAGE` aside. -/
theorem encChunk_alike (x : ChunkCtx) (l l' : Lane) (hpos : l'.pos = l.pos) (hend : l'.sliceEnd = l.sliceEnd)
    (hopen : l'.openChunk x = { l.openChunk x with stage := l'.stage }) :
    Alike (Halt.Raised false)
      (fun c c' => c' = c.withStage l'.stage
        ∧ ∃ pend e, e.lane.uncoded = (l.openChunk x).uncoded ∧ c = finishChunk x l pend e)
      (encChunk x l) (encChunk x l') := by
  unfold encChunk Lane.chunkLimit
  rw [hpos, hend, hopen]
  dsimp only
  refine (parseChunk_grafts (m := { l.openChunk x with stage := l'.stage }) _ _ _
    { lane := l.openChunk x, rev := [], room := none }).bind ?_
  rintro a _ ⟨rfl, ha⟩
  refine Alike.bind flush_grafts ?_
  rintro b _ ⟨rfl, hb⟩
  have hb := hb.trans ha
  rw [Enc.graft_stage b _ _ hb]
  exact .ok ⟨finishChunk_withStage x l l' _ b _ hpos, _, b, hb, rfl⟩

theorem Lane.openChunk_stage (x : ChunkCtx) (l : Lane) : (l.openChunk x).stage = l.stage := by
  unfold Lane.openChunk
  split <;> rfl

/-- Everything a chunk attempt does. -/
theorem encChunk_ends (x : ChunkCtx) (l : Lane) (cancel : Bool) :
    Ends (fun c => encChunk x l = .ok c ∧ ∃ pend e, e.lane.uncoded = (l.openChunk x).uncoded ∧ c = finishChunk x l pend e)
      (Halt.Raised cancel) (encChunk x l) :=
  ((encChunk_alike x l l rfl rfl (by rw [← l.openChunk_stage x])).ends.answer).imp (fun _ h => ⟨h.1, h.2.2⟩) fun _ h => h.mono cancel

/-! ## Slices and blocks -/

/-- A slice halts in no other way than its chunks, or past the staging capacity (R301). -/
theorem encSliceFrom_ends (x : ChunkCtx) (cap : Option Nat) (cancel : Bool) (fuel : Nat) :
    ∀ r, Ends (fun _ => True) (Halt.Raised cancel) (encSliceFrom x cap fuel r) := by
  induction fuel with
  | zero =>
    intro r
    unfold encSliceFrom
    split <;> trivial
  | succ fuel ih =>
    intro r
    unfold encSliceFrom
    split
    · exact (encChunk_ends x r.lane cancel).bind fun c _ => .check rfl fun _ => ih _
    · trivial

theorem encSlice_ends (x : ChunkCtx) (cap : Option Nat) (l : Lane) (cancel : Bool) :
    Ends (fun r => encSlice x cap l = .ok r) (Halt.Raised cancel) (encSlice x cap l) :=
  ((encSliceFrom_ends x cap cancel _ _).answer).imp (fun _ h => h.1) fun _ h => h

theorem encLanes_ends (x : ChunkCtx) (cap : Nat) (cancel : Bool) (slices : List (Nat × Nat)) :
    ∀ dr lanes, Ends (fun r => r.lanes.length = lanes.length) (Halt.Raised cancel) (encLanes x cap dr slices lanes) := by
  induction slices with
  | nil => exact fun dr lanes => rfl
  | cons ab slices ih =>
    intro dr lanes
    cases lanes with
    | nil => exact rfl
    | cons l lanes =>
      exact (encSlice_ends x _ _ cancel).bind fun r _ => (ih false lanes).bind fun rest hrest =>
        congrArg Nat.succ hrest

end Sys2Proof.Machine
end

section
/-! SUPPORT. Everything a command can do (R355), said once: the shapes of a normal completion, by which a statement about
every command is proved, and the two other completions. -/

namespace Sys2Proof.Machine

/-! ## The shapes of a normal completion -/

/-- What a command does to its lane where it codes nothing (R142, R221, R226, R227, R290, R334). -/
inductive LaneEdit (s : State) (l : Lane) : Lane → Prop
  | resetCoder : LaneEdit s l { l with rc := .reset }
  | setWord (i v : Nat) : l.init = true → 31 ≤ v → v ≤ 2017 →
      LaneEdit s l { l with prob := ProbMem.write l.prob i (BitVec.ofNat 11 v) }
  | resetState : s.cfg.propsLegal = true → LaneEdit s l (l.resetState s.cfg.lc s.cfg.lp s.cfg.pb)
  | takeSnapshot : l.init = true → LaneEdit s l l.takeSnapshot
  | rollBack : l.snapValid = true → LaneEdit s l { l.rollBack with init := true }
  | openSlice (dr : Bool) : LaneEdit s l (l.openSlice dr)

/-- The table that `MF_CREATE` makes (R180). -/
def State.createdTable (s : State) : Table where
  created  := true
  isStruct := decide (2 ^ linkBits < s.cfg.dictSize.toNat)
  valid    := false
  size     := s.cfg.dictSize
  fin      := 0
  caplen   := 0
  storage  := .ofSlots (decide (2 ^ linkBits < s.cfg.dictSize.toNat)) []

/-- The table that `MF_BUILD` makes of the one there is (R181). -/
def State.builtTable (s : State) : Table :=
  { s.table with
    valid   := true
    fin     := s.cfg.blkEnd
    caplen  := BitVec.ofNat 32 s.buildCap
    storage := .ofSlots s.table.isStruct
      (buildSlots s.params.mfMode s.draws (Memory.readBytes s.dict 0 s.cfg.blkEnd.toNat) s.buildCap) }

/-- The state `u` that a command computes from `s` when no check fails and no cancellation is observed. -/
inductive Effect : Instr → State → State → Prop
  /-- nothing: `NOP`, and `ENC_BLOCK` of an empty block -/
  | idle {i : Instr} {s : State} : Effect i s s
  /-- the result registers alone: the queries, `RC_PRICE`, `PROB_READ` -/
  | answer {i : Instr} {s : State} (a b c : Nat) : Effect i s (s.setRes a b c)
  /-- a coding operation on the lane's window (R140) -/
  | window {i : Instr} {s : State} {L : Nat} {l : Lane} {f : Enc → Except Halt Enc} {e : Enc} : i.lane? = some L →
      s.windowLane L = .ok l → Coding f → f l.windowEnc = .ok e → Effect i s (s.commitWindow L e)
  /-- a symbol on the lane's window, which also moves `LANE_POS` (R222 to R225) -/
  | symbol {i : Instr} {s : State} {L : Nat} {l : Lane} {f : Enc → Except Halt Enc} {e : Enc} (p : Nat) :
      i.lane? = some L → s.windowLane L = .ok l → Coding f → f l.windowEnc = .ok e →
      Effect i s (s.commitWindow L (e.setPos p))
  /-- a lane command that codes nothing -/
  | edit {i : Instr} {s : State} {L : Nat} {l l' : Lane} : i.lane? = some L → s.lanes[L]? = some l → LaneEdit s l l' →
      Effect i s (s.setLane L l')
  /-- `ENC_CHUNK` (R293) -/
  | chunk {i : Instr} {s t : State} {L : Nat} {l : Lane} {c : ChunkResult} : i.lane? = some L → s.lanes[L]? = some l →
      s.encConfigLegal = true → (l.pending = 0 → l.init = true) → encChunk s.chunkCtx l = .ok c →
      (s.setLane L c.lane).writeOut c.bytes = .ok t → Effect i s ((t.consume c.u).setRes c.bytes.length c.u c.kind)
  /-- `ENC_SLICE` (R294) -/
  | slice {i : Instr} {s t : State} {L : Nat} {l : Lane} {r : SliceResult} (dr : Bool) (n : Nat) : i.lane? = some L →
      s.lanes[L]? = some l → s.encConfigLegal = true → encSlice s.chunkCtx none (l.openSlice dr) = .ok r →
      (s.setLane L r.lane).writeOut r.bytes = .ok t → Effect i s ((t.consume n).setRes r.bytes.length n r.chunks)
  /-- `ENC_BLOCK` (R300) -/
  | block {s t : State} {r : BlockResult} (slices : List (Nat × Nat)) (data : List Byte) (n : Nat) :
      s.encConfigLegal = true → encLanes s.chunkCtx s.params.stageCap.toNat s.cfg.dictReset slices s.lanes = .ok r →
      { s with lanes := r.lanes }.writeOut r.bytes = .ok t →
      Effect .encBlock s
        ({ t.consume n with stream := (t.consume n).stream.addBlock data }.setRes r.bytes.length n r.chunks)
  /-- `MF_CREATE` (R180) -/
  | create {s : State} : s.cfg.dictSizeLegal = true → Effect .mfCreate s { s with table := s.createdTable }
  /-- `MF_BUILD` (R181) -/
  | build {s : State} : s.table.created = true → depthMin ≤ s.cfg.depth → s.cfg.depth ≤ depthMax →
      s.cfg.blkEnd.toNat ≤ s.table.size.toNat → s.cfg.blkEnd.toNat ≤ s.params.dictCap.toNat →
      Effect .mfBuild s { s with table := s.builtTable }
  /-- `STREAM_BEGIN` (R310) -/
  | streamBegin {s t : State} {out : List Byte} : s.writeOut out = .ok t →
      Effect .streamBegin s ({ t with stream :=
        { isOpen := true, needDr := true, ck := t.cfg.checksumEn, omitP := t.cfg.omitProp
          dict := t.cfg.dictSize, ckData := [] } }.setRes out.length 0 0)
  /-- `STREAM_END` (R311) -/
  | streamEnd {s t : State} {out : List Byte} : s.writeOut out = .ok t →
      Effect .streamEnd s ({ t with stream := .closed }.setRes out.length 0 0)
  /-- `CLEAR` (R331) -/
  | clear {s : State} : Effect .clear s s.contextReset

/-! ## The checks that commands share, as ends of a computation -/

variable {cancel : Bool}

theorem getLane_ends (s : State) (L : Nat) : Ends (fun l => s.lanes[L]? = some l) (Halt.Raised cancel) (s.getLane L) := by
  unfold State.getLane
  split
  · next h => exact h
  · exact rfl

theorem windowLane_ends (s : State) (L : Nat) :
    Ends (fun l => s.windowLane L = .ok l) (Halt.Raised cancel) (s.windowLane L) :=
  ((getLane_ends s L).bind fun _ _ => .check rfl fun _ => .pure trivial :
    Ends (fun _ => True) (Halt.Raised cancel) (s.windowLane L)).answer.imp (fun _ h => h.1) fun _ h => h

theorem codingLane_ends (s : State) (L : Nat) :
    Ends (fun l => s.windowLane L = .ok l) (Halt.Raised cancel) (s.codingLane L) :=
  (windowLane_ends s L).bind fun _ hl => .check rfl fun _ => .pure hl

theorem symbolLane_ends (s : State) (L : Nat) :
    Ends (fun l => s.windowLane L = .ok l) (Halt.Raised cancel) (s.symbolLane L) :=
  (codingLane_ends s L).bind fun _ hl => .check rfl fun _ => .pure hl

theorem probLane_ends (s : State) (L : Nat) :
    Ends (fun l => s.lanes[L]? = some l ∧ l.init = true) (Halt.Raised cancel) (s.probLane L) :=
  (getLane_ends s L).bind fun _ hl => .check rfl fun hi => .check rfl fun _ => .pure ⟨hl, hi⟩

theorem queryPos_ends (s : State) : Ends (fun _ => True) (Halt.Raised cancel) s.queryPos :=
  .check rfl fun _ => .check rfl fun _ => .pure trivial

theorem cancelPoint_ends (s : State) : Ends (fun _ => True) (Halt.Raised s.control.cancel) s.cancelPoint := by
  unfold State.cancelPoint
  split
  · next h => exact cancelRequested_control s h
  · trivial

theorem writeOut_ends (s : State) (bytes : List Byte) :
    Ends (fun t => s.writeOut bytes = .ok t) (Halt.Raised cancel) (s.writeOut bytes) :=
  (.check rfl fun _ => .pure trivial :
    Ends (fun _ => True) (Halt.Raised cancel) (s.writeOut bytes)).answer.imp (fun _ h => h.1) fun _ h => h

/-- Coding on a lane's window, and its commit. -/
theorem window_ends {i : Instr} {s : State} {L : Nat} {l : Lane} {f : Enc → Except Halt Enc} (hi : i.lane? = some L)
    (hl : s.windowLane L = .ok l) (hf : Coding f) :
    Ends (Effect i s) (Halt.Raised cancel) (f l.windowEnc >>= fun e => .ok (s.commitWindow L e)) :=
  (hf.ends l.windowEnc cancel).bind fun _ he => .window hi hl hf he.1

/-- Coding a symbol on a lane's window, and its commit. -/
theorem symbol_ends {i : Instr} {s : State} {L : Nat} {l : Lane} {f : Enc → Except Halt Enc} (p : Nat)
    (hi : i.lane? = some L) (hl : s.windowLane L = .ok l) (hf : Coding f) :
    Ends (Effect i s) (Halt.Raised cancel) (f l.windowEnc >>= fun e => .ok (s.commitWindow L (e.setPos p))) :=
  (hf.ends l.windowEnc cancel).bind fun _ he => .symbol p hi hl hf he.1

/-! ## Every command -/

/-- The three completions of a command (R355), with what each leaves. -/
def Completes (i : Instr) (s t : State) : Prop :=
  (∃ u, Effect i s.clearRes u ∧ t = u.complete)
    ∨ (∃ c, c.isFault = true ∧ t = s.faultCommit (encode i) c)
    ∨ (s.control.cancel = true ∧ t = s.cancelCommit)

/-- A command completes in one of the three ways if its computation ends in one of its effects or an allowed halt. -/
theorem conclude_completes {i : Instr} {s t : State} {body : State → Except Halt State}
    (h : conclude i s body = .next t) (hbody : ∀ s : State, Ends (Effect i s) (Halt.Raised s.control.cancel) (body s)) :
    Completes i s t := by
  have hend := hbody s.clearRes
  rcases conclude_next i s t body h with ⟨u, hu, rfl⟩ | ⟨c, hc, rfl⟩ | ⟨hc, rfl⟩
  · rw [hu] at hend
    exact .inl ⟨u, hend, rfl⟩
  · rw [hc] at hend
    exact .inr (.inl ⟨c, hend, rfl⟩)
  · rw [hc] at hend
    exact .inr (.inr ⟨hend, rfl⟩)

section
variable {s t : State} {L n : Nat}

theorem execNop_completes (h : execNop s = .next t) : Completes .nop s t :=
  conclude_completes h fun _ => .pure .idle

theorem execClear_completes (h : execClear s = .next t) : Completes .clear s t :=
  conclude_completes h fun _ => .pure .clear

/-! ### Range coder commands -/

theorem execRcReset_completes (h : execRcReset L s = .next t) : Completes (.rcReset L) s t :=
  conclude_completes h fun s => (windowLane_ends s L).bind fun l hl =>
    .pure (.edit rfl ((windowLane_ok s L l).mp hl).1 .resetCoder)

theorem execRcBit_completes {b : Bool} (h : execRcBit L b s = .next t) : Completes (.rcBit L b) s t :=
  conclude_completes h fun s => (codingLane_ends s L).bind fun _ hl => .check rfl fun _ =>
    window_ends rfl hl (.bit _ b)

theorem execRcTree_completes (h : execRcTree L n s = .next t) : Completes (.rcTree L n) s t :=
  conclude_completes h fun s => (codingLane_ends s L).bind fun _ hl => .check rfl fun _ =>
    .check rfl fun _ => window_ends rfl hl (.tree _ n _)

theorem execRcTreeRev_completes (h : execRcTreeRev L n s = .next t) : Completes (.rcTreeRev L n) s t :=
  conclude_completes h fun s => (codingLane_ends s L).bind fun _ hl => .check rfl fun _ =>
    .check rfl fun _ => window_ends rfl hl (.treeRev _ n _)

theorem execRcDirect_completes (h : execRcDirect L n s = .next t) : Completes (.rcDirect L n) s t :=
  conclude_completes h fun s => (windowLane_ends s L).bind fun _ hl => .check rfl fun _ =>
    window_ends rfl hl (.direct _ n)

theorem execRcFlush_completes (h : execRcFlush L s = .next t) : Completes (.rcFlush L) s t :=
  conclude_completes h fun s => (windowLane_ends s L).bind fun _ hl => window_ends rfl hl .flush

theorem execRcPrice_completes {b : Bool} (h : execRcPrice b s = .next t) : Completes (.rcPrice b) s t :=
  conclude_completes h fun _ => .check rfl fun _ => .pure (.answer _ _ _)

/-! ### Match finder commands -/

theorem execMfCreate_completes (h : execMfCreate s = .next t) : Completes .mfCreate s t :=
  conclude_completes h fun _ => .check rfl fun hsize => .check rfl fun _ => .pure (.create hsize)

theorem execMfBuild_completes (h : execMfBuild s = .next t) : Completes .mfBuild s t := by
  refine conclude_completes h fun s => .check rfl fun hcreated => .check rfl fun hdepth =>
    .check rfl fun hblk => (cancelPoint_ends s).bind fun _ _ => ?_
  simp only [Bool.and_eq_true, decide_eq_true_eq] at hdepth hblk
  exact .pure (.build hcreated hdepth.1.1 hdepth.1.2 hblk.1.2 hblk.2)

theorem execMfGetMatch_completes (h : execMfGetMatch s = .next t) : Completes .mfGetMatch s t :=
  conclude_completes h fun s => (queryPos_ends s).bind fun _ _ => .pure (.answer _ _ _)

theorem execMfGetNextMatch_completes (h : execMfGetNextMatch s = .next t) : Completes .mfGetNextMatch s t :=
  conclude_completes h fun s => (queryPos_ends s).bind fun _ _ => .pure (.answer _ _ _)

theorem execMfReadSlot_completes (h : execMfReadSlot s = .next t) : Completes .mfReadSlot s t := by
  refine conclude_completes h fun s => (queryPos_ends s).bind fun p _ => ?_
  split <;> exact .pure (.answer _ _ _)

/-! ### Symbol and state commands -/

theorem execEncResetState_completes (h : execEncResetState L s = .next t) : Completes (.encResetState L) s t :=
  conclude_completes h fun s => (getLane_ends s L).bind fun _ hl => .check rfl fun hp =>
    .pure (.edit rfl hl (.resetState hp))

theorem execEncLiteral_completes (h : execEncLiteral L s = .next t) : Completes (.encLiteral L) s t :=
  conclude_completes h fun s => (symbolLane_ends s L).bind fun _ hl => .check rfl fun _ =>
    .check rfl fun _ => symbol_ends _ rfl hl (.literal _ _)

theorem execEncMatch_completes (h : execEncMatch L s = .next t) : Completes (.encMatch L) s t :=
  conclude_completes h fun s => (symbolLane_ends s L).bind fun _ hl => .check rfl fun _ =>
    .check rfl fun _ => symbol_ends _ rfl hl (.mtch _ _ _ _)

theorem execEncRep_completes (h : execEncRep L n s = .next t) : Completes (.encRep L n) s t :=
  conclude_completes h fun s => (symbolLane_ends s L).bind fun _ hl => .check rfl fun _ =>
    .check rfl fun _ => symbol_ends _ rfl hl (.rep _ _ _ n)

theorem execEncShortRep_completes (h : execEncShortRep L s = .next t) : Completes (.encShortRep L) s t :=
  conclude_completes h fun s => (symbolLane_ends s L).bind fun _ hl => .check rfl fun _ =>
    symbol_ends _ rfl hl (.shortRep _ _)

theorem execEncSnapshot_completes (h : execEncSnapshot L s = .next t) : Completes (.encSnapshot L) s t :=
  conclude_completes h fun s => (getLane_ends s L).bind fun _ hl => .check rfl fun hi =>
    .pure (.edit rfl hl (.takeSnapshot hi))

theorem execEncRollback_completes (h : execEncRollback L s = .next t) : Completes (.encRollback L) s t :=
  conclude_completes h fun s => (getLane_ends s L).bind fun _ hl => .check rfl fun hv =>
    .pure (.edit rfl hl (.rollBack hv))

theorem execProbRead_completes (h : execProbRead L s = .next t) : Completes (.probRead L) s t :=
  conclude_completes h fun s => (probLane_ends s L).bind fun _ _ => .pure (.answer _ _ _)

theorem execProbWrite_completes (h : execProbWrite L s = .next t) : Completes (.probWrite L) s t := by
  refine conclude_completes h fun s => (probLane_ends s L).bind fun _ hl => .check rfl fun hv => ?_
  simp only [Bool.and_eq_true, decide_eq_true_eq] at hv
  exact .pure (.edit rfl hl.1 (.setWord _ _ hl.2 hv.1 hv.2))

/-! ### Chunks, slices, blocks and streams -/

theorem execSliceBegin_completes {dr : Bool} (h : execSliceBegin L dr s = .next t) : Completes (.sliceBegin L dr) s t :=
  conclude_completes h fun s => (getLane_ends s L).bind fun _ hl => .check rfl fun _ =>
    .check rfl fun _ => .pure (.edit rfl hl (.openSlice dr))

theorem execEncChunk_completes (h : execEncChunk L s = .next t) : Completes (.encChunk L) s t := by
  refine conclude_completes h fun s => (getLane_ends s L).bind fun l hl => .check rfl fun _ =>
    .check rfl fun _ => .check rfl fun hcfg => .check rfl fun _ =>
    .check rfl fun _ => .check rfl fun _ => .check rfl fun _ =>
    .check rfl fun hinit => (cancelPoint_ends s).bind fun _ _ =>
    (encChunk_ends s.chunkCtx l _).bind fun c hc => (writeOut_ends _ _).bind fun t ht => .pure (.chunk rfl hl hcfg ?_ hc.1 ht)
  intro hp
  simpa [hp] using hinit

theorem execEncSlice_completes {dr : Bool} (h : execEncSlice L dr s = .next t) : Completes (.encSlice L dr) s t :=
  conclude_completes h fun s => (getLane_ends s L).bind fun _ hl => .check rfl fun _ =>
    .check rfl fun hcfg => .check rfl fun _ => .check rfl fun _ =>
    (cancelPoint_ends s).bind fun _ _ => (encSlice_ends s.chunkCtx none _ _).bind fun _ hr =>
    (writeOut_ends _ _).bind fun _ ht => .pure (.slice dr _ rfl hl hcfg hr ht)

theorem execEncBlock_completes (h : execEncBlock s = .next t) : Completes .encBlock s t := by
  refine conclude_completes h fun s => .check rfl fun hcfg => .check rfl fun _ =>
    .check rfl fun _ => ?_
  dsimp only
  split
  · exact .pure .idle
  · exact .check rfl fun _ => .check rfl fun _ => .check rfl fun _ =>
      (cancelPoint_ends s).bind fun _ _ => (encLanes_ends s.chunkCtx _ _ _ _ _).answer.bind fun _ hr =>
      (writeOut_ends _ _).bind fun _ ht => .pure (.block _ _ _ hcfg hr.1 ht)

theorem execStreamBegin_completes (h : execStreamBegin s = .next t) : Completes .streamBegin s t :=
  conclude_completes h fun _ => .check rfl fun _ => .check rfl fun _ =>
    .check rfl fun _ => (writeOut_ends _ _).bind fun _ ht => .pure (.streamBegin ht)

theorem execStreamEnd_completes (h : execStreamEnd s = .next t) : Completes .streamEnd s t :=
  conclude_completes h fun _ => .check rfl fun _ => .check rfl fun _ =>
    (writeOut_ends _ _).bind fun _ ht => .pure (.streamEnd ht)

end

/-- Everything a command can do. -/
theorem exec_completes (i : Instr) (s t : State) (h : exec i s = .next t) : Completes i s t := by
  cases i with
  | nop => exact execNop_completes h
  | rcReset L => exact execRcReset_completes h
  | rcBit L b => exact execRcBit_completes h
  | rcTree L n => exact execRcTree_completes h
  | rcTreeRev L n => exact execRcTreeRev_completes h
  | rcDirect L n => exact execRcDirect_completes h
  | rcFlush L => exact execRcFlush_completes h
  | rcPrice b => exact execRcPrice_completes h
  | mfCreate => exact execMfCreate_completes h
  | mfBuild => exact execMfBuild_completes h
  | mfGetMatch => exact execMfGetMatch_completes h
  | mfGetNextMatch => exact execMfGetNextMatch_completes h
  | mfReadSlot => exact execMfReadSlot_completes h
  | encResetState L => exact execEncResetState_completes h
  | encLiteral L => exact execEncLiteral_completes h
  | encMatch L => exact execEncMatch_completes h
  | encRep L r => exact execEncRep_completes h
  | encShortRep L => exact execEncShortRep_completes h
  | encSnapshot L => exact execEncSnapshot_completes h
  | encRollback L => exact execEncRollback_completes h
  | probRead L => exact execProbRead_completes h
  | probWrite L => exact execProbWrite_completes h
  | sliceBegin L dr => exact execSliceBegin_completes h
  | encChunk L => exact execEncChunk_completes h
  | encSlice L dr => exact execEncSlice_completes h
  | encBlock => exact execEncBlock_completes h
  | streamBegin => exact execStreamBegin_completes h
  | streamEnd => exact execStreamEnd_completes h
  | clear => exact execClear_completes h

end Sys2Proof.Machine
end

section
/-! PROOFS. What no command writes, and which commands write the table, the stream and a lane (10_state.md R37, R50, R58,
R59; 20_memory.md R81). -/

namespace Sys2Proof.Machine

variable {i : Instr} {s t u : State}

/-! ## The frame of an effect -/

theorem keepsHostState_refl (s : State) : KeepsHostState s s := ⟨rfl, rfl, rfl, rfl, rfl, rfl, rfl, rfl, rfl, rfl⟩

/-- No effect touches what the host alone writes. -/
theorem Effect.keepsHostState (h : Effect i s u) : KeepsHostState s u := by
  cases h with
  | idle | answer a b c | window | symbol p | edit | create | build | clear => exact keepsHostState_refl s
  | chunk _ _ _ _ _ ht | slice dr n _ _ _ _ ht | block slices data n _ _ ht | streamBegin ht | streamEnd ht =>
    obtain ⟨-, rfl⟩ := (writeOut_ok _ _ _).mp ht
    exact keepsHostState_refl s

/-- The lanes after an effect: untouched, or the command's own lane written, or those of `ENC_BLOCK` and of `CLEAR`. -/
theorem Effect.lanes_cases (h : Effect i s u) :
    u.lanes = s.lanes ∨ (∃ L l, i.lane? = some L ∧ u.lanes = s.lanes.set L l)
      ∨ (i = .encBlock ∧ u.lanes.length = s.lanes.length) ∨ (i = .clear ∧ u.lanes = s.lanes.map Lane.contextReset) := by
  cases h with
  | idle | answer a b c | create | build => exact .inl rfl
  | streamBegin ht | streamEnd ht =>
    obtain ⟨-, rfl⟩ := (writeOut_ok _ _ _).mp ht
    exact .inl rfl
  | window hL => exact .inr (.inl ⟨_, _, hL, rfl⟩)
  | symbol p hL => exact .inr (.inl ⟨_, _, hL, rfl⟩)
  | edit hL => exact .inr (.inl ⟨_, _, hL, rfl⟩)
  | chunk hL _ _ _ _ ht | slice dr n hL _ _ _ ht =>
    obtain ⟨-, rfl⟩ := (writeOut_ok _ _ _).mp ht
    exact .inr (.inl ⟨_, _, hL, rfl⟩)
  | block slices data n _ hr ht =>
    obtain ⟨-, rfl⟩ := (writeOut_ok _ _ _).mp ht
    exact .inr (.inr (.inl ⟨rfl, (encLanes_ends _ _ false _ _ _).of_ok hr⟩))
  | clear => exact .inr (.inr (.inr ⟨rfl, rfl⟩))

theorem Effect.lanes_length (h : Effect i s u) : u.lanes.length = s.lanes.length := by
  rcases h.lanes_cases with h | ⟨L, l, -, h⟩ | ⟨-, h⟩ | ⟨-, h⟩
  · rw [h]
  · rw [h, List.length_set]
  · exact h
  · rw [h, List.length_map]

/-- Only `MF_CREATE`, `MF_BUILD` and `CLEAR` write the table (R58). -/
theorem Effect.table_cases (h : Effect i s u) :
    u.table = s.table ∨ (i = .mfCreate ∧ s.cfg.dictSizeLegal = true ∧ u.table = s.createdTable)
      ∨ (i = .mfBuild ∧ s.table.created = true ∧ (depthMin ≤ s.cfg.depth ∧ s.cfg.depth ≤ depthMax)
        ∧ s.cfg.blkEnd.toNat ≤ s.table.size.toNat ∧ s.cfg.blkEnd.toNat ≤ s.params.dictCap.toNat
        ∧ u.table = s.builtTable)
      ∨ (i = .clear ∧ u.table = { s.table with valid := false, fin := 0, caplen := 0 }) := by
  cases h with
  | idle | answer a b c | window | symbol p | edit => exact .inl rfl
  | chunk _ _ _ _ _ ht | slice dr n _ _ _ _ ht | block slices data n _ _ ht | streamBegin ht | streamEnd ht =>
    obtain ⟨-, rfl⟩ := (writeOut_ok _ _ _).mp ht
    exact .inl rfl
  | create hsize => exact .inr (.inl ⟨rfl, hsize, rfl⟩)
  | build hcreated hmin hmax hsize hcap => exact .inr (.inr (.inl ⟨rfl, hcreated, ⟨hmin, hmax⟩, hsize, hcap, rfl⟩))
  | clear => exact .inr (.inr (.inr ⟨rfl, rfl⟩))

/-- Only `ENC_BLOCK`, `STREAM_BEGIN`, `STREAM_END` and `CLEAR` write the stream (R59). -/
theorem Effect.stream_cases (h : Effect i s u) :
    u.stream = s.stream ∨ (i = .encBlock ∧ ∃ data, u.stream = s.stream.addBlock data)
      ∨ (i = .streamBegin ∧ u.stream.isOpen = true) ∨ ((i = .streamEnd ∨ i = .clear) ∧ u.stream = .closed) := by
  cases h with
  | idle | answer a b c | window | symbol p | edit | create | build => exact .inl rfl
  | chunk _ _ _ _ _ ht | slice dr n _ _ _ _ ht =>
    obtain ⟨-, rfl⟩ := (writeOut_ok _ _ _).mp ht
    exact .inl rfl
  | block slices data n _ _ ht =>
    obtain ⟨-, rfl⟩ := (writeOut_ok _ _ _).mp ht
    exact .inr (.inl ⟨rfl, data, rfl⟩)
  | streamBegin => exact .inr (.inr (.inl ⟨rfl, rfl⟩))
  | streamEnd => exact .inr (.inr (.inr ⟨.inl rfl, rfl⟩))
  | clear => exact .inr (.inr (.inr ⟨.inr rfl, rfl⟩))

/-! ## The frame of a command -/

theorem keepsHostState_complete (h : KeepsHostState s.clearRes u) : KeepsHostState s u.complete := h

/-- No command touches what the host alone writes, nor the number of lanes (R37, R81). -/
theorem exec_keepsHostState (h : exec i s = .next t) : KeepsHostState s t ∧ t.lanes.length = s.lanes.length := by
  rcases exec_completes i s t h with ⟨u, hu, rfl⟩ | ⟨c, -, rfl⟩ | ⟨-, rfl⟩
  · exact ⟨keepsHostState_complete hu.keepsHostState, hu.lanes_length⟩
  · exact ⟨keepsHostState_refl s, rfl⟩
  · exact ⟨keepsHostState_refl s, List.length_map _⟩

end Sys2Proof.Machine

open Sys2Proof Sys2Proof.Machine

/-- Settles O11: every effect of a command keeps what the host alone writes, and so do a fault and a cancellation. -/
theorem commandsKeepHostState : Obligations.CommandsKeepHostState := fun _ _ _ h => exec_keepsHostState h

/-- Settles O12: with no request up a command ends in one of its effects or in a fault, which keeps every unit. -/
theorem commandsKeepOtherUnits : Obligations.CommandsKeepOtherUnits := by
  intro i s t hq h
  rcases exec_completes i s t h with ⟨u, hu, rfl⟩ | ⟨c, -, rfl⟩ | ⟨hc, -⟩
  · refine ⟨fun h1 h2 h3 => ?_, fun h1 h2 h3 h4 => ?_, fun L hL k hk => ?_, fun hL h1 h2 => ?_⟩
    · rcases hu.table_cases with h | ⟨h, -⟩ | ⟨h, -⟩ | ⟨h, -⟩
      · exact h
      · exact absurd h h1
      · exact absurd h h2
      · exact absurd h h3
    · rcases hu.stream_cases with h | ⟨h, -⟩ | ⟨h, -⟩ | ⟨h | h, -⟩
      · exact h
      · exact absurd h h1
      · exact absurd h h2
      · exact absurd h h3
      · exact absurd h h4
    · change u.lanes[k]? = s.lanes[k]?
      rcases hu.lanes_cases with h | ⟨K, l, hK, h⟩ | ⟨rfl, -⟩ | ⟨rfl, -⟩
      · rw [h, State.clearRes_lanes]
      · obtain rfl := Option.some.inj (hK.symm.trans hL)
        rw [h, State.clearRes_lanes, List.getElem?_set_ne (Ne.symm hk)]
      · cases hL
      · cases hL
    · rcases hu.lanes_cases with h | ⟨K, l, hK, -⟩ | ⟨h, -⟩ | ⟨h, -⟩
      · exact h
      · cases hL.symm.trans hK
      · exact absurd h h1
      · exact absurd h h2
  · exact ⟨fun _ _ _ => rfl, fun _ _ _ _ => rfl, fun _ _ _ _ => rfl, fun _ _ _ => rfl⟩
  · cases hq.symm.trans hc
end

section
/-! PROOFS. The registers' invariant is kept by every step (10_state.md R30, R34, R38; 42_lzma_symbols.md R213). -/

namespace Sys2Proof.Machine

/-! ## Lanes -/

theorem toNat_ofNat_three (n : Nat) (h : n ≤ 4) : (BitVec.ofNat 3 n).toNat = n := by
  rw [BitVec.toNat_ofNat, Nat.mod_eq_of_lt (by omega)]

/-- The registers' invariant does not speak of the coding state. -/
theorem Lane.registersOk_of_uncoded {l l' : Lane} (h : l'.uncoded = l.uncoded) (hl : l.RegistersOk) : l'.RegistersOk := by
  have hu : l.uncoded.RegistersOk := hl
  rw [← h] at hu
  exact hu

theorem Lane.resetState_registersOk (l : Lane) (lc lp pb : Nat) (hlit : lc + lp ≤ 4) (hpb : pb ≤ 4) (hl : l.RegistersOk) :
    (l.resetState lc lp pb).RegistersOk := by
  obtain ⟨-, -, hpend, -⟩ := hl
  refine ⟨?_, ?_, hpend, fun _ => rfl⟩
  · rw [Lane.resetState_lc, Lane.resetState_lp, toNat_ofNat_three lc (by omega), toNat_ofNat_three lp (by omega)]
    exact hlit
  · rw [Lane.resetState_pb, toNat_ofNat_three pb hpb]
    exact hpb

theorem Lane.contextReset_registersOk (l : Lane) : l.contextReset.RegistersOk :=
  ⟨(by decide : (3 : BitVec 3).toNat + (0 : BitVec 3).toNat ≤ 4), (by decide : (2 : BitVec 3).toNat ≤ 4),
    (by decide : (3 : BitVec 2) ≠ 1), fun h => h⟩

theorem Lane.openSlice_registersOk (l : Lane) (dr : Bool) (hl : l.RegistersOk) : (l.openSlice dr).RegistersOk := by
  obtain ⟨hlit, hpb, -, hsnap⟩ := hl
  refine ⟨hlit, hpb, ?_, hsnap⟩
  rw [Lane.openSlice_pending]
  cases dr <;> decide

theorem Cfg.propsLegal_iff (c : Cfg) : c.propsLegal = true ↔ c.lc + c.lp ≤ 4 ∧ c.pb ≤ 4 := by
  simp [Cfg.propsLegal]

theorem LaneEdit.registersOk {s : State} {l l' : Lane} (h : LaneEdit s l l') (hl : l.RegistersOk) : l'.RegistersOk := by
  obtain ⟨hlit, hpb, hpend, hsnap⟩ := hl
  cases h with
  | resetCoder => exact ⟨hlit, hpb, hpend, hsnap⟩
  | setWord i v => exact ⟨hlit, hpb, hpend, hsnap⟩
  | resetState hp =>
    obtain ⟨h1, h2⟩ := (Cfg.propsLegal_iff _).mp hp
    exact l.resetState_registersOk _ _ _ h1 h2 ⟨hlit, hpb, hpend, hsnap⟩
  | takeSnapshot hi => exact ⟨hlit, hpb, hpend, fun _ => hi⟩
  | rollBack => exact ⟨hlit, hpb, hpend, fun _ => rfl⟩
  | openSlice dr => exact l.openSlice_registersOk dr ⟨hlit, hpb, hpend, hsnap⟩

/-! ## Chunks -/

/-- The properties that a chunk's state reset latches are legal (R41). -/
abbrev ChunkCtx.PropsLegal (x : ChunkCtx) : Prop := x.lc + x.lp ≤ 4 ∧ x.pb ≤ 4

theorem chunkCtx_propsLegal (s : State) (h : s.encConfigLegal = true) : s.chunkCtx.PropsLegal := by
  simp only [State.encConfigLegal, Bool.and_eq_true] at h
  exact (Cfg.propsLegal_iff s.cfg).mp h.1.1.1.2

/-- What the next chunk of a lane needs: the registers' invariant, and coding state where none is reset (R293). -/
abbrev Lane.ChunkReady (l : Lane) : Prop := l.RegistersOk ∧ (l.pending = 0 → l.init = true)

/-- Stored chunks leave `PENDING` at 2 or as it was (R288). -/
theorem storedChunks_pending (dict : Memory) (fuel : Nat) :
    ∀ (a n : Nat) (pending : BitVec 2), pending ≠ 1 → (storedChunks dict fuel a n pending).2.2 ≠ 1 := by
  induction fuel with
  | zero => exact fun _ _ _ h => h
  | succ fuel ih =>
    intro a n pending h
    unfold storedChunks
    split
    · exact h
    · refine ih _ _ _ ?_
      split
      · decide
      · exact h

/-- An opened chunk is initialised and meets the registers' invariant. -/
theorem Lane.openChunk_registersOk (x : ChunkCtx) (hx : x.PropsLegal) (l : Lane) (hl : l.ChunkReady) :
    (l.openChunk x).RegistersOk ∧ (l.openChunk x).init = true := by
  obtain ⟨hok, hinit⟩ := hl
  unfold Lane.openChunk
  by_cases hp : l.pending = 0
  · obtain ⟨hlit, hpb, hpend, -⟩ := hok
    simp only [hp, if_true]
    exact ⟨⟨hlit, hpb, hpend, fun _ => hinit hp⟩, hinit hp⟩
  · obtain ⟨hlit, hpb, hpend, -⟩ := l.resetState_registersOk x.lc x.lp x.pb hx.1 hx.2 hok
    simp only [hp, if_false]
    exact ⟨⟨hlit, hpb, hpend, fun _ => rfl⟩, rfl⟩

theorem finishChunk_chunkReady (x : ChunkCtx) (l : Lane) (pend : Nat) (e : Enc) (he : e.lane.RegistersOk)
    (hi : e.lane.init = true) : (finishChunk x l pend e).lane.ChunkReady := by
  obtain ⟨hlit, hpb, hpend, hsnap⟩ := he
  unfold finishChunk
  dsimp only
  split
  · exact ⟨⟨hlit, hpb, (by decide : (0 : BitVec 2) ≠ 1), hsnap⟩, fun _ => hi⟩
  · exact ⟨⟨hlit, hpb, storedChunks_pending _ _ _ _ _ hpend, hsnap⟩, fun _ => hi⟩

/-- A chunk leaves its lane ready for the next (R293, R294). -/
theorem encChunk_chunkReady {x : ChunkCtx} (hx : x.PropsLegal) {l : Lane} (hl : l.ChunkReady) {c : ChunkResult}
    (h : encChunk x l = .ok c) : c.lane.ChunkReady := by
  obtain ⟨-, pend, e, he, rfl⟩ := (encChunk_ends x l false).of_ok h
  obtain ⟨hok, hi⟩ := l.openChunk_registersOk x hx hl
  have hi' : e.lane.init = true := (congrArg Lane.init he).trans hi
  exact finishChunk_chunkReady x l pend e (Lane.registersOk_of_uncoded he hok) hi'

theorem encSliceFrom_chunkReady {x : ChunkCtx} (hx : x.PropsLegal) (cap : Option Nat) (fuel : Nat) :
    ∀ r r' : SliceResult, r.lane.ChunkReady → encSliceFrom x cap fuel r = .ok r' → r'.lane.ChunkReady := by
  induction fuel with
  | zero =>
    intro r r' hr h
    unfold encSliceFrom at h
    split at h
    · cases h
    · exact Except.ok.inj h ▸ hr
  | succ fuel ih =>
    intro r r' hr h
    unfold encSliceFrom at h
    split at h
    · obtain ⟨c, hc, h⟩ := (bind_ok _ _ _).mp h
      obtain ⟨_, -, h⟩ := (bind_ok _ _ _).mp h
      exact ih _ r' (encChunk_chunkReady hx hr hc) h
    · exact Except.ok.inj h ▸ hr

/-- A slice keeps the registers' invariant of its lane (R294, R300). -/
theorem encSlice_registersOk {x : ChunkCtx} (hx : x.PropsLegal) {cap : Option Nat} {l : Lane} {dr : Bool}
    (hl : l.RegistersOk) {r : SliceResult} (h : encSlice x cap (l.openSlice dr) = .ok r) : r.lane.RegistersOk := by
  have hready : (l.openSlice dr).ChunkReady := by
    refine ⟨l.openSlice_registersOk dr hl, fun h0 => ?_⟩
    cases dr <;> cases h0
  exact (encSliceFrom_chunkReady hx cap _ _ r hready h).1

theorem encLanes_registersOk {x : ChunkCtx} (hx : x.PropsLegal) (cap : Nat) (slices : List (Nat × Nat)) :
    ∀ dr lanes r, (∀ l ∈ lanes, Lane.RegistersOk l) → encLanes x cap dr slices lanes = .ok r →
      ∀ l ∈ r.lanes, Lane.RegistersOk l := by
  induction slices with
  | nil => exact fun dr lanes r hl h => Except.ok.inj h ▸ hl
  | cons ab slices ih =>
    intro dr lanes r hl h
    cases lanes with
    | nil => cases h
    | cons l lanes =>
      obtain ⟨r₁, h₁, h⟩ := (bind_ok _ _ _).mp h
      obtain ⟨rest, hrest, h⟩ := (bind_ok _ _ _).mp h
      obtain rfl := Except.ok.inj h
      obtain ⟨hhead, htail⟩ := List.forall_mem_cons.mp hl
      refine List.forall_mem_cons.mpr ⟨?_, ih false lanes rest htail hrest⟩
      exact encSlice_registersOk (l := { l with sliceStart := BitVec.ofNat 32 ab.1, sliceEnd := BitVec.ofNat 32 ab.2 })
        hx hhead h₁

/-! ## Commands -/

variable {i : Instr} {s t u : State}

theorem forall_mem_set {P : Lane → Prop} {lanes : List Lane} {L : Nat} {l : Lane} (h : ∀ l ∈ lanes, P l) (hl : P l) :
    ∀ l' ∈ lanes.set L l, P l' := by
  intro l' h'
  rcases List.mem_or_eq_of_mem_set h' with hm | rfl
  · exact h l' hm
  · exact hl

/-- The lane of a window commit meets the registers' invariant, at whatever position. -/
theorem window_registersOk {L : Nat} {l : Lane} {f : Enc → Except Halt Enc} {e : Enc} (p q : Word)
    (hw : s.windowLane L = .ok l) (hf : Coding f) (he : f l.windowEnc = .ok e) (hs : ∀ l ∈ s.lanes, l.RegistersOk) :
    Lane.RegistersOk { e.lane with outLen := p, pos := q } := by
  obtain ⟨hl, -⟩ := (windowLane_ok s L l).mp hw
  have hu := ((hf.ends l.windowEnc false).of_ok he).2
  have hok : e.lane.RegistersOk := Lane.registersOk_of_uncoded hu (hs l (List.mem_of_getElem? hl))
  exact hok

theorem Effect.lanes_registersOk (h : Effect i s u) (hs : ∀ l ∈ s.lanes, l.RegistersOk) : ∀ l ∈ u.lanes, l.RegistersOk := by
  cases h with
  | idle | answer a b c | create | build => exact hs
  | streamBegin ht | streamEnd ht =>
    obtain ⟨-, rfl⟩ := (writeOut_ok _ _ _).mp ht
    exact hs
  | window hL hw hf he => exact forall_mem_set hs (window_registersOk _ _ hw hf he hs)
  | @symbol _ _ _ _ _ e p hL hw hf he => exact forall_mem_set hs (window_registersOk (e := e) _ _ hw hf he hs)
  | edit hL hl hedit => exact forall_mem_set hs (hedit.registersOk (hs _ (List.mem_of_getElem? hl)))
  | chunk hL hl hcfg hinit hc ht =>
    obtain ⟨-, rfl⟩ := (writeOut_ok _ _ _).mp ht
    have hready := encChunk_chunkReady (chunkCtx_propsLegal s hcfg) ⟨hs _ (List.mem_of_getElem? hl), hinit⟩ hc
    exact forall_mem_set hs hready.1
  | slice dr n hL hl hcfg hr ht =>
    obtain ⟨-, rfl⟩ := (writeOut_ok _ _ _).mp ht
    exact forall_mem_set hs (encSlice_registersOk (chunkCtx_propsLegal s hcfg) (hs _ (List.mem_of_getElem? hl)) hr)
  | block slices data n hcfg hr ht =>
    obtain ⟨-, rfl⟩ := (writeOut_ok _ _ _).mp ht
    exact encLanes_registersOk (chunkCtx_propsLegal s hcfg) _ _ _ _ _ hs hr
  | clear => exact List.forall_mem_map.mpr fun l _ => l.contextReset_registersOk

theorem Effect.table_created (h : Effect i s u) (hs : s.table.valid = true → s.table.created = true) :
    u.table.valid = true → u.table.created = true := by
  rcases h.table_cases with h | ⟨-, -, h⟩ | ⟨-, hc, -, -, -, h⟩ | ⟨-, h⟩
  · rwa [h]
  · exact fun _ => h ▸ rfl
  · exact fun _ => h ▸ hc
  · rw [h]
    exact fun hv => Bool.noConfusion hv

theorem Effect.stream_closed (h : Effect i s u) (hs : s.stream.isOpen = false → s.stream = .closed) :
    u.stream.isOpen = false → u.stream = .closed := by
  rcases h.stream_cases with h | ⟨-, data, h⟩ | ⟨-, h⟩ | ⟨-, h⟩
  · rwa [h]
  · rw [h]
    unfold Stream.addBlock
    split
    · next ho => exact fun hn => Bool.noConfusion (ho.symm.trans hn)
    · exact hs
  · exact fun hn => Bool.noConfusion (h.symm.trans hn)
  · exact fun _ => h

/-- No fault code is one of the two that nothing raises (R367). -/
theorem Code.ne_of_isFault {c : Code} (h : c.isFault = true) : c ≠ .timedOut ∧ c ≠ .checksumMismatch := by
  cases c with
  | timedOut | checksumMismatch => cases h
  | _ => exact ⟨nofun, nofun⟩

/-- A fault changes nothing that the invariant speaks of but the code, `BUSY` and `CANCEL`, which fall. -/
theorem State.faultCommit_registersOk (w : Word) {c : Code} (hc : c.isFault = true) (hs : s.RegistersOk) :
    (s.faultCommit w c).RegistersOk := by
  obtain ⟨hcfg, -, -, -, -, htable, hstream, hlanes⟩ := hs
  exact ⟨hcfg, nofun, nofun, fun _ => rfl, Code.ne_of_isFault hc, htable, hstream, hlanes⟩

theorem exec_registersOk (hs : s.RegistersOk) (h : exec i s = .next t) : t.RegistersOk := by
  obtain ⟨hcfg, -, -, -, -, htable, hstream, hlanes⟩ := id hs
  rcases exec_completes i s t h with ⟨u, hu, rfl⟩ | ⟨c, hc, rfl⟩ | ⟨-, rfl⟩
  · obtain ⟨-, hcfg', -⟩ := hu.keepsHostState
    refine ⟨?_, nofun, nofun, fun _ => rfl, ⟨nofun, nofun⟩, hu.table_created htable, hu.stream_closed hstream,
      hu.lanes_registersOk hlanes⟩
    rw [State.complete_cfg, hcfg']
    exact hcfg
  · exact State.faultCommit_registersOk _ hc hs
  · exact ⟨hcfg, nofun, nofun, fun _ => rfl, ⟨nofun, nofun⟩, nofun, fun _ => rfl,
      List.forall_mem_map.mpr fun l _ => l.contextReset_registersOk⟩

/-! ## The host -/

theorem and_mask_idem (v m : Word) : v &&& m &&& m = v &&& m := by rw [BitVec.and_assoc, BitVec.and_self]

/-- An idle write to a block register keeps the invariant: the reserved bits are masked off, and a command's issue zeroes
the result registers. -/
theorem State.writeReg_registersOk (r : Reg) (v : Word) (hs : s.RegistersOk) (hreset : s.inReset = false) :
    (s.writeReg r v).RegistersOk := by
  obtain ⟨⟨hmf, hlz, hst, hso, hbf, hpg⟩, hrest⟩ := id hs
  obtain ⟨hcancel, hres, hir, hcode, htable, hstream, hlanes⟩ := id hrest
  cases r with
  | cmd =>
    exact ⟨⟨hmf, hlz, hst, hso, hbf, hpg⟩, fun _ => rfl, fun _ => ⟨rfl, rfl, rfl⟩,
      fun h => Bool.noConfusion (hreset.symm.trans h), hcode, htable, hstream, hlanes⟩
  | control =>
    refine ⟨⟨hmf, hlz, hst, hso, hbf, hpg⟩, fun h => ?_, hres, hir, hcode, htable, hstream, hlanes⟩
    rcases Bool.or_eq_true_iff.mp h with h | h
    · exact hcancel h
    · exact (Bool.and_eq_true_iff.mp h).2
  | mfParams => exact ⟨⟨and_mask_idem v _, hlz, hst, hso, hbf, hpg⟩, hrest⟩
  | lzProps => exact ⟨⟨hmf, and_mask_idem v _, hst, hso, hbf, hpg⟩, hrest⟩
  | strategy => exact ⟨⟨hmf, hlz, and_mask_idem v _, hso, hbf, hpg⟩, hrest⟩
  | streamOpts => exact ⟨⟨hmf, hlz, hst, and_mask_idem v _, hbf, hpg⟩, hrest⟩
  | blkFlags => exact ⟨⟨hmf, hlz, hst, hso, and_mask_idem v _, hpg⟩, hrest⟩
  | parseGain => exact ⟨⟨hmf, hlz, hst, hso, hbf, and_mask_idem v _⟩, hrest⟩
  | _ => exact hs

theorem Lane.writeReg_registersOk (l : Lane) (r : LaneReg) (v : Word) (hl : l.RegistersOk) : (l.writeReg r v).RegistersOk := by
  cases r <;> exact hl

theorem State.hostWrite_registersOk (sp : Space) (a : Nat) (n : AccessSize) (v : Word) (hs : s.RegistersOk) :
    (s.hostWrite sp a n v).RegistersOk := by
  obtain ⟨hcfg, hcancel, hres, hir, hcode, htable, hstream, hlanes⟩ := id hs
  rcases hostWrite_cases s sp a n v with ⟨-, h⟩ | ⟨hr, -, h⟩
  · rw [h]
    exact hs
  · rcases h with ⟨-, h⟩ | ⟨-, -, h⟩ | ⟨-, -, h⟩ | ⟨-, -, r, -, -, -, h⟩ | ⟨-, -, L, r, l, -, hl, h⟩ | ⟨-, -, h⟩
      | ⟨-, -, h⟩ | ⟨-, -, h⟩ <;> rw [h]
    · exact ⟨hcfg, hcancel, hres, hir, hcode, htable, hstream, hlanes⟩
    · exact ⟨hcfg, hcancel, hres, hir, hcode, htable, hstream, hlanes⟩
    · exact State.writeReg_registersOk .control v hs hr
    · exact State.writeReg_registersOk r v hs hr
    · exact ⟨hcfg, hcancel, hres, hir, hcode, htable, hstream,
        forall_mem_set hlanes (l.writeReg_registersOk r v (hlanes l (List.mem_of_getElem? hl)))⟩
    · exact hs
    · exact ⟨hcfg, hcancel, hres, hir, hcode, fun hv => htable (Bool.and_eq_true_iff.mp hv).1, hstream, hlanes⟩
    · exact hs

theorem Cfg.reset_reservedZero (p : Params) : (Cfg.reset p).ReservedZero := by
  change (Cfg.reset Params.reference).ReservedZero
  decide

theorem State.assertReset_registersOk (s : State) : s.assertReset.RegistersOk := by
  refine ⟨Cfg.reset_reservedZero s.params, nofun, nofun, fun _ => rfl, ⟨nofun, nofun⟩, nofun, fun _ => rfl, fun l hl => ?_⟩
  obtain rfl := List.eq_of_mem_replicate hl
  decide

theorem sequencerTurn_registersOk (hs : s.RegistersOk) (h : sequencerTurn s = .next t) : t.RegistersOk := by
  rcases sequencerTurn_cases s t h with ⟨-, rfl⟩ | ⟨w, i, -, -, h⟩ | ⟨w, e, -, -, rfl⟩
  · exact hs
  · exact exec_registersOk hs h
  · exact State.faultCommit_registersOk w rfl hs

theorem step_registersOk (hs : s.RegistersOk) (h : step s = .next t) : t.RegistersOk := by
  rcases step_cases s t h with ⟨sp, a, n, rest, -, rfl⟩ | ⟨sp, a, n, v, rest, -, rfl⟩ | ⟨rest, -, rfl⟩ | ⟨rest, -, rfl⟩
    | ⟨-, h⟩ | ⟨rest, -, h⟩
  · exact hs
  · exact State.hostWrite_registersOk (s := { s with inputs := rest }) sp a n v hs
  · exact State.assertReset_registersOk _
  · obtain ⟨hcfg, hcancel, hres, -, hcode, htable, hstream, hlanes⟩ := hs
    exact ⟨hcfg, hcancel, hres, nofun, hcode, htable, hstream, hlanes⟩
  · exact sequencerTurn_registersOk hs h
  · exact sequencerTurn_registersOk (s := { s with inputs := rest }) hs h

end Sys2Proof.Machine

open Sys2Proof Sys2Proof.Machine

/-- Settles O28: kept by each kind of step, a command by its effects on lanes, table and stream. -/
theorem registersOkKept : Obligations.RegistersOkKept := fun _ _ hs h => step_registersOk hs h

end

section
/-! PROOFS. While `TABLE_VALID = 1` the table is that of the present `DICT` (41_match_finder.md R175, R176): a build meets
the contract, and every step keeps it. -/

namespace Sys2Proof.Machine

/-! ## Scores (R175) -/

/-- `agree` measures the longest common beginning, up to its cap. -/
theorem le_agree_iff (n : Nat) : ∀ (xs ys : List Byte) (k : Nat),
    k ≤ agree n xs ys ↔ k ≤ n ∧ k ≤ xs.length ∧ k ≤ ys.length ∧ ∀ i < k, xs[i]? = ys[i]? := by
  induction n with
  | zero =>
    intro xs ys k
    unfold agree
    refine ⟨fun h => ?_, fun h => h.1⟩
    obtain rfl := Nat.le_zero.mp h
    exact ⟨h, Nat.zero_le _, Nat.zero_le _, fun i hi => absurd hi (Nat.not_lt_zero i)⟩
  | succ n ih =>
    intro xs ys k
    cases k with
    | zero => simp
    | succ k =>
      cases xs with
      | nil => simp [agree]
      | cons x xs =>
        cases ys with
        | nil => simp [agree]
        | cons y ys =>
          unfold agree
          rw [Nat.forall_lt_succ_left']
          by_cases hxy : x = y
          · simp [hxy, Nat.add_comm 1, ih xs ys k]
          · simp [hxy]

/-- The score of two positions in order is the longest agreement of the block from them on, up to the cap. -/
theorem le_score_iff (d : List Byte) (c p q k : Nat) (hqp : q < p) (hp : p ≤ d.length) :
    k ≤ score d c p q ↔ k ≤ c ∧ Agrees d p q k := by
  unfold score Agrees
  rw [le_agree_iff]
  simp only [List.length_drop, List.getElem?_drop]
  constructor
  · rintro ⟨hc, -, hl, hag⟩
    exact ⟨hc, by omega, fun i hi => (hag i hi).symm⟩
  · rintro ⟨hc, hl, hag⟩
    exact ⟨hc, by omega, by omega, fun i hi => (hag i hi).symm⟩

theorem scoresFrom_getElem? (c : Nat) (here : List Byte) (n : Nat) : ∀ (rest : List Byte) (q : Nat),
    (scoresFrom c here n rest)[q]? = if q < n then some (agree c (rest.drop q) here) else none := by
  induction n with
  | zero => exact fun _ _ => rfl
  | succ n ih =>
    intro rest q
    cases q with
    | zero => rfl
    | succ q => simp [scoresFrom, ih, List.drop_tail]

theorem scores_getElem? (d : List Byte) (c p q : Nat) : (scores d c p)[q]? = if q < p then some (score d c p q) else none :=
  scoresFrom_getElem? c (d.drop p) p d q

/-- `M(p)` is 0 or a score, and no score is above it. -/
theorem bestScore_spec (xs : List Nat) : bestScore xs ∈ 0 :: xs ∧ ∀ x ∈ xs, x ≤ bestScore xs := by
  obtain ⟨hmem, hle⟩ := List.max?_eq_some_iff.mp (List.max?_cons' (x := 0) (xs := xs))
  exact ⟨hmem, fun x hx => hle x (List.mem_cons_of_mem _ hx)⟩

theorem mem_holders (m : Nat) (xs : List Nat) : ∀ q k, k ∈ holders m q xs ↔ q ≤ k ∧ xs[k - q]? = some m := by
  induction xs with
  | nil => simp [holders]
  | cons x xs ih =>
    intro q k
    have hlater : (q + 1 ≤ k ∧ xs[k - (q + 1)]? = some m) ↔ q < k ∧ (x :: xs)[k - q]? = some m := by
      refine and_congr_right fun hk => ?_
      rw [show k - q = k - (q + 1) + 1 by omega, List.getElem?_cons_succ]
    unfold holders
    split
    · next hx =>
      rw [List.mem_cons, ih, hlater]
      constructor
      · rintro (rfl | ⟨hk, hm⟩)
        · simp [hx]
        · exact ⟨Nat.le_of_lt hk, hm⟩
      · rintro ⟨hk, hm⟩
        rcases Nat.eq_or_lt_of_le hk with rfl | hlt
        · exact .inl rfl
        · exact .inr ⟨hlt, hm⟩
    · next hx =>
      rw [ih, hlater]
      constructor
      · exact fun ⟨hk, hm⟩ => ⟨Nat.le_of_lt hk, hm⟩
      · rintro ⟨hk, hm⟩
        rcases Nat.eq_or_lt_of_le hk with rfl | hlt
        · simp [hx] at hm
        · exact ⟨hlt, hm⟩

/-- The positions are listed in order. -/
theorem holders_pairwise (m : Nat) (xs : List Nat) : ∀ q, (holders m q xs).Pairwise (· ≤ ·) := by
  induction xs with
  | nil => exact fun _ => .nil
  | cons x xs ih =>
    intro q
    unfold holders
    split
    · exact .cons (fun k hk => Nat.le_of_succ_le ((mem_holders m xs (q + 1) k).mp hk).1) (ih (q + 1))
    · exact ih (q + 1)

/-- The link is one of the candidates, in `CANONICAL` mode the nearest (R175, R176). -/
theorem chooseLink_spec (mode : MfMode) (draw p : Nat) (qs : List Nat) (hne : qs ≠ []) (hord : qs.Pairwise (· ≤ ·)) :
    chooseLink mode draw p qs ∈ qs ∧ (mode = .canonical → ∀ q ∈ qs, q ≤ chooseLink mode draw p qs) := by
  cases mode with
  | canonical =>
    have hlast : qs.getLastD 0 = qs.getLast hne := by
      rw [List.getLastD_eq_getLast?, List.getLast?_eq_some_getLast hne, Option.getD_some]
    unfold chooseLink
    rw [hlast]
    exact ⟨List.getLast_mem hne, fun _ q hq => hord.rel_getLast hq⟩
  | anyLongest =>
    have hlt : Config.tieChoice draw p % qs.length < qs.length := Nat.mod_lt _ (List.length_pos_iff.mpr hne)
    refine ⟨?_, nofun⟩
    unfold chooseLink
    rw [List.getD_eq_getElem _ _ hlt]
    exact List.getElem_mem hlt

/-- The slot of a build meets the contract (R175, R176). -/
theorem slotFor_contract (mode : MfMode) (draw : Nat) (d : List Byte) (c p : Nat) (hp : p ≤ d.length) (hc : 2 ≤ c) :
    SlotContract mode d c p (slotFor mode draw d c p) := by
  obtain ⟨hmem, hmax⟩ := bestScore_spec (scores d c p)
  have hbest : ∀ q < p, score d c p q ≤ bestScore (scores d c p) := fun q hq =>
    hmax _ (List.mem_of_getElem? (i := q) (by rw [scores_getElem?, if_pos hq]))
  have hagree : ∀ q < p, ∀ k, k ≤ c → Agrees d p q k → k ≤ bestScore (scores d c p) := fun q hq k hk hag =>
    Nat.le_trans ((le_score_iff d c p q k hq hp).mpr ⟨hk, hag⟩) (hbest q hq)
  unfold slotFor
  dsimp only
  generalize bestScore (scores d c p) = m at hmem hbest hagree
  have hholds : ∀ q, q ∈ holders m 0 (scores d c p) ↔ q < p ∧ score d c p q = m := by
    intro q
    rw [mem_holders, Nat.sub_zero, scores_getElem?]
    by_cases hq : q < p <;> simp [hq]
  split
  · next hm =>
    intro q hq hag
    have := hagree q hq 2 hc hag
    unfold matchLenMin at hm
    omega
  · next hm =>
    unfold matchLenMin at hm
    have hscore : m ∈ scores d c p := (List.mem_cons.mp hmem).resolve_left (by omega)
    obtain ⟨q₀, hq₀⟩ := List.getElem?_of_mem hscore
    have hne : holders m 0 (scores d c p) ≠ [] := List.ne_nil_of_mem ((mem_holders m _ 0 q₀).mpr ⟨Nat.zero_le _, hq₀⟩)
    obtain ⟨hlink, hnear⟩ := chooseLink_spec mode draw p _ hne (holders_pairwise m _ 0)
    generalize chooseLink mode draw p (holders m 0 (scores d c p)) = link at hlink hnear
    obtain ⟨hlt, hsc⟩ := (hholds link).mp hlink
    obtain ⟨hmc, hag⟩ := (le_score_iff d c p link m hlt hp).mp (Nat.le_of_eq hsc.symm)
    refine ⟨hlt, by omega, hmc, hag, hagree, fun hmode q hq hgt hagq => ?_⟩
    have hle := (le_score_iff d c p q m hq hp).mpr ⟨hmc, hagq⟩
    have hq' := hnear hmode q ((hholds q).mpr ⟨hq, Nat.le_antisymm (hbest q hq) hle⟩)
    omega

/-! ## Storage (R170 to R172) -/

/-- A slot that both the packed word and the structured pair can hold apart from null. -/
def Slot.Fits (isStruct : Bool) : Slot → Prop
  | .null => True
  | .entry link len =>
    if isStruct then link < 2 ^ 32 - 1 ∧ len < 2 ^ 8 else link < 2 ^ linkBits - 1 ∧ len < 2 ^ 6

theorem Slot.ofWord_toWord (x : Slot) (h : x.Fits false) : Slot.ofWord x.toWord = x := by
  cases x with
  | null => rfl
  | entry link len =>
    obtain ⟨hlink, hlen⟩ := h
    unfold linkBits at hlink
    have hw : (BitVec.ofNat 32 (link + len * 2 ^ 26)).toNat = link + len * 2 ^ 26 := by
      rw [BitVec.toNat_ofNat, Nat.mod_eq_of_lt (by omega)]
    have hne : BitVec.ofNat 32 (link + len * 2 ^ 26) ≠ nullWord := by
      intro he
      have := congrArg BitVec.toNat he
      rw [hw, show nullWord.toNat = 2 ^ 32 - 1 by decide] at this
      omega
    unfold Slot.ofWord Slot.toWord linkBits
    rw [if_neg hne, hw, Slot.entry.injEq]
    omega

theorem Slot.ofPair_toPair (x : Slot) (h : x.Fits true) : Slot.ofPair x.linkWord x.lenByte = x := by
  cases x with
  | null => rfl
  | entry link len =>
    obtain ⟨hlink, hlen⟩ := h
    have hw : (BitVec.ofNat 32 link).toNat = link := by rw [BitVec.toNat_ofNat, Nat.mod_eq_of_lt (by omega)]
    have hne : BitVec.ofNat 32 link ≠ nullWord := by
      intro he
      have := congrArg BitVec.toNat he
      rw [hw, show nullWord.toNat = 2 ^ 32 - 1 by decide] at this
      omega
    unfold Slot.ofPair Slot.linkWord Slot.lenByte
    rw [if_neg hne, hw, BitVec.toNat_ofNat, Nat.mod_eq_of_lt hlen]

/-- The place of slot `p` in the units that hold a list of slots. -/
theorem unitsOfSlots_slot (slots : List Slot) : ∀ p (x : Slot), slots[p]? = some x →
    ∃ u, (unitsOfSlots slots)[p / 4]? = some u ∧ u.slot (p % 4) = .ofPair x.linkWord x.lenByte := by
  induction slots using unitsOfSlots.induct with
  | case1 a b c d rest ih =>
    intro p x hx
    match p with
    | 0 | 1 | 2 | 3 => exact ⟨_, rfl, by simp_all [TableUnit.slot, TableUnit.ofSlots]⟩
    | q + 4 =>
      rw [Nat.add_div_right _ (by decide), Nat.add_mod_right]
      exact ih q x hx
  | case2 a b c =>
    intro p x hx
    match p with
    | 0 | 1 | 2 => exact ⟨_, rfl, by simp_all [TableUnit.slot, TableUnit.ofSlots]⟩
    | q + 3 => simp at hx
  | case3 a b =>
    intro p x hx
    match p with
    | 0 | 1 => exact ⟨_, rfl, by simp_all [TableUnit.slot, TableUnit.ofSlots]⟩
    | q + 2 => simp at hx
  | case4 a =>
    intro p x hx
    match p with
    | 0 => exact ⟨_, rfl, by simp_all [TableUnit.slot, TableUnit.ofSlots]⟩
    | q + 1 => simp at hx
  | case5 => exact fun p x hx => by simp at hx

/-- Storage gives back a slot that fits its form. -/
theorem Storage.slot_ofSlots (isStruct : Bool) (slots : List Slot) (p : Nat) (x : Slot) (hx : slots[p]? = some x)
    (hfit : x.Fits isStruct) : (Storage.ofSlots isStruct slots).slot p = x := by
  cases isStruct with
  | false =>
    have hw : (slots.map Slot.toWord)[p]? = some x.toWord := by rw [List.getElem?_map, hx, Option.map_some]
    simp only [Storage.ofSlots, Storage.slot, hw, Bool.false_eq_true, if_false]
    exact x.ofWord_toWord hfit
  | true =>
    obtain ⟨u, hu, hslot⟩ := unitsOfSlots_slot slots p x hx
    simp only [Storage.ofSlots, Storage.slot, hu, if_true]
    rw [hslot]
    exact x.ofPair_toPair hfit

/-! ## A build (R181) -/

/-- The table's size and form (R39, R180). -/
def Table.Sized (t : Table) : Prop :=
  t.created = true →
    dictSizeMin ≤ t.size.toNat ∧ t.size.toNat ≤ dictSizeMax ∧ (t.isStruct = true ↔ 2 ^ linkBits < t.size.toNat)

/-- A slot under contract in a table of this size and cap fits its form. -/
theorem SlotContract.fits {mode : MfMode} {d : List Byte} {c p size : Nat} {isStruct : Bool} {x : Slot}
    (h : SlotContract mode d c p x) (hp : p < size) (hsize : size ≤ dictSizeMax)
    (hstruct : isStruct = true ↔ 2 ^ linkBits < size) (hc : c ≤ lenFieldMax isStruct) : x.Fits isStruct := by
  cases x with
  | null => trivial
  | entry link len =>
    obtain ⟨hlink, -, hlen, -⟩ := h
    unfold dictSizeMax at hsize
    unfold linkBits at hstruct
    cases isStruct with
    | false =>
      have hle : ¬ 2 ^ 26 < size := fun hgt => Bool.noConfusion (hstruct.mpr hgt)
      have hc' : c ≤ 63 := hc
      change link < 2 ^ 26 - 1 ∧ len < 2 ^ 6
      omega
    | true =>
      have hc' : c ≤ 255 := hc
      change link < 2 ^ 32 - 1 ∧ len < 2 ^ 8
      omega

theorem State.buildCap_bounds (s : State) (hmin : depthMin ≤ s.cfg.depth) :
    depthMin ≤ s.buildCap ∧ s.buildCap ≤ lenFieldMax s.table.isStruct ∧ (BitVec.ofNat 32 s.buildCap).toNat = s.buildCap := by
  have hfield : depthMin ≤ lenFieldMax s.table.isStruct ∧ lenFieldMax s.table.isStruct ≤ 255 := by
    cases s.table.isStruct <;> decide
  have hle : s.buildCap ≤ lenFieldMax s.table.isStruct := Nat.min_le_right _ _
  refine ⟨Nat.le_min.mpr ⟨hmin, hfield.1⟩, hle, ?_⟩
  rw [BitVec.toNat_ofNat, Nat.mod_eq_of_lt (by omega)]

/-- Every slot of a build reads back under contract (R175, R176). -/
theorem State.builtTable_slot (s : State) (hsized : s.table.Sized) (hcreated : s.table.created = true)
    (hmin : depthMin ≤ s.cfg.depth) (hend : s.cfg.blkEnd.toNat ≤ s.table.size.toNat) (p : Nat)
    (hp : p < s.cfg.blkEnd.toNat) :
    SlotContract s.params.mfMode (Memory.readBytes s.dict 0 s.cfg.blkEnd.toNat) s.buildCap p (s.builtTable.slot p) := by
  obtain ⟨-, hmax, hstruct⟩ := hsized hcreated
  obtain ⟨hcap, hfield, -⟩ := s.buildCap_bounds hmin
  have hlen := Memory.readBytes_length s.dict 0 s.cfg.blkEnd.toNat
  have hslot := slotFor_contract s.params.mfMode s.draws (Memory.readBytes s.dict 0 s.cfg.blkEnd.toNat) s.buildCap p
    (by omega) (by unfold depthMin at hcap; omega)
  have hread : s.builtTable.slot p
      = slotFor s.params.mfMode s.draws (Memory.readBytes s.dict 0 s.cfg.blkEnd.toNat) s.buildCap p := by
    refine Storage.slot_ofSlots _ _ _ _ ?_ (hslot.fits (Nat.lt_of_lt_of_le hp hend) hmax hstruct hfield)
    unfold buildSlots
    rw [hlen, List.getElem?_map, List.getElem?_range hp, Option.map_some]
  rw [hread]
  exact hslot

/-! ## Every step -/

variable {i : Instr} {s t u : State}

/-- The contract speaks of the table, the parameters and `DICT` alone. -/
theorem State.TableContract.of_eq (h : s.TableContract) (htable : t.table = s.table) (hparams : t.params = s.params)
    (hdict : t.dict = s.dict) : t.TableContract := by
  unfold State.TableContract at h ⊢
  rwa [htable, hparams, hdict]

/-- A table that is not valid has its size and form to keep, no more. -/
theorem State.TableContract.of_invalid (h : t.table.Sized) (hv : t.table.valid = false) : t.TableContract :=
  ⟨h, fun hvalid => Bool.noConfusion (hv.symm.trans hvalid)⟩

theorem State.createdTable_sized (s : State) (h : s.cfg.dictSizeLegal = true) : s.createdTable.Sized := by
  simp only [Cfg.dictSizeLegal, Bool.and_eq_true, decide_eq_true_eq] at h
  exact fun _ => ⟨h.1, h.2, decide_eq_true_iff⟩

theorem Effect.tableContract (h : Effect i s u) (hs : s.TableContract) : u.TableContract := by
  obtain ⟨hsized, -⟩ := id hs
  obtain ⟨hparams, -, -, hdict, -⟩ := h.keepsHostState
  rcases h.table_cases with ht | ⟨-, hsize, ht⟩ | ⟨-, hcreated, ⟨hmin, -⟩, hend, hcap, ht⟩ | ⟨-, ht⟩
  · exact hs.of_eq ht hparams hdict
  · exact .of_invalid (ht ▸ s.createdTable_sized hsize) (ht ▸ rfl)
  · obtain ⟨hlo, hhi, hval⟩ := s.buildCap_bounds hmin
    unfold State.TableContract
    rw [ht, hparams, hdict]
    refine ⟨hsized, fun _ => ⟨hcreated, hend, hcap, ?_, ?_, fun p hp => ?_⟩⟩
    · exact hlo.trans_eq hval.symm
    · exact hval.trans_le hhi
    · have hslot := s.builtTable_slot hsized hcreated hmin hend p hp
      rw [← hval] at hslot
      exact hslot
  · exact .of_invalid (ht ▸ hsized) (ht ▸ rfl)

theorem exec_tableContract (hs : s.TableContract) (h : exec i s = .next t) : t.TableContract := by
  rcases exec_completes i s t h with ⟨u, hu, rfl⟩ | ⟨c, -, rfl⟩ | ⟨-, rfl⟩
  · have hu := hu.tableContract hs
    exact hu
  · exact hs
  · exact .of_invalid hs.1 rfl

theorem State.writeReg_tableContract (r : Reg) (v : Word) (hs : s.TableContract) : (s.writeReg r v).TableContract := by
  cases r <;> exact hs

/-- A byte written to `DICT` at or past `TABLE_END` is none that the contract speaks of; one below ends the contract
(R87). -/
theorem State.writeDict_tableContract (a : Nat) (bytes : List Byte) (hs : s.TableContract) :
    (s.writeDict a bytes).TableContract := by
  obtain ⟨hsized, hvalid⟩ := id hs
  by_cases ha : a < s.table.fin.toNat
  · exact .of_invalid hsized (by simp [State.writeDict, ha])
  · have hbytes : Memory.readBytes (s.writeDict a bytes).dict 0 s.table.fin.toNat
        = Memory.readBytes s.dict 0 s.table.fin.toNat :=
      Memory.readBytes_congr _ _ _ _ fun j hj => Memory.read_writeBytes_outside _ _ _ _ (by omega)
    refine ⟨hsized, fun hv => ?_⟩
    obtain ⟨h1, h2, h3, h4, h5, hslots⟩ := hvalid (Bool.and_eq_true_iff.mp hv).1
    refine ⟨h1, h2, h3, h4, h5, fun p hp => ?_⟩
    have hslot := hslots p hp
    rw [← hbytes] at hslot
    exact hslot

theorem State.hostWrite_tableContract (sp : Space) (a : Nat) (n : AccessSize) (v : Word) (hs : s.TableContract) :
    (s.hostWrite sp a n v).TableContract := by
  rcases hostWrite_cases s sp a n v with ⟨-, h⟩ | ⟨-, -, h⟩
  · rw [h]
    exact hs
  · rcases h with ⟨-, h⟩ | ⟨-, -, h⟩ | ⟨-, -, h⟩ | ⟨-, -, r, -, -, -, h⟩ | ⟨-, -, L, r, l, -, -, h⟩ | ⟨-, -, h⟩
      | ⟨-, -, h⟩ | ⟨-, -, h⟩ <;> rw [h]
    · exact hs
    · exact hs
    · exact hs
    · exact State.writeReg_tableContract r v hs
    · exact hs
    · exact hs
    · exact State.writeDict_tableContract a _ hs
    · exact hs

theorem sequencerTurn_tableContract (hs : s.TableContract) (h : sequencerTurn s = .next t) : t.TableContract := by
  rcases sequencerTurn_cases s t h with ⟨-, rfl⟩ | ⟨w, i, -, -, h⟩ | ⟨w, e, -, -, rfl⟩
  · exact hs
  · exact exec_tableContract hs h
  · exact hs

theorem step_tableContract (hs : s.TableContract) (h : step s = .next t) : t.TableContract := by
  rcases step_cases s t h with ⟨sp, a, n, rest, -, rfl⟩ | ⟨sp, a, n, v, rest, -, rfl⟩ | ⟨rest, -, rfl⟩ | ⟨rest, -, rfl⟩
    | ⟨-, h⟩ | ⟨rest, -, h⟩
  · exact hs
  · exact State.hostWrite_tableContract (s := { s with inputs := rest }) sp a n v hs
  · exact .of_invalid nofun rfl
  · exact hs
  · exact sequencerTurn_tableContract hs h
  · exact sequencerTurn_tableContract (s := { s with inputs := rest }) hs h

end Sys2Proof.Machine

open Sys2Proof Sys2Proof.Machine

/-- Settles O27: a build meets the contract, and every other step keeps the table, invalidates it, or leaves the bytes
below `TABLE_END`. -/
theorem tableContractKept : Obligations.TableContractKept := fun _ _ hs h => step_tableContract hs h

end

section
/-! PROOFS. No command reads what the spec leaves undefined (10_state.md R55, R56, R60): from a state and from its defined
part a command ends in the same defined part. -/

namespace Sys2Proof.Machine

/-! ## Defined parts -/

/-- A table without the slots it does not define (R60). -/
def Table.definedPart (t : Table) : Table := if t.valid then t else { t with storage := .packed [] }

theorem Table.definedPart_valid (t : Table) (h : t.valid = true) : t.definedPart = t := if_pos h

@[simp] theorem Table.valid_definedPart (t : Table) : t.definedPart.valid = t.valid := by
  unfold Table.definedPart
  split <;> rfl

@[simp] theorem Table.created_definedPart (t : Table) : t.definedPart.created = t.created := by
  unfold Table.definedPart
  split <;> rfl

@[simp] theorem Table.isStruct_definedPart (t : Table) : t.definedPart.isStruct = t.isStruct := by
  unfold Table.definedPart
  split <;> rfl

@[simp] theorem Table.size_definedPart (t : Table) : t.definedPart.size = t.size := by
  unfold Table.definedPart
  split <;> rfl

@[simp] theorem Table.fin_definedPart (t : Table) : t.definedPart.fin = t.fin := by
  unfold Table.definedPart
  split <;> rfl

theorem Table.definedPart_definedPart (t : Table) : t.definedPart.definedPart = t.definedPart := by
  cases h : t.valid <;> simp [Table.definedPart, h]

theorem Lane.definedPart_definedPart (l : Lane) : l.definedPart.definedPart = l.definedPart := by
  cases hi : l.init <;> cases hv : l.snapValid <;> simp [Lane.definedPart, hi, hv]

theorem Lane.prob_definedPart (l : Lane) (h : l.init = true) : l.definedPart.prob = l.prob := if_pos h

theorem map_definedPart_definedPart (lanes : List Lane) :
    (lanes.map Lane.definedPart).map Lane.definedPart = lanes.map Lane.definedPart := by
  rw [List.map_map]
  exact List.map_congr_left fun l _ => l.definedPart_definedPart

theorem State.definedPart_lanes (s : State) : s.definedPart.lanes = s.lanes.map Lane.definedPart := rfl

theorem State.definedPart_table (s : State) : s.definedPart.table = s.table.definedPart := rfl

/-- Two states have one defined part if their lanes, their tables and all the rest do. -/
theorem State.definedPart_congr {u v : State} (hlanes : u.lanes.map Lane.definedPart = v.lanes.map Lane.definedPart)
    (htable : u.table.definedPart = v.table.definedPart)
    (hrest : { u with lanes := [], table := u.table.definedPart } = { v with lanes := [], table := u.table.definedPart }) :
    u.definedPart = v.definedPart := by
  have h := congrArg (fun w : State => { w with lanes := u.lanes.map Lane.definedPart }) hrest
  change u.definedPart = { v with lanes := u.lanes.map Lane.definedPart, table := u.table.definedPart } at h
  rw [hlanes, htable] at h
  exact h

theorem State.definedPart_definedPart (s : State) : s.definedPart.definedPart = s.definedPart :=
  State.definedPart_congr (map_definedPart_definedPart s.lanes) s.table.definedPart_definedPart
    (by rw [State.definedPart_table, Table.definedPart_definedPart]; rfl)

/-! ## The three completions -/

/-- From a state and from its defined part the computation ends alike, in the same defined part. -/
def Blind (body : State → Except Halt State) : Prop :=
  ∀ s : State, Alike (fun _ => True) (fun u v => u.definedPart = v.definedPart) (body s) (body s.definedPart)

theorem State.faultCommit_definedPart (s : State) (w : Word) (c : Code) :
    (s.definedPart.faultCommit w c).definedPart = (s.faultCommit w c).definedPart :=
  congrArg (State.faultCommit · w c) s.definedPart_definedPart

theorem contextReset_definedPart (s : State) : s.definedPart.contextReset.definedPart = s.contextReset.definedPart := by
  refine State.definedPart_congr ?_ ?_ ?_
  · change ((s.lanes.map Lane.definedPart).map Lane.contextReset).map Lane.definedPart
      = (s.lanes.map Lane.contextReset).map Lane.definedPart
    simp only [List.map_map]
    exact List.map_congr_left fun l _ => rfl
  · unfold State.contextReset
    rw [State.definedPart_table]
    unfold Table.definedPart
    split <;> rfl
  · rfl

theorem State.cancelCommit_definedPart (s : State) :
    s.definedPart.cancelCommit.definedPart = s.cancelCommit.definedPart :=
  (congrArg (fun w : State =>
    { w.release with status := { s.status with canceled := true, code := .canceled } })
    (contextReset_definedPart s.clearRes) :)

/-- A command whose computation is blind to undefined contents ends in one defined part (R355). -/
theorem Blind.conclude {body : State → Except Halt State} (h : Blind body) (i : Instr) (s : State) :
    outcomeDefinedPart (conclude i s body) = outcomeDefinedPart (conclude i s.definedPart body) := by
  unfold Machine.conclude
  have hs := h s.clearRes
  change Alike _ _ (body s.clearRes) (body s.definedPart.clearRes) at hs
  generalize body s.clearRes = x at hs
  generalize body s.definedPart.clearRes = y at hs
  cases hs with
  | ok huv => exact congrArg (fun w : State => Host.Outcome.next w.complete) huv
  | @error halt _ =>
    cases halt with
    | fault c => exact congrArg Host.Outcome.next (s.faultCommit_definedPart _ c).symm
    | canceled => exact congrArg Host.Outcome.next s.cancelCommit_definedPart.symm
    | neverEnds => rfl

/-! ## Checks -/

section
variable {A B C D : Type} {s : State} {L : Nat}

/-- After the same check on both sides. -/
theorem Alike.check {S : C → D → Prop} {ok ok' : Bool} {c : Code} {f : Unit → Except Halt C} {g : Unit → Except Halt D}
    (hok : ok' = ok) (h : ok = true → Alike (fun _ => True) S (f ()) (g ())) :
    Alike (fun _ => True) S (check ok c >>= f) (check ok' c >>= g) := by
  subst hok
  cases ok' with
  | true => exact h rfl
  | false => exact .error trivial

theorem Alike.pure {S : C → D → Prop} {a : C} {b : D} (h : S a b) : Alike (fun _ => True) S (.ok a) (.ok b) := .ok h

/-- What a command finds where it asks for a lane. -/
def Found (s : State) (L : Nat) (l l' : Lane) : Prop := s.lanes[L]? = some l ∧ l' = l.definedPart

theorem getLane_blind (s : State) (L : Nat) : Alike (fun _ => True) (Found s L) (s.getLane L) (s.definedPart.getLane L) := by
  unfold State.getLane
  rw [State.definedPart_lanes, List.getElem?_map]
  cases h : s.lanes[L]? with
  | none => exact .error trivial
  | some l => exact .ok ⟨h, rfl⟩

theorem windowLane_blind (s : State) (L : Nat) :
    Alike (fun _ => True) (Found s L) (s.windowLane L) (s.definedPart.windowLane L) := by
  refine (getLane_blind s L).bind ?_
  rintro l _ ⟨hl, rfl⟩
  exact .check rfl fun _ => .pure ⟨hl, rfl⟩

theorem codingLane_blind (s : State) (L : Nat) :
    Alike (fun _ => True) (fun l l' => Found s L l l' ∧ l.init = true) (s.codingLane L) (s.definedPart.codingLane L) := by
  refine (windowLane_blind s L).bind ?_
  rintro l _ ⟨hl, rfl⟩
  exact .check rfl fun hi => .pure ⟨⟨hl, rfl⟩, hi⟩

theorem symbolLane_blind (s : State) (L : Nat) :
    Alike (fun _ => True) (fun l l' => Found s L l l' ∧ l.init = true) (s.symbolLane L) (s.definedPart.symbolLane L) := by
  refine (codingLane_blind s L).bind ?_
  rintro l _ ⟨⟨hl, rfl⟩, hi⟩
  exact .check rfl fun _ => .pure ⟨⟨hl, rfl⟩, hi⟩

theorem probLane_blind (s : State) (L : Nat) :
    Alike (fun _ => True) (fun l l' => Found s L l l' ∧ l.init = true) (s.probLane L) (s.definedPart.probLane L) := by
  refine (getLane_blind s L).bind ?_
  rintro l _ ⟨hl, rfl⟩
  exact .check rfl fun hi => .check rfl fun _ => .pure ⟨⟨hl, rfl⟩, hi⟩

/-- A query finds a valid table, which is defined (R189 to R191). -/
theorem queryPos_blind (s : State) :
    Alike (fun _ => True) (fun p p' => p' = p ∧ s.definedPart.table = s.table) s.queryPos s.definedPart.queryPos := by
  refine .check s.table.valid_definedPart fun hv => .check ?_ fun _ => .pure ⟨rfl, s.table.definedPart_valid hv⟩
  rw [State.definedPart_table, Table.fin_definedPart]
  rfl

theorem cancelPoint_blind (s : State) :
    Alike (fun _ => True) (fun _ _ => True) s.cancelPoint s.definedPart.cancelPoint :=
  .ite (fun _ => .error trivial) fun _ => .ok trivial

theorem tableFits_definedPart (s : State) : s.definedPart.tableFits = s.tableFits := by
  unfold State.tableFits
  rw [State.definedPart_table, Table.valid_definedPart, Table.fin_definedPart]
  rfl

/-- With a fitting table, which is valid and so defined, a chunk reads nothing undefined beside its lane (R260). -/
theorem chunkCtx_definedPart (s : State) (h : s.tableFits = true) : s.definedPart.chunkCtx = s.chunkCtx := by
  have htable : s.definedPart.table = s.table := s.table.definedPart_valid (Bool.and_eq_true_iff.mp h).1
  unfold State.chunkCtx State.parseCtx
  rw [htable]
  rfl

/-! ## Commits -/

theorem Blind.setRes {u v : State} (h : u.definedPart = v.definedPart) (a b c : Nat) :
    (u.setRes a b c).definedPart = (v.setRes a b c).definedPart := congrArg (State.setRes · a b c) h

theorem Blind.consume {u v : State} (h : u.definedPart = v.definedPart) (n : Nat) :
    (u.consume n).definedPart = (v.consume n).definedPart := congrArg (State.consume · n) h

theorem setLane_definedPart (s : State) (L : Nat) {l l' : Lane} (h : l'.definedPart = l.definedPart) :
    (s.setLane L l).definedPart = (s.definedPart.setLane L l').definedPart := by
  refine State.definedPart_congr ?_ s.table.definedPart_definedPart.symm ?_
  · simp only [State.setLane_lanes, State.definedPart_lanes, List.map_set, map_definedPart_definedPart, h]
  · rfl

theorem writeOut_blind {u v : State} (h : u.definedPart = v.definedPart) (bytes : List Byte) :
    Alike (fun _ => True) (fun a b => a.definedPart = b.definedPart) (u.writeOut bytes) (v.writeOut bytes) := by
  refine .check (congrArg (fun w : State => decide (w.outPos.toNat + bytes.length ≤ w.cfg.outLimit.toNat)) h.symm :)
    fun _ => .pure ?_
  exact (congrArg (fun w : State => { w with
    out := Memory.writeBytes w.out w.outPos.toNat bytes
    outPos := BitVec.ofNat 32 (w.outPos.toNat + bytes.length)
    counters := { w.counters with produced := w.counters.produced + BitVec.ofNat 64 bytes.length } }) h :)

/-! ## Coding on a lane's window -/

/-- Two coders that emitted the same, on lanes with one defined part. -/
def Enc.SameDefined (e e' : Enc) : Prop := e'.rev = e.rev ∧ e'.lane.definedPart = e.lane.definedPart

theorem Enc.SameDefined.setPos {e e' : Enc} (h : e.SameDefined e') (p : Nat) : (e.setPos p).SameDefined (e'.setPos p) :=
  ⟨h.1, congrArg (fun l : Lane => { l with pos := BitVec.ofNat 32 p }) h.2⟩

theorem commitWindow_definedPart (s : State) (L : Nat) {e e' : Enc} (h : e.SameDefined e') :
    (s.commitWindow L e).definedPart = (s.definedPart.commitWindow L e').definedPart := by
  obtain ⟨hrev, hlane⟩ := h
  have hbase : e'.lane.outBase = e.lane.outBase := (congrArg Lane.outBase hlane :)
  have hlen : e'.lane.outLen = e.lane.outLen := (congrArg Lane.outLen hlane :)
  unfold State.commitWindow Enc.bytes
  rw [hrev, hbase, hlen]
  have hset := setLane_definedPart s L (l := { e.lane with outLen := BitVec.ofNat 32 (e.lane.outLen.toNat + e.rev.length) })
    (l' := { e'.lane with outLen := BitVec.ofNat 32 (e.lane.outLen.toNat + e.rev.length) })
    (congrArg (fun l : Lane => { l with outLen := BitVec.ofNat 32 (e.lane.outLen.toNat + e.rev.length) }) hlane :)
  exact (congrArg (fun w : State => { w with
    out := Memory.writeBytes s.out (e.lane.outBase.toNat + e.lane.outLen.toNat) e.rev.reverse }) hset :)

/-- The coding state grafted on the defined part of a lane that is otherwise the same has the same defined part. -/
theorem Lane.graft_definedPart (l m : Lane) (h : l.uncoded = m.uncoded) :
    (l.graft m.definedPart).definedPart = l.definedPart := by
  change (l.graft { m.uncoded with
    snap := if m.uncoded.snapValid then m.uncoded.snap else .reset, stage := [] }).definedPart = l.definedPart
  rw [← h]
  change ({ l with snap := if l.snapValid then l.snap else .reset, stage := [] } : Lane).definedPart = l.definedPart
  cases hv : l.snapValid <;> simp [Lane.definedPart, hv]

/-- On an initialised lane, whose words are defined, a coding operation reads nothing undefined (R55). -/
theorem Coding.blind {f : Enc → Except Halt Enc} (hf : Coding f) (l : Lane) (hi : l.init = true) :
    Alike (fun _ => True) Enc.SameDefined (f l.windowEnc) (f l.definedPart.windowEnc) := by
  have hstart : l.definedPart.windowEnc = l.windowEnc.graft l.definedPart := by
    simp only [Lane.windowEnc, Enc.graft, Lane.graft, Lane.definedPart, hi, if_true]
  rw [hstart]
  refine (hf.grafts l.windowEnc).imp ?_ fun _ _ => trivial
  rintro a _ ⟨rfl, ha⟩
  exact ⟨rfl, Lane.graft_definedPart a.lane l ha⟩

/-- An operation that moves the coder registers alone reads nothing undefined on any lane (R147, R153). -/
theorem Moves.blind {f : Enc → Except Halt Enc} (hf : ∀ m e, Moves m e (f e) (f (e.onto m))) (l : Lane) :
    Alike (fun _ => True) Enc.SameDefined (f l.windowEnc) (f l.definedPart.windowEnc) := by
  refine (hf l.definedPart l.windowEnc).imp ?_ fun _ _ => trivial
  rintro a _ ⟨rfl, ha⟩
  refine ⟨rfl, ?_⟩
  rw [ha]
  exact congrArg (fun m : Lane => { m with rc := a.lane.rc }) l.definedPart_definedPart

/-- The commit of a window, after operations that end alike. -/
theorem window_blind {x y : Except Halt Enc} (h : Alike (fun _ => True) Enc.SameDefined x y) :
    Alike (fun _ => True) (fun u v => u.definedPart = v.definedPart) (x >>= fun e => .ok (s.commitWindow L e))
      (y >>= fun e => .ok (s.definedPart.commitWindow L e)) :=
  h.bind fun _ _ he => .pure (commitWindow_definedPart s L he)

/-- The commit of a symbol, after operations that end alike. -/
theorem symbol_blind (p : Nat) {x y : Except Halt Enc} (h : Alike (fun _ => True) Enc.SameDefined x y) :
    Alike (fun _ => True) (fun u v => u.definedPart = v.definedPart)
      (x >>= fun e => .ok (s.commitWindow L (e.setPos p))) (y >>= fun e => .ok (s.definedPart.commitWindow L (e.setPos p))) :=
  h.bind fun _ _ he => .pure (commitWindow_definedPart s L (he.setPos p))

end

/-! ## Chunks, slices and blocks -/

/-- Two lanes with one defined part that open to the same chunk, `STAGE` aside. -/
def OpensAlike (x : ChunkCtx) (l l' : Lane) : Prop :=
  l'.definedPart = l.definedPart ∧ l'.openChunk x = { l.openChunk x with stage := l'.stage }

/-- A lane that owes a state reset, or is initialised, opens as its defined part does (R284, R293). -/
theorem opensAlike_definedPart (x : ChunkCtx) (l : Lane) (h : l.pending = 0 → l.init = true) :
    OpensAlike x l l.definedPart := by
  refine ⟨l.definedPart_definedPart, ?_⟩
  unfold Lane.openChunk
  change ({ Lane.takeSnapshot (if l.pending = 0 then _ else _) with rc := .reset } : Lane) = _
  by_cases hp : l.pending = 0
  · simp [hp, Lane.takeSnapshot, Lane.definedPart, h hp]
  · simp only [hp, if_false]
    rfl

theorem opensAlike_stage (x : ChunkCtx) (l : Lane) (g : List Byte) : OpensAlike x l { l with stage := g } := by
  refine ⟨rfl, ?_⟩
  unfold Lane.openChunk
  by_cases hp : l.pending = 0
  · rw [if_pos hp, if_pos hp]
    rfl
  · rw [if_neg hp, if_neg hp]
    rfl

/-- Lanes that open alike have the same chunk, `STAGE` aside. -/
theorem encChunk_blind (x : ChunkCtx) {l l' : Lane} (h : OpensAlike x l l') :
    Alike (fun _ => True) (fun c c' => c' = c.withStage l'.stage) (encChunk x l) (encChunk x l') := by
  obtain ⟨hdef, hopen⟩ := h
  have hpos : l'.pos = l.pos := (congrArg Lane.pos hdef :)
  have hend : l'.sliceEnd = l.sliceEnd := (congrArg Lane.sliceEnd hdef :)
  exact (encChunk_alike x l l' hpos hend hopen).imp (fun _ _ hc => hc.1) fun _ _ => trivial

/-- Two slice results with one defined part. -/
def SliceResult.SameDefined (r r' : SliceResult) : Prop :=
  r'.lane.definedPart = r.lane.definedPart ∧ r'.bytes = r.bytes ∧ r'.chunks = r.chunks

theorem encSliceFrom_blind (x : ChunkCtx) (cap : Option Nat) (fuel : Nat) : ∀ r r' : SliceResult,
    OpensAlike x r.lane r'.lane → r'.bytes = r.bytes → r'.chunks = r.chunks →
    Alike (fun _ => True) SliceResult.SameDefined (encSliceFrom x cap fuel r) (encSliceFrom x cap fuel r') := by
  induction fuel with
  | zero =>
    intro r r' h hbytes hchunks
    have hpos : r'.lane.pos = r.lane.pos := (congrArg Lane.pos h.1 :)
    have hend : r'.lane.sliceEnd = r.lane.sliceEnd := (congrArg Lane.sliceEnd h.1 :)
    unfold encSliceFrom
    rw [hpos, hend]
    exact .ite (fun _ => .error trivial) fun _ => .ok ⟨h.1, hbytes, hchunks⟩
  | succ fuel ih =>
    intro r r' h hbytes hchunks
    have hpos : r'.lane.pos = r.lane.pos := (congrArg Lane.pos h.1 :)
    have hend : r'.lane.sliceEnd = r.lane.sliceEnd := (congrArg Lane.sliceEnd h.1 :)
    unfold encSliceFrom
    rw [hpos, hend, hbytes, hchunks]
    refine .ite (fun _ => (encChunk_blind x h).bind ?_) fun _ => .ok ⟨h.1, hbytes, hchunks⟩
    rintro c _ rfl
    exact .check rfl fun _ => ih _ _ (opensAlike_stage x c.lane _) rfl rfl

/-- An opened slice owes a state reset, so that none of the lane's undefined contents is read (R290, R300). -/
theorem encSlice_blind (x : ChunkCtx) (cap : Option Nat) (l : Lane) (dr : Bool) :
    Alike (fun _ => True) SliceResult.SameDefined (encSlice x cap (l.openSlice dr))
      (encSlice x cap (l.definedPart.openSlice dr)) := by
  have hpend : (l.openSlice dr).pending = 0 → (l.openSlice dr).init = true := by
    intro h
    cases dr <;> cases h
  exact encSliceFrom_blind x cap _ _ _ (opensAlike_definedPart x (l.openSlice dr) hpend) rfl rfl

/-- Two block results with one defined part. -/
def BlockResult.SameDefined (r r' : BlockResult) : Prop :=
  r'.lanes.map Lane.definedPart = r.lanes.map Lane.definedPart ∧ r'.bytes = r.bytes ∧ r'.chunks = r.chunks

theorem encLanes_blind (x : ChunkCtx) (cap : Nat) (slices : List (Nat × Nat)) : ∀ dr lanes,
    Alike (fun _ => True) BlockResult.SameDefined (encLanes x cap dr slices lanes)
      (encLanes x cap dr slices (lanes.map Lane.definedPart)) := by
  induction slices with
  | nil => exact fun dr lanes => .ok ⟨map_definedPart_definedPart lanes, rfl, rfl⟩
  | cons ab slices ih =>
    intro dr lanes
    cases lanes with
    | nil => exact .error trivial
    | cons l lanes =>
      refine (encSlice_blind x _ { l with sliceStart := BitVec.ofNat 32 ab.1, sliceEnd := BitVec.ofNat 32 ab.2 } dr).bind ?_
      rintro r r' ⟨hlane, hbytes, hchunks⟩
      refine (ih false lanes).bind ?_
      rintro rest rest' ⟨hlanes, hrbytes, hrchunks⟩
      refine .pure ⟨?_, ?_, ?_⟩
      · have hhead := congrArg (fun m : Lane => { m with stage := [] }) hlane
        exact congrArg₂ List.cons hhead hlanes
      · rw [hbytes, hrbytes]
      · rw [hchunks, hrchunks]

/-! ## Every command -/

section
variable {L n : Nat}

/-- `s` and its defined part end in the same defined part after the command. -/
def ExecBlind (i : Instr) : Prop := ∀ s : State, outcomeDefinedPart (exec i s) = outcomeDefinedPart (exec i s.definedPart)

/-- A command is blind to undefined contents if its computation is. -/
theorem Blind.execBlind {i : Instr} {body : State → Except Halt State} (hexec : ∀ s, exec i s = Machine.conclude i s body)
    (h : Blind body) : ExecBlind i := by
  intro s
  rw [hexec, hexec]
  exact h.conclude i s

theorem execNop_blind : ExecBlind .nop := by
  refine Blind.execBlind (fun s => Eq.refl (execNop s)) ?_
  exact fun s => .pure s.definedPart_definedPart.symm

theorem execClear_blind : ExecBlind .clear := by
  refine Blind.execBlind (fun s => Eq.refl (execClear s)) ?_
  refine fun s => .pure ?_
  rw [contextReset_definedPart]

/-! ### Range coder commands -/

theorem execRcReset_blind : ExecBlind (.rcReset L) := by
  refine Blind.execBlind (fun s => Eq.refl (execRcReset L s)) ?_
  refine fun s => (windowLane_blind s L).bind ?_
  rintro l _ ⟨hl, rfl⟩
  exact .pure (setLane_definedPart s L (congrArg (fun m : Lane => { m with rc := .reset }) l.definedPart_definedPart :))

theorem execRcBit_blind (b : Bool) : ExecBlind (.rcBit L b) := by
  refine Blind.execBlind (fun s => Eq.refl (execRcBit L b s)) ?_
  refine fun s => (codingLane_blind s L).bind ?_
  rintro l _ ⟨⟨hl, rfl⟩, hi⟩
  exact .check rfl fun _ => window_blind (Coding.blind (.bit _ b) l hi)

theorem execRcTree_blind : ExecBlind (.rcTree L n) := by
  refine Blind.execBlind (fun s => Eq.refl (execRcTree L n s)) ?_
  refine fun s => (codingLane_blind s L).bind ?_
  rintro l _ ⟨⟨hl, rfl⟩, hi⟩
  exact .check rfl fun _ => .check rfl fun _ => window_blind (Coding.blind (.tree _ n _) l hi)

theorem execRcTreeRev_blind : ExecBlind (.rcTreeRev L n) := by
  refine Blind.execBlind (fun s => Eq.refl (execRcTreeRev L n s)) ?_
  refine fun s => (codingLane_blind s L).bind ?_
  rintro l _ ⟨⟨hl, rfl⟩, hi⟩
  exact .check rfl fun _ => .check rfl fun _ => window_blind (Coding.blind (.treeRev _ n _) l hi)

theorem execRcDirect_blind : ExecBlind (.rcDirect L n) := by
  refine Blind.execBlind (fun s => Eq.refl (execRcDirect L n s)) ?_
  refine fun s => (windowLane_blind s L).bind ?_
  rintro l _ ⟨hl, rfl⟩
  exact .check rfl fun _ => window_blind (Moves.blind (fun m e => encodeDirect_moves _ n e) l)

theorem execRcFlush_blind : ExecBlind (.rcFlush L) := by
  refine Blind.execBlind (fun s => Eq.refl (execRcFlush L s)) ?_
  refine fun s => (windowLane_blind s L).bind ?_
  rintro l _ ⟨hl, rfl⟩
  exact window_blind (Moves.blind (fun m e => flush_moves) l)

theorem execRcPrice_blind (b : Bool) : ExecBlind (.rcPrice b) := by
  refine Blind.execBlind (fun s => Eq.refl (execRcPrice b s)) ?_
  exact fun s => .check rfl fun _ => .pure (Blind.setRes s.definedPart_definedPart.symm _ 0 0)

/-! ### Match finder commands -/

theorem execMfCreate_blind : ExecBlind .mfCreate := by
  refine Blind.execBlind (fun s => Eq.refl (execMfCreate s)) ?_
  refine fun s => .check rfl fun _ => .check rfl fun _ => .pure ?_
  exact (congrArg (fun w : State => { w with table := s.createdTable.definedPart }) s.definedPart_definedPart.symm :)

theorem builtTable_definedPart (s : State) : s.definedPart.builtTable = s.builtTable := by
  unfold State.builtTable State.buildCap
  rw [State.definedPart_table, Table.isStruct_definedPart]
  unfold Table.definedPart
  split <;> rfl

theorem execMfBuild_blind : ExecBlind .mfBuild := by
  refine Blind.execBlind (fun s => Eq.refl (execMfBuild s)) ?_
  refine fun s => .check s.table.created_definedPart fun _ => .check rfl fun _ =>
    .check ?_ fun _ => (cancelPoint_blind s).bind fun _ _ _ => .pure ?_
  · rw [State.definedPart_table, Table.size_definedPart]
    rfl
  · change ({ s with table := s.builtTable } : State).definedPart
      = ({ s.definedPart with table := s.definedPart.builtTable } : State).definedPart
    rw [builtTable_definedPart]
    exact (congrArg (fun w : State => { w with table := s.builtTable.definedPart }) s.definedPart_definedPart.symm :)

theorem execMfGetMatch_blind : ExecBlind .mfGetMatch := by
  refine Blind.execBlind (fun s => Eq.refl (execMfGetMatch s)) ?_
  refine fun s => (queryPos_blind s).bind ?_
  rintro p _ ⟨rfl, htable⟩
  rw [htable]
  exact .pure (Blind.setRes s.definedPart_definedPart.symm _ _ 0)

theorem execMfGetNextMatch_blind : ExecBlind .mfGetNextMatch := by
  refine Blind.execBlind (fun s => Eq.refl (execMfGetNextMatch s)) ?_
  refine fun s => (queryPos_blind s).bind ?_
  rintro p _ ⟨rfl, htable⟩
  rw [htable]
  exact .pure (Blind.setRes s.definedPart_definedPart.symm _ _ 0)

theorem execMfReadSlot_blind : ExecBlind .mfReadSlot := by
  refine Blind.execBlind (fun s => Eq.refl (execMfReadSlot s)) ?_
  refine fun s => (queryPos_blind s).bind ?_
  rintro p p' ⟨hp, htable⟩
  rw [hp, htable]
  cases s.table.slot p <;> exact .pure (Blind.setRes s.definedPart_definedPart.symm _ _ 0)

/-! ### Symbol and state commands -/

theorem execEncResetState_blind : ExecBlind (.encResetState L) := by
  refine Blind.execBlind (fun s => Eq.refl (execEncResetState L s)) ?_
  refine fun s => (getLane_blind s L).bind ?_
  rintro l _ ⟨hl, rfl⟩
  exact .check rfl fun _ => .pure (setLane_definedPart s L rfl)

theorem execEncLiteral_blind : ExecBlind (.encLiteral L) := by
  refine Blind.execBlind (fun s => Eq.refl (execEncLiteral L s)) ?_
  refine fun s => (symbolLane_blind s L).bind ?_
  rintro l _ ⟨⟨hl, rfl⟩, hi⟩
  exact .check rfl fun _ => .check rfl fun _ => symbol_blind _ (Coding.blind (.literal _ _) l hi)

theorem execEncMatch_blind : ExecBlind (.encMatch L) := by
  refine Blind.execBlind (fun s => Eq.refl (execEncMatch L s)) ?_
  refine fun s => (symbolLane_blind s L).bind ?_
  rintro l _ ⟨⟨hl, rfl⟩, hi⟩
  exact .check rfl fun _ => .check rfl fun _ => symbol_blind _ (Coding.blind (.mtch _ _ _ _) l hi)

theorem execEncRep_blind : ExecBlind (.encRep L n) := by
  refine Blind.execBlind (fun s => Eq.refl (execEncRep L n s)) ?_
  refine fun s => (symbolLane_blind s L).bind ?_
  rintro l _ ⟨⟨hl, rfl⟩, hi⟩
  exact .check rfl fun _ => .check rfl fun _ => symbol_blind _ (Coding.blind (.rep _ _ _ n) l hi)

theorem execEncShortRep_blind : ExecBlind (.encShortRep L) := by
  refine Blind.execBlind (fun s => Eq.refl (execEncShortRep L s)) ?_
  refine fun s => (symbolLane_blind s L).bind ?_
  rintro l _ ⟨⟨hl, rfl⟩, hi⟩
  exact .check rfl fun _ => symbol_blind _ (Coding.blind (.shortRep _ _) l hi)

theorem execEncSnapshot_blind : ExecBlind (.encSnapshot L) := by
  refine Blind.execBlind (fun s => Eq.refl (execEncSnapshot L s)) ?_
  refine fun s => (getLane_blind s L).bind ?_
  rintro l _ ⟨hl, rfl⟩
  refine .check rfl fun hi => .pure (setLane_definedPart s L ?_)
  simp [Lane.takeSnapshot, Lane.definedPart, hi]

theorem execEncRollback_blind : ExecBlind (.encRollback L) := by
  refine Blind.execBlind (fun s => Eq.refl (execEncRollback L s)) ?_
  refine fun s => (getLane_blind s L).bind ?_
  rintro l _ ⟨hl, rfl⟩
  refine .check rfl fun hv => .pure (setLane_definedPart s L ?_)
  simp [Lane.rollBack, Lane.definedPart, hv]

theorem execProbRead_blind : ExecBlind (.probRead L) := by
  refine Blind.execBlind (fun s => Eq.refl (execProbRead L s)) ?_
  refine fun s => (probLane_blind s L).bind ?_
  rintro l _ ⟨⟨hl, rfl⟩, hi⟩
  rw [l.prob_definedPart hi]
  exact .pure (Blind.setRes s.definedPart_definedPart.symm _ 0 0)

theorem execProbWrite_blind : ExecBlind (.probWrite L) := by
  refine Blind.execBlind (fun s => Eq.refl (execProbWrite L s)) ?_
  refine fun s => (probLane_blind s L).bind ?_
  rintro l _ ⟨⟨hl, rfl⟩, hi⟩
  refine .check rfl fun _ => .pure (setLane_definedPart s L ?_)
  rw [l.prob_definedPart hi]
  exact (congrArg (fun m : Lane => { m with
    prob := if l.init then ProbMem.write l.prob s.args.arg0.toNat (BitVec.ofNat 11 s.args.arg1.toNat) else [] })
    l.definedPart_definedPart :)

/-! ### Chunks, slices, blocks and streams -/

theorem execSliceBegin_blind (dr : Bool) : ExecBlind (.sliceBegin L dr) := by
  refine Blind.execBlind (fun s => Eq.refl (execSliceBegin L dr s)) ?_
  refine fun s => (getLane_blind s L).bind ?_
  rintro l _ ⟨hl, rfl⟩
  exact .check rfl fun _ => .check rfl fun _ => .pure (setLane_definedPart s L
    (congrArg (fun m : Lane => m.openSlice dr) l.definedPart_definedPart :))

theorem execEncChunk_blind : ExecBlind (.encChunk L) := by
  refine Blind.execBlind (fun s => Eq.refl (execEncChunk L s)) ?_
  refine fun s => (getLane_blind s L).bind ?_
  rintro l _ ⟨hl, rfl⟩
  refine .check rfl fun _ => .check rfl fun _ => .check rfl fun _ => .check rfl fun _ => .check rfl fun _ =>
    .check rfl fun _ => .check (tableFits_definedPart s) fun hfits => .check rfl fun hinit =>
    (cancelPoint_blind s).bind fun _ _ _ => ?_
  have hopen : l.pending = 0 → l.init = true := by
    intro hp
    simpa [hp] using hinit
  rw [chunkCtx_definedPart s hfits]
  refine (encChunk_blind s.chunkCtx (opensAlike_definedPart s.chunkCtx l hopen)).bind ?_
  rintro c _ rfl
  have hset := setLane_definedPart s L (l := c.lane) (l' := (c.withStage l.definedPart.stage).lane) rfl
  refine (writeOut_blind hset c.bytes).bind fun t t' ht => .pure ?_
  exact Blind.setRes (Blind.consume ht c.u) _ _ _

theorem execEncSlice_blind (dr : Bool) : ExecBlind (.encSlice L dr) := by
  refine Blind.execBlind (fun s => Eq.refl (execEncSlice L dr s)) ?_
  refine fun s => (getLane_blind s L).bind ?_
  rintro l _ ⟨hl, rfl⟩
  refine .check rfl fun _ => .check rfl fun _ => .check rfl fun _ =>
    .check (tableFits_definedPart s) fun hfits => (cancelPoint_blind s).bind fun _ _ _ => ?_
  rw [chunkCtx_definedPart s hfits]
  refine (encSlice_blind s.chunkCtx none l dr).bind ?_
  rintro r r' ⟨hlane, hbytes, hchunks⟩
  rw [hbytes, hchunks]
  refine (writeOut_blind (setLane_definedPart s L hlane) r.bytes).bind fun t t' ht => .pure ?_
  exact Blind.setRes (Blind.consume ht _) _ _ _

theorem nLanes_definedPart (s : State) : s.definedPart.nLanes = s.nLanes := List.length_map _

/-- The stream's part of a block's commit (R300): `len` bytes of `DICT` from `start` on. -/
def State.addBlock (s : State) (start len : Nat) : State :=
  { s with stream := s.stream.addBlock (Memory.readBytes s.dict start len) }

theorem Blind.addBlock {u v : State} (h : u.definedPart = v.definedPart) (start len : Nat) :
    (u.addBlock start len).definedPart = (v.addBlock start len).definedPart := congrArg (State.addBlock · start len) h

theorem execEncBlock_blind : ExecBlind .encBlock := by
  refine Blind.execBlind (fun s => Eq.refl (execEncBlock s)) ?_
  refine fun s => .check rfl fun _ => .check rfl fun _ => .check ?_ fun _ => ?_
  · rw [nLanes_definedPart]
    rfl
  refine .ite (fun _ => .pure s.definedPart_definedPart.symm) fun _ => ?_
  refine .check (tableFits_definedPart s) fun hfits => .check rfl fun _ => .check rfl fun _ =>
    (cancelPoint_blind s).bind fun _ _ _ => ?_
  rw [chunkCtx_definedPart s hfits]
  refine (encLanes_blind s.chunkCtx _ _ _ s.lanes).bind ?_
  rintro r r' ⟨hlanes, hbytes, hchunks⟩
  rw [hbytes, hchunks]
  have hset : ({ s with lanes := r.lanes } : State).definedPart = ({ s.definedPart with lanes := r'.lanes } : State).definedPart :=
    State.definedPart_congr hlanes.symm s.table.definedPart_definedPart.symm rfl
  refine (writeOut_blind hset r.bytes).bind fun t t' ht => .pure ?_
  exact Blind.setRes (Blind.addBlock (Blind.consume ht _) _ _) _ _ _

theorem execStreamBegin_blind : ExecBlind .streamBegin := by
  refine Blind.execBlind (fun s => Eq.refl (execStreamBegin s)) ?_
  refine fun s => .check rfl fun _ => .check rfl fun _ => .check rfl fun _ =>
    (writeOut_blind s.definedPart_definedPart.symm _).bind fun t t' ht => .pure (Blind.setRes ?_ _ 0 0)
  exact (congrArg (fun w : State => { w with stream :=
    { isOpen := true, needDr := true, ck := w.cfg.checksumEn, omitP := w.cfg.omitProp
      dict := w.cfg.dictSize, ckData := [] } }) ht :)

theorem execStreamEnd_blind : ExecBlind .streamEnd := by
  refine Blind.execBlind (fun s => Eq.refl (execStreamEnd s)) ?_
  exact fun s => .check rfl fun _ => .check rfl fun _ =>
    (writeOut_blind s.definedPart_definedPart.symm _).bind fun _ _ ht => .pure
      (Blind.setRes (congrArg (fun w : State => { w with stream := .closed }) ht :) _ 0 0)

end

/-- No command reads what the spec leaves undefined. -/
theorem exec_blind (i : Instr) : ExecBlind i := by
  cases i with
  | nop => exact execNop_blind
  | rcReset L => exact execRcReset_blind
  | rcBit L b => exact execRcBit_blind b
  | rcTree L n => exact execRcTree_blind
  | rcTreeRev L n => exact execRcTreeRev_blind
  | rcDirect L n => exact execRcDirect_blind
  | rcFlush L => exact execRcFlush_blind
  | rcPrice b => exact execRcPrice_blind b
  | mfCreate => exact execMfCreate_blind
  | mfBuild => exact execMfBuild_blind
  | mfGetMatch => exact execMfGetMatch_blind
  | mfGetNextMatch => exact execMfGetNextMatch_blind
  | mfReadSlot => exact execMfReadSlot_blind
  | encResetState L => exact execEncResetState_blind
  | encLiteral L => exact execEncLiteral_blind
  | encMatch L => exact execEncMatch_blind
  | encRep L r => exact execEncRep_blind
  | encShortRep L => exact execEncShortRep_blind
  | encSnapshot L => exact execEncSnapshot_blind
  | encRollback L => exact execEncRollback_blind
  | probRead L => exact execProbRead_blind
  | probWrite L => exact execProbWrite_blind
  | sliceBegin L dr => exact execSliceBegin_blind dr
  | encChunk L => exact execEncChunk_blind
  | encSlice L dr => exact execEncSlice_blind dr
  | encBlock => exact execEncBlock_blind
  | streamBegin => exact execStreamBegin_blind
  | streamEnd => exact execStreamEnd_blind
  | clear => exact execClear_blind

end Sys2Proof.Machine

open Sys2Proof Sys2Proof.Machine

/-- Settles O15: every command ends in one defined part from a state and from the state's defined part. -/
theorem undefinedNeverRead : Obligations.UndefinedNeverRead := by
  intro i s s' h
  calc
    outcomeDefinedPart (exec i s) = outcomeDefinedPart (exec i s.definedPart) := exec_blind i s
    _ = outcomeDefinedPart (exec i s'.definedPart) := by rw [h]
    _ = outcomeDefinedPart (exec i s') := (exec_blind i s').symm

end

section
/-! SUPPORT. The register file (R30, R51): the offset of a register, what a host access to a register comes to, and what a
write to one register leaves of the others. -/

namespace Sys2Proof.Machine

/-! ## Offsets -/

/-- The offset that `regAt` gives a block register (R30). -/
def Reg.offset (r : Reg) : Nat := 4 * (List.range 64).findIdx fun i => regAt (4 * i) = some r

/-- The offset in the bank that `laneRegAt` gives a lane register (R51). -/
def LaneReg.offset (r : LaneReg) : Nat := 4 * (List.range 16).findIdx fun i => laneRegAt (4 * i) = some r

theorem regAt_offset (r : Reg) : regAt r.offset = some r := by cases r <;> rfl

theorem laneRegAt_offset (r : LaneReg) : laneRegAt r.offset = some r := by cases r <;> rfl

theorem regAt_eq_some {a : Nat} {r : Reg} : regAt a = some r ↔ a = r.offset := by
  refine ⟨fun h => ?_, fun h => h ▸ regAt_offset r⟩
  unfold regAt at h
  split at h <;> cases h <;> rfl

theorem laneRegAt_eq_some {a : Nat} {r : LaneReg} : laneRegAt a = some r ↔ a = r.offset := by
  refine ⟨fun h => ?_, fun h => h ▸ laneRegAt_offset r⟩
  unfold laneRegAt at h
  split at h <;> cases h <;> rfl

theorem Reg.offset_aligned (r : Reg) : r.offset % 4 = 0 := Nat.mul_mod_right ..

theorem LaneReg.offset_aligned (r : LaneReg) : r.offset % 4 = 0 := Nat.mul_mod_right ..

/-- The block registers lie below the reserved offsets from 0x9C on, or above them and below the lane banks. -/
theorem Reg.offset_range (r : Reg) : r.offset < 0x9C ∨ 0xEC ≤ r.offset ∧ r.offset < 0x100 := by cases r <;> decide

theorem LaneReg.offset_lt (r : LaneReg) : r.offset < 0x40 := by cases r <;> decide

theorem regName_block {s : State} {a : Nat} {r : Reg} : s.regName a = .block r ↔ a = r.offset := by
  rw [← regAt_eq_some]
  unfold State.regName
  cases regAt a with
  | some r' => simp
  | none =>
    simp only [reduceCtorEq, iff_false]
    split
    · split <;> exact RegName.noConfusion
    · exact RegName.noConfusion

theorem regName_lane {s : State} {a L : Nat} {r : LaneReg} :
    s.regName a = .lane L r ↔ L < s.nLanes ∧ a = 0x100 + 0x40 * L + r.offset := by
  have hlt := r.offset_lt
  unfold State.regName
  cases hreg : regAt a with
  | some r' =>
    have ha := regAt_eq_some.mp hreg
    have hr := r'.offset_range
    simp only [reduceCtorEq, false_iff]
    omega
  | none =>
    dsimp only
    split
    · next hbank =>
      have hr := laneRegAt_eq_some (a := (a - 0x100) % 0x40) (r := r)
      cases hlane : laneRegAt ((a - 0x100) % 0x40) with
      | some r' =>
        rw [hlane, Option.some.injEq] at hr
        rw [RegName.lane.injEq, hr]
        omega
      | none =>
        simp only [hlane, reduceCtorEq, false_iff] at hr ⊢
        omega
    · next hbank =>
      simp only [reduceCtorEq, false_iff]
      omega

theorem regName_bank {s : State} {L : Nat} {l : Lane} (hl : s.lanes[L]? = some l) (r : LaneReg) :
    s.regName (0x100 + 0x40 * L + r.offset) = .lane L r :=
  regName_lane.mpr ⟨(List.getElem?_eq_some_iff.mp hl).1, rfl⟩

/-- The reserved offsets between the block registers, and past the last lane's bank (R30, R51). -/
theorem regName_reserved {s : State} {a : Nat} (h : 0x9C ≤ a ∧ a < 0xEC ∨ 0x100 + 0x40 * s.nLanes ≤ a) :
    s.regName a = .reserved := by
  cases hn : s.regName a with
  | block r =>
    have ha := regName_block.mp hn
    have hr := r.offset_range
    omega
  | lane L r =>
    obtain ⟨hL, ha⟩ := regName_lane.mp hn
    have hr := r.offset_lt
    omega
  | reserved => rfl

/-! ## Accesses to a register -/

theorem performed_reg {s : State} {a : Nat} : s.performed .reg a .word = true ↔ a % 4 = 0 ∧ a + 4 ≤ 4096 := by
  simp only [State.performed, Bool.and_eq_true, Bool.or_eq_true, decide_eq_true_eq]
  simp [State.spaceSize, AccessSize.bytes]

theorem performed_block (s : State) (r : Reg) : s.performed .reg r.offset .word = true := by
  have hr := r.offset_range
  exact performed_reg.mpr ⟨r.offset_aligned, by omega⟩

/-- With the sixteen lanes that R7 allows, every bank lies in the aperture. -/
theorem performed_lane (s : State) {L : Nat} (hL : L < 16) (r : LaneReg) :
    s.performed .reg (0x100 + 0x40 * L + r.offset) .word = true := by
  have hr := r.offset_lt
  have ha := r.offset_aligned
  exact performed_reg.mpr ⟨by omega, by omega⟩

section
variable {s : State} (hreset : s.inReset = false)
include hreset

theorem hostRead_reg {a : Nat} (h : s.performed .reg a .word = true) : s.hostRead .reg a .word = s.readRegAt a := by
  simp [State.hostRead, hreset, h]

theorem hostWrite_reg {a : Nat} (h : s.performed .reg a .word = true) (v : Word) :
    s.hostWrite .reg a .word v = s.writeRegAt a v := by
  simp [State.hostWrite, hreset, h]

theorem hostRead_block (r : Reg) : s.hostRead .reg r.offset .word = s.readReg r := by
  rw [hostRead_reg hreset (performed_block s r), State.readRegAt, regName_block.mpr rfl]

theorem hostRead_lane {L : Nat} {l : Lane} (hl : s.lanes[L]? = some l) (hL : L < 16) (r : LaneReg) :
    s.hostRead .reg (0x100 + 0x40 * L + r.offset) .word = l.readReg r := by
  rw [hostRead_reg hreset (performed_lane s hL r), State.readRegAt, regName_bank hl r]
  simp only [hl]

theorem hostRead_reserved {a : Nat} (hn : s.regName a = .reserved) : s.hostRead .reg a .word = 0 := by
  cases h : s.performed .reg a .word with
  | true => rw [hostRead_reg hreset h, State.readRegAt, hn]
  | false => simp [State.hostRead, h]

theorem hostWrite_status (v : Word) : s.hostWrite .reg 0x008 .word v = s.clearSticky v :=
  hostWrite_reg hreset (performed_block s .status) v

theorem hostWrite_control (v : Word) : s.hostWrite .reg 0x00C .word v = s.writeControl v :=
  hostWrite_reg hreset (performed_block s .control) v

theorem hostWrite_block (hidle : s.busy = false) (r : Reg) (v : Word) :
    s.hostWrite .reg r.offset .word v = s.writeReg r v := by
  rw [hostWrite_reg hreset (performed_block s r), State.writeRegAt, regName_block.mpr rfl]
  cases r <;> simp [hidle, State.writeReg]

theorem hostWrite_lane (hidle : s.busy = false) {L : Nat} {l : Lane} (hl : s.lanes[L]? = some l) (hL : L < 16)
    (r : LaneReg) (v : Word) :
    s.hostWrite .reg (0x100 + 0x40 * L + r.offset) .word v = s.setLane L (l.writeReg r v) := by
  rw [hostWrite_reg hreset (performed_lane s hL r), State.writeRegAt, regName_bank hl r]
  simp [hidle, hl]

theorem hostWrite_reserved (hidle : s.busy = false) {a : Nat} (hn : s.regName a = .reserved) (v : Word) :
    s.hostWrite .reg a .word v = s := by
  cases h : s.performed .reg a .word with
  | true =>
    rw [hostWrite_reg hreset h, State.writeRegAt, hn]
    simp [hidle]
  | false => simp [State.hostWrite, h]

end

/-! ## What decides a read -/

theorem readRegAt_lane {s : State} {a L : Nat} {r : LaneReg} (h : s.regName a = .lane L r) :
    s.readRegAt a = (s.lanes[L]?.map (Lane.readReg · r)).getD 0 := by
  rw [State.readRegAt, h]
  dsimp only
  cases s.lanes[L]? <;> rfl

/-- A register read depends on the number of lanes and on the register it names. -/
theorem readRegAt_congr {s t : State} {a : Nat} (hlanes : t.nLanes = s.nLanes)
    (hblock : ∀ r : Reg, a = r.offset → t.readReg r = s.readReg r)
    (hlane : ∀ (L : Nat) (r : LaneReg), a = 0x100 + 0x40 * L + r.offset →
      t.lanes[L]?.map (Lane.readReg · r) = s.lanes[L]?.map (Lane.readReg · r)) :
    t.readRegAt a = s.readRegAt a := by
  have hname : t.regName a = s.regName a := by
    unfold State.regName
    rw [hlanes]
  cases hn : s.regName a with
  | block r =>
    rw [State.readRegAt, State.readRegAt, hname, hn]
    exact hblock r (regName_block.mp hn)
  | lane L r => rw [readRegAt_lane (hname.trans hn), readRegAt_lane hn, hlane L r (regName_lane.mp hn).2]
  | reserved => rw [State.readRegAt, State.readRegAt, hname, hn]

/-- What decides a host read of any space. -/
theorem hostRead_congr {s t : State} {sp : Space} {a : Nat} {n : AccessSize} (hreset : t.inReset = s.inReset)
    (hparams : t.params = s.params) (hlanes : t.lanes = s.lanes) (hdict : t.dict = s.dict) (hout : t.out = s.out)
    (hblock : ∀ r : Reg, sp = .reg → a = r.offset → t.readReg r = s.readReg r) :
    t.hostRead sp a n = s.hostRead sp a n := by
  have hperf : t.performed sp a n = s.performed sp a n := by
    unfold State.performed State.spaceSize
    rw [hparams]
  unfold State.hostRead
  rw [hreset, hperf, hdict, hout]
  cases sp with
  | dict => rfl
  | out => rfl
  | reg =>
    have hreg : t.readRegAt a = s.readRegAt a :=
      readRegAt_congr (congrArg List.length hlanes) (fun r => hblock r rfl) fun L r _ => by rw [hlanes]
    rw [hreg]

/-! ## The `STATUS` word (R33) -/

/-- Bits 4:0 of `STATUS`. -/
def State.flagBits (s : State) : Nat :=
  s.busy.toNat + s.status.done.toNat * 2 ^ 1 + s.status.err.toNat * 2 ^ 2 + s.status.canceled.toNat * 2 ^ 3
    + s.status.rejected.toNat * 2 ^ 4

/-- The bits of `STATUS` from bit 5 on. -/
def State.upperBits (s : State) : Nat :=
  s.status.code.num * 2 ^ 3 + s.table.created.toNat * 2 ^ 11 + s.table.isStruct.toNat * 2 ^ 12 + s.table.valid.toNat * 2 ^ 13

theorem statusWord_eq (s : State) : s.statusWord = BitVec.ofNat 32 (2 ^ 5 * s.upperBits + s.flagBits) := by
  unfold State.statusWord State.upperBits State.flagBits
  congr 1
  omega

theorem testBit_five_flags : ∀ (a b c d e : Bool), ∀ k < 5,
    (a.toNat + b.toNat * 2 ^ 1 + c.toNat * 2 ^ 2 + d.toNat * 2 ^ 3 + e.toNat * 2 ^ 4).testBit k
      = [a, b, c, d, e].getD k false := by decide

theorem flagBits_lt (s : State) : s.flagBits < 2 ^ 5 := by
  unfold State.flagBits
  have hle : ∀ b : Bool, b.toNat ≤ 1 := Bool.toNat_le
  have := hle s.busy
  have := hle s.status.done
  have := hle s.status.err
  have := hle s.status.canceled
  have := hle s.status.rejected
  omega

theorem statusWord_flag (s : State) (k : Nat) (hk : k < 5) : s.statusWord.getLsbD k
    = [s.busy, s.status.done, s.status.err, s.status.canceled, s.status.rejected].getD k false := by
  rw [statusWord_eq, BitVec.getLsbD_ofNat, Nat.testBit_two_pow_mul_add _ (flagBits_lt s), if_pos hk]
  simp only [show k < 32 by omega, decide_true, Bool.true_and]
  exact testBit_five_flags _ _ _ _ _ k hk

theorem statusWord_upper (s : State) (k : Nat) (hk : 5 ≤ k) :
    s.statusWord.getLsbD k = (decide (k < 32) && s.upperBits.testBit (k - 5)) := by
  rw [statusWord_eq, BitVec.getLsbD_ofNat, Nat.testBit_two_pow_mul_add _ (flagBits_lt s), if_neg (by omega)]

end Sys2Proof.Machine
end

section
/-! PROOFS. Register writes and reads: the issue of a command, writes while busy, `STATUS` and `CONTROL`, what a register
stores, and the reset values (10_state.md R30 to R34, R51, R52; 20_memory.md R91, R97). -/

namespace Sys2Proof.Machine

/-! ## Register writes -/

/-- What a host write does to a block register: it stores the bits of a mask, it acts (`CMD`, `STATUS`, `CONTROL`), or it
does nothing (R30). -/
inductive Access
  | stored (mask : Word)
  | acting
  | readOnly

def Reg.access : Reg → Access
  | .cmd | .status | .control => .acting
  | .mfParams   => .stored mfParamsMask
  | .lzProps    => .stored lzPropsMask
  | .strategy   => .stored strategyMask
  | .streamOpts => .stored streamOptsMask
  | .blkFlags   => .stored blkFlagsMask
  | .parseGain  => .stored parseGainMask
  | .arg0 | .arg1 | .arg2 | .arg3 | .dictSize | .chunkUMax | .chunkCMax | .storeMargin | .mfLimit2 | .mfLimit3
  | .mfLimit4 | .blkStart | .blkEnd | .nActive | .outPos | .outLimit => .stored 0xFFFFFFFF
  | .id | .errInfo | .res0 | .res1 | .res2 | .consumedLo | .consumedHi | .producedLo | .producedHi | .tableEnd
  | .streamState | .streamDict | .tableSize | .tableCaplen | .stageCap | .hwcfg | .dictCap | .outCap | .tableCap =>
    .readOnly

theorem writeReg_readOnly {r : Reg} (h : r.access = .readOnly) (s : State) (v : Word) : s.writeReg r v = s := by
  cases r <;> cases h <;> rfl

theorem readReg_writeReg_same {r : Reg} {mask : Word} (h : r.access = .stored mask) (s : State) (v : Word) :
    (s.writeReg r v).readReg r = v &&& mask := by
  have hall : v &&& 0xFFFFFFFF = v := BitVec.and_allOnes
  cases r <;> cases h <;> simp only [hall, State.writeReg, State.readReg]

/-- A write to a register that does not act changes no other register's read. -/
theorem readReg_writeReg {r : Reg} (h : r.access ≠ .acting) (s : State) (v : Word) (r' : Reg) :
    (s.writeReg r v).readReg r' = if r' = r then (s.writeReg r v).readReg r else s.readReg r' := by
  cases r with
  | cmd => exact absurd rfl h
  | _ => cases r' <;> rfl

theorem readReg_writeReg_other {r r' : Reg} (h : r.access ≠ .acting) (hr : r' ≠ r) (s : State) (v : Word) :
    (s.writeReg r v).readReg r' = s.readReg r' := by
  rw [readReg_writeReg h, if_neg hr]

/-- A stored register lies outside the lanes, the memories and the reset. -/
theorem writeReg_stored {r : Reg} {mask : Word} (h : r.access = .stored mask) (s : State) (v : Word) :
    s.writeReg r v
      = { s with args := (s.writeReg r v).args, cfg := (s.writeReg r v).cfg, outPos := (s.writeReg r v).outPos } := by
  cases r <;> cases h <;> rfl

def LaneReg.isStored : LaneReg → Bool
  | .sliceStart | .sliceEnd | .outBase | .outCap | .outLen => true
  | .pos | .status | .rep0 | .rep1 | .rep2 | .rep3 | .rcLowLo | .rcLowHi | .rcRange | .rcCache | .rcCacheSize => false

theorem Lane.writeReg_readOnly {r : LaneReg} (h : r.isStored = false) (l : Lane) (v : Word) : l.writeReg r v = l := by
  cases r <;> cases h <;> rfl

theorem Lane.readReg_writeReg {r : LaneReg} (h : r.isStored = true) (l : Lane) (v : Word) (r' : LaneReg) :
    (l.writeReg r v).readReg r' = if r' = r then v else l.readReg r' := by
  cases r <;> cases h <;> cases r' <;> rfl

theorem readReg_setLane (s : State) (L : Nat) (l : Lane) (r : Reg) : (s.setLane L l).readReg r = s.readReg r := by
  cases r with
  | hwcfg =>
    have hlen : (s.setLane L l).nLanes = s.nLanes := List.length_set
    unfold State.readReg State.hwcfgWord
    rw [hlen]
    rfl
  | _ => rfl

theorem setLane_self {s : State} {L : Nat} {l : Lane} (hl : s.lanes[L]? = some l) : s.setLane L l = s := by
  obtain ⟨hL, rfl⟩ := List.getElem?_eq_some_iff.mp hl
  exact congrArg (fun lanes => { s with lanes := lanes }) (List.set_getElem_self hL)

/-! ## The lists of registers -/

theorem storedRegs_access : ∀ x ∈ storedRegs, ∃ r : Reg, x.1 = r.offset ∧ r.access = .stored x.2 := by
  have h : storedRegs.map (fun x => (regAt x.1).map Reg.access) = storedRegs.map (fun x => some (.stored x.2)) := rfl
  intro x hx
  obtain ⟨r, hr, haccess⟩ := Option.map_eq_some_iff.mp (List.map_inj_left.mp h x hx)
  exact ⟨r, regAt_eq_some.mp hr, haccess⟩

theorem readOnlyRegs_access : ∀ a ∈ readOnlyRegs, ∃ r : Reg, a = r.offset ∧ r.access = .readOnly := by
  have h : readOnlyRegs.map (fun a => (regAt a).map Reg.access) = readOnlyRegs.map (fun _ => some .readOnly) := rfl
  intro a ha
  obtain ⟨r, hr, haccess⟩ := Option.map_eq_some_iff.mp (List.map_inj_left.mp h a ha)
  exact ⟨r, regAt_eq_some.mp hr, haccess⟩

theorem storedLaneRegs_isStored : ∀ a ∈ storedLaneRegs, ∃ r : LaneReg, a = r.offset ∧ r.isStored = true := by
  have h : ∀ a ∈ storedLaneRegs, (laneRegAt a).map LaneReg.isStored = some true := by decide
  intro a ha
  obtain ⟨r, hr, hstored⟩ := Option.map_eq_some_iff.mp (h a ha)
  exact ⟨r, laneRegAt_eq_some.mp hr, hstored⟩

theorem readOnlyLaneRegs_isStored : ∀ a ∈ readOnlyLaneRegs, ∃ r : LaneReg, a = r.offset ∧ r.isStored = false := by
  have h : ∀ a ∈ readOnlyLaneRegs, (laneRegAt a).map LaneReg.isStored = some false := by decide
  intro a ha
  obtain ⟨r, hr, hstored⟩ := Option.map_eq_some_iff.mp (h a ha)
  exact ⟨r, laneRegAt_eq_some.mp hr, hstored⟩

/-! ## Writes while idle -/

section
variable {s : State} (hreset : s.inReset = false) (hidle : s.busy = false)
include hreset hidle

theorem hostRead_hostWrite_block {r : Reg} {mask : Word} (hr : r.access = .stored mask) (v : Word) :
    (s.hostWrite .reg r.offset .word v).hostRead .reg r.offset .word = v &&& mask := by
  have hreset' : (s.writeReg r v).inReset = false := by
    rw [writeReg_stored hr]
    exact hreset
  rw [hostWrite_block hreset hidle, hostRead_block hreset', readReg_writeReg_same hr]

theorem hostRead_hostWrite_block_other {r : Reg} {mask : Word} (hr : r.access = .stored mask) (v : Word) {b : Nat}
    (hb : b ≠ r.offset) : (s.hostWrite .reg r.offset .word v).hostRead .reg b .word = s.hostRead .reg b .word := by
  have hacts : r.access ≠ .acting := by simp [hr]
  rw [hostWrite_block hreset hidle]
  have hblock : ∀ r' : Reg, Space.reg = .reg → b = r'.offset → (s.writeReg r v).readReg r' = s.readReg r' := by
    rintro r' - rfl
    exact readReg_writeReg_other hacts (fun h => hb (congrArg Reg.offset h)) s v
  revert hblock
  rw [writeReg_stored hr]
  exact hostRead_congr rfl rfl rfl rfl rfl

theorem hostRead_hostWrite_lane {L : Nat} {l : Lane} (hl : s.lanes[L]? = some l) (hL : L < 16) {r : LaneReg}
    (hr : r.isStored = true) (v : Word) :
    (s.hostWrite .reg (0x100 + 0x40 * L + r.offset) .word v).hostRead .reg (0x100 + 0x40 * L + r.offset) .word = v := by
  have hset : (s.setLane L (l.writeReg r v)).lanes[L]? = some (l.writeReg r v) :=
    List.getElem?_set_self (List.getElem?_eq_some_iff.mp hl).1
  rw [hostWrite_lane hreset hidle hl hL, hostRead_lane (s := s.setLane L (l.writeReg r v)) hreset hset hL,
    Lane.readReg_writeReg hr, if_pos rfl]

theorem hostRead_hostWrite_lane_other {L : Nat} {l : Lane} (hl : s.lanes[L]? = some l) (hL : L < 16) {r : LaneReg}
    (hr : r.isStored = true) (v : Word) {b : Nat} (hb : b ≠ 0x100 + 0x40 * L + r.offset) :
    (s.hostWrite .reg (0x100 + 0x40 * L + r.offset) .word v).hostRead .reg b .word = s.hostRead .reg b .word := by
  rw [hostWrite_lane hreset hidle hl hL]
  cases hp : s.performed .reg b .word with
  | false =>
    have hp' : (s.setLane L (l.writeReg r v)).performed .reg b .word = false := hp
    simp [State.hostRead, hp, hp']
  | true =>
    rw [hostRead_reg hreset hp, hostRead_reg (s := s.setLane L (l.writeReg r v)) hreset hp]
    refine readRegAt_congr List.length_set (fun r' _ => readReg_setLane s L _ r') fun L' r' hb' => ?_
    rw [State.setLane_lanes]
    by_cases hL' : L = L'
    · subst hL'
      have hr' : r' ≠ r := fun h => hb (h ▸ hb')
      rw [List.getElem?_set_self (List.getElem?_eq_some_iff.mp hl).1, hl]
      simp [Lane.readReg_writeReg hr, hr']
    · rw [List.getElem?_set_ne hL']

end

/-! ## The issue of a command -/

theorem visibleRes_issue {s : State} (hidle : s.busy = false) (w : Word) : (s.issue w).visibleRes = s.visibleRes := by
  change s.res = if s.busy then s.resBefore else s.res
  simp [hidle]

/-- The issue of a command shows in `STATUS` alone. -/
theorem readReg_issue {s : State} (hidle : s.busy = false) (w : Word) {r : Reg} (hr : r ≠ .status) :
    (s.issue w).readReg r = s.readReg r := by
  have hres := visibleRes_issue hidle w
  cases r with
  | status => exact absurd rfl hr
  | res0 => exact congrArg Results.res0 hres
  | res1 => exact congrArg Results.res1 hres
  | res2 => exact congrArg Results.res2 hres
  | _ => rfl

theorem statusWord_issue (s : State) (w : Word) :
    (s.issue w).statusWord = s.statusWord ||| 1 := by
  refine BitVec.eq_of_getLsbD_eq fun k hk => ?_
  have hone : (1 : Word).getLsbD k = decide (k = 0) := by simp
  rw [BitVec.getLsbD_or, hone]
  by_cases h : k < 5
  · rw [statusWord_flag _ k h, statusWord_flag _ k h]
    change [true, s.status.done, s.status.err, s.status.canceled, s.status.rejected].getD k false = _
    interval_cases k <;> simp
  · rw [statusWord_upper _ k (by omega), statusWord_upper _ k (by omega)]
    simp only [show k ≠ 0 by omega, decide_false, Bool.or_false]
    rfl

/-! ## `STATUS` and `CONTROL` -/

theorem statusWord_clearSticky (s : State) (v : Word) (k : Nat) (hk : k < 32) :
    (s.clearSticky v).statusWord.getLsbD k
      = (s.statusWord.getLsbD k && !((k == 1 || k == 2 || k == 3 || k == 4) && v.getLsbD k)) := by
  by_cases h : k < 5
  · rw [statusWord_flag _ k h, statusWord_flag _ k h]
    change [s.busy, s.status.done && !v.getLsbD 1, s.status.err && !v.getLsbD 2, s.status.canceled && !v.getLsbD 3,
      s.status.rejected && !v.getLsbD 4].getD k false = _
    interval_cases k <;> simp
  · have hne : ∀ n < 5, (k == n) = false := fun n hn => beq_false_of_ne (by omega)
    rw [statusWord_upper _ k (by omega), statusWord_upper _ k (by omega)]
    simp only [hne 1 (by decide), hne 2 (by decide), hne 3 (by decide), hne 4 (by decide), Bool.or_self, Bool.false_and,
      Bool.not_false, Bool.and_true]
    rfl

/-! ## Busy -/

/-- A performed write while busy is dropped, but for those to `STATUS` and `CONTROL`. -/
theorem hostWrite_busy {s : State} {sp : Space} {a : Nat} {n : AccessSize} (hreset : s.inReset = false)
    (hbusy : s.busy = true) (hperf : s.performed sp a n = true) (ha : ¬ (sp = .reg ∧ (a = 0x008 ∨ a = 0x00C))) (v : Word) :
    s.hostWrite sp a n v = s.reject := by
  unfold State.hostWrite
  rw [hreset, hperf]
  cases sp with
  | dict => exact if_pos hbusy
  | out => exact if_pos hbusy
  | reg =>
    have hstatus : s.regName a ≠ .block .status := fun h => ha ⟨rfl, .inl (regName_block.mp h)⟩
    have hcontrol : s.regName a ≠ .block .control := fun h => ha ⟨rfl, .inr (regName_block.mp h)⟩
    change s.writeRegAt a v = s.reject
    unfold State.writeRegAt
    split <;> simp_all

/-- Completion shows in `STATUS` and `RES0..RES2` alone. -/
theorem readReg_unbusy (s : State) {r : Reg} (h : r.offset ∉ [0x008, 0x024, 0x028, 0x02C]) :
    s.readReg r = { s with pending := none }.readReg r := by
  cases r with
  | status | res0 | res1 | res2 => exact absurd (by decide) h
  | _ => rfl

/-! ## Reset -/

/-- The registers whose reset value a parameter, or the number of lanes, gives. -/
def Reg.ofParams : Reg → Bool
  | .outLimit | .hwcfg | .stageCap | .dictCap | .outCap | .tableCap => true
  | _ => false

/-- Right after reset every other register reads as in the reference configuration. -/
theorem readReg_reset (n : Nat) (p : Params) {r : Reg} (h : r.ofParams = false) :
    (State.resetWith n p).readReg r = State.reset.readReg r := by
  cases r <;> cases h <;> rfl

theorem resetWords_read (n : Nat) (p : Params) : ∀ x ∈ resetWords, ∃ r : Reg,
    x.1 = r.offset ∧ (State.resetWith n p).readReg r = x.2 := by
  have h : ∀ x ∈ resetWords, (regAt x.1).map (fun r => (r.ofParams, State.reset.readReg r)) = some (false, x.2) := by decide
  intro x hx
  obtain ⟨r, hr, hread⟩ := Option.map_eq_some_iff.mp (h x hx)
  obtain ⟨hparams, hread⟩ := Prod.mk.inj hread
  exact ⟨r, regAt_eq_some.mp hr, (readReg_reset n p hparams).trans hread⟩

theorem resetLaneWords_read : ∀ x ∈ resetLaneWords, ∃ r : LaneReg, x.1 = r.offset ∧ Lane.reset.readReg r = x.2 := by
  have h : ∀ x ∈ resetLaneWords, (laneRegAt x.1).map Lane.reset.readReg = some x.2 := by decide
  intro x hx
  obtain ⟨r, hr, hread⟩ := Option.map_eq_some_iff.mp (h x hx)
  exact ⟨r, laneRegAt_eq_some.mp hr, hread⟩

theorem hwcfgWord_reset {n : Nat} (hn : n ≤ 16) (p : Params) :
    (State.resetWith n p).hwcfgWord.toNat = n + 256 * p.nMf.toNat := by
  have hlanes : (State.resetWith n p).nLanes = n := List.length_replicate
  have hmf := p.nMf.isLt
  change (BitVec.ofNat 32 ((State.resetWith n p).nLanes % 2 ^ 5 + p.nMf.toNat * 2 ^ 8)).toNat = _
  rw [hlanes, BitVec.toNat_ofNat]
  omega

end Sys2Proof.Machine

open Sys2Proof Sys2Proof.Machine

/-- Settles O20, register by register: what is stored, what is read-only, and the reserved offsets. -/
theorem registerWritesReadBack : Obligations.RegisterWritesReadBack := by
  intro s v hreset hidle hlanes
  have hlane : ∀ L < s.nLanes, L < 16 ∧ ∃ l, s.lanes[L]? = some l := fun L hL =>
    ⟨Nat.lt_of_lt_of_le hL hlanes, _, List.getElem?_eq_getElem hL⟩
  refine ⟨fun x hx => ?_, fun L hL a ha => ?_, fun a ha => ?_, fun L hL a ha => ?_, fun a ha => ?_⟩
  · obtain ⟨r, hoffset, hr⟩ := storedRegs_access x hx
    rw [hoffset]
    exact ⟨hostRead_hostWrite_block hreset hidle hr v, fun b hb => hostRead_hostWrite_block_other hreset hidle hr v hb⟩
  · obtain ⟨r, rfl, hr⟩ := storedLaneRegs_isStored a ha
    obtain ⟨hL, l, hl⟩ := hlane L hL
    exact ⟨hostRead_hostWrite_lane hreset hidle hl hL hr v,
      fun b hb => hostRead_hostWrite_lane_other hreset hidle hl hL hr v hb⟩
  · obtain ⟨r, rfl, hr⟩ := readOnlyRegs_access a ha
    rw [hostWrite_block hreset hidle, writeReg_readOnly hr]
  · obtain ⟨r, rfl, hr⟩ := readOnlyLaneRegs_isStored a ha
    obtain ⟨hL, l, hl⟩ := hlane L hL
    rw [hostWrite_lane hreset hidle hl hL, Lane.writeReg_readOnly hr, setLane_self hl]
  · have hn := regName_reserved ha
    exact ⟨hostWrite_reserved hreset hidle hn v, hostRead_reserved hreset hn⟩

/-- Settles O16: a write while busy is rejected or goes to `STATUS` or `CONTROL`, and reads do not see the command. -/
theorem busyWritesRejected : Obligations.BusyWritesRejected := by
  intro s sp a n v hreset hbusy
  have hres : s.visibleRes = s.resBefore := if_pos hbusy
  have hstatus := hostWrite_status hreset v
  refine ⟨fun hperf ha => hostWrite_busy hreset hbusy hperf ha v, fun hperf => by simp [State.hostWrite, hperf],
    ?_, ?_, ?_, fun hsp => ?_, fun r hr => ?_, ?_, ?_, ?_⟩
  · rw [hstatus]
    rfl
  · intro k hk
    have hsticky : (k == 1 || k == 2 || k == 3 || k == 4) = true := by simpa [or_assoc] using hk
    rw [hstatus, statusWord_clearSticky s v k (by omega), hsticky, Bool.true_and]
  · rw [hostWrite_control hreset, State.writeControl, hbusy, Bool.and_true]
  · exact hostRead_congr rfl rfl rfl rfl rfl fun r h _ => absurd h hsp
  · exact hostRead_congr rfl rfl rfl rfl rfl fun r' _ h => readReg_unbusy s (h ▸ hr)
  · exact (hostRead_block hreset .res0).trans (congrArg Results.res0 hres)
  · exact (hostRead_block hreset .res1).trans (congrArg Results.res1 hres)
  · exact (hostRead_block hreset .res2).trans (congrArg Results.res2 hres)

/-- Settles O5: the write to `CMD` is the issue of R112, which shows in `STATUS` alone. -/
theorem commandIssue : Obligations.CommandIssue := by
  intro s w hreset hidle
  have hissue : s.hostWrite .reg 0x004 .word w = s.issue w := hostWrite_block hreset hidle .cmd w
  rw [hissue]
  refine ⟨rfl, statusWord_issue s w, fun sp a n ha => ?_, hostRead_block hreset .cmd⟩
  refine hostRead_congr rfl rfl rfl rfl rfl fun r hsp hr => readReg_issue hidle w ?_
  rintro rfl
  exact ha ⟨hsp, hr⟩

/-- Settles O22: the two writes are `clearSticky` and `writeControl`, busy or idle. -/
theorem statusAndControlWrites : Obligations.StatusAndControlWrites := by
  intro s v hreset
  rw [hostWrite_status hreset, hostWrite_control hreset]
  refine ⟨?_, ?_⟩
  · rintro _ rfl
    exact ⟨rfl, rfl, statusWord_clearSticky s v⟩
  · rintro _ rfl
    exact ⟨rfl, rfl, congrArg (s.control.cancel || ·) (Bool.and_comm _ _)⟩

/-- Settles O23: every register of the two reset tables, and those that a parameter gives. -/
theorem resetValues : Obligations.ResetValues := by
  intro n p hn hn'
  have hread : ∀ r : Reg, (State.resetWith n p).hostRead .reg r.offset .word = (State.resetWith n p).readReg r :=
    hostRead_block rfl
  refine ⟨fun x hx => ?_, hread .outLimit, hread .stageCap, hread .dictCap, hread .outCap, hread .tableCap, ?_,
    fun L hL x hx => ?_, rfl, rfl⟩
  · obtain ⟨r, hoffset, hr⟩ := resetWords_read n p x hx
    rw [hoffset, hread, hr]
  · exact (congrArg BitVec.toNat (hread .hwcfg)).trans (hwcfgWord_reset hn' p)
  · obtain ⟨r, hoffset, hr⟩ := resetLaneWords_read x hx
    have hlane : (State.resetWith n p).lanes[L]? = some .reset := List.getElem?_replicate_of_lt hL
    rw [hoffset, hostRead_lane rfl hlane (by omega), hr]

end

section
/-! SUPPORT. What a coding operation keeps (R141 to R146, R214 to R220, R258): any property of a coder that survives each
write of the registers, the words, `STATE` and the reps, and each emission of bytes. -/

namespace Sys2Proof.Machine

/-- A property of a coder that each step of a coding operation keeps. The sink is asked for at least one byte (R143). -/
structure CoderInvariant (P : Enc → Prop) : Prop where
  setRc : ∀ {e : Enc}, P e → ∀ rc, P (e.setRc rc)
  setProb : ∀ {e : Enc}, P e → ∀ i p, P (e.setProb i p)
  setSt : ∀ {e : Enc}, P e → ∀ st, P (e.setSt st)
  setReps : ∀ {e : Enc}, P e → ∀ reps, P (e.setReps reps)
  emitRun : ∀ {e : Enc}, P e → ∀ first rest k, 0 < k → Ends P (fun _ => True) (emitRun first rest k e)

/-- Wherever `f` answers from a coder with `P`, the answer has it too. -/
abbrev Keeps (P : Enc → Prop) (f : Enc → Except Halt Enc) : Prop := ∀ e, P e → Ends P (fun _ => True) (f e)

theorem Ends.ite {A : Type} {P : A → Prop} {Q : Halt → Prop} {c : Prop} [Decidable c] {x y : Except Halt A}
    (h : c → Ends P Q x) (h' : ¬ c → Ends P Q y) : Ends P Q (if c then x else y) := by
  split
  · next hc => exact h hc
  · next hc => exact h' hc

namespace CoderInvariant

variable {P : Enc → Prop} (hP : CoderInvariant P)
include hP

/-! ## The coder (R143 to R152) -/

theorem flushPending : Keeps P flushPending := by
  refine fun e he => .ite (fun _ => trivial) fun h => (hP.emitRun he _ _ _ ?_).bind fun a ha => .pure (hP.setRc ha _)
  exact Nat.pos_of_ne_zero fun h0 => h (BitVec.eq_of_toNat_eq h0)

theorem pushByte : Keeps P pushByte := fun _ he => .ite (fun _ => trivial) fun _ => .pure (hP.setRc he _)

theorem shiftLow : Keeps P shiftLow := fun e he =>
  .ite (fun _ => (hP.flushPending e he).bind hP.pushByte) fun _ => hP.pushByte e he

theorem renormalise (fuel : Nat) : Keeps P (renormalise fuel) := by
  induction fuel with
  | zero => exact fun _ _ => trivial
  | succ fuel ih => exact fun e he => .ite (fun _ => (hP.shiftLow _ (hP.setRc he _)).bind ih) fun _ => .pure he

theorem splitRange (i : Nat) (b : Bool) {e : Enc} (he : P e) : P (splitRange i b e) := by
  cases b with
  | true => exact hP.setProb (hP.setRc he _) _ _
  | false => exact hP.setProb (hP.setRc he _) _ _

theorem encodeBit (i : Nat) (b : Bool) : Keeps P (encodeBit i b) := fun _ he =>
  hP.renormalise renormRounds _ (hP.splitRange i b he)

theorem encodeDirect (v n : Nat) : Keeps P (encodeDirect v n) := by
  induction n with
  | zero => exact fun _ he => he
  | succ n ih => exact fun e he => (hP.renormalise renormRounds _ (hP.setRc he _)).bind ih

theorem shiftLows (k : Nat) : Keeps P (shiftLows k) := by
  induction k with
  | zero => exact fun _ he => he
  | succ k ih => exact fun e he => (hP.shiftLow e he).bind ih

theorem flush : Keeps P flush := hP.shiftLows 5

theorem encodeTreeFrom (base s n : Nat) : ∀ m, Keeps P (encodeTreeFrom base s n m) := by
  induction n with
  | zero => exact fun _ _ he => he
  | succ n ih => exact fun _ e he => (hP.encodeBit _ _ e he).bind (ih _)

theorem encodeTree (base n s : Nat) : Keeps P (encodeTree base n s) := hP.encodeTreeFrom base s n 1

theorem encodeTreeRevFrom (base n : Nat) : ∀ s m, Keeps P (encodeTreeRevFrom base n s m) := by
  induction n with
  | zero => exact fun _ _ _ he => he
  | succ n ih => exact fun _ _ e he => (hP.encodeBit _ _ e he).bind (ih _ _)

theorem encodeTreeRev (base n s : Nat) : Keeps P (encodeTreeRev base n s) := hP.encodeTreeRevFrom base n s 1

/-! ## Symbols (R214 to R220) -/

theorem encodeLen (base l ps : Nat) : Keeps P (encodeLen base l ps) := fun e he =>
  .ite (fun _ => (hP.encodeBit _ _ e he).bind (hP.encodeTree _ _ _)) fun _ =>
    .ite (fun _ => (hP.encodeBit _ _ e he).bind fun a ha => (hP.encodeBit _ _ a ha).bind (hP.encodeTree _ _ _))
      fun _ => (hP.encodeBit _ _ e he).bind fun a ha => (hP.encodeBit _ _ a ha).bind (hP.encodeTree _ _ _)

theorem encodeDist (dist len : Nat) : Keeps P (encodeDist dist len) := fun e he =>
  (hP.encodeTree _ _ _ e he).bind fun a ha => .ite (fun _ => .pure ha) fun _ =>
    .ite (fun _ => hP.encodeTreeRev _ _ _ a ha) fun _ => (hP.encodeDirect _ _ a ha).bind (hP.encodeTreeRev _ _ _)

theorem matchedLiteralFrom (base n : Nat) : ∀ mb offs sym, Keeps P (matchedLiteralFrom base n mb offs sym) := by
  induction n with
  | zero => exact fun _ _ _ _ he => he
  | succ n ih => exact fun _ _ _ e he => (hP.encodeBit _ _ e he).bind (ih _ _ _)

theorem encodeLiteral (x : SymCtx) (p : Nat) : Keeps P (encodeLiteral x p) := fun e he =>
  (hP.encodeBit _ _ e he).bind fun a ha => .ite
    (fun _ => (hP.encodeTree _ _ _ a ha).bind fun _ hb => .pure (hP.setSt hb _))
    fun _ => (hP.matchedLiteralFrom _ _ _ _ _ a ha).bind fun _ hb => .pure (hP.setSt hb _)

theorem encodeMatch (x : SymCtx) (p len dist : Nat) : Keeps P (encodeMatch x p len dist) := fun e he =>
  (hP.encodeBit _ _ e he).bind fun a ha => (hP.encodeBit _ _ a ha).bind fun b hb => (hP.encodeLen _ _ _ b hb).bind
    fun c hc => (hP.encodeDist _ _ c hc).bind fun _ hd => .pure (hP.setSt (hP.setReps hd _) _)

theorem encodeRepIndex (st r ps : Nat) : Keeps P (encodeRepIndex st r ps) := fun e he =>
  .ite (fun _ => (hP.encodeBit _ _ e he).bind (hP.encodeBit _ _)) fun _ => (hP.encodeBit _ _ e he).bind fun a ha =>
    .ite (fun _ => hP.encodeBit _ _ a ha) fun _ => (hP.encodeBit _ _ a ha).bind (hP.encodeBit _ _)

theorem encodeRep (x : SymCtx) (p len r : Nat) : Keeps P (encodeRep x p len r) := fun e he =>
  (hP.encodeBit _ _ e he).bind fun a ha => (hP.encodeBit _ _ a ha).bind fun b hb => (hP.encodeRepIndex _ _ _ b hb).bind
    fun _ hc => (hP.encodeLen _ _ _ _ (hP.setReps hc _)).bind fun _ hd => .pure (hP.setSt hd _)

theorem encodeShortRep (x : SymCtx) (p : Nat) : Keeps P (encodeShortRep x p) := fun e he =>
  (hP.encodeBit _ _ e he).bind fun a ha => (hP.encodeBit _ _ a ha).bind fun b hb => (hP.encodeBit _ _ b hb).bind
    fun c hc => (hP.encodeBit _ _ c hc).bind fun _ hd => .pure (hP.setSt hd _)

/-- Every operation on a lane's window keeps the property. -/
theorem coding {f : Enc → Except Halt Enc} (hf : Coding f) : Keeps P f := by
  cases hf with
  | bit i b => exact hP.encodeBit i b
  | tree base n s => exact hP.encodeTree base n s
  | treeRev base n s => exact hP.encodeTreeRev base n s
  | direct v n => exact hP.encodeDirect v n
  | flush => exact hP.flush
  | literal x p => exact hP.encodeLiteral x p
  | mtch x p len dist => exact hP.encodeMatch x p len dist
  | rep x p len r => exact hP.encodeRep x p len r
  | shortRep x p => exact hP.encodeShortRep x p

/-! ## The parse (R256 to R258) -/

theorem encodeSingle (x : ParseCtx) (p : Nat) : Keeps P (encodeSingle x p) := fun e he =>
  .ite (fun _ => hP.encodeShortRep _ _ e he) fun _ => hP.encodeLiteral _ _ e he

theorem encodeCand (x : ParseCtx) (p : Nat) (c : Cand) : Keeps P (encodeCand x p c) := by
  cases c with
  | mtch n dist => exact hP.encodeMatch _ _ _ _
  | rep n r => exact hP.encodeRep _ _ _ _

theorem encodeSingles (x : ParseCtx) (n : Nat) :
    ∀ p e, P e → Ends (fun r => P r.enc) (fun _ => True) (encodeSingles x n p e) := by
  induction n with
  | zero => exact fun _ _ he => he
  | succ n ih =>
    exact fun p e he => .ite (fun _ => (hP.encodeSingle x p e he).bind (ih (p + 1))) fun _ => .pure he

theorem parseRound (x : ParseCtx) (p : Nat) (e : Enc) (he : P e) :
    Ends (fun r => P r.enc) (fun _ => True) (parseRound x p e) := by
  unfold Machine.parseRound
  split
  · exact hP.encodeSingles x 1 p e he
  · exact (hP.encodeSingles x _ p e he).bind fun r hr => .ite (fun _ => .pure hr) fun _ => .ite
      (fun _ => (hP.encodeCand x _ _ r.enc hr).bind fun _ ha => .pure ha) fun _ => .pure hr

theorem parseChunk (x : ParseCtx) (fuel : Nat) :
    ∀ p e, P e → Ends (fun r => P r.2) (fun _ => True) (parseChunk x fuel p e) := by
  induction fuel with
  | zero => exact fun _ _ he => he
  | succ fuel ih =>
    exact fun p e he => .ite (fun _ => (hP.parseRound x p e he).bind fun r hr => .ite (fun _ => .pure hr) fun _ => ih _ _ hr)
      fun _ => .pure he

/-- A chunk attempt is finished from a coder with the property, if it is opened with one (R285). -/
theorem encChunk (x : ChunkCtx) (l : Lane) (hopen : P { lane := l.openChunk x, rev := [], room := none }) :
    Ends (fun c => ∃ pend e, P e ∧ c = finishChunk x l pend e) (fun _ => True) (encChunk x l) :=
  (hP.parseChunk _ _ _ _ hopen).bind fun r hr => (hP.flush r.2 hr).bind fun e he => .pure ⟨r.1, e, he, rfl⟩

end CoderInvariant

end Sys2Proof.Machine
end

section
/-! PROOFS. What a command does to `OUT` (20_memory.md R82, R95): it writes bytes that do not depend on the bytes there,
inside its window. -/

namespace Sys2Proof.Machine

/-! ## The bytes written -/

/-- The addresses of `OUT` that the command may write (R95), inside the memory (R80). -/
def MayWrite (i : Instr) (s : State) (b : Nat) : Prop :=
  (i.outWindow s).1 ≤ b ∧ b < (i.outWindow s).2 ∧ b < s.params.outCap.toNat

/-- `u` and `u'` differ in `OUT` only, where both got the same bytes at the same addresses, all in `W`: `u` over `m`, `u'`
over `o`. -/
def WroteAlike (W : Nat → Prop) (m o : Memory) (u u' : State) : Prop :=
  ∃ (a : Nat) (bytes : List Byte), (∀ b, a ≤ b → b < a + bytes.length → W b)
    ∧ u.out = Memory.writeBytes m a bytes ∧ u' = { u with out := Memory.writeBytes o a bytes }

variable {W : Nat → Prop} {m o : Memory} {i : Instr} {s t u u' : State} {L n : Nat} {l : Lane}

theorem WroteAlike.nothing (hu : u.out = m) (hu' : u' = { u with out := o }) : WroteAlike W m o u u' :=
  ⟨0, [], fun _ _ hb => absurd hb (Nat.not_lt_zero _), hu, hu'⟩

/-- An update that has nothing to do with `OUT` changes nothing of how the two states differ. -/
theorem WroteAlike.map (h : WroteAlike W m o u u') (g : State → State)
    (hg : ∀ (v : State) (p : Memory), g { v with out := p } = { g v with out := p }) : WroteAlike W m o (g u) (g u') := by
  obtain ⟨a, bytes, hW, hu, rfl⟩ := h
  have hout : (g u).out = u.out := (congrArg State.out (hg u u.out) :)
  exact ⟨a, bytes, hW, hout.trans hu, hg u _⟩

theorem WroteAlike.read_outside (h : WroteAlike W m o u u') {a : Nat} (ha : ¬ W a) :
    Memory.read u.out a = Memory.read m a := by
  obtain ⟨b, bytes, hW, hu, -⟩ := h
  rw [hu]
  refine Memory.read_writeBytes_outside m b a bytes ?_
  by_contra hin
  exact ha (hW a (by omega) (by omega))

/-- A byte is written, and the same in both, or left, in both. -/
theorem WroteAlike.read_cases (h : WroteAlike W m o u u') (hm : Memory.wf m = true) (ho : Memory.wf o = true) (a : Nat) :
    Memory.read u'.out a = Memory.read u.out a
      ∨ (Memory.read u'.out a = Memory.read o a ∧ Memory.read u.out a = Memory.read m a) := by
  obtain ⟨b, bytes, -, hu, rfl⟩ := h
  rw [hu]
  by_cases hin : b ≤ a ∧ a < b + bytes.length
  · obtain ⟨k, rfl⟩ := Nat.exists_eq_add_of_le hin.1
    have hk : k < bytes.length := by omega
    rw [Memory.read_writeBytes_inside o b k bytes ho hk, Memory.read_writeBytes_inside m b k bytes hm hk]
    exact .inl rfl
  · have hout : a < b ∨ b + bytes.length ≤ a := by omega
    exact .inr ⟨Memory.read_writeBytes_outside o b a bytes hout, Memory.read_writeBytes_outside m b a bytes hout⟩

/-! ## Computations alike -/

/-- The first step is one that both share. -/
theorem Alike.shared {A C D : Type} {S : C → D → Prop} {x : Except Halt A} {f : A → Except Halt C}
    {g : A → Except Halt D} (h : ∀ a, x = .ok a → Alike (fun _ => True) S (f a) (g a)) :
    Alike (fun _ => True) S (x >>= f) (x >>= g) := by
  cases x with
  | ok a => exact h a rfl
  | error _ => exact .error trivial

theorem Alike.of_error {A B : Type} {Q : Halt → Prop} {R : A → B → Prop} {x : Except Halt A} {y : Except Halt B}
    {h : Halt} (hxy : Alike Q R x y) (hx : x = .error h) : y = .error h := by
  cases hxy with
  | ok _ => cases hx
  | error _ => exact congrArg Except.error (Except.error.inj hx)

/-- The output write (R296), from `OUT_POS` on and below `OUT_LIMIT`, and an update `g` that leaves `OUT` alone. -/
theorem writeOut_wroteAlike (v : State) (bytes : List Byte) (g : State → State)
    (hg : ∀ (v : State) (p : Memory), g { v with out := p } = { g v with out := p })
    (hw : i.outWindow s = (v.outPos.toNat, v.cfg.outLimit.toNat))
    (hcap : v.cfg.outLimit.toNat ≤ s.params.outCap.toNat) :
    Alike (fun _ => True) (WroteAlike (MayWrite i s) v.out o) (v.writeOut bytes >>= fun t => .ok (g t))
      ({ v with out := o }.writeOut bytes >>= fun t => .ok (g t)) := by
  refine Alike.bind (R := WroteAlike (MayWrite i s) v.out o) ?_ fun _ _ h => .pure (h.map g hg)
  refine .check rfl fun hroom => .pure ⟨v.outPos.toNat, bytes, fun b hlo hhi => ?_, rfl, rfl⟩
  rw [decide_eq_true_eq] at hroom
  unfold MayWrite
  rw [hw]
  exact ⟨hlo, by omega, by omega⟩

/-- A coder on a lane's window with room for `n` bytes. -/
def Enc.Fits (n : Nat) (e : Enc) : Prop := e.room = some n ∧ e.rev.length ≤ n

theorem fits_invariant (n : Nat) : CoderInvariant (Enc.Fits n) where
  setRc h _ := h
  setProb h _ _ := h
  setSt h _ := h
  setReps h _ := h
  emitRun := by
    rintro e ⟨hroom, -⟩ first rest k hk
    unfold Machine.emitRun
    rw [hroom]
    refine .ite (fun hlen => ⟨rfl, ?_⟩) fun _ => trivial
    simp only [List.length_append, List.length_replicate, List.length_cons]
    omega

/-- A coding operation leaves the lane's window where it was, and emits no more than the window has room for (R141). -/
theorem Coding.window {f : Enc → Except Halt Enc} (hf : Coding f) {e : Enc} (he : f l.windowEnc = .ok e) :
    e.lane.outBase = l.outBase ∧ e.lane.outLen = l.outLen ∧ e.rev.length ≤ l.outCap.toNat - l.outLen.toNat := by
  have hlane := ((hf.ends l.windowEnc false).of_ok he).2
  have hfits := ((fits_invariant _).coding hf l.windowEnc ⟨rfl, Nat.zero_le _⟩).of_ok he
  exact ⟨(congrArg Lane.outBase hlane :), (congrArg Lane.outLen hlane :), hfits.2⟩

theorem codingLane_windowLane (h : s.codingLane L = .ok l) : s.windowLane L = .ok l := by
  obtain ⟨hl, hlegal, -⟩ := (codingLane_ok s L l).mp h
  exact (windowLane_ok s L l).mpr ⟨hl, hlegal⟩

theorem symbolLane_windowLane (h : s.symbolLane L = .ok l) : s.windowLane L = .ok l := by
  obtain ⟨hl, hlegal, -⟩ := (symbolLane_ok s L l).mp h
  exact (windowLane_ok s L l).mpr ⟨hl, hlegal⟩

/-- The window commit (R141): from `LANE_OUT_BASE + LANE_OUT_LEN` on, inside the window. -/
theorem commitWindow_wroteAlike {e : Enc} (hi : i.outWindow s = Instr.outWindow.laneWindow s L)
    (hl : s.windowLane L = .ok l) (hbase : e.lane.outBase = l.outBase) (hlen : e.lane.outLen = l.outLen)
    (hroom : e.rev.length ≤ l.outCap.toNat - l.outLen.toNat) :
    WroteAlike (MayWrite i s) s.out o (s.commitWindow L e) ({ s with out := o }.commitWindow L e) := by
  obtain ⟨hfound, hlegal⟩ := (windowLane_ok s L l).mp hl
  simp only [State.windowLegal, Bool.and_eq_true, decide_eq_true_eq] at hlegal
  refine ⟨_, e.bytes, fun b hlo hhi => ?_, rfl, rfl⟩
  have hbytes : e.bytes.length = e.rev.length := List.length_reverse
  rw [hbase, hlen] at hlo hhi
  have hw : i.outWindow s = (l.outBase.toNat + l.outLen.toNat, l.outBase.toNat + l.outCap.toNat) := by
    rw [hi, Instr.outWindow.laneWindow, hfound]
  unfold MayWrite
  rw [hw]
  exact ⟨hlo, by omega, by omega⟩

/-- Coding on a lane's window, and its commit. -/
theorem window_wroteAlike {f : Enc → Except Halt Enc} (hi : i.outWindow s = Instr.outWindow.laneWindow s L)
    (hl : s.windowLane L = .ok l) (hf : Coding f) :
    Alike (fun _ => True) (WroteAlike (MayWrite i s) s.out o) (f l.windowEnc >>= fun e => .ok (s.commitWindow L e))
      (f l.windowEnc >>= fun e => .ok ({ s with out := o }.commitWindow L e)) :=
  .shared fun _ he =>
    have ⟨hbase, hlen, hroom⟩ := hf.window he
    .pure (commitWindow_wroteAlike hi hl hbase hlen hroom)

/-- Coding a symbol on a lane's window, and its commit. -/
theorem symbol_wroteAlike {f : Enc → Except Halt Enc} (p : Nat) (hi : i.outWindow s = Instr.outWindow.laneWindow s L)
    (hl : s.windowLane L = .ok l) (hf : Coding f) :
    Alike (fun _ => True) (WroteAlike (MayWrite i s) s.out o)
      (f l.windowEnc >>= fun e => .ok (s.commitWindow L (e.setPos p)))
      (f l.windowEnc >>= fun e => .ok ({ s with out := o }.commitWindow L (e.setPos p))) :=
  .shared fun e he =>
    have ⟨hbase, hlen, hroom⟩ := hf.window he
    .pure (commitWindow_wroteAlike (e := e.setPos p) hi hl hbase hlen hroom)

/-! ## Every command -/

/-- With other bytes in `OUT` the computation does the same, and it writes `OUT` inside the command's window. -/
def OutAlike (i : Instr) (body : State → Except Halt State) : Prop :=
  ∀ (s : State) (o : Memory),
    Alike (fun _ => True) (WroteAlike (MayWrite i s) s.out o) (body s) (body { s with out := o })

/-- As `OutAlike`, for the whole command. -/
def ExecOutAlike (i : Instr) : Prop :=
  ∀ (s t : State) (o : Memory), exec i s = .next t →
    ∃ t', exec i { s with out := o } = .next t' ∧ WroteAlike (MayWrite i s) s.out o t t'

theorem outWindow_clearRes (i : Instr) (s : State) : i.outWindow s.clearRes = i.outWindow s := by cases i <;> rfl

/-- A fault and a cancellation leave `OUT` alone; a normal completion adds nothing to what the computation wrote (R355). -/
theorem OutAlike.exec {body : State → Except Halt State} (hexec : ∀ s, Machine.exec i s = conclude i s body)
    (h : OutAlike i body) : ExecOutAlike i := by
  intro s t o ht
  have hbody := h s.clearRes o
  have hW : MayWrite i s.clearRes = MayWrite i s := by
    unfold MayWrite
    rw [outWindow_clearRes]
    rfl
  rw [hW] at hbody
  rw [hexec] at ht ⊢
  rcases conclude_next i s t body ht with ⟨v, hv, rfl⟩ | ⟨c, hc, rfl⟩ | ⟨hc, rfl⟩
  · obtain ⟨v', hv', hwrote⟩ := hbody.of_ok hv
    exact ⟨_, conclude_ok i _ v' body hv', hwrote.map State.complete fun _ _ => rfl⟩
  · exact ⟨_, conclude_fault i _ body c (hbody.of_error hc), .nothing rfl rfl⟩
  · exact ⟨_, conclude_canceled i _ body (hbody.of_error hc), .nothing rfl rfl⟩

theorem execNop_outAlike : ExecOutAlike .nop :=
  OutAlike.exec (fun s => Eq.refl (execNop s)) fun _ _ => .pure (.nothing rfl rfl)

theorem execClear_outAlike : ExecOutAlike .clear :=
  OutAlike.exec (fun s => Eq.refl (execClear s)) fun _ _ => .pure (.nothing rfl rfl)

/-! ### Range coder commands -/

theorem execRcReset_outAlike : ExecOutAlike (.rcReset L) :=
  OutAlike.exec (fun s => Eq.refl (execRcReset L s)) fun s _ => .shared (x := s.windowLane L) fun _ _ =>
    .pure (.nothing rfl rfl)

theorem execRcBit_outAlike (b : Bool) : ExecOutAlike (.rcBit L b) :=
  OutAlike.exec (fun s => Eq.refl (execRcBit L b s)) fun s _ => .shared (x := s.codingLane L) fun _ hl =>
    .check rfl fun _ => window_wroteAlike rfl (codingLane_windowLane hl) (.bit _ b)

theorem execRcTree_outAlike : ExecOutAlike (.rcTree L n) :=
  OutAlike.exec (fun s => Eq.refl (execRcTree L n s)) fun s _ => .shared (x := s.codingLane L) fun _ hl =>
    .check rfl fun _ => .check rfl fun _ => window_wroteAlike rfl (codingLane_windowLane hl) (.tree _ n _)

theorem execRcTreeRev_outAlike : ExecOutAlike (.rcTreeRev L n) :=
  OutAlike.exec (fun s => Eq.refl (execRcTreeRev L n s)) fun s _ => .shared (x := s.codingLane L) fun _ hl =>
    .check rfl fun _ => .check rfl fun _ => window_wroteAlike rfl (codingLane_windowLane hl) (.treeRev _ n _)

theorem execRcDirect_outAlike : ExecOutAlike (.rcDirect L n) :=
  OutAlike.exec (fun s => Eq.refl (execRcDirect L n s)) fun s _ => .shared (x := s.windowLane L) fun _ hl =>
    .check rfl fun _ => window_wroteAlike rfl hl (.direct _ n)

theorem execRcFlush_outAlike : ExecOutAlike (.rcFlush L) :=
  OutAlike.exec (fun s => Eq.refl (execRcFlush L s)) fun s _ => .shared (x := s.windowLane L) fun _ hl =>
    window_wroteAlike rfl hl .flush

theorem execRcPrice_outAlike (b : Bool) : ExecOutAlike (.rcPrice b) :=
  OutAlike.exec (fun s => Eq.refl (execRcPrice b s)) fun _ _ => .check rfl fun _ => .pure (.nothing rfl rfl)

/-! ### Match finder commands -/

theorem execMfCreate_outAlike : ExecOutAlike .mfCreate :=
  OutAlike.exec (fun s => Eq.refl (execMfCreate s)) fun _ _ => .check rfl fun _ => .check rfl fun _ =>
    .pure (.nothing rfl rfl)

theorem execMfBuild_outAlike : ExecOutAlike .mfBuild :=
  OutAlike.exec (fun s => Eq.refl (execMfBuild s)) fun s _ => .check rfl fun _ => .check rfl fun _ => .check rfl fun _ =>
    .shared (x := s.cancelPoint) fun _ _ => .pure (.nothing rfl rfl)

theorem execMfGetMatch_outAlike : ExecOutAlike .mfGetMatch :=
  OutAlike.exec (fun s => Eq.refl (execMfGetMatch s)) fun s _ => .shared (x := s.queryPos) fun _ _ =>
    .pure (.nothing rfl rfl)

theorem execMfGetNextMatch_outAlike : ExecOutAlike .mfGetNextMatch :=
  OutAlike.exec (fun s => Eq.refl (execMfGetNextMatch s)) fun s _ => .shared (x := s.queryPos) fun _ _ =>
    .pure (.nothing rfl rfl)

theorem execMfReadSlot_outAlike : ExecOutAlike .mfReadSlot := by
  refine OutAlike.exec (fun s => Eq.refl (execMfReadSlot s)) fun s _ => .shared (x := s.queryPos) fun p _ => ?_
  dsimp only
  cases s.table.slot p <;> exact .pure (.nothing rfl rfl)

/-! ### Symbol and state commands -/

theorem execEncResetState_outAlike : ExecOutAlike (.encResetState L) :=
  OutAlike.exec (fun s => Eq.refl (execEncResetState L s)) fun s _ => .shared (x := s.getLane L) fun _ _ =>
    .check rfl fun _ => .pure (.nothing rfl rfl)

theorem execEncLiteral_outAlike : ExecOutAlike (.encLiteral L) :=
  OutAlike.exec (fun s => Eq.refl (execEncLiteral L s)) fun s _ => .shared (x := s.symbolLane L) fun _ hl =>
    .check rfl fun _ => .check rfl fun _ => symbol_wroteAlike _ rfl (symbolLane_windowLane hl) (.literal _ _)

theorem execEncMatch_outAlike : ExecOutAlike (.encMatch L) :=
  OutAlike.exec (fun s => Eq.refl (execEncMatch L s)) fun s _ => .shared (x := s.symbolLane L) fun _ hl =>
    .check rfl fun _ => .check rfl fun _ => symbol_wroteAlike _ rfl (symbolLane_windowLane hl) (.mtch _ _ _ _)

theorem execEncRep_outAlike : ExecOutAlike (.encRep L n) :=
  OutAlike.exec (fun s => Eq.refl (execEncRep L n s)) fun s _ => .shared (x := s.symbolLane L) fun _ hl =>
    .check rfl fun _ => .check rfl fun _ => symbol_wroteAlike _ rfl (symbolLane_windowLane hl) (.rep _ _ _ n)

theorem execEncShortRep_outAlike : ExecOutAlike (.encShortRep L) :=
  OutAlike.exec (fun s => Eq.refl (execEncShortRep L s)) fun s _ => .shared (x := s.symbolLane L) fun _ hl =>
    .check rfl fun _ => symbol_wroteAlike _ rfl (symbolLane_windowLane hl) (.shortRep _ _)

theorem execEncSnapshot_outAlike : ExecOutAlike (.encSnapshot L) :=
  OutAlike.exec (fun s => Eq.refl (execEncSnapshot L s)) fun s _ => .shared (x := s.getLane L) fun _ _ =>
    .check rfl fun _ => .pure (.nothing rfl rfl)

theorem execEncRollback_outAlike : ExecOutAlike (.encRollback L) :=
  OutAlike.exec (fun s => Eq.refl (execEncRollback L s)) fun s _ => .shared (x := s.getLane L) fun _ _ =>
    .check rfl fun _ => .pure (.nothing rfl rfl)

theorem execProbRead_outAlike : ExecOutAlike (.probRead L) :=
  OutAlike.exec (fun s => Eq.refl (execProbRead L s)) fun s _ => .shared (x := s.probLane L) fun _ _ =>
    .pure (.nothing rfl rfl)

theorem execProbWrite_outAlike : ExecOutAlike (.probWrite L) :=
  OutAlike.exec (fun s => Eq.refl (execProbWrite L s)) fun s _ => .shared (x := s.probLane L) fun _ _ =>
    .check rfl fun _ => .pure (.nothing rfl rfl)

/-! ### Chunks, slices, blocks and streams -/

theorem outLegal_cap (h : s.outLegal = true) : s.cfg.outLimit.toNat ≤ s.params.outCap.toNat := by
  simp only [State.outLegal, Bool.and_eq_true, decide_eq_true_eq] at h
  exact h.2

theorem encConfigLegal_cap (h : s.encConfigLegal = true) : s.cfg.outLimit.toNat ≤ s.params.outCap.toNat :=
  outLegal_cap (Bool.and_eq_true_iff.mp h).2

theorem execSliceBegin_outAlike (dr : Bool) : ExecOutAlike (.sliceBegin L dr) :=
  OutAlike.exec (fun s => Eq.refl (execSliceBegin L dr s)) fun s _ => .shared (x := s.getLane L) fun _ _ =>
    .check rfl fun _ => .check rfl fun _ => .pure (.nothing rfl rfl)

theorem execEncChunk_outAlike : ExecOutAlike (.encChunk L) :=
  OutAlike.exec (fun s => Eq.refl (execEncChunk L s)) fun s _ => .shared (x := s.getLane L) fun l _ =>
    .check rfl fun _ => .check rfl fun _ => .check rfl fun hcfg => .check rfl fun _ => .check rfl fun _ =>
    .check rfl fun _ => .check rfl fun _ => .check rfl fun _ => .shared (x := s.cancelPoint) fun _ _ =>
    .shared (x := encChunk s.chunkCtx l) fun c _ => writeOut_wroteAlike (s.setLane L c.lane) c.bytes
      (fun v => (v.consume c.u).setRes c.bytes.length c.u c.kind) (fun _ _ => rfl) rfl (encConfigLegal_cap hcfg)

theorem execEncSlice_outAlike (dr : Bool) : ExecOutAlike (.encSlice L dr) :=
  OutAlike.exec (fun s => Eq.refl (execEncSlice L dr s)) fun s _ => .shared (x := s.getLane L) fun l _ =>
    .check rfl fun _ => .check rfl fun hcfg => .check rfl fun _ => .check rfl fun _ =>
    .shared (x := s.cancelPoint) fun _ _ => .shared (x := encSlice s.chunkCtx none (l.openSlice dr)) fun r _ =>
    writeOut_wroteAlike (s.setLane L r.lane) r.bytes
      (fun v => (v.consume (l.sliceEnd.toNat - l.sliceStart.toNat)).setRes r.bytes.length
        (l.sliceEnd.toNat - l.sliceStart.toNat) r.chunks)
      (fun _ _ => rfl) rfl (encConfigLegal_cap hcfg)

/-- The counters, the stream and the results of a committed block of `len` bytes from `start` on (R297, R300). -/
def State.commitBlock (s : State) (start len : Nat) (r : BlockResult) : State :=
  ((s.consume len).addBlock start len).setRes r.bytes.length len r.chunks

theorem execEncBlock_outAlike : ExecOutAlike .encBlock :=
  OutAlike.exec (fun s => Eq.refl (execEncBlock s)) fun s _ => .check rfl fun hcfg => .check rfl fun _ =>
    .check rfl fun _ => .ite (fun _ => .pure (.nothing rfl rfl)) fun _ =>
    .check rfl fun _ => .check rfl fun _ => .check rfl fun _ => .shared (x := s.cancelPoint) fun _ _ =>
    .shared (x := encLanes s.chunkCtx s.params.stageCap.toNat s.cfg.dictReset
      (partition s.cfg.blkStart.toNat (s.cfg.blkEnd.toNat - s.cfg.blkStart.toNat)
        (min s.cfg.nActive.toNat (s.cfg.blkEnd.toNat - s.cfg.blkStart.toNat))) s.lanes) fun r _ =>
    writeOut_wroteAlike { s with lanes := r.lanes } r.bytes
      (State.commitBlock · s.cfg.blkStart.toNat (s.cfg.blkEnd.toNat - s.cfg.blkStart.toNat) r)
      (fun _ _ => rfl) rfl (encConfigLegal_cap hcfg)

/-- The stream that `STREAM_BEGIN` opens, and its result (R310). -/
def State.openStream (s : State) (n : Nat) : State :=
  { s with stream :=
    { isOpen := true, needDr := true, ck := s.cfg.checksumEn, omitP := s.cfg.omitProp
      dict := s.cfg.dictSize, ckData := [] } }.setRes n 0 0

theorem execStreamBegin_outAlike : ExecOutAlike .streamBegin :=
  OutAlike.exec (fun s => Eq.refl (execStreamBegin s)) fun s _ => .check rfl fun _ => .check rfl fun _ =>
    .check rfl fun hout => writeOut_wroteAlike s _ (State.openStream · _) (fun _ _ => rfl) rfl (outLegal_cap hout)

theorem execStreamEnd_outAlike : ExecOutAlike .streamEnd :=
  OutAlike.exec (fun s => Eq.refl (execStreamEnd s)) fun s _ => .check rfl fun _ => .check rfl fun hout =>
    writeOut_wroteAlike s s.stream.trailer (fun v => { v with stream := .closed }.setRes s.stream.trailer.length 0 0)
      (fun _ _ => rfl) rfl (outLegal_cap hout)

/-- Every command does the same with other bytes in `OUT`, and writes it inside its window alone. -/
theorem exec_outAlike (i : Instr) : ExecOutAlike i := by
  cases i with
  | nop => exact execNop_outAlike
  | rcReset L => exact execRcReset_outAlike
  | rcBit L b => exact execRcBit_outAlike b
  | rcTree L n => exact execRcTree_outAlike
  | rcTreeRev L n => exact execRcTreeRev_outAlike
  | rcDirect L n => exact execRcDirect_outAlike
  | rcFlush L => exact execRcFlush_outAlike
  | rcPrice b => exact execRcPrice_outAlike b
  | mfCreate => exact execMfCreate_outAlike
  | mfBuild => exact execMfBuild_outAlike
  | mfGetMatch => exact execMfGetMatch_outAlike
  | mfGetNextMatch => exact execMfGetNextMatch_outAlike
  | mfReadSlot => exact execMfReadSlot_outAlike
  | encResetState L => exact execEncResetState_outAlike
  | encLiteral L => exact execEncLiteral_outAlike
  | encMatch L => exact execEncMatch_outAlike
  | encRep L r => exact execEncRep_outAlike
  | encShortRep L => exact execEncShortRep_outAlike
  | encSnapshot L => exact execEncSnapshot_outAlike
  | encRollback L => exact execEncRollback_outAlike
  | probRead L => exact execProbRead_outAlike
  | probWrite L => exact execProbWrite_outAlike
  | sliceBegin L dr => exact execSliceBegin_outAlike dr
  | encChunk L => exact execEncChunk_outAlike
  | encSlice L dr => exact execEncSlice_outAlike dr
  | encBlock => exact execEncBlock_outAlike
  | streamBegin => exact execStreamBegin_outAlike
  | streamEnd => exact execStreamEnd_outAlike
  | clear => exact execClear_outAlike

/-- A command leaves in `OUT` what it held, but for bytes written inside the command's window. -/
theorem exec_writesOut (h : exec i s = .next t) : ∃ (a : Nat) (bytes : List Byte),
    (∀ b, a ≤ b → b < a + bytes.length → MayWrite i s b) ∧ t.out = Memory.writeBytes s.out a bytes := by
  obtain ⟨_, -, a, bytes, hW, hout, -⟩ := exec_outAlike i s t s.out h
  exact ⟨a, bytes, hW, hout⟩

end Sys2Proof.Machine

open Sys2Proof Sys2Proof.Machine

/-- Settles O13: every byte that a command writes is one that `MayWrite` allows. -/
theorem outWrittenInWindow : Obligations.OutWrittenInWindow := by
  intro i s t h a ha
  obtain ⟨_, -, hwrote⟩ := exec_outAlike i s t s.out h
  refine hwrote.read_outside ?_
  rintro ⟨hlo, hhi, -⟩
  omega

/-- Settles O14: every command does the same with other bytes in `OUT`, and writes the same bytes over them. -/
theorem outNeverRead : Obligations.OutNeverRead := by
  intro i s t o h
  obtain ⟨t', ht', hwrote⟩ := exec_outAlike i s t o h
  obtain ⟨_, _, -, -, heq⟩ := id hwrote
  exact ⟨t'.out, by rw [ht', heq], hwrote.read_cases⟩

end

section
/-! PROOFS. The memories' invariant is kept by every step (20_memory.md R80, R82, R84): what a step writes keeps the
canonical form, and lies inside the capacities. -/

namespace Sys2Proof.Machine

variable {i : Instr} {s t u : State}

/-! ## The probability memories of a lane -/

/-- Both probability memories of a lane are in canonical form. -/
abbrev Lane.ProbsOk (l : Lane) : Prop := ProbMem.wf l.prob = true ∧ ProbMem.wf l.snap.prob = true

theorem probsOk_invariant : CoderInvariant fun e => e.lane.ProbsOk where
  setRc h _ := h
  setProb h _ _ := ⟨ProbMem.write_wf _ _ _ h.1, h.2⟩
  setSt h _ := h
  setReps h _ := h
  emitRun := by
    intro e h first rest k _
    unfold Machine.emitRun
    split
    · exact .ite (fun _ => h) fun _ => trivial
    · exact h

theorem LaneEdit.probsOk {l l' : Lane} (h : LaneEdit s l l') (hl : l.ProbsOk) : l'.ProbsOk := by
  obtain ⟨hprob, hsnap⟩ := hl
  cases h with
  | resetCoder | openSlice dr => exact ⟨hprob, hsnap⟩
  | setWord i v => exact ⟨ProbMem.write_wf _ _ _ hprob, hsnap⟩
  | resetState => exact ⟨rfl, hsnap⟩
  | takeSnapshot => exact ⟨hprob, hprob⟩
  | rollBack => exact ⟨hsnap, hsnap⟩

theorem Lane.openChunk_probsOk (x : ChunkCtx) {l : Lane} (hl : l.ProbsOk) : (l.openChunk x).ProbsOk := by
  unfold Lane.openChunk
  split
  · exact ⟨hl.1, hl.1⟩
  · exact ⟨rfl, rfl⟩

theorem finishChunk_probsOk (x : ChunkCtx) (l : Lane) (pend : Nat) {e : Enc} (he : e.lane.ProbsOk) :
    (finishChunk x l pend e).lane.ProbsOk := by
  unfold finishChunk
  dsimp only
  split
  · exact he
  · exact ⟨he.2, he.2⟩

theorem encChunk_probsOk (x : ChunkCtx) {l : Lane} (hl : l.ProbsOk) :
    Ends (fun c => c.lane.ProbsOk) (fun _ => True) (encChunk x l) := by
  refine (probsOk_invariant.encChunk x l (l.openChunk_probsOk x hl)).imp ?_ fun _ h => h
  rintro _ ⟨pend, e, he, rfl⟩
  exact finishChunk_probsOk x l pend he

theorem check_ends (ok : Bool) (c : Code) : Ends (fun _ => True) (fun _ => True) (check ok c) := by
  cases ok <;> trivial

theorem encSliceFrom_probsOk (x : ChunkCtx) (cap : Option Nat) (fuel : Nat) : ∀ r : SliceResult, r.lane.ProbsOk →
    Ends (fun r => r.lane.ProbsOk) (fun _ => True) (encSliceFrom x cap fuel r) := by
  induction fuel with
  | zero => exact fun r hr => .ite (fun _ => trivial) fun _ => .pure hr
  | succ fuel ih =>
    refine fun r hr => .ite (fun _ => (encChunk_probsOk x hr).bind fun c hc => ?_) fun _ => .pure hr
    exact (check_ends _ _).bind fun _ _ => ih _ hc

theorem encSlice_probsOk (x : ChunkCtx) (cap : Option Nat) {l : Lane} (hl : l.ProbsOk) :
    Ends (fun r => r.lane.ProbsOk) (fun _ => True) (encSlice x cap l) := encSliceFrom_probsOk x cap _ _ hl

theorem encLanes_probsOk (x : ChunkCtx) (cap : Nat) (slices : List (Nat × Nat)) :
    ∀ dr lanes, (∀ l ∈ lanes, Lane.ProbsOk l) →
    Ends (fun r => ∀ l ∈ r.lanes, Lane.ProbsOk l) (fun _ => True) (encLanes x cap dr slices lanes) := by
  induction slices with
  | nil => exact fun dr lanes hl => hl
  | cons ab slices ih =>
    intro dr lanes hl
    cases lanes with
    | nil => trivial
    | cons l lanes =>
      obtain ⟨hhead, htail⟩ := List.forall_mem_cons.mp hl
      refine Ends.bind (encSlice_probsOk x _ ?_) fun r hr => (ih false lanes htail).bind fun rest hrest => ?_
      · exact hhead
      · exact List.forall_mem_cons.mpr ⟨hr, hrest⟩

/-- Coding on a lane's window keeps the lane's canonical memories. -/
theorem window_probsOk {L : Nat} {l : Lane} {f : Enc → Except Halt Enc} {e : Enc} (hs : ∀ l ∈ s.lanes, l.ProbsOk)
    (hw : s.windowLane L = .ok l) (hf : Coding f) (he : f l.windowEnc = .ok e) : e.lane.ProbsOk := by
  obtain ⟨hl, -⟩ := (windowLane_ok s L l).mp hw
  exact (probsOk_invariant.coding hf l.windowEnc (hs l (List.mem_of_getElem? hl))).of_ok he

theorem Effect.lanes_probsOk (h : Effect i s u) (hs : ∀ l ∈ s.lanes, l.ProbsOk) : ∀ l ∈ u.lanes, l.ProbsOk := by
  cases h with
  | idle | answer a b c | create | build => exact hs
  | streamBegin ht | streamEnd ht =>
    obtain ⟨-, rfl⟩ := (writeOut_ok _ _ _).mp ht
    exact hs
  | window hL hw hf he => exact forall_mem_set hs (window_probsOk hs hw hf he)
  | @symbol _ _ _ _ _ e p hL hw hf he => exact forall_mem_set hs (window_probsOk (e := e) hs hw hf he)
  | edit hL hl hedit => exact forall_mem_set hs (hedit.probsOk (hs _ (List.mem_of_getElem? hl)))
  | chunk hL hl hcfg hinit hc ht =>
    obtain ⟨-, rfl⟩ := (writeOut_ok _ _ _).mp ht
    exact forall_mem_set hs ((encChunk_probsOk _ (hs _ (List.mem_of_getElem? hl))).of_ok hc)
  | slice dr n hL hl hcfg hr ht =>
    obtain ⟨-, rfl⟩ := (writeOut_ok _ _ _).mp ht
    have hopen := LaneEdit.probsOk (s := s) (.openSlice dr) (hs _ (List.mem_of_getElem? hl))
    exact forall_mem_set hs ((encSlice_probsOk _ _ hopen).of_ok hr)
  | block slices data n hcfg hr ht =>
    obtain ⟨-, rfl⟩ := (writeOut_ok _ _ _).mp ht
    exact (encLanes_probsOk _ _ _ _ _ hs).of_ok hr
  | clear => exact List.forall_mem_map.mpr hs

/-! ## Every step -/

/-- No byte is listed past `cap` after a write below it. -/
theorem writeBytes_below {m : Memory} {a cap : Nat} {bytes : List Byte} (hm : ∀ x ∈ m, x.1 < cap)
    (hbytes : ∀ b, a ≤ b → b < a + bytes.length → b < cap) : ∀ x ∈ Memory.writeBytes m a bytes, x.1 < cap := by
  intro x hx
  rcases Memory.mem_writeBytes m a bytes x hx with h | ⟨hlo, hhi⟩
  · exact hm x h
  · exact hbytes x.1 hlo hhi

theorem performed_end {sp : Space} {a : Nat} {n : AccessSize} (h : s.performed sp a n = true) :
    a + n.bytes ≤ s.spaceSize sp := by
  simp only [State.performed, Bool.and_eq_true, decide_eq_true_eq] at h
  exact h.1.2

/-- What a performed host write to a memory leaves there: canonical, and inside the memory (R84, R85). -/
theorem hostBytes_ok {m : Memory} {sp : Space} {a : Nat} {n : AccessSize} (v : Word) (hperf : s.performed sp a n = true)
    (hwf : Memory.wf m = true) (hm : ∀ x ∈ m, x.1 < s.spaceSize sp) :
    Memory.wf (Memory.writeBytes m a (leBytes v.toNat n.bytes)) = true
      ∧ ∀ x ∈ Memory.writeBytes m a (leBytes v.toNat n.bytes), x.1 < s.spaceSize sp := by
  have hend := performed_end hperf
  refine ⟨Memory.writeBytes_wf _ _ _ hwf, writeBytes_below hm fun b _ hb => ?_⟩
  rw [leBytes_length] at hb
  omega

theorem exec_memoryOk (hs : s.MemoryOk) (h : exec i s = .next t) : t.MemoryOk := by
  obtain ⟨hdict, hout, hdictCap, houtCap, hlanes⟩ := hs
  obtain ⟨⟨hparams, -, -, hd, -⟩, -⟩ := exec_keepsHostState h
  obtain ⟨a, bytes, hW, ho⟩ := exec_writesOut h
  unfold State.MemoryOk
  rw [hparams, hd, ho]
  have hbelow : ∀ x ∈ Memory.writeBytes s.out a bytes, x.1 < s.params.outCap.toNat := by
    refine writeBytes_below houtCap fun b hlo hhi => ?_
    obtain ⟨-, -, hcap⟩ := hW b hlo hhi
    exact hcap
  refine ⟨hdict, Memory.writeBytes_wf _ _ _ hout, hdictCap, hbelow, ?_⟩
  rcases exec_completes i s t h with ⟨u, hu, rfl⟩ | ⟨c, -, rfl⟩ | ⟨-, rfl⟩
  · exact hu.lanes_probsOk hlanes
  · exact hlanes
  · exact List.forall_mem_map.mpr hlanes

theorem State.writeReg_memoryOk (r : Reg) (v : Word) (hs : s.MemoryOk) : (s.writeReg r v).MemoryOk := by
  cases r <;> exact hs

theorem Lane.writeReg_probsOk (r : LaneReg) (v : Word) {l : Lane} (hl : l.ProbsOk) : (l.writeReg r v).ProbsOk := by
  cases r <;> exact hl

theorem State.hostWrite_memoryOk (sp : Space) (a : Nat) (n : AccessSize) (v : Word) (hs : s.MemoryOk) :
    (s.hostWrite sp a n v).MemoryOk := by
  obtain ⟨hdict, hout, hdictCap, houtCap, hlanes⟩ := id hs
  rcases hostWrite_cases s sp a n v with ⟨-, h⟩ | ⟨-, hperf, h⟩
  · rw [h]
    exact hs
  · rcases h with ⟨-, h⟩ | ⟨-, -, h⟩ | ⟨-, -, h⟩ | ⟨-, -, r, -, -, -, h⟩ | ⟨-, -, L, r, l, -, hl, h⟩ | ⟨-, -, h⟩
      | ⟨rfl, -, h⟩ | ⟨rfl, -, h⟩ <;> rw [h]
    · exact hs
    · exact hs
    · exact hs
    · exact State.writeReg_memoryOk r v hs
    · exact ⟨hdict, hout, hdictCap, houtCap,
        forall_mem_set hlanes (l.writeReg_probsOk r v (hlanes l (List.mem_of_getElem? hl)))⟩
    · exact hs
    · obtain ⟨hwf, hcap⟩ := hostBytes_ok v hperf hdict hdictCap
      exact ⟨hwf, hout, hcap, houtCap, hlanes⟩
    · obtain ⟨hwf, hcap⟩ := hostBytes_ok v hperf hout houtCap
      exact ⟨hdict, hwf, hdictCap, hcap, hlanes⟩

theorem State.assertReset_memoryOk (s : State) : s.assertReset.MemoryOk := by
  refine ⟨rfl, rfl, nofun, nofun, fun l hl => ?_⟩
  obtain rfl := List.eq_of_mem_replicate hl
  exact ⟨rfl, rfl⟩

theorem sequencerTurn_memoryOk (hs : s.MemoryOk) (h : sequencerTurn s = .next t) : t.MemoryOk := by
  rcases sequencerTurn_cases s t h with ⟨-, rfl⟩ | ⟨w, i, -, -, h⟩ | ⟨w, e, -, -, rfl⟩
  · exact hs
  · exact exec_memoryOk hs h
  · exact hs

theorem step_memoryOk (hs : s.MemoryOk) (h : step s = .next t) : t.MemoryOk := by
  rcases step_cases s t h with ⟨sp, a, n, rest, -, rfl⟩ | ⟨sp, a, n, v, rest, -, rfl⟩ | ⟨rest, -, rfl⟩ | ⟨rest, -, rfl⟩
    | ⟨-, h⟩ | ⟨rest, -, h⟩
  · exact hs
  · exact State.hostWrite_memoryOk (s := { s with inputs := rest }) sp a n v hs
  · exact State.assertReset_memoryOk _
  · exact hs
  · exact sequencerTurn_memoryOk hs h
  · exact sequencerTurn_memoryOk (s := { s with inputs := rest }) hs h

end Sys2Proof.Machine

open Sys2Proof Sys2Proof.Machine

/-- Settles O25: kept by each kind of step, a command by what it writes to `OUT` and by its effects on the lanes. -/
theorem memoryOkKept : Obligations.MemoryOkKept := fun _ _ hs h => step_memoryOk hs h

end

section
/-! PROOFS. Host accesses to the memories (20_memory.md R83 to R87, R97): what a refused access, a read and a performed
write do. -/

namespace Sys2Proof.Machine

variable {s : State} {sp : Space} {a : Nat} {n : AccessSize}

/-- A misaligned access, one past the end of its space, and one to `REG` that is no whole word are not performed (R85,
R86). -/
theorem performed_eq_false (h : a % n.bytes ≠ 0 ∨ s.spaceSize sp < a + n.bytes ∨ (sp = .reg ∧ n ≠ .word)) :
    s.performed sp a n = false := by
  rcases h with h | h | ⟨rfl, h⟩
  · simp [State.performed, h]
  · simp [State.performed, Nat.not_le.mpr h]
  · simp [State.performed, h]

/-- Byte `k` of a number, least significant first (R83). -/
theorem leBytes_getElem (n : Nat) : ∀ (v k : Nat) (hk : k < (leBytes v n).length),
    (leBytes v n)[k].toNat = v / 2 ^ (8 * k) % 256 := by
  induction n with
  | zero => exact fun _ _ hk => absurd hk (Nat.not_lt_zero _)
  | succ n ih =>
    intro v k hk
    cases k with
    | zero => simp [leBytes]
    | succ k =>
      have hstep : v / 2 ^ (8 * (k + 1)) = v / 2 ^ 8 / 2 ^ (8 * k) := by
        rw [Nat.div_div_eq_div_mul, ← Nat.pow_add, show 8 * (k + 1) = 8 + 8 * k by omega]
      rw [hstep]
      exact ih (v / 2 ^ 8) k (Nat.lt_of_succ_lt_succ hk)

/-- Byte `k` of what a little-endian write stored. -/
theorem byteAt_writeBytes {m : Memory} (hm : Memory.wf m = true) (v : Nat) {n k : Nat} (hk : k < n) :
    byteAt (Memory.writeBytes m a (leBytes v n)) (a + k) = v / 2 ^ (8 * k) % 256 := by
  have hk' : k < (leBytes v n).length := by rwa [leBytes_length]
  rw [byteAt, Memory.read_writeBytes_inside m a k _ hm hk', leBytes_getElem]

section
variable (hreset : s.inReset = false)
include hreset

theorem hostRead_dict (hperf : s.performed .dict a n = true) :
    s.hostRead .dict a n = BitVec.ofNat 32 (Memory.readLe s.dict a n.bytes) := by
  simp [State.hostRead, hreset, hperf]

theorem hostRead_out (hperf : s.performed .out a n = true) :
    s.hostRead .out a n = BitVec.ofNat 32 (Memory.readLe s.out a n.bytes) := by
  simp [State.hostRead, hreset, hperf]

theorem hostWrite_dict (hidle : s.busy = false) (hperf : s.performed .dict a n = true) (v : Word) :
    s.hostWrite .dict a n v = s.writeDict a (leBytes v.toNat n.bytes) := by
  simp [State.hostWrite, hreset, hidle, hperf]

theorem hostWrite_out (hidle : s.busy = false) (hperf : s.performed .out a n = true) (v : Word) :
    s.hostWrite .out a n v = { s with out := Memory.writeBytes s.out a (leBytes v.toNat n.bytes) } := by
  simp [State.hostWrite, hreset, hidle, hperf]

end

theorem AccessSize.bytes_pos (n : AccessSize) : 0 < n.bytes := by cases n <;> decide

end Sys2Proof.Machine

open Sys2Proof Sys2Proof.Machine

/-- Settles O17: such an access is not performed. -/
theorem refusedAccesses : Obligations.RefusedAccesses := by
  intro s sp a n v h
  have hperf := performed_eq_false h
  exact ⟨by simp [State.hostRead, hperf], by simp [State.hostWrite, hperf]⟩

/-- Settles O18: the access has a byte below `TABLE_END` exactly when its first one is. -/
theorem dictWriteInvalidates : Obligations.DictWriteInvalidates := by
  intro s a n v hreset hidle hperf
  rw [hostWrite_dict hreset hidle hperf]
  refine ⟨?_, fun h => ?_, rfl, fun b hb => ?_⟩
  · rintro ⟨i, hlo, -, hhi⟩
    simp [State.writeDict, Nat.lt_of_le_of_lt hlo hhi]
  · have ha : s.table.fin.toNat ≤ a := h a (Nat.le_refl a) (Nat.lt_add_of_pos_right n.bytes_pos)
    simp [State.writeDict, Nat.not_lt.mpr ha]
  · refine Memory.read_writeBytes_outside _ _ _ _ ?_
    rwa [leBytes_length]

/-- Settles O19: both memories keep their canonical form, in which a read returns what was written. -/
theorem memoryReadsBack : Obligations.MemoryReadsBack := by
  rintro s a n v ⟨hdict, hout, -⟩ hreset hidle
  refine ⟨fun hperf => ?_, fun hperf => ?_⟩
  · rw [hostWrite_dict hreset hidle hperf]
    refine ⟨?_, fun k hk => byteAt_writeBytes hdict v.toNat hk⟩
    exact (hostRead_dict (s := s.writeDict a _) hreset hperf).trans
      (congrArg (BitVec.ofNat 32) (Memory.readLe_writeBytes s.dict a v.toNat n.bytes hdict))
  · rw [hostWrite_out hreset hidle hperf]
    refine ⟨?_, fun k hk => byteAt_writeBytes hout v.toNat hk, rfl, fun b hb => ?_⟩
    · exact (hostRead_out (s := { s with out := Memory.writeBytes s.out a _ }) hreset hperf).trans
        (congrArg (BitVec.ofNat 32) (Memory.readLe_writeBytes s.out a v.toNat n.bytes hout))
    · refine Memory.read_writeBytes_outside _ _ _ _ ?_
      rwa [leBytes_length]

/-- Settles O21: a step that takes a read stores the value read, which the inputs to come do not enter. -/
theorem readsChangeNothing : Obligations.ReadsChangeNothing := by
  intro s sp a n rest h
  unfold step nextEvent
  rw [h]
  rfl

end

section
/-! PROOFS. Command words (30_encoding.md R110 to R120): the fields of a word, the bits an opcode uses, and that the decoder
and the encoder undo each other. -/

namespace Sys2Proof

open Machine

/-! ## The fields of a word (R110) -/

/-- A word is the word of its fields. -/
theorem cmdWord_fields (w : Word) : cmdWord (cmdOpc w) (cmdLane w) (cmdFlg w) (cmdImm w) = w := by
  refine BitVec.eq_of_toNat_eq ?_
  simp only [cmdWord, cmdOpc, cmdLane, cmdFlg, cmdImm, BitVec.toNat_ofNat]
  omega

theorem fields_cmdWord {opc lane flg imm : Nat} (hopc : opc < 2 ^ 8) (hlane : lane < 2 ^ 4) (hflg : flg < 2 ^ 4)
    (himm : imm < 2 ^ 16) :
    let w := cmdWord opc lane flg imm
    cmdOpc w = opc ∧ cmdLane w = lane ∧ cmdFlg w = flg ∧ cmdImm w = imm := by
  simp only [cmdWord, cmdOpc, cmdLane, cmdFlg, cmdImm, BitVec.toNat_ofNat]
  omega

theorem toNat_and_0xFF (w : Word) : (w &&& 0xFF).toNat = cmdOpc w := by
  rw [BitVec.toNat_and]
  exact Nat.and_two_pow_sub_one_eq_mod w.toNat 8

/-- A field is below a power of two exactly when its bits from there on are 0. -/
theorem field_lt_two_pow (v lo n k : Nat) :
    v / 2 ^ lo % 2 ^ n < 2 ^ k ↔ ∀ i, k ≤ i → i < n → v.testBit (lo + i) = false := by
  have hbit (i : Nat) : (v / 2 ^ lo % 2 ^ n).testBit i = (decide (i < n) && v.testBit (lo + i)) := by
    rw [Nat.testBit_mod_two_pow, Nat.testBit_div_two_pow, Nat.add_comm]
  constructor
  · intro h i hk hi
    have := Nat.testBit_lt_two_pow (h.trans_le (Nat.pow_le_pow_right (by decide) hk))
    rwa [hbit, decide_eq_true hi, Bool.true_and] at this
  · refine fun h => Nat.lt_pow_two_of_testBit _ fun i hk => ?_
    rw [hbit]
    by_cases hi : i < n
    · rw [h i hk hi, Bool.and_false]
    · rw [decide_eq_false hi, Bool.false_and]

/-! ## The bits an opcode uses (R111) -/

def FieldUse.laneBits (u : FieldUse) : Nat := if u.lane then 4 else 0

/-- The bits of the fields in use. -/
def FieldUse.mask (u : FieldUse) : Word :=
  BitVec.ofNat 32 ((2 ^ u.laneBits - 1) <<< 8 ||| (2 ^ u.flgBits - 1) <<< 12 ||| (2 ^ u.immBits - 1) <<< 16)

theorem FieldUse.getLsbD_mask (u : FieldUse) (k : Nat) : u.mask.getLsbD k = true ↔
    k < 32 ∧ (8 ≤ k ∧ k < 8 + u.laneBits ∨ 12 ≤ k ∧ k < 12 + u.flgBits ∨ 16 ≤ k ∧ k < 16 + u.immBits) := by
  simp only [FieldUse.mask, BitVec.getLsbD_ofNat, Nat.testBit_or, Nat.testBit_shiftLeft, Nat.testBit_two_pow_sub_one,
    Bool.and_eq_true, Bool.or_eq_true, decide_eq_true_eq]
  omega

theorem FieldUse.admits_iff (u : FieldUse) (w : Word) : u.admits w = true ↔
    cmdLane w < 2 ^ u.laneBits ∧ cmdFlg w < 2 ^ u.flgBits ∧ cmdImm w < 2 ^ u.immBits := by
  have : cmdLane w < 2 ^ 4 := Nat.mod_lt _ (by decide)
  cases h : u.lane <;> simp [FieldUse.admits, FieldUse.laneBits, h, and_assoc]
  omega

/-- A word has no bit outside `m` and `OPC`. -/
theorem and_not_mask_eq_zero (w m : Word) : w &&& ~~~(m ||| 0xFF) = 0 ↔
    ∀ k, 8 ≤ k → k < 32 → m.getLsbD k = false → w.toNat.testBit k = false := by
  have hopc : ∀ k < 32, (0xFF : Word).getLsbD k = decide (k < 8) := by decide
  have hbit (k : Nat) (hk : k < 32) :
      (w &&& ~~~(m ||| 0xFF)).getLsbD k = (w.toNat.testBit k && !(m.getLsbD k || decide (k < 8))) := by
    rw [BitVec.getLsbD_and, BitVec.getLsbD_not, BitVec.getLsbD_or, hopc k hk, decide_eq_true hk, Bool.true_and,
      BitVec.testBit_toNat]
  constructor
  · intro h k h8 hk hm
    have hk' := hbit k hk
    rw [h] at hk'
    simpa [hm, Nat.not_lt.mpr h8] using hk'.symm
  · refine fun h => BitVec.eq_of_getLsbD_eq fun k hk => ?_
    rw [hbit k hk]
    cases hm : m.getLsbD k
    · rcases Nat.lt_or_ge k 8 with h8 | h8
      · simp [h8]
      · simp [h k h8 hk hm]
    · simp

/-- The unused bits are 0 (R114) exactly when nothing outside the mask and `OPC` is set (R111). -/
theorem FieldUse.admits_iff_mask (u : FieldUse) (hlane : u.laneBits ≤ 4) (hflg : u.flgBits ≤ 4) (w : Word) :
    u.admits w = true ↔ w &&& ~~~(u.mask ||| 0xFF) = 0 := by
  have himm : cmdImm w = w.toNat / 2 ^ 16 % 2 ^ 16 := by
    simp only [cmdImm]
    omega
  rw [u.admits_iff, and_not_mask_eq_zero, himm, cmdLane, cmdFlg, field_lt_two_pow, field_lt_two_pow, field_lt_two_pow]
  simp only [← Bool.not_eq_true (FieldUse.mask u |>.getLsbD _), u.getLsbD_mask]
  constructor
  · rintro ⟨h8, h12, h16⟩ k hk hk' hu
    rcases Nat.lt_or_ge k 12 with h | h
    · exact Nat.add_sub_of_le hk ▸ h8 (k - 8) (by omega) (by omega)
    · rcases Nat.lt_or_ge k 16 with h' | h'
      · exact Nat.add_sub_of_le h ▸ h12 (k - 12) (by omega) (by omega)
      · exact Nat.add_sub_of_le h' ▸ h16 (k - 16) (by omega) (by omega)
  · intro h
    refine ⟨fun i hi hi' => ?_, fun i hi hi' => ?_, fun i hi hi' => ?_⟩ <;> exact h _ (by omega) (by omega) (by omega)

/-! ## The opcode map (R117) -/

/-- The fields that a command uses: R117's column "uses". -/
def Instr.use : Instr → FieldUse
  | .nop | .mfCreate | .mfBuild | .mfGetMatch | .mfGetNextMatch | .mfReadSlot => useNone
  | .encBlock | .streamBegin | .streamEnd | .clear => useNone
  | .rcReset _ | .rcFlush _ | .encResetState _ | .encLiteral _ | .encMatch _ | .encShortRep _ => useLane
  | .encSnapshot _ | .encRollback _ | .probRead _ | .probWrite _ | .encChunk _ => useLane
  | .sliceBegin _ _ | .encSlice _ _ => useLaneDr
  | .rcBit _ _ => useLaneImm 1
  | .encRep _ _ => useLaneImm 2
  | .rcTree _ _ | .rcTreeRev _ _ => useLaneImm 5
  | .rcDirect _ _ => useLaneImm 6
  | .rcPrice _ => useImm 1

/-! What a command puts in its fields (R119). -/

def Instr.laneField (i : Instr) : Nat := i.lane?.getD 0

def Instr.flgField : Instr → Nat
  | .sliceBegin _ dr | .encSlice _ dr => dr.toNat
  | _ => 0

def Instr.immField : Instr → Nat
  | .rcBit _ b | .rcPrice b => b.toNat
  | .rcTree _ n | .rcTreeRev _ n | .rcDirect _ n | .encRep _ n => n
  | _ => 0

theorem encode_eq_cmdWord (i : Instr) : encode i = cmdWord i.opcode i.laneField i.flgField i.immField := by
  cases i <;> rfl

theorem Instr.use_fits (i : Instr) : i.use.laneBits ≤ 4 ∧ i.use.flgBits ≤ 4 ∧ i.use.immBits ≤ 16 := by
  cases i <;> simp only [Instr.use] <;> decide

theorem usedBits_opcode (i : Instr) : usedBits i.opcode = some i.use.mask := by
  cases i <;> simp only [Instr.use, Instr.opcode] <;> decide

/-- Well-formed is: every field has the bits for its value. -/
theorem Instr.wellFormed_iff (i : Instr) : i.WellFormed ↔
    i.laneField < 2 ^ i.use.laneBits ∧ i.flgField < 2 ^ i.use.flgBits ∧ i.immField < 2 ^ i.use.immBits := by
  unfold Instr.WellFormed
  have hbit (b : Bool) : b.toNat ≤ 1 := by cases b <;> decide
  cases i <;> simp [hbit, Instr.wellFormed, Instr.laneField, Instr.lane?, Instr.flgField, Instr.immField, Instr.use, useNone,
    useLane, useLaneImm, useLaneDr, useImm, FieldUse.laneBits]

/-- The fields of `w` are those of the command's word. -/
def Instr.HasFields (i : Instr) (w : Word) : Prop :=
  cmdOpc w = i.opcode ∧ cmdLane w = i.laneField ∧ cmdFlg w = i.flgField ∧ cmdImm w = i.immField

theorem Instr.HasFields.encode {i : Instr} {w : Word} (h : i.HasFields w) : encode i = w := by
  obtain ⟨ho, hl, hf, hm⟩ := h
  rw [encode_eq_cmdWord, ← ho, ← hl, ← hf, ← hm, cmdWord_fields]

theorem Instr.WellFormed.hasFields {i : Instr} (h : i.WellFormed) : i.HasFields (Sys2Proof.encode i) := by
  obtain ⟨hl, hf, hm⟩ := i.wellFormed_iff.mp h
  obtain ⟨hl', hf', hm'⟩ := i.use_fits
  rw [encode_eq_cmdWord]
  exact fields_cmdWord (opcode_lt i) (hl.trans_le (Nat.pow_le_pow_right (by decide) hl'))
    (hf.trans_le (Nat.pow_le_pow_right (by decide) hf')) (hm.trans_le (Nat.pow_le_pow_right (by decide) hm'))

/-- A word with a command's fields sets no unused bit exactly when the command is well formed. -/
theorem Instr.HasFields.admits_iff {i : Instr} {w : Word} (h : i.HasFields w) : i.use.admits w = true ↔ i.WellFormed := by
  obtain ⟨-, hl, hf, hm⟩ := h
  rw [FieldUse.admits_iff, i.wellFormed_iff, hl, hf, hm]

/-! ## The decoder -/

theorem decodeWith_ok (u : FieldUse) (w : Word) (i j : Instr) : decodeWith u w i = .ok j ↔ u.admits w = true ∧ i = j := by
  unfold decodeWith
  split <;> simp_all

/-- From the fields of a command's word the decoder gives that command. -/
theorem Instr.HasFields.decode {i : Instr} {w : Word} (h : i.HasFields w) : decode w = decodeWith i.use w i := by
  obtain ⟨ho, hl, hf, hm⟩ := h
  have hbit (b : Bool) : (b.toNat == 1) = b := by cases b <;> rfl
  unfold Sys2Proof.decode
  dsimp only
  rw [ho, hl, hf, hm]
  cases i with
  | rcBit lane b => exact congrArg (fun b => decodeWith _ w (.rcBit lane b)) (hbit b)
  | rcPrice b => exact congrArg (fun b => decodeWith _ w (.rcPrice b)) (hbit b)
  | sliceBegin lane b => exact congrArg (fun b => decodeWith _ w (.sliceBegin lane b)) (hbit b)
  | encSlice lane b => exact congrArg (fun b => decodeWith _ w (.encSlice lane b)) (hbit b)
  | _ => rfl

/-- What the decoder may answer for `w`: that the opcode is reserved, or what the used fields of a command with that opcode
make of it. -/
def Decodes (w : Word) (d : Except DecodeError Instr) : Prop :=
  (usedBits (cmdOpc w) = none ∧ d = .error .reservedOpcode)
    ∨ ∃ i : Instr, cmdOpc w = i.opcode ∧ d = decodeWith i.use w i ∧ (i.use.admits w = true → i.HasFields w)

/-- A row of the opcode map: the command takes a field from the word if its opcode uses it, a single bit as a flag. -/
theorem Decodes.row {u : FieldUse} {i : Instr} {w : Word} (hu : i.use = u) (ho : cmdOpc w = i.opcode)
    (hl : i.laneField = if u.lane then cmdLane w else 0)
    (hf : i.flgField = if u.flgBits = 0 then 0 else (cmdFlg w == 1).toNat) (hflg : u.flgBits ≤ 1)
    (hm : i.immField = if u.immBits = 0 then 0 else if u.immBits = 1 then (cmdImm w == 1).toNat else cmdImm w) :
    Decodes w (decodeWith u w i) := by
  subst hu
  refine .inr ⟨i, ho, rfl, fun ha => ?_⟩
  have hbit (n : Nat) (h : n < 2 ^ 1) : (n == 1).toNat = n := by
    revert n
    decide
  obtain ⟨hlane, hf', hm'⟩ := (i.use.admits_iff w).mp ha
  refine ⟨ho, ?_, ?_, ?_⟩
  · rw [hl]
    unfold FieldUse.laneBits at hlane
    split
    · rfl
    · next h =>
      rw [if_neg h] at hlane
      exact Nat.lt_one_iff.mp hlane
  · rw [hf]
    split
    · next h =>
      rw [h] at hf'
      exact Nat.lt_one_iff.mp hf'
    · exact (hbit _ (hf'.trans_le (Nat.pow_le_pow_right (by decide) hflg))).symm
  · rw [hm]
    split
    · next h =>
      rw [h] at hm'
      exact Nat.lt_one_iff.mp hm'
    · split
      · next h =>
        rw [h] at hm'
        exact (hbit _ hm').symm
      · rfl

theorem decode_decodes (w : Word) : Decodes w (decode w) := by
  unfold decode
  dsimp only
  split
  case h_30 => exact .inl ⟨by simp only [usedBits], rfl⟩
  all_goals exact .row rfl ‹_› rfl rfl (by decide) rfl

/-- `legalWord` holds the bits of a command's opcode against its own table (R111). -/
theorem legalWord_eq_true {i : Instr} {w : Word} (ho : cmdOpc w = i.opcode) :
    legalWord w = true ↔ i.use.admits w = true := by
  obtain ⟨hl, hf, -⟩ := i.use_fits
  unfold legalWord
  rw [i.use.admits_iff_mask hl hf, toNat_and_0xFF, ho, usedBits_opcode]
  simp only [beq_iff_eq]

/-- With no input the pending word runs (R371). -/
theorem step_eq_runWord {s : State} {w : Word} (hpending : s.pending = some w) (hinputs : s.inputs = []) :
    step s = runWord w s := by
  unfold step nextEvent
  rw [hinputs]
  dsimp only
  unfold sequencerTurn
  rw [hpending]

end Sys2Proof

open Sys2Proof Sys2Proof.Machine

/-- Settles O1: the word of a well-formed command has its fields, and the decoder reads nothing else. -/
theorem decodeOfEncode : Obligations.DecodeOfEncode := by
  intro i h
  rw [h.hasFields.decode, decodeWith_ok]
  exact ⟨h.hasFields.admits_iff.mpr h, rfl⟩

/-- Settles O2: a command that the decoder gives has the fields of the word. -/
theorem encodeOfDecode : Obligations.EncodeOfDecode := by
  intro w i h
  rcases decode_decodes w with ⟨-, hd⟩ | ⟨j, -, hd, hfields⟩
  · rw [h] at hd
    cases hd
  · obtain ⟨ha, rfl⟩ := (decodeWith_ok ..).mp (hd.symm.trans h)
    exact ⟨(hfields ha).encode, (hfields ha).admits_iff.mp ha⟩

/-- Settles O3: the decoder and the table of used bits agree on each opcode, a reserved one having no row in either. -/
theorem legalWordsDecode : Obligations.LegalWordsDecode := by
  intro w
  rw [toNat_and_0xFF]
  rcases decode_decodes w with ⟨hu, hd⟩ | ⟨i, ho, hd, -⟩
  · rw [hd, legalWord, toNat_and_0xFF, hu]
    simp
  · rw [hd, legalWord_eq_true ho, ho, usedBits_opcode]
    refine ⟨?_, ?_⟩
    · simp only [decodeWith_ok]
      simp
    · unfold decodeWith
      split <;> simp

/-- Settles O4: the decoder runs. -/
theorem sampleWords : Obligations.SampleWords := ⟨rfl, rfl, rfl, rfl, rfl⟩

/-- Settles O7: the sequencer's turn finds a word that does not decode, and commits the fault. -/
theorem illegalWordFaults : Obligations.IllegalWordFaults := by
  intro s w hpending hinputs hlegal
  refine ⟨s.faultCommit w .illegalCommand, ?_, rfl, rfl, rfl, ⟨rfl, rfl, rfl⟩, rfl, rfl, rfl, rfl, ⟨rfl, rfl⟩, rfl, rfl, rfl⟩
  rw [step_eq_runWord hpending hinputs]
  unfold runWord
  split
  · next i hi => exact absurd ((legalWordsDecode w).1.mp ⟨i, hi⟩) (by simp [hlegal])
  · rfl

end

section
/-! SUPPORT. When a coding operation runs (40_range_coder.md R141 to R150): a sink that takes the bytes that the shifts of
its decisions make is enough. Then what a list of decisions on different words does to them. -/

namespace Sys2Proof.Machine

/-! ## How many shifts decisions make -/

theorem CodedNumber.shifts_renormalised (c : CodedNumber) :
    c.renormalised.shifts = c.shifts ∨ c.renormalised.shifts = c.shifts + 1 := by
  unfold CodedNumber.renormalised
  split
  · exact .inr rfl
  · exact .inl rfl

theorem Decision.shifts_move (c : CodedNumber × (Nat → Nat)) (d : Decision) :
    (Decision.move c d).1.shifts = c.1.shifts ∨ (Decision.move c d).1.shifts = c.1.shifts + 1 := by
  cases d with
  | word i b => cases b <;> exact CodedNumber.shifts_renormalised _
  | direct b => exact CodedNumber.shifts_renormalised _

theorem decided_shifts (ds : List Decision) : ∀ c : CodedNumber × (Nat → Nat),
    c.1.shifts ≤ (decided c ds).1.shifts ∧ (decided c ds).1.shifts ≤ c.1.shifts + ds.length := by
  induction ds with
  | nil => exact fun c => ⟨Nat.le_refl _, Nat.le_refl _⟩
  | cons d ds ih =>
    intro c
    have hd := Decision.shifts_move c d
    have hds := ih (Decision.move c d)
    rw [decided_cons, List.length_cons]
    omega

/-- Halving a range of at least 2^25 makes no shift. -/
theorem CodedNumber.half_of_ge {c : CodedNumber} (h : 2 ^ 24 ≤ c.range / 2) (b : Bool) :
    (c.half b).range = c.range / 2 ∧ (c.half b).shifts = c.shifts := by
  simp only [CodedNumber.half, CodedNumber.renormalised, if_neg (Nat.not_lt.mpr h), and_self]

theorem CodedNumber.half_of_lt {c : CodedNumber} (h : c.range / 2 < 2 ^ 24) (b : Bool) :
    (c.half b).range = c.range / 2 * 256 ∧ (c.half b).shifts = c.shifts + 1 := by
  simp only [CodedNumber.half, CodedNumber.renormalised, if_pos h, and_self]

/-- After a shift the range has eight halvings until the next: from `range ≥ 2^(24 + j)`, `n` halvings make at most
`(n + 7 - j) / 8` shifts (R146). -/
theorem directBits_shifts (v n : Nat) : ∀ (c : CodedNumber) (w : Nat → Nat) (j : Nat), j ≤ 7 → 2 ^ (24 + j) ≤ c.range →
    (decided (c, w) (directBits v n)).1.shifts ≤ c.shifts + (n + 7 - j) / 8 := by
  induction n with
  | zero => exact fun c w j _ _ => Nat.le_add_right _ _
  | succ n ih =>
    intro c w j hj hrange
    rw [directBits_succ, decided_cons]
    change (decided (c.half (v.testBit n), w) (directBits v n)).1.shifts ≤ _
    cases j with
    | zero =>
      rcases Nat.lt_or_ge (c.range / 2) (2 ^ 24) with hlt | hge
      · obtain ⟨hr, hs⟩ := CodedNumber.half_of_lt hlt (v.testBit n)
        have := ih (c.half (v.testBit n)) w 7 (Nat.le_refl 7) (by omega)
        omega
      · obtain ⟨hr, hs⟩ := CodedNumber.half_of_ge hge (v.testBit n)
        have := ih (c.half (v.testBit n)) w 0 hj (by omega)
        omega
    | succ j =>
      have hj' : 2 ^ (24 + j) ≤ c.range / 2 := by
        rw [← Nat.add_assoc, Nat.pow_succ] at hrange
        omega
      have h24 : 2 ^ 24 ≤ 2 ^ (24 + j) := Nat.pow_le_pow_right (by decide) (Nat.le_add_right 24 j)
      obtain ⟨hr, hs⟩ := CodedNumber.half_of_ge (h24.trans hj') (v.testBit n)
      have := ih (c.half (v.testBit n)) w j (Nat.le_of_succ_le hj) (hr ▸ hj')
      omega

/-! ## Room for decisions -/

/-- The bytes emitted and pending after the decisions. -/
def Enc.shiftsAfter (e : Enc) (ds : List Decision) : Nat := (decided (e.coded, wordsOf e.lane.prob) ds).1.shifts

/-- The sink takes what the decisions may emit, and the count of pending bytes what they may leave pending (R141, R143). -/
structure Enc.RoomFor (e : Enc) (ds : List Decision) : Prop where
  counter : e.shiftsAfter ds < 2 ^ 32
  sink    : ∀ n, e.room = some n → e.shiftsAfter ds ≤ n

theorem Enc.RoomFor.left {e : Enc} {ds ds' : List Decision} (h : e.RoomFor (ds ++ ds')) : e.RoomFor ds := by
  have hle : e.shiftsAfter ds ≤ e.shiftsAfter (ds ++ ds') := by
    unfold Enc.shiftsAfter
    rw [decided_append]
    exact (decided_shifts ds' _).1
  exact ⟨hle.trans_lt h.counter, fun n hn => hle.trans (h.sink n hn)⟩

theorem Enc.Codes.roomFor {e e' : Enc} {ds ds' : List Decision} (hc : Enc.Codes ds e e') (h : e.RoomFor (ds ++ ds')) :
    e'.RoomFor ds' := by
  have heq : e'.shiftsAfter ds' = e.shiftsAfter (ds ++ ds') := by
    unfold Enc.shiftsAfter
    rw [decided_append, hc.moved]
  exact ⟨heq ▸ h.counter, fun n hn => heq ▸ h.sink n (hc.room ▸ hn)⟩

/-- `f` codes the decisions `ds` wherever there is room for them. -/
def Runs (ds : List Decision) (f : Enc → Except Halt Enc) : Prop :=
  ∀ e : Enc, e.Good → e.RoomFor ds → ∃ e', f e = .ok e' ∧ Enc.Codes ds e e'

theorem Runs.nil : Runs [] .ok := fun e he _ => ⟨e, rfl, .refl e he⟩

theorem Runs.bind {ds ds' : List Decision} {f g : Enc → Except Halt Enc} (hf : Runs ds f) (hg : Runs ds' g) :
    Runs (ds ++ ds') fun e => f e >>= g := by
  intro e he hroom
  obtain ⟨e₁, h₁, c₁⟩ := hf e he hroom.left
  obtain ⟨e₂, h₂, c₂⟩ := hg e₁ c₁.good (c₁.roomFor hroom)
  exact ⟨e₂, (bind_ok _ _ _).mpr ⟨e₁, h₁, h₂⟩, c₁.trans c₂⟩

/-! ## One decision -/

/-- A renormalisation runs where its shift, if it makes one, has room. -/
theorem renormalise_runs_of_room {e : Enc} (hn : e.lane.rc.Narrowed) (hcounter : e.coded.renormalised.shifts < 2 ^ 32)
    (hsink : ∀ n, e.room = some n → e.coded.renormalised.shifts ≤ n) : ∃ e', renormalise renormRounds e = .ok e' := by
  rw [renormalise_one e hn]
  split
  · next hlt =>
    have hshift : e.coded.renormalised.shifts = e.rev.length + e.lane.rc.cacheSize.toNat + 1 := by
      rw [CodedNumber.renormalised, if_pos (show e.coded.range < 2 ^ 24 from hlt)]
      rfl
    rw [hshift] at hcounter hsink
    refine shiftLow_runs e.widen hn.2.2.1 ?_ fun n hr => ?_
    · change e.lane.rc.cacheSize.toNat < 2 ^ 32 - 1
      omega
    · exact Nat.le_of_succ_le (hsink n hr)
  · exact ⟨e, rfl⟩

theorem splitRange_renormalised (i : Nat) (b : Bool) (e : Enc) (h : e.lane.rc.Healthy) (hp : 31 ≤ e.prob i ∧ e.prob i ≤ 2017) :
    (splitRange i b e).coded.renormalised = e.coded.bit (e.prob i) b := by
  obtain ⟨-, hr, hl, hc, hs, hrev, -⟩ := splitRange_narrowed i b e h hp
  have hv := codeValue_low e.bytes _ _ _ hc hs hl
  have hb : (splitRange i b e).bytes = e.bytes := congrArg List.reverse hrev
  cases b <;> simp_all [Enc.coded, CodedNumber.bit]

theorem halveRange_renormalised (b : Bool) (e : Enc) (h : e.lane.rc.Healthy) :
    (halveRange b e).coded.renormalised = e.coded.half b := by
  obtain ⟨-, hr, hl, hc, hs, hrev, -⟩ := halveRange_narrowed b e h
  have hv := codeValue_low e.bytes _ _ _ hc hs hl
  have hb : (halveRange b e).bytes = e.bytes := congrArg List.reverse hrev
  cases b <;> simp_all [Enc.coded, CodedNumber.half]

theorem encodeBit_runs (i : Nat) (b : Bool) : Runs [.word i b] (encodeBit i b) := by
  rintro e he ⟨hcounter, hsink⟩
  have hp := he.inRange.read i
  have hs : e.shiftsAfter [.word i b] = (splitRange i b e).coded.renormalised.shifts := by
    rw [splitRange_renormalised i b e he.healthy hp]
    rfl
  rw [hs] at hcounter hsink
  obtain ⟨hn, -, -, -, -, -, hroom⟩ := splitRange_narrowed i b e he.healthy hp
  obtain ⟨e', h'⟩ := renormalise_runs_of_room hn hcounter (hroom.symm ▸ hsink)
  exact ⟨e', h', encodeBit_codes i b e e' he h'⟩

theorem halveRange_runs (b : Bool) : Runs [.direct b] fun e => renormalise renormRounds (halveRange b e) := by
  rintro e he ⟨hcounter, hsink⟩
  have hs : e.shiftsAfter [.direct b] = (halveRange b e).coded.renormalised.shifts := by
    rw [halveRange_renormalised b e he.healthy]
    rfl
  rw [hs] at hcounter hsink
  obtain ⟨hn, -, -, -, -, -, hroom, -⟩ := halveRange_narrowed b e he.healthy
  obtain ⟨e', h'⟩ := renormalise_runs_of_room hn hcounter (hroom.symm ▸ hsink)
  exact ⟨e', h', halveRange_codes b e e' he h'⟩

/-! ## Direct bits and trees -/

theorem encodeDirect_runs (v n : Nat) : Runs (directBits v n) (encodeDirect v n) := by
  induction n with
  | zero => exact .nil
  | succ n ih =>
    rw [directBits_succ]
    exact (halveRange_runs _).bind ih

theorem encodeTreeFrom_runs (base s n : Nat) : ∀ m, Runs ((List.range n).map fun d =>
    .word (base + (m * 2 ^ d + s % 2 ^ n / 2 ^ (n - d))) (s.testBit (n - 1 - d))) (encodeTreeFrom base s n m) := by
  induction n with
  | zero => exact fun _ => .nil
  | succ n ih =>
    intro m
    rw [treeFrom_succ]
    exact (encodeBit_runs _ _).bind (ih _)

theorem encodeTree_runs (base n s : Nat) (hs : s < 2 ^ n) : Runs (treeBits base n s) (encodeTree base n s) := by
  have h := encodeTreeFrom_runs base s n 1
  simp only [Nat.one_mul, Nat.mod_eq_of_lt hs] at h
  exact h

/-- The bits of a reverse tree from the index `m` on. -/
theorem treeRevFrom_cons (base s n m : Nat) :
    ((List.range (n + 1)).map fun d => Decision.word (base + treeRevFrom m s d) (s.testBit d))
      = .word (base + m) (s.testBit 0) :: (List.range n).map fun d =>
          .word (base + treeRevFrom (2 * m + (s.testBit 0).toNat) (s / 2) d) ((s / 2).testBit d) := by
  rw [List.range_succ_eq_map, List.map_cons, List.map_map]
  congr 1
  refine List.map_congr_left fun d _ => ?_
  simp only [Function.comp, Nat.succ_eq_add_one]
  rw [treeRevFrom_succ, Nat.testBit_succ, Nat.toNat_testBit, Nat.pow_zero, Nat.div_one]

theorem encodeTreeRevFrom_runs (base n : Nat) : ∀ s m, Runs ((List.range n).map fun d =>
    .word (base + treeRevFrom m s d) (s.testBit d)) (encodeTreeRevFrom base n s m) := by
  induction n with
  | zero => exact fun _ _ => .nil
  | succ n ih =>
    intro s m
    rw [treeRevFrom_cons]
    exact (encodeBit_runs _ _).bind (ih _ _)

theorem encodeTreeRev_runs (base n s : Nat) : Runs (treeRevBits base n s) (encodeTreeRev base n s) := by
  have h := encodeTreeRevFrom_runs base n s 1
  simp only [treeRevFrom_one] at h
  exact h

/-! ## Decisions on different words -/

/-- The words after the bit `b` is coded with the word `i` (R144). -/
def adaptWord (w : Nat → Nat) (i : Nat) (b : Bool) (j : Nat) : Nat := if j = i then adapted (w i) b else w j

/-- Where no word is used twice, each bit is coded with what its word held before all of them, and only adapts that word. -/
theorem decided_distinct (f : Nat → Nat) (b : Nat → Bool) (ks : List Nat) : ∀ (c : CodedNumber) (w : Nat → Nat),
    ks.Pairwise (f · ≠ f ·) →
    (decided (c, w) (ks.map fun d => .word (f d) (b d))).1 = ks.foldl (fun c d => c.bit (w (f d)) (b d)) c
      ∧ ∀ d ∈ ks, (decided (c, w) (ks.map fun d => .word (f d) (b d))).2 (f d) = adapted (w (f d)) (b d) := by
  induction ks with
  | nil => exact fun c w _ => ⟨rfl, fun d hd => absurd hd List.not_mem_nil⟩
  | cons k ks ih =>
    intro c w h
    obtain ⟨hk, hks⟩ := List.pairwise_cons.mp h
    have hw' : ∀ d ∈ ks, adaptWord w (f k) (b k) (f d) = w (f d) := fun d hd => if_neg (hk d hd).symm
    obtain ⟨hnum, hword⟩ := ih (c.bit (w (f k)) (b k)) (adaptWord w (f k) (b k)) hks
    have hmove : Decision.move (c, w) (.word (f k) (b k)) = (c.bit (w (f k)) (b k), adaptWord w (f k) (b k)) := rfl
    rw [List.map_cons, decided_cons, hmove, List.foldl_cons]
    refine ⟨hnum.trans (List.foldl_ext _ _ _ fun c d hd => by rw [hw' d hd]), fun d hd => ?_⟩
    rcases List.mem_cons.mp hd with rfl | hd
    · refine (decided_other _ _ _ fun i b' hi => ?_).trans (if_pos rfl)
      obtain ⟨d', hd', heq⟩ := List.mem_map.mp hi
      injection heq with hi
      exact hi ▸ hk d' hd'
    · rw [hword d hd, hw' d hd]

theorem decided_direct (b : Nat → Bool) (ks : List Nat) : ∀ (c : CodedNumber) (w : Nat → Nat),
    decided (c, w) (ks.map fun d => .direct (b d)) = (ks.foldl (fun c d => c.half (b d)) c, w) := by
  induction ks with
  | nil => exact fun _ _ => rfl
  | cons k ks ih => exact fun c w => ih (c.half (b k)) w

/-- The indices of a path through a tree, one on each level, are different. -/
theorem pairwise_ne_of_levels (base n : Nat) (node : Nat → Nat) (h : ∀ d < n, 2 ^ d ≤ node d ∧ node d < 2 ^ (d + 1)) :
    (List.range n).Pairwise fun d d' => base + node d ≠ base + node d' := by
  refine List.pairwise_lt_range.imp_of_mem fun {d d'} hd hd' hlt => ?_
  have h₁ := (h d (List.mem_range.mp hd)).2
  have h₂ := (h d' (List.mem_range.mp hd')).1
  have h₃ : 2 ^ (d + 1) ≤ 2 ^ d' := Nat.pow_le_pow_right (by decide) hlt
  omega

theorem treeNode_level (n s : Nat) (hs : s < 2 ^ n) (d : Nat) (hd : d < n) :
    2 ^ d ≤ treeNode n s d ∧ treeNode n s d < 2 ^ (d + 1) := by
  have : s / 2 ^ (n - d) < 2 ^ d := by
    rw [Nat.div_lt_iff_lt_mul (Nat.two_pow_pos _), ← Nat.pow_add, Nat.add_sub_of_le (Nat.le_of_lt hd)]
    exact hs
  rw [treeNode, Nat.pow_succ, Nat.mul_two]
  exact ⟨Nat.le_add_right _ _, Nat.add_lt_add_left this _⟩

theorem treeRevNode_level (s d : Nat) : 2 ^ d ≤ treeRevNode s d ∧ treeRevNode s d < 2 ^ (d + 1) := by
  induction d with
  | zero => exact ⟨Nat.le_refl 1, Nat.lt_succ_self 1⟩
  | succ d ih =>
    have : s / 2 ^ d % 2 < 2 := Nat.mod_lt _ (by decide)
    rw [treeRevNode, Nat.pow_succ 2 (d + 1)]
    omega

end Sys2Proof.Machine
end

section
/-! PROOFS. The tree commands and `RC_DIRECT` (40_range_coder.md R140 to R151): their start faults, and what a command that
codes on its lane's window leaves. -/

namespace Sys2Proof.Machine

variable {i : Instr} {s : State} {L k n : Nat} {l : Lane} {ds : List Decision}

/-! ## Start faults (R140) -/

/-- A command faults where its first part does. -/
theorem exec_fault_of_first {A : Type} {x : State → Except Halt A} {g : State → A → Except Halt State} {c : Code}
    (hexec : exec i s = conclude i s fun u => x u >>= g u) (hx : x s.clearRes = .error (.fault c)) :
    exec i s = .next (s.faultCommit (encode i) c) :=
  hexec.trans (conclude_fault i s _ c ((bind_error _ _ _).mpr (.inl hx)))

theorem windowLane_missing (h : s.lanes.length ≤ L) : s.windowLane L = .error (.fault .invalidParameter) :=
  (bind_error _ _ _).mpr (.inl (State.getLane_none s L (List.getElem?_eq_none h)))

theorem windowLane_malformed (hl : s.lanes[L]? = some l)
    (h : l.outCap.toNat < l.outLen.toNat ∨ s.params.outCap.toNat < l.outBase.toNat + l.outCap.toNat) :
    s.windowLane L = .error (.fault .invalidParameter) := by
  refine (bind_error _ _ _).mpr (.inr ⟨l, State.getLane_some s L l hl, (bind_error _ _ _).mpr (.inl ?_)⟩)
  rw [check_error]
  refine ⟨?_, rfl⟩
  simp only [State.windowLegal, Bool.and_eq_false_iff, decide_eq_false_iff_not]
  omega

theorem codingLane_uninitialised (hl : s.lanes[L]? = some l) (hw : s.windowLegal l = true) (hi : l.init = false) :
    s.codingLane L = .error (.fault .sequenceError) :=
  (bind_error _ _ _).mpr (.inr ⟨l, (windowLane_ok s L l).mpr ⟨hl, hw⟩,
    (bind_error _ _ _).mpr (.inl ((check_error _ _ _).mpr ⟨hi, rfl⟩))⟩)

/-- A command that first asks for a lane with a well-formed window. -/
theorem windowStartFaults {g : State → Lane → Except Halt State}
    (hexec : exec i s = conclude i s fun u => u.windowLane L >>= g u) : WindowStartFaults s L i :=
  ⟨fun h => exec_fault_of_first hexec (windowLane_missing (s := s.clearRes) h),
    fun _ hl h => exec_fault_of_first hexec (windowLane_malformed (s := s.clearRes) hl h)⟩

/-- A command that first asks for an initialised lane with a well-formed window. -/
theorem codingStartFaults {g : State → Lane → Except Halt State}
    (hexec : exec i s = conclude i s fun u => u.codingLane L >>= g u) : CodingStartFaults s L i := by
  refine ⟨⟨fun h => exec_fault_of_first hexec ?_, fun l hl h => exec_fault_of_first hexec ?_⟩, fun l hl hw hi =>
    exec_fault_of_first hexec (codingLane_uninitialised (s := s.clearRes) hl hw hi)⟩
  · exact (bind_error _ _ _).mpr (.inl (windowLane_missing (s := s.clearRes) h))
  · exact (bind_error _ _ _).mpr (.inl (windowLane_malformed (s := s.clearRes) hl h))

/-! ## Coding on a ready lane (R141) -/

theorem Lane.Ready.healthy (h : l.Ready s k) : l.Healthy := h.1

theorem Lane.Ready.legal (h : l.Ready s k) : s.windowLegal l = true := h.2.1

/-- What the decisions leave emitted and pending, counted on from the bytes that were pending before. -/
theorem shiftsAfter_windowEnc (l : Lane) (ds : List Decision) : l.windowEnc.shiftsAfter ds
    = (decided (.ofLane l, wordsOf l.prob) ds).1.shifts + l.rc.cacheSize.toNat := by
  have hc : l.windowEnc.coded = (CodedNumber.ofLane l).raise l.rc.cacheSize.toNat := by
    simp [Enc.coded, Lane.windowEnc, CodedNumber.ofLane, CodedNumber.raise, Enc.bytes]
  rw [Enc.shiftsAfter, hc]
  exact congrArg (·.1.shifts) (decided_raise (.ofLane l) (wordsOf l.prob) l.rc.cacheSize.toNat ds)

theorem Lane.Ready.roomFor (h : l.Ready s k) (hk : (decided (.ofLane l, wordsOf l.prob) ds).1.shifts ≤ k) :
    l.windowEnc.RoomFor ds := by
  obtain ⟨-, -, hroom⟩ := h
  have := l.outCap.isLt
  refine ⟨?_, fun n hn => ?_⟩
  · rw [shiftsAfter_windowEnc]
    omega
  · obtain rfl : l.outCap.toNat - l.outLen.toNat = n := Option.some.inj hn
    rw [shiftsAfter_windowEnc]
    omega

theorem Lane.Ready.good (h : l.Ready s k) (hm : s.MemoryOk) (hl : s.lanes[L]? = some l) : l.windowEnc.Good := by
  obtain ⟨hrc, hprob, -⟩ := h.healthy
  obtain ⟨-, -, -, -, hwf⟩ := hm
  exact ⟨hrc, hprob, (hwf l (List.mem_of_getElem? hl)).1⟩

/-- The lane that the window commit leaves (R141). -/
def Enc.committed (e : Enc) : Lane :=
  { e.lane with outLen := BitVec.ofNat 32 (e.lane.outLen.toNat + e.bytes.length) }

/-- What the window commit of coded decisions leaves, if the window had room for them. -/
theorem commitWindow_coded {e : Enc} (hout : Memory.wf s.out = true) (hlegal : s.windowLegal l = true)
    (hsnap : ProbMem.InRange l.snap.prob) (hroom : l.windowEnc.RoomFor ds) (hc : Enc.Codes ds l.windowEnc e) :
    WindowCoded s (s.clearRes.commitWindow L e).complete L l e.committed e.bytes ∧ CoderOnly l e.committed
      ∧ e.committed.Healthy ∧ CodesBits l e.committed e.bytes ds := by
  have hlane : e.lane = { l with rc := e.lane.rc, prob := e.lane.prob } := hc.lane
  have hlen : e.lane.outLen = l.outLen := (congrArg Lane.outLen hlane :)
  have hbase : e.lane.outBase = l.outBase := (congrArg Lane.outBase hlane :)
  have hbytes : e.bytes.length = e.rev.length := List.length_reverse
  have hshifts : e.rev.length + e.lane.rc.cacheSize.toNat = l.windowEnc.shiftsAfter ds :=
    congrArg (·.1.shifts) hc.moved
  have hsink := hroom.sink _ rfl
  simp only [State.windowLegal, Bool.and_eq_true, decide_eq_true_eq] at hlegal
  have hcap := l.outCap.isLt
  obtain ⟨-, hlanes, hlen', hwrites, -⟩ := commitWindow_writes s.clearRes L e hout (by rw [hlen]; omega)
  rw [hlen] at hlen' hwrites
  rw [hbase] at hwrites
  have hcommit : e.committed.outLen.toNat = l.outLen.toNat + e.bytes.length := by rw [Enc.committed, hlen, hlen']
  refine ⟨⟨⟨rfl, rfl, rfl, rfl⟩, keepsHostState_refl s, rfl, rfl, ⟨rfl, rfl⟩, ⟨rfl, rfl, rfl⟩, hlanes, hcommit, ?_, hwrites⟩,
    ?_, ⟨hc.good.healthy, hc.good.inRange, ?_⟩, codesBits_of_coded l e ds hc.moved⟩
  · omega
  · rw [Enc.committed, hlane]
  · rw [Enc.committed, hlane]
    exact hsnap

/-- A command that codes on its lane's window completes if the window has room for the shifts. -/
theorem window_completes {f : Enc → Except Halt Enc} (hm : s.MemoryOk) (hl : s.lanes[L]? = some l) (h : l.Ready s k)
    (hf : Runs ds f) (hk : (decided (.ofLane l, wordsOf l.prob) ds).1.shifts ≤ k)
    (hexec : ∀ e, f l.windowEnc = .ok e → exec i s = .next (s.clearRes.commitWindow L e).complete) :
    ∃ t e, f l.windowEnc = .ok e ∧ exec i s = .next t ∧ WindowCoded s t L l e.committed e.bytes
      ∧ CoderOnly l e.committed ∧ e.committed.Healthy ∧ CodesBits l e.committed e.bytes ds := by
  obtain ⟨e, he, hc⟩ := hf l.windowEnc (h.good hm hl) (h.roomFor hk)
  obtain ⟨-, -, hsnap⟩ := h.healthy
  obtain ⟨-, hout, -⟩ := hm
  exact ⟨_, e, he, hexec e he, commitWindow_coded hout h.legal hsnap (h.roomFor hk) hc⟩

/-! ## Trees (R149, R151) -/

/-- `RC_TREE` and `RC_TREE_REV` but for the coding operation. -/
def treeBody (L n : Nat) (code : Nat → Nat → Nat → Enc → Except Halt Enc) (s : State) : Except Halt State := do
  let l ← s.codingLane L
  check (decide (1 ≤ n) && decide (n ≤ 16)) .invalidParameter
  check (treeOperandsLegal l s.args.arg0.toNat n) .invalidParameter
  let e ← code s.args.arg0.toNat n (s.args.arg1.toNat % 2 ^ n) l.windowEnc
  return s.commitWindow L e

theorem exec_rcTree (s : State) (L n : Nat) :
    exec (.rcTree L n) s = conclude (.rcTree L n) s (treeBody L n encodeTree) := rfl

theorem exec_rcTreeRev (s : State) (L n : Nat) :
    exec (.rcTreeRev L n) s = conclude (.rcTreeRev L n) s (treeBody L n encodeTreeRev) := rfl

section
variable {code : Nat → Nat → Nat → Enc → Except Halt Enc} (hexec : exec i s = conclude i s (treeBody L n code))
include hexec

/-- The faults of a tree command. -/
theorem tree_faults : CodingStartFaults s L i
    ∧ ∀ l : Lane, s.lanes[L]? = some l → s.windowLegal l = true → l.init = true →
      n = 0 ∨ 16 < n ∨ l.probWords ≤ s.args.arg0.toNat + 2 ^ n - 1 →
      exec i s = .next (s.faultCommit (encode i) .invalidParameter) := by
  refine ⟨codingStartFaults hexec, fun l hl hw hi hbad => hexec.trans (conclude_fault i s _ _ ?_)⟩
  refine (bind_error _ _ _).mpr (.inr ⟨l, (codingLane_ok s.clearRes L l).mpr ⟨hl, hw, hi⟩, ?_⟩)
  by_cases hn : 1 ≤ n ∧ n ≤ 16
  · refine (bind_error _ _ _).mpr (.inr ⟨(), (check_ok _ _ _).mpr (by simp [hn]), (bind_error _ _ _).mpr (.inl ?_)⟩)
    refine (check_error _ _ _).mpr ⟨decide_eq_false ?_, rfl⟩
    rw [State.clearRes_args]
    omega
  · refine (bind_error _ _ _).mpr (.inl ((check_error _ _ _).mpr ⟨?_, rfl⟩))
    simpa using hn

/-- What a tree command leaves whose coding operation takes one word on each level of the tree. -/
theorem tree_completes {node : Nat → Nat} {bit : Nat → Bool} (hm : s.MemoryOk) (hl : s.lanes[L]? = some l)
    (h : l.Ready s 16) (hi : l.init = true) (h1 : 1 ≤ n) (h16 : n ≤ 16) (hfit : s.args.arg0.toNat + 2 ^ n - 1 < l.probWords)
    (hlevel : ∀ d < n, 2 ^ d ≤ node d ∧ node d < 2 ^ (d + 1))
    (hruns : Runs ((List.range n).map fun d => .word (s.args.arg0.toNat + node d) (bit d))
      (code s.args.arg0.toNat n (s.args.arg1.toNat % 2 ^ n))) :
    let word (node : Nat) := (ProbMem.read l.prob (s.args.arg0.toNat + node)).toNat
    ∃ t l' bytes, exec i s = .next t ∧ WindowCoded s t L l l' bytes ∧ CoderOnly l l' ∧ l'.Healthy
      ∧ (∀ d < n, (ProbMem.read l'.prob (s.args.arg0.toNat + node d)).toNat = adapted (word (node d)) (bit d))
      ∧ (∀ j, (∀ d < n, j ≠ s.args.arg0.toNat + node d) → ProbMem.read l'.prob j = ProbMem.read l.prob j)
      ∧ CodesTo l l' bytes ((List.range n).foldl (fun c d => c.bit (word (node d)) (bit d)) (.ofLane l)) := by
  intro word
  have hcount := (decided_shifts ((List.range n).map fun d => .word (s.args.arg0.toNat + node d) (bit d))
    (.ofLane l, wordsOf l.prob)).2
  rw [List.length_map, List.length_range] at hcount
  obtain ⟨t, e, -, ht, hcoded, honly, hhealthy, hto, hwords⟩ :=
    window_completes (i := i) hm hl h hruns (hcount.trans (by simpa [CodedNumber.ofLane] using h16)) fun e he => by
      refine hexec.trans (conclude_ok i s _ _ ?_)
      refine (bind_ok _ _ _).mpr ⟨l, (codingLane_ok s.clearRes L l).mpr ⟨hl, h.legal, hi⟩, ?_⟩
      refine (bind_ok _ _ _).mpr ⟨(), (check_ok _ _ _).mpr (by simp [h1, h16]), ?_⟩
      refine (bind_ok _ _ _).mpr ⟨(), (check_ok _ _ _).mpr (decide_eq_true hfit), ?_⟩
      exact (bind_ok _ _ _).mpr ⟨e, he, rfl⟩
  obtain ⟨hnumber, hadapted⟩ := decided_distinct (s.args.arg0.toNat + node ·) bit (List.range n) (.ofLane l)
    (wordsOf l.prob) (pairwise_ne_of_levels _ n node hlevel)
  refine ⟨t, _, _, ht, hcoded, honly, hhealthy, fun d hd => ?_, fun j hj => BitVec.eq_of_toNat_eq ?_, hnumber ▸ hto⟩
  · exact (hwords _).trans (hadapted d (List.mem_range.mpr hd))
  · refine (hwords j).trans (decided_other _ _ j fun k b hk => ?_)
    obtain ⟨d, hd, heq⟩ := List.mem_map.mp hk
    injection heq with hk
    exact hk ▸ hj d (List.mem_range.mp hd)

end

/-! ## Direct bits (R147) -/

/-- `RC_DIRECT` up to its conclusion. -/
def directBody (L n : Nat) (s : State) : Except Halt State := do
  let l ← s.windowLane L
  check (decide (1 ≤ n) && decide (n ≤ 32)) .invalidParameter
  let e ← encodeDirect (s.args.arg1.toNat % 2 ^ n) n l.windowEnc
  return s.commitWindow L e

theorem exec_rcDirect (s : State) (L n : Nat) :
    exec (.rcDirect L n) s = conclude (.rcDirect L n) s (directBody L n) := rfl

/-- At most 32 halvings of a healthy coder's range make at most four shifts. -/
theorem directBits_shifts_le_four (v : Nat) (hn : n ≤ 32) (h : l.rc.Healthy) :
    (decided (.ofLane l, wordsOf l.prob) (directBits v n)).1.shifts ≤ 4 := by
  have := directBits_shifts v n (.ofLane l) (wordsOf l.prob) 0 (Nat.zero_le 7) h.1
  have h0 : (CodedNumber.ofLane l).shifts = 0 := rfl
  omega

/-- Direct bits touch no probability. -/
theorem encodeDirect_prob {v : Nat} {e e' : Enc} (h : encodeDirect v n e = .ok e') : e'.lane.prob = e.lane.prob := by
  obtain ⟨_, -, -, hlane⟩ := (encodeDirect_moves (m := e.lane) v n e).of_ok h
  exact congrArg (·.lane.prob) hlane

end Sys2Proof.Machine

open Sys2Proof Sys2Proof.Machine

/-- Settles O35: the two commands differ in the coding operation alone, and each takes one word on each level. -/
theorem rcTreeResult : Obligations.RcTreeResult := by
  refine fun s L n => ⟨fun i hi => ?_, fun l hm hl h hinit h1 h16 hfit => ⟨?_, ?_⟩⟩
  · rcases hi with rfl | rfl
    · exact tree_faults (exec_rcTree s L n)
    · exact tree_faults (exec_rcTreeRev s L n)
  · have hsym : s.args.arg1.toNat % 2 ^ n < 2 ^ n := Nat.mod_lt _ (Nat.two_pow_pos n)
    exact tree_completes (exec_rcTree s L n) hm hl h hinit h1 h16 hfit (treeNode_level n _ hsym) (encodeTree_runs _ n _ hsym)
  · exact tree_completes (exec_rcTreeRev s L n) hm hl h hinit h1 h16 hfit (fun d _ => treeRevNode_level _ d)
      (encodeTreeRev_runs _ n _)

/-- Settles O36: the range has eight halvings between two shifts, so that 32 make at most four. -/
theorem rcDirectResult : Obligations.RcDirectResult := by
  refine fun s L n => ⟨windowStartFaults (exec_rcDirect s L n), fun l hm hl => ⟨fun h h1 h32 => ?_, fun hw hn => ?_⟩⟩
  · intro v c
    have hshifts := directBits_shifts_le_four v h32 h.healthy.1
    obtain ⟨t, e, he, ht, hcoded, honly, hhealthy, hto, -⟩ :=
      window_completes (i := .rcDirect L n) hm hl h (encodeDirect_runs v n) hshifts fun e he => by
        refine (exec_rcDirect s L n).trans (conclude_ok _ s _ _ ?_)
        refine (bind_ok _ _ _).mpr ⟨l, (windowLane_ok s.clearRes L l).mpr ⟨hl, h.legal⟩, ?_⟩
        refine (bind_ok _ _ _).mpr ⟨(), (check_ok _ _ _).mpr (by simp [h1, h32]), ?_⟩
        exact (bind_ok _ _ _).mpr ⟨e, he, rfl⟩
    rw [directBits, decided_direct] at hto hshifts
    exact ⟨t, _, _, ht, hcoded, honly, hhealthy, encodeDirect_prob he, hto, hshifts⟩
  · refine (exec_rcDirect s L n).trans (conclude_fault _ s _ _ ?_)
    refine (bind_error _ _ _).mpr (.inr ⟨l, (windowLane_ok s.clearRes L l).mpr ⟨hl, hw⟩, (bind_error _ _ _).mpr (.inl ?_)⟩)
    refine (check_error _ _ _).mpr ⟨?_, rfl⟩
    simp only [Bool.and_eq_false_iff, decide_eq_false_iff_not]
    omega

end

section
/-! SUPPORT. Induction over the coding operations (40_range_coder.md R141 to R151, 42_lzma_symbols.md R214 to R220): all
but the flush are built from the coding of single bits and the writes of `STATE` and the reps. -/

namespace Sys2Proof.Machine

/-- The operations built from single bits, `STATE` and the reps, one after another; which ones follow may depend on the
lane. -/
inductive Composed : (Enc → Except Halt Enc) → Prop
  | done : Composed .ok
  | bit (i : Nat) (b : Bool) : Composed (encodeBit i b)
  | half (b : Bool) : Composed fun e => renormalise renormRounds (halveRange b e)
  | setSt (st : Fin 12) : Composed fun e => .ok (e.setSt st)
  | setReps (reps : Reps) : Composed fun e => .ok (e.setReps reps)
  | andThen {f g : Enc → Except Halt Enc} : Composed f → Composed g → Composed fun e => f e >>= g
  | onLane {f : Lane → Enc → Except Halt Enc} : (∀ l, Composed (f l)) → Composed fun e => f e.lane e

namespace Composed

/-! ## Sub-coders (R146 to R150, R214, R215) -/

theorem direct (v n : Nat) : Composed (encodeDirect v n) := by
  induction n with
  | zero => exact .done
  | succ n ih => exact .andThen (.half _) ih

theorem treeFrom (base s n : Nat) : ∀ m, Composed (encodeTreeFrom base s n m) := by
  induction n with
  | zero => exact fun _ => .done
  | succ n ih => exact fun _ => .andThen (.bit _ _) (ih _)

theorem tree (base n s : Nat) : Composed (encodeTree base n s) := treeFrom base s n 1

theorem treeRevFrom (base n : Nat) : ∀ s m, Composed (encodeTreeRevFrom base n s m) := by
  induction n with
  | zero => exact fun _ _ => .done
  | succ n ih => exact fun _ _ => .andThen (.bit _ _) (ih _ _)

theorem treeRev (base n s : Nat) : Composed (encodeTreeRev base n s) := treeRevFrom base n s 1

theorem matchedFrom (base n : Nat) : ∀ mb offs sym, Composed (matchedLiteralFrom base n mb offs sym) := by
  induction n with
  | zero => exact fun _ _ _ => .done
  | succ n ih => exact fun _ _ _ => .andThen (.bit _ _) (ih _ _ _)

theorem ite {c : Prop} [Decidable c] {f g : Enc → Except Halt Enc} (hf : Composed f) (hg : Composed g) :
    Composed fun e => if c then f e else g e := by
  by_cases hc : c
  · simpa only [if_pos hc] using hf
  · simpa only [if_neg hc] using hg

theorem len (base l ps : Nat) : Composed (encodeLen base l ps) :=
  .ite (.andThen (.bit _ _) (.tree _ _ _)) <| .ite (.andThen (.bit _ _) (.andThen (.bit _ _) (.tree _ _ _)))
    (.andThen (.bit _ _) (.andThen (.bit _ _) (.tree _ _ _)))

theorem dist (dist len : Nat) : Composed (encodeDist dist len) :=
  .andThen (.tree _ _ _) <| .ite .done <| .ite (.treeRev _ _ _) (.andThen (.direct _ _) (.treeRev _ _ _))

theorem repIndex (st r ps : Nat) : Composed (encodeRepIndex st r ps) :=
  .ite (.andThen (.bit _ _) (.bit _ _)) (.andThen (.bit _ _) (.ite (.bit _ _) (.andThen (.bit _ _) (.bit _ _))))

/-! ## Symbols (R217 to R220) -/

theorem literal (x : SymCtx) (p : Nat) : Composed (encodeLiteral x p) :=
  .onLane (f := fun l e => do
      let e ← encodeBit (isMatchAt + 16 * l.st.val + posState x l p) false e
      if l.st.val < 7 then
        encodeTree (literalAt + 768 * litState x l p) 8 (Memory.read x.dict p).toNat e >>= fun e => .ok (e.setSt (literalNext l.st))
      else
        matchedLiteralFrom (literalAt + 768 * litState x l p) 8 (matchedByte x p e.lane.reps.rep0.toNat).toNat 0x100
          ((Memory.read x.dict p).toNat + 0x100) e >>= fun e => .ok (e.setSt (literalNext l.st)))
    fun _ => .andThen (.bit _ _) <| .ite (.andThen (.tree _ _ _) (.setSt _)) <|
      .onLane (f := fun l' e => matchedLiteralFrom _ 8 (matchedByte x p l'.reps.rep0.toNat).toNat 0x100
        ((Memory.read x.dict p).toNat + 0x100) e >>= fun e => .ok (e.setSt _))
        fun _ => .andThen (.matchedFrom _ _ _ _ _) (.setSt _)

theorem mtch (x : SymCtx) (p len dist : Nat) : Composed (encodeMatch x p len dist) :=
  .onLane (f := fun l e => do
      let e ← encodeBit (isMatchAt + 16 * l.st.val + posState x l p) true e
      let e ← encodeBit (isRepAt + l.st.val) false e
      let e ← encodeLen lenEncAt (len - 2) (posState x l p) e
      let e ← encodeDist dist len e
      .ok ((e.setReps (e.lane.reps.push (BitVec.ofNat 32 dist))).setSt (matchNext l.st)))
    fun _ => .andThen (.bit _ _) <| .andThen (.bit _ _) <| .andThen (.len _ _ _) <| .andThen (.dist _ _) <|
      .onLane (f := fun l' e => .ok (e.setReps (l'.reps.push (BitVec.ofNat 32 dist))) >>= fun e => .ok (e.setSt _))
        fun _ => .andThen (.setReps _) (.setSt _)

theorem rep (x : SymCtx) (p len r : Nat) : Composed (encodeRep x p len r) :=
  .onLane (f := fun l e => do
      let e ← encodeBit (isMatchAt + 16 * l.st.val + posState x l p) true e
      let e ← encodeBit (isRepAt + l.st.val) true e
      let e ← encodeRepIndex l.st.val r (posState x l p) e
      let e ← encodeLen repLenEncAt (len - 2) (posState x l p) (e.setReps (e.lane.reps.toFront r))
      .ok (e.setSt (repNext l.st)))
    fun _ => .andThen (.bit _ _) <| .andThen (.bit _ _) <| .andThen (.repIndex _ _ _) <|
      .onLane (f := fun l' e => .ok (e.setReps (l'.reps.toFront r)) >>= fun e => encodeLen _ _ _ e >>= fun e => .ok (e.setSt _))
        fun _ => .andThen (.setReps _) (.andThen (.len _ _ _) (.setSt _))

theorem shortRep (x : SymCtx) (p : Nat) : Composed (encodeShortRep x p) :=
  .onLane (f := fun l e => do
      let e ← encodeBit (isMatchAt + 16 * l.st.val + posState x l p) true e
      let e ← encodeBit (isRepAt + l.st.val) true e
      let e ← encodeBit (isRepG0At + l.st.val) false e
      let e ← encodeBit (isRep0LongAt + 16 * l.st.val + posState x l p) false e
      .ok (e.setSt (shortRepNext l.st)))
    fun _ => .andThen (.bit _ _) <| .andThen (.bit _ _) <| .andThen (.bit _ _) <| .andThen (.bit _ _) (.setSt _)

end Composed

/-- Every coding operation but the flush is composed of single bits. -/
theorem Coding.composed {f : Enc → Except Halt Enc} (h : Coding f) : f = Machine.flush ∨ Composed f := by
  cases h with
  | bit i b => exact .inr (.bit i b)
  | tree base n s => exact .inr (.tree base n s)
  | treeRev base n s => exact .inr (.treeRev base n s)
  | direct v n => exact .inr (.direct v n)
  | flush => exact .inl rfl
  | literal x p => exact .inr (.literal x p)
  | mtch x p len dist => exact .inr (.mtch x p len dist)
  | rep x p len r => exact .inr (.rep x p len r)
  | shortRep x p => exact .inr (.shortRep x p)

end Sys2Proof.Machine
end

section
/-! PROOFS. A block whose coders are healthy never stops, and they stay healthy (40_range_coder.md R143, R144, 43_parse.md
R259, 60_exceptions.md R373): coding operations first, then the parse, chunks, slices, blocks, and every command. -/

namespace Sys2Proof.Machine

/-- `x` answers something with `P`, or halts with a fault or a cancellation: it does not run for ever. -/
abbrev Finishes {A : Type} (P : A → Prop) (x : Except Halt A) : Prop := Ends P (· ≠ .neverEnds) x

/-! ## Coding operations (R143 to R152) -/

/-- A shift ends where a byte is pending. -/
theorem shiftLow_finishes (e : Enc) (hc : 1 ≤ e.lane.rc.cacheSize.toNat) : Finishes (fun e' => shiftLow e = .ok e') (shiftLow e) := by
  have hpush (a : Enc) : Finishes (fun _ => True) (pushByte a) := .ite (fun _ => nofun) fun _ => trivial
  have hne : e.lane.rc.cacheSize ≠ 0 := fun h => by simp [h] at hc
  have hflush : Finishes (fun _ => True) (flushPending e) := by
    refine .ite (fun h => absurd h hne) fun _ => Ends.bind (P := fun _ => True) ?_ fun _ _ => trivial
    unfold emitRun
    split
    · exact .ite (fun _ => trivial) fun _ => nofun
    · trivial
  have h : Finishes (fun _ => True) (shiftLow e) := .ite (fun _ => hflush.bind fun a _ => hpush a) fun _ => hpush e
  exact h.answer.imp (fun _ h => h.1) fun _ h => h

/-- A renormalisation ends from a narrowed coder. -/
theorem renormalise_finishes (e : Enc) (h : e.lane.rc.Narrowed) :
    Finishes (fun e' => renormalise renormRounds e = .ok e') (renormalise renormRounds e) := by
  rw [renormalise_one e h]
  exact .ite (fun hlt => (shiftLow_finishes e.widen h.2.2.1).imp (fun _ h' => by rw [if_pos hlt, h']) fun _ h => h)
    fun hlt => .pure (if_neg hlt)

/-- Healthy coders stay healthy where they are renormalised. -/
theorem renormalise_healthy (e : Enc) (h : e.lane.rc.Narrowed) (hprob : ProbMem.InRange e.lane.prob)
    (hsnap : ProbMem.InRange e.lane.snap.prob) : Finishes (·.lane.Healthy) (renormalise renormRounds e) := by
  refine (renormalise_finishes e h).imp (fun e' h' => ?_) fun _ h => h
  obtain ⟨-, -, hrc, -, hlane, -⟩ := renormalise_ok e e' h h'
  rw [hlane]
  exact ⟨hrc, hprob, hsnap⟩

theorem ProbMem.InRange.write {m : ProbMem} (h : ProbMem.InRange m) (i : Nat) {v : Nat} (hlo : 31 ≤ v) (hhi : v ≤ 2017) :
    ProbMem.InRange (ProbMem.write m i (BitVec.ofNat 11 v)) := by
  intro x hx
  rcases mem_sparseSet _ _ _ _ x hx with hx | hx
  · exact h x hx
  · rw [hx, BitVec.toNat_ofNat, Nat.mod_eq_of_lt (by omega)]
    exact ⟨hlo, hhi⟩

theorem splitRange_prob (i : Nat) (b : Bool) (e : Enc) :
    (splitRange i b e).lane.prob = ProbMem.write e.lane.prob i (BitVec.ofNat 11 (adapted (e.prob i) b)) := by
  cases b <;> rfl

theorem splitRange_snap (i : Nat) (b : Bool) (e : Enc) : (splitRange i b e).lane.snap = e.lane.snap := by
  cases b <;> rfl

theorem encodeBit_healthy (i : Nat) (b : Bool) (e : Enc) (h : e.lane.Healthy) :
    Finishes (·.lane.Healthy) (encodeBit i b e) := by
  obtain ⟨hrc, hprob, hsnap⟩ := h
  have hp := hprob.read i
  obtain ⟨hlo, hhi⟩ := adapted_inRange (e.prob i) b hp
  refine renormalise_healthy _ (splitRange_narrowed i b e hrc hp).1 ?_ ?_
  · rw [splitRange_prob]
    exact hprob.write i hlo hhi
  · rw [splitRange_snap]
    exact hsnap

theorem halveRange_healthy (b : Bool) (e : Enc) (h : e.lane.Healthy) :
    Finishes (·.lane.Healthy) (renormalise renormRounds (halveRange b e)) := by
  obtain ⟨hrc, hprob, hsnap⟩ := h
  exact renormalise_healthy _ (halveRange_narrowed b e hrc).1 hprob hsnap

/-- An operation composed of bits ends, and leaves the coder healthy. -/
theorem Composed.healthy {f : Enc → Except Halt Enc} (hf : Composed f) :
    ∀ e, e.lane.Healthy → Finishes (·.lane.Healthy) (f e) := by
  induction hf with
  | done | setSt st | setReps reps => exact fun e h => h
  | bit i b => exact encodeBit_healthy i b
  | half b => exact halveRange_healthy b
  | andThen _ _ ihf ihg => exact fun e h => (ihf e h).bind ihg
  | onLane _ ih => exact fun e h => ih e.lane e h

/-- In a healthy coder no carry meets a cached 0xFF. -/
theorem Rc.Healthy.carry {r : Rc} (h : r.Healthy) : r.cache.toNat + r.low.toNat / 2 ^ 32 ≤ 255 := by
  obtain ⟨hrange, hsum, -, hff⟩ := h
  have := r.cache.isLt
  by_cases hx : r.cache.toNat = 255
  · have := hff hx
    omega
  · omega

/-- Shifts end where a byte is pending, and one stays pending. -/
theorem shiftLows_finishes (k : Nat) : ∀ e : Enc, 1 ≤ e.lane.rc.cacheSize.toNat →
    Finishes (fun _ => True) (shiftLows k e) := by
  induction k with
  | zero => exact fun _ _ => trivial
  | succ k ih => exact fun e hc => (shiftLow_finishes e hc).bind fun e' h' => ih e' (shiftLow_ok e e' h' hc).2.2.2.2.1

/-- A flush ends, and leaves the coder healthy (R152). -/
theorem flush_healthy (e : Enc) (h : e.lane.Healthy) : Finishes (·.lane.Healthy) (flush e) := by
  obtain ⟨hrc, hprob, hsnap⟩ := h
  refine (shiftLows_finishes 5 e hrc.2.2.1).answer.imp (fun e' h' => ?_) fun _ h => h
  obtain ⟨-, hlane, -⟩ := flush_ok e e' h'.1 hrc.2.2.1 hrc.carry
  have hrange := e.lane.rc.range.isLt
  rw [hlane]
  refine ⟨⟨hrc.1, ?_, Nat.le_refl 1, nofun⟩, hprob, hsnap⟩
  change 0 + e.lane.rc.range.toNat < 2 ^ 33
  omega

theorem Coding.healthy {f : Enc → Except Halt Enc} (hf : Coding f) (e : Enc) (h : e.lane.Healthy) :
    Finishes (·.lane.Healthy) (f e) := by
  rcases hf.composed with rfl | hf
  · exact flush_healthy e h
  · exact hf.healthy e h

end Sys2Proof.Machine
end

section
/-! SUPPORT. The parse as a run of symbols (43_parse.md R251 to R258): what a candidate may be, that the model's parse is a
`ParseRun`, and where such a run ends. -/

namespace Sys2Proof.Machine

variable {x : ParseCtx} {reps : Reps} {q : Query} {p p' pend n r dist : Nat} {c c' : Cand} {e e' : Enc} {ys : List Symbol}

/-! ## Candidates (R252 to R255) -/

/-- A choice is the match candidate or the best rep. -/
theorem IsChoice.cases (h : IsChoice x reps q p (some c)) :
    (∃ n dist, c = .mtch n dist ∧ IsMatchCand x q p (some (n, dist)))
      ∨ ∃ n r, c = .rep n r ∧ IsBestRep x reps p (some (n, r)) := by
  obtain ⟨m, b, hm, hb, h⟩ := h
  match m, b with
  | none, none => cases h
  | some (n, dist), none =>
    obtain rfl := Option.some.inj h
    exact .inl ⟨n, dist, rfl, hm⟩
  | none, some (n, r) =>
    obtain rfl := Option.some.inj h
    exact .inr ⟨n, r, rfl, hb⟩
  | some (n, dist), some (k, j) =>
    rcases h with ⟨-, h⟩ | ⟨-, h⟩
    · obtain rfl := Option.some.inj h
      exact .inr ⟨k, j, rfl, hb⟩
    · obtain rfl := Option.some.inj h
      exact .inl ⟨n, dist, rfl, hm⟩

theorem IsMatchCand.eq (h : IsMatchCand x q p (some (n, dist))) :
    2 ≤ n ∧ n ≤ longest x p ∧ n ≤ (q.run x p).1 ∧ dist = (q.run x p).2 := by
  rcases h with ⟨-, h⟩ | ⟨hkept, h⟩
  · cases h
  · obtain ⟨rfl, rfl⟩ := Prod.mk.inj (Option.some.inj h)
    omega

/-- A rep candidate is a copy, as long as it says. -/
theorem IsRepLen.copies (h : IsRepLen x reps p r n) (h2 : 2 ≤ n) : n ≤ longest x p ∧ (reps.get r).toNat < p
    ∧ ∀ i < n, Memory.read x.sym.dict (p + i) = Memory.read x.sym.dict (p - ((reps.get r).toNat + 1) + i) := by
  rcases h with ⟨-, rfl⟩ | ⟨hdist, m, hm, hagree, -, rfl⟩
  · omega
  · split at h2
    · next h => rw [if_pos h]; exact ⟨hm, hdist, hagree⟩
    · omega

/-- A candidate has at least two positions, all below the limit. -/
theorem IsChoice.len_bounds (h : IsChoice x reps q p (some c)) : 2 ≤ c.len ∧ c.len ≤ longest x p := by
  rcases h.cases with ⟨n, dist, rfl, hm⟩ | ⟨n, r, rfl, -, h2, hlen, -⟩
  · exact ⟨hm.eq.1, hm.eq.2.1⟩
  · exact ⟨h2, (hlen.copies h2).1⟩

theorem IsChoice.end_le (h : IsChoice x reps q p (some c)) : p + c.len ≤ x.ulim := by
  have := h.len_bounds
  unfold longest at this
  omega

/-- The distance of a query lies below the position (R187, R188). -/
theorem Query.run_dist_le (q : Query) (x : ParseCtx) (p : Nat) : (q.run x p).2 ≤ p := by
  have hget : (Machine.getMatch x.table x.sym.dict p).2 ≤ p := by
    unfold Machine.getMatch
    split
    · exact Nat.zero_le p
    · exact (Nat.sub_le _ _).trans (Nat.sub_le _ _)
  cases q with
  | getMatch => exact hget
  | getNextMatch =>
    change (Machine.getNextMatch x.table x.sym.dict p).2 ≤ p
    unfold Machine.getNextMatch
    split
    · exact Nat.zero_le p
    · exact hget

/-- A candidate is a symbol with legal operands. -/
theorem IsChoice.legal (h : IsChoice x reps q p (some c)) (hlim : x.ulim ≤ 2 ^ 32) : c.symbol.Legal := by
  obtain ⟨h2, hlong⟩ := h.len_bounds
  have hend := h.end_le
  have h273 : longest x p ≤ 273 := Nat.min_le_left _ _
  rcases h.cases with ⟨n, dist, rfl, hm⟩ | ⟨n, r, rfl, hr, -⟩
  · have hdist := q.run_dist_le x p
    rw [← hm.eq.2.2.2] at hdist
    simp only [Cand.len] at h2 hlong hend
    exact ⟨h2, hlong.trans h273, by omega⟩
  · exact ⟨h2, hlong.trans h273, hr⟩

/-- The lookahead settles on a candidate at a position it looked at (R258). -/
theorem Settles.choice (h : Settles x reps c p c' pend) (hc : IsChoice x reps q p (some c)) :
    p ≤ pend ∧ ∃ q', IsChoice x reps q' pend (some c') := by
  induction h generalizing q with
  | here => exact ⟨Nat.le_refl _, q, hc⟩
  | later c c' c'' p k pend hd _ _ ih =>
    obtain ⟨-, -, -, -, hnext, -⟩ := hd
    obtain ⟨hle, hpend⟩ := ih hnext
    exact ⟨(Nat.le_add_right p k).trans hle, hpend⟩

/-! ## The model's parse is a run (R258) -/

/-- What one round of the parse answers: the end of a run, or its beginning, which covers a position. -/
theorem parseRound_run {rd : Run} (hlook : x.look ≤ 2) (hp : p < x.ulim) (h : parseRound x p e = .ok rd) :
    (rd.stopped = true → ∃ ys, ParseRun x p e ys rd.pos rd.enc)
      ∧ (rd.stopped = false → p < rd.pos
        ∧ ∀ zs pend e', ParseRun x rd.pos rd.enc zs pend e' → ∃ ys, ParseRun x p e ys pend e') := by
  unfold parseRound at h
  split at h
  · next hc =>
    have hnone := (isChoice_iff x e.lane.reps .getMatch p none).mpr hc.symm
    unfold encodeSingles at h
    split at h
    · next hb =>
      obtain ⟨e₁, h₁, h⟩ := (bind_ok _ _ _).mp h
      obtain rfl := Except.ok.inj h
      obtain ⟨y, hy⟩ := isSingle_exists x e p
      exact ⟨nofun, fun _ => ⟨Nat.lt_succ_self p, fun zs pend e' hz => ⟨y :: zs, .single p pend e e₁ e' y zs hp hnone
        ((hasBudget_iff x e).mpr hb) hy ((isSingle_code x e p y hy).trans h₁) hz⟩⟩⟩
    · next hb =>
      obtain rfl := Except.ok.inj h
      exact ⟨fun _ => ⟨[], .spent p e hp fun hh => hb ((hasBudget_iff x e).mp hh)⟩, nofun⟩
  · next c hc =>
    obtain ⟨r₁, h₁, h⟩ := (bind_ok _ _ _).mp h
    have hchoice := (isChoice_iff x e.lane.reps .getMatch p (some c)).mpr hc.symm
    have hsettles := (settles_iff x e.lane.reps hlook c _ p _).mpr rfl
    generalize lookahead x e.lane.reps (3 * (x.ulim - p)) c p 1 = cq at h h₁ hsettles
    obtain ⟨ys, hrun, hgo, hstop⟩ := encodeSingles_run x _ p e r₁ h₁
    obtain ⟨hle, _, hchoice'⟩ := hsettles.choice hchoice
    rw [Nat.add_sub_of_le hle] at hrun hgo hstop
    have hcut (hno : ¬ HasBudget x r₁.enc) : ParseRun x p e ys r₁.pos r₁.enc :=
      .cut p _ _ e _ c _ ys hp hchoice hsettles hrun hno
    split at h
    · next hs =>
      obtain rfl := Except.ok.inj h
      exact ⟨fun _ => ⟨ys, hcut (hstop hs).2⟩, fun hs' => absurd (hs.symm.trans hs') (by decide)⟩
    · next hs =>
      have hpos := hgo (Bool.eq_false_iff.mpr hs)
      split at h
      · next hb =>
        obtain ⟨e₂, h₂, h⟩ := (bind_ok _ _ _).mp h
        obtain rfl := Except.ok.inj h
        have hlen := hchoice'.len_bounds.1
        refine ⟨nofun, fun _ => ⟨by dsimp only; omega, fun zs pend e' hz => ⟨_, .cand p cq.2 pend e r₁.enc e₂ e' c cq.1 ys zs hp
          hchoice hsettles (hpos ▸ hrun) ((hasBudget_iff _ _).mpr hb) ((cand_code ..).trans h₂) hz⟩⟩⟩
      · next hb =>
        obtain rfl := Except.ok.inj h
        exact ⟨fun _ => ⟨ys, hcut fun hh => hb ((hasBudget_iff _ _).mp hh)⟩, nofun⟩

/-- What `ParseChunk` answers is a run. -/
theorem parseChunk_run (hlook : x.look ≤ 2) (fuel : Nat) : ∀ (p : Nat) (e : Enc) (a : Nat × Enc), x.ulim - p ≤ fuel →
    parseChunk x fuel p e = .ok a → ∃ ys, ParseRun x p e ys a.1 a.2 := by
  induction fuel with
  | zero =>
    intro p e a hf h
    obtain rfl := Except.ok.inj h
    exact ⟨[], .done p e (by omega)⟩
  | succ fuel ih =>
    intro p e a hf h
    unfold parseChunk at h
    split at h
    · next hp =>
      obtain ⟨rd, hrd, h⟩ := (bind_ok _ _ _).mp h
      obtain ⟨hstop, hgo⟩ := parseRound_run hlook hp hrd
      split at h
      · next hs =>
        obtain rfl := Except.ok.inj h
        exact hstop hs
      · next hs =>
        obtain ⟨hlt, hcons⟩ := hgo (Bool.eq_false_iff.mpr hs)
        obtain ⟨zs, hz⟩ := ih _ _ a (by omega) h
        exact hcons zs a.1 a.2 hz
    · next hp =>
      obtain rfl := Except.ok.inj h
      exact ⟨[], .done p e (by omega)⟩

/-! ## Where a run ends -/

theorem SinglesRun.bounds {m : Nat} (h : SinglesRun x m p e ys p' e') (hpm : p ≤ m) :
    p ≤ p' ∧ p' ≤ m ∧ (p < m → HasBudget x e → p < p') ∧ (p' < m → ¬ HasBudget x e') ∧ (p = p' → e' = e) := by
  induction h with
  | done p e hle => exact ⟨Nat.le_refl _, hpm, fun h => absurd h (by omega), fun h => absurd h (by omega), fun _ => rfl⟩
  | spent p e hlt hno => exact ⟨Nat.le_refl _, hpm, fun _ h => absurd h hno, fun _ => hno, fun _ => rfl⟩
  | one p p' e e₁ e' y ys hlt hb _ _ _ ih =>
    obtain ⟨hle, hle', -, hno, -⟩ := ih hlt
    exact ⟨by omega, hle', fun _ _ => by omega, hno, fun h => by omega⟩

/-- A run that begins below the limit with budget for a symbol covers a position, and none past the limit (R259). -/
theorem ParseRun.bounds (h : ParseRun x p e ys p' e') (hp : p ≤ x.ulim) :
    p ≤ p' ∧ p' ≤ x.ulim ∧ (p < x.ulim → HasBudget x e → p < p') := by
  induction h with
  | done p e hle => exact ⟨Nat.le_refl _, hp, fun h => absurd h (by omega)⟩
  | spent p e hlt hno => exact ⟨Nat.le_refl _, hp, fun _ h => absurd h hno⟩
  | single p p' e e₁ e' y ys hlt _ _ _ _ _ ih =>
    obtain ⟨hle, hle', -⟩ := ih hlt
    exact ⟨by omega, hle', fun _ _ => by omega⟩
  | cut p m p' e e' c c' ys hlt hc hs hrun hno =>
    obtain ⟨hpm, _, hc'⟩ := hs.choice hc
    obtain ⟨hle, hle', hgt, -, hsame⟩ := hrun.bounds hpm
    have hend := hc'.end_le
    refine ⟨hle, by omega, fun _ hb => Nat.lt_of_le_of_ne hle fun h => hno ?_⟩
    rw [hsame h]
    exact hb
  | cand p m p' e e₁ e₂ e' c c' ys zs hlt hc hs hrun hb hcode _ ih =>
    obtain ⟨hpm, _, hc'⟩ := hs.choice hc
    have hend := hc'.end_le
    have hlen := hc'.len_bounds
    obtain ⟨hle, hle', -⟩ := ih hend
    exact ⟨by omega, hle', fun _ _ => by omega⟩

end Sys2Proof.Machine
end

section
/-! PROOFS. A block whose coders are healthy never stops: the parse, chunks, slices, blocks, and every command (43_parse.md
R259, 60_exceptions.md R373). -/

namespace Sys2Proof.Machine

/-! ## The parse -/

theorem Composed.single (x : ParseCtx) (p : Nat) : Composed (encodeSingle x p) :=
  .onLane (f := fun l e => if l.reps.rep0.toNat < p
        ∧ Memory.read x.sym.dict p = Memory.read x.sym.dict (p - l.reps.rep0.toNat - 1) then encodeShortRep x.sym p e
      else encodeLiteral x.sym p e)
    fun _ => .ite (.shortRep _ _) (.literal _ _)

theorem Composed.cand (x : ParseCtx) (p : Nat) (c : Cand) : Composed (encodeCand x p c) := by
  cases c with
  | mtch n dist => exact .mtch _ _ _ _
  | rep n r => exact .rep _ _ _ _

theorem encodeSingles_healthy (x : ParseCtx) (n : Nat) : ∀ (p : Nat) (e : Enc), e.lane.Healthy →
    Finishes (·.enc.lane.Healthy) (encodeSingles x n p e) := by
  induction n with
  | zero => exact fun _ _ h => h
  | succ n ih =>
    exact fun p e h => .ite (fun _ => ((Composed.single x p).healthy e h).bind fun a ha => ih (p + 1) a ha) fun _ => .pure h

theorem parseRound_healthy (x : ParseCtx) (p : Nat) (e : Enc) (h : e.lane.Healthy) :
    Finishes (·.enc.lane.Healthy) (parseRound x p e) := by
  unfold parseRound
  split
  · exact encodeSingles_healthy x 1 p e h
  · exact (encodeSingles_healthy x _ p e h).bind fun r hr => .ite (fun _ => .pure hr) fun _ => .ite
      (fun _ => ((Composed.cand x _ _).healthy r.enc hr).bind fun a ha => .pure ha) fun _ => .pure hr

theorem parseChunk_healthy (x : ParseCtx) (fuel : Nat) : ∀ (p : Nat) (e : Enc), e.lane.Healthy →
    Finishes (·.2.lane.Healthy) (parseChunk x fuel p e) := by
  induction fuel with
  | zero => exact fun _ _ h => h
  | succ fuel ih =>
    exact fun p e h => .ite (fun _ => (parseRound_healthy x p e h).bind fun r hr =>
      .ite (fun _ => .pure hr) fun _ => ih r.pos r.enc hr) fun _ => .pure h

/-- The parse leaves all but the coding state of its lane (R217 to R220). -/
theorem parseChunk_uncoded {x : ParseCtx} {fuel p : Nat} {e : Enc} {a : Nat × Enc} (h : parseChunk x fuel p e = .ok a) :
    a.2.lane.uncoded = e.lane.uncoded := by
  obtain ⟨_, -, -, hlane⟩ := (parseChunk_grafts (m := e.lane) x fuel p e).of_ok h
  exact hlane

/-! ## A chunk attempt (R285) -/

/-- The coder of a chunk attempt before its first symbol. -/
def Lane.chunkCoder (l : Lane) (x : ChunkCtx) : Enc := { lane := l.openChunk x, rev := [], room := none }

theorem Rc.reset_healthy : Rc.reset.Healthy := by decide

theorem Lane.openChunk_healthy (x : ChunkCtx) {l : Lane} (h : l.Healthy) : (l.openChunk x).Healthy := by
  obtain ⟨-, hprob, -⟩ := h
  unfold Lane.openChunk
  split
  · exact ⟨Rc.reset_healthy, hprob, hprob⟩
  · exact ⟨Rc.reset_healthy, nofun, nofun⟩

theorem Lane.openChunk_rc (x : ChunkCtx) (l : Lane) : (l.openChunk x).rc = .reset := by
  unfold Lane.openChunk
  split <;> rfl

theorem finishChunk_healthy (x : ChunkCtx) (l : Lane) (pend : Nat) {e : Enc} (h : e.lane.Healthy) :
    (finishChunk x l pend e).lane.Healthy := by
  obtain ⟨-, hprob, hsnap⟩ := h
  unfold finishChunk
  dsimp only
  split
  · exact ⟨Rc.reset_healthy, hprob, hsnap⟩
  · exact ⟨Rc.reset_healthy, hsnap, hsnap⟩

theorem finishChunk_pos (x : ChunkCtx) (l : Lane) (pend : Nat) (e : Enc) :
    (finishChunk x l pend e).lane.pos = BitVec.ofNat 32 pend := by
  unfold finishChunk
  dsimp only
  split <;> rfl

theorem finishChunk_sliceEnd (x : ChunkCtx) (l : Lane) (pend : Nat) (e : Enc) :
    (finishChunk x l pend e).lane.sliceEnd = e.lane.sliceEnd := by
  unfold finishChunk
  dsimp only
  split <;> rfl

theorem encChunk_finishes (x : ChunkCtx) {l : Lane} (h : l.Healthy) :
    Finishes (fun c => encChunk x l = .ok c ∧ c.lane.Healthy) (encChunk x l) :=
  ((parseChunk_healthy _ _ _ _ (l.openChunk_healthy x h)).bind fun r hr => (flush_healthy r.2 hr).bind fun _ he =>
    .pure (finishChunk_healthy x l r.1 he) : Finishes (·.lane.Healthy) (encChunk x l)).answer

/-- A chunk attempt that answers: the run of its parse, the flush, and what is made of them (R285). -/
theorem encChunk_run {x : ChunkCtx} {l : Lane} {c : ChunkResult} (hlook : x.parse.look ≤ 2) (h : encChunk x l = .ok c) :
    ∃ ys pend e e', ParseRun { x.parse with ulim := l.chunkLimit x } l.pos.toNat (l.chunkCoder x) ys pend e
      ∧ flush e = .ok e' ∧ e'.lane.uncoded = (l.openChunk x).uncoded ∧ c = finishChunk x l pend e' := by
  obtain ⟨a, ha, h⟩ := (bind_ok _ _ _).mp h
  obtain ⟨e', he, h⟩ := (bind_ok _ _ _).mp h
  obtain ⟨ys, hrun⟩ := parseChunk_run (x := { x.parse with ulim := l.chunkLimit x }) hlook _ _ _ a (Nat.le_refl _) ha
  have hparse := (parseChunk_uncoded ha)
  have hflush := (Coding.flush.ends a.2 false).of_ok he |>.2
  exact ⟨ys, a.1, a.2, e', hrun, he, hflush.trans hparse, (Except.ok.inj h).symm⟩

/-- What the start checks of R295 give a chunk attempt. -/
structure ChunkCtx.Legal (x : ChunkCtx) : Prop where
  look : x.parse.look ≤ 2
  uMax : 1 ≤ x.uMax
  cMax : 64 ≤ x.parse.cMax

theorem chunkCtx_legal {s : State} (h : s.encConfigLegal = true) : s.chunkCtx.Legal := by
  simp only [State.encConfigLegal, Bool.and_eq_true, decide_eq_true_eq] at h
  obtain ⟨⟨⟨⟨hmode, -⟩, hu, -⟩, hc, -⟩, -⟩ := h
  have hlt : s.cfg.mode < 4 := Nat.mod_lt _ (by decide)
  exact ⟨Nat.le_of_lt_succ (Nat.lt_of_le_of_ne (Nat.le_of_lt_succ hlt) hmode), hu, hc⟩

/-- The first budget check of a chunk passes (R257). -/
theorem chunkCoder_hasBudget {x : ChunkCtx} (hx : x.Legal) (l : Lane) (ulim : Nat) :
    HasBudget { x.parse with ulim := ulim } (l.chunkCoder x) := by
  change 0 + (l.openChunk x).rc.cacheSize.toNat + 26 + 4 ≤ x.parse.cMax
  rw [Lane.openChunk_rc]
  exact (by decide : 0 + Rc.reset.cacheSize.toNat + 26 + 4 ≤ 64).trans hx.cMax

/-- A chunk attempt covers a position, and none past the slice (R259). -/
theorem chunkRun_bounds {x : ChunkCtx} (hx : x.Legal) {l : Lane} (hpos : l.pos.toNat < l.sliceEnd.toNat) {ys : List Symbol}
    {pend : Nat} {e : Enc}
    (h : ParseRun { x.parse with ulim := l.chunkLimit x } l.pos.toNat (l.chunkCoder x) ys pend e) :
    l.pos.toNat < pend ∧ pend ≤ l.sliceEnd.toNat ∧ pend ≤ l.pos.toNat + x.uMax := by
  have hlim : l.chunkLimit x ≤ l.sliceEnd.toNat ∧ l.chunkLimit x ≤ l.pos.toNat + x.uMax ∧ l.pos.toNat < l.chunkLimit x := by
    have := hx.uMax
    unfold Lane.chunkLimit
    omega
  obtain ⟨hend, hu, hlt⟩ := hlim
  obtain ⟨-, hle, hprogress⟩ := h.bounds (Nat.le_of_lt hlt)
  have hle : pend ≤ l.chunkLimit x := hle
  exact ⟨hprogress hlt (chunkCoder_hasBudget hx l _), hle.trans hend, hle.trans hu⟩

theorem encChunk_progress {x : ChunkCtx} (hx : x.Legal) {l : Lane} (hpos : l.pos.toNat < l.sliceEnd.toNat) {c : ChunkResult}
    (h : encChunk x l = .ok c) : l.pos.toNat < c.lane.pos.toNat ∧ c.lane.sliceEnd = l.sliceEnd := by
  obtain ⟨ys, pend, e, e', hrun, -, hlane, rfl⟩ := encChunk_run hx.look h
  obtain ⟨hlt, hle, -⟩ := chunkRun_bounds hx hpos hrun
  have hmax := l.sliceEnd.isLt
  rw [finishChunk_pos, finishChunk_sliceEnd, BitVec.toNat_ofNat, Nat.mod_eq_of_lt (by omega)]
  refine ⟨hlt, (congrArg Lane.sliceEnd hlane :).trans ?_⟩
  unfold Lane.openChunk
  split <;> rfl

/-! ## Slices and blocks (R294, R300) -/

theorem encSliceFrom_finishes {x : ChunkCtx} (hx : x.Legal) (cap : Option Nat) (fuel : Nat) : ∀ r : SliceResult,
    r.lane.Healthy → r.lane.sliceEnd.toNat - r.lane.pos.toNat ≤ fuel →
    Finishes (·.lane.Healthy) (encSliceFrom x cap fuel r) := by
  induction fuel with
  | zero =>
    exact fun r hr hf => .ite (fun h => absurd h (by omega)) fun _ => .pure hr
  | succ fuel ih =>
    refine fun r hr hf => .ite (fun hlt => (encChunk_finishes x hr).bind fun c hc => ?_) fun _ => .pure hr
    obtain ⟨hok, hhealthy⟩ := hc
    obtain ⟨hpos, hend⟩ := encChunk_progress hx hlt hok
    refine Ends.bind (P := fun _ => True) ?_ fun _ _ => ih _ hhealthy ?_
    · unfold check
      exact .ite (fun _ => trivial) fun _ => nofun
    · change c.lane.sliceEnd.toNat - c.lane.pos.toNat ≤ fuel
      rw [hend]
      omega

theorem encSlice_finishes {x : ChunkCtx} (hx : x.Legal) (cap : Option Nat) {l : Lane} (h : l.Healthy) :
    Finishes (·.lane.Healthy) (encSlice x cap l) := encSliceFrom_finishes hx cap _ _ h (Nat.le_refl _)

theorem encLanes_finishes {x : ChunkCtx} (hx : x.Legal) (cap : Nat) (slices : List (Nat × Nat)) : ∀ dr lanes,
    (∀ l ∈ lanes, Lane.Healthy l) → Finishes (fun r => ∀ l ∈ r.lanes, Lane.Healthy l) (encLanes x cap dr slices lanes) := by
  induction slices with
  | nil => exact fun _ _ h => h
  | cons ab slices ih =>
    intro dr lanes h
    cases lanes with
    | nil => exact nofun
    | cons l lanes =>
      obtain ⟨hl, hlanes⟩ := List.forall_mem_cons.mp h
      refine Ends.bind (encSlice_finishes hx _ ?_) fun r hr => (ih false lanes hlanes).bind fun rest hrest => ?_
      · exact hl
      · exact List.forall_mem_cons.mpr ⟨hr, hrest⟩

/-! ## What commands share -/

variable {i : Instr} {s : State} {L : Nat} {l : Lane}

theorem Ends.checked {A : Type} {P : A → Prop} {ok : Bool} {c : Code} {f : Unit → Except Halt A}
    (hf : ok = true → Finishes P (f ())) : Finishes P (Machine.check ok c >>= f) := by
  cases ok with
  | true => exact hf rfl
  | false => exact nofun

theorem getLane_finishes (s : State) (L : Nat) : Finishes (· ∈ s.lanes) (s.getLane L) := by
  unfold State.getLane
  split
  · next h => exact List.mem_of_getElem? h
  · exact nofun

theorem windowLane_finishes (s : State) (L : Nat) : Finishes (· ∈ s.lanes) (s.windowLane L) :=
  (getLane_finishes s L).bind fun _ hl => .checked fun _ => .pure hl

theorem codingLane_finishes (s : State) (L : Nat) : Finishes (· ∈ s.lanes) (s.codingLane L) :=
  (windowLane_finishes s L).bind fun _ hl => .checked fun _ => .pure hl

theorem symbolLane_finishes (s : State) (L : Nat) : Finishes (· ∈ s.lanes) (s.symbolLane L) :=
  (codingLane_finishes s L).bind fun _ hl => .checked fun _ => .pure hl

theorem probLane_finishes (s : State) (L : Nat) : Finishes (· ∈ s.lanes) (s.probLane L) :=
  (getLane_finishes s L).bind fun _ hl => .checked fun _ => .checked fun _ => .pure hl

theorem queryPos_finishes (s : State) : Finishes (fun _ => True) s.queryPos :=
  .checked fun _ => .checked fun _ => .pure trivial

theorem cancelPoint_finishes (s : State) : Finishes (fun _ => True) s.cancelPoint :=
  .ite (fun _ => nofun) fun _ => trivial

/-- The output write touches no lane. -/
theorem writeOut_finishes (s : State) (bytes : List Byte) : Finishes (·.lanes = s.lanes) (s.writeOut bytes) :=
  .checked fun _ => .pure rfl

theorem LaneEdit.healthy {l' : Lane} (h : LaneEdit s l l') (hl : l.Healthy) : l'.Healthy := by
  obtain ⟨hrc, hprob, hsnap⟩ := hl
  cases h with
  | resetCoder => exact ⟨Rc.reset_healthy, hprob, hsnap⟩
  | setWord i v _ hlo hhi => exact ⟨hrc, hprob.write i hlo hhi, hsnap⟩
  | resetState => exact ⟨hrc, nofun, hsnap⟩
  | takeSnapshot => exact ⟨hrc, hprob, hprob⟩
  | rollBack => exact ⟨hrc, hsnap, hsnap⟩
  | openSlice dr => exact ⟨hrc, hprob, hsnap⟩

theorem setLane_healthy (hs : s.Healthy) (hl : l.Healthy) : (s.setLane L l).Healthy := forall_mem_set hs hl

/-- Coding on a lane's window, at whatever position, and its commit. -/
theorem window_finishes {f : Enc → Except Halt Enc} {g : Enc → Enc} (hs : s.Healthy) (hl : l ∈ s.lanes) (hf : Coding f)
    (hg : ∀ e : Enc, e.lane.Healthy → (g e).lane.Healthy) :
    Finishes State.Healthy (f l.windowEnc >>= fun e => .ok (s.commitWindow L (g e))) :=
  (hf.healthy l.windowEnc (hs l hl)).bind fun e he => .pure (forall_mem_set hs (hg e he))

theorem contextReset_healthy (hs : s.Healthy) : s.contextReset.Healthy :=
  List.forall_mem_map.mpr fun l hl => ⟨Rc.reset_healthy, (hs l hl).2⟩

theorem lanes_healthy {t : State} (ht : t.lanes = s.lanes) (hs : s.Healthy) : t.Healthy := by
  unfold State.Healthy
  rw [ht]
  exact hs

/-- A command whose computation finishes in healthy states completes in one. -/
theorem conclude_healthy {body : State → Except Halt State} (hs : s.Healthy)
    (h : ∀ s : State, s.Healthy → Finishes State.Healthy (body s)) : ∃ t, conclude i s body = .next t ∧ t.Healthy := by
  have hend := h s.clearRes hs
  unfold conclude
  cases hb : body s.clearRes with
  | ok u =>
    rw [hb] at hend
    exact ⟨_, rfl, hend⟩
  | error k =>
    rw [hb] at hend
    cases k with
    | fault c => exact ⟨_, rfl, hs⟩
    | canceled => exact ⟨_, rfl, contextReset_healthy (s := s.clearRes) hs⟩
    | neverEnds => exact absurd rfl hend

/-! ## Every command -/

/-- No command stops a healthy block (R373). -/
theorem exec_healthy (i : Instr) {s : State} (hs : s.Healthy) : ∃ t, exec i s = .next t ∧ t.Healthy := by
  unfold exec
  cases i with
  | nop =>
    exact conclude_healthy hs fun s hs => .pure hs
  | clear =>
    exact conclude_healthy hs fun s hs => .pure (contextReset_healthy hs)
  | rcReset L =>
    exact conclude_healthy hs fun s hs => (windowLane_finishes s L).bind fun l hl =>
      .pure (setLane_healthy hs (LaneEdit.healthy (s := s) .resetCoder (hs l hl)))
  | rcBit L b =>
    exact conclude_healthy hs fun s hs => (codingLane_finishes s L).bind fun l hl => .checked fun _ =>
      window_finishes (g := id) hs hl (.bit _ b) fun _ h => h
  | rcTree L n =>
    exact conclude_healthy hs fun s hs => (codingLane_finishes s L).bind fun l hl => .checked fun _ => .checked fun _ =>
      window_finishes (g := id) hs hl (.tree _ n _) fun _ h => h
  | rcTreeRev L n =>
    exact conclude_healthy hs fun s hs => (codingLane_finishes s L).bind fun l hl => .checked fun _ => .checked fun _ =>
      window_finishes (g := id) hs hl (.treeRev _ n _) fun _ h => h
  | rcDirect L n =>
    exact conclude_healthy hs fun s hs => (windowLane_finishes s L).bind fun l hl => .checked fun _ =>
      window_finishes (g := id) hs hl (.direct _ n) fun _ h => h
  | rcFlush L =>
    exact conclude_healthy hs fun s hs => (windowLane_finishes s L).bind fun l hl =>
      window_finishes (g := id) hs hl .flush fun _ h => h
  | rcPrice b =>
    exact conclude_healthy hs fun s hs => .checked fun _ => .pure hs
  | mfCreate =>
    exact conclude_healthy hs fun s hs => .checked fun _ => .checked fun _ => .pure hs
  | mfBuild =>
    exact conclude_healthy hs fun s hs => .checked fun _ => .checked fun _ => .checked fun _ =>
      (cancelPoint_finishes s).bind fun _ _ => .pure hs
  | mfGetMatch =>
    exact conclude_healthy hs fun s hs => (queryPos_finishes s).bind fun _ _ => .pure hs
  | mfGetNextMatch =>
    exact conclude_healthy hs fun s hs => (queryPos_finishes s).bind fun _ _ => .pure hs
  | mfReadSlot =>
    refine conclude_healthy hs fun s hs => (queryPos_finishes s).bind fun p _ => ?_
    split <;> exact .pure hs
  | encResetState L =>
    exact conclude_healthy hs fun s hs => (getLane_finishes s L).bind fun l hl => .checked fun hp =>
      .pure (setLane_healthy hs (LaneEdit.healthy (.resetState hp) (hs l hl)))
  | encLiteral L =>
    exact conclude_healthy hs fun s hs => (symbolLane_finishes s L).bind fun l hl => .checked fun _ => .checked fun _ =>
      window_finishes (g := (Enc.setPos · _)) hs hl (.literal _ _) fun _ h => h
  | encMatch L =>
    exact conclude_healthy hs fun s hs => (symbolLane_finishes s L).bind fun l hl => .checked fun _ => .checked fun _ =>
      window_finishes (g := (Enc.setPos · _)) hs hl (.mtch _ _ _ _) fun _ h => h
  | encRep L r =>
    exact conclude_healthy hs fun s hs => (symbolLane_finishes s L).bind fun l hl => .checked fun _ => .checked fun _ =>
      window_finishes (g := (Enc.setPos · _)) hs hl (.rep _ _ _ r) fun _ h => h
  | encShortRep L =>
    exact conclude_healthy hs fun s hs => (symbolLane_finishes s L).bind fun l hl => .checked fun _ =>
      window_finishes (g := (Enc.setPos · _)) hs hl (.shortRep _ _) fun _ h => h
  | encSnapshot L =>
    exact conclude_healthy hs fun s hs => (getLane_finishes s L).bind fun l hl => .checked fun hi =>
      .pure (setLane_healthy hs (LaneEdit.healthy (s := s) (.takeSnapshot hi) (hs l hl)))
  | encRollback L =>
    exact conclude_healthy hs fun s hs => (getLane_finishes s L).bind fun l hl => .checked fun hv =>
      .pure (setLane_healthy hs (LaneEdit.healthy (s := s) (.rollBack hv) (hs l hl)))
  | probRead L =>
    exact conclude_healthy hs fun s hs => (probLane_finishes s L).bind fun _ _ => .pure hs
  | probWrite L =>
    refine conclude_healthy hs fun s hs => (probLane_finishes s L).bind fun l hl => .checked fun hv => .pure ?_
    simp only [Bool.and_eq_true, decide_eq_true_eq] at hv
    obtain ⟨hrc, hprob, hsnap⟩ := hs l hl
    exact setLane_healthy hs ⟨hrc, hprob.write _ hv.1 hv.2, hsnap⟩
  | sliceBegin L dr =>
    exact conclude_healthy hs fun s hs => (getLane_finishes s L).bind fun l hl => .checked fun _ => .checked fun _ =>
      .pure (setLane_healthy hs (LaneEdit.healthy (s := s) (.openSlice dr) (hs l hl)))
  | encChunk L =>
    exact conclude_healthy hs fun s hs => (getLane_finishes s L).bind fun l hl => .checked fun _ => .checked fun _ =>
      .checked fun _ => .checked fun _ => .checked fun _ => .checked fun _ => .checked fun _ => .checked fun _ =>
      (cancelPoint_finishes s).bind fun _ _ => (encChunk_finishes s.chunkCtx (hs l hl)).bind fun c hc =>
      (writeOut_finishes _ _).bind fun t ht => .pure (lanes_healthy ht (setLane_healthy hs hc.2))
  | encSlice L dr =>
    exact conclude_healthy hs fun s hs => (getLane_finishes s L).bind fun l hl => .checked fun _ => .checked fun hcfg =>
      .checked fun _ => .checked fun _ => (cancelPoint_finishes s).bind fun _ _ =>
      (encSlice_finishes (chunkCtx_legal hcfg) none (LaneEdit.healthy (s := s) (.openSlice dr) (hs l hl))).bind fun r hr =>
      (writeOut_finishes _ _).bind fun t ht => .pure (lanes_healthy ht (setLane_healthy hs hr))
  | encBlock =>
    exact conclude_healthy hs fun s hs => .checked fun hcfg => .checked fun _ => .checked fun _ => .ite (fun _ => .pure hs)
      fun _ => .checked fun _ => .checked fun _ => .checked fun _ => (cancelPoint_finishes s).bind fun _ _ =>
      (encLanes_finishes (chunkCtx_legal hcfg) _ _ _ _ hs).bind fun r hr =>
      (writeOut_finishes _ _).bind fun t ht => .pure (lanes_healthy ht hr)
  | streamBegin =>
    exact conclude_healthy hs fun s hs => .checked fun _ => .checked fun _ => .checked fun _ =>
      (writeOut_finishes _ _).bind fun t ht => .pure (lanes_healthy ht hs)
  | streamEnd =>
    exact conclude_healthy hs fun s hs => .checked fun _ => .checked fun _ =>
      (writeOut_finishes _ _).bind fun t ht => .pure (lanes_healthy ht hs)

/-! ## Every step -/

theorem sequencerTurn_healthy (hs : s.Healthy) : ∃ t, sequencerTurn s = .next t ∧ t.Healthy := by
  unfold sequencerTurn
  split
  · unfold runWord
    split
    · exact exec_healthy _ hs
    · exact ⟨_, rfl, hs⟩
  · exact ⟨s, rfl, hs⟩

theorem State.writeReg_lanes (s : State) (r : Reg) (v : Word) : (s.writeReg r v).lanes = s.lanes := by
  cases r <;> rfl

theorem Lane.writeReg_healthy (r : LaneReg) (v : Word) (hl : l.Healthy) : (l.writeReg r v).Healthy := by
  cases r <;> exact hl

theorem hostWrite_healthy (hs : s.Healthy) (sp : Space) (a : Nat) (n : AccessSize) (v : Word) :
    (s.hostWrite sp a n v).Healthy := by
  rcases hostWrite_cases s sp a n v with ⟨-, h⟩ | ⟨-, -, h⟩
  · rw [h]
    exact hs
  · rcases h with ⟨-, h⟩ | ⟨-, -, h⟩ | ⟨-, -, h⟩ | ⟨-, -, r, -, -, -, h⟩ | ⟨-, -, L, r, l, -, hl, h⟩ | ⟨-, -, h⟩
      | ⟨-, -, h⟩ | ⟨-, -, h⟩ <;> rw [h]
    · exact hs
    · exact hs
    · exact hs
    · exact lanes_healthy (s.writeReg_lanes r v) hs
    · exact setLane_healthy hs (l.writeReg_healthy r v (hs l (List.mem_of_getElem? hl)))
    · exact hs
    · exact hs
    · exact hs

theorem assertReset_healthy (s : State) : s.assertReset.Healthy := by
  intro l hl
  obtain rfl := List.eq_of_mem_replicate hl
  decide

theorem step_healthy (hs : s.Healthy) : ∃ t, step s = .next t ∧ t.Healthy := by
  unfold step nextEvent
  split
  · exact sequencerTurn_healthy hs
  · next input rest _ =>
    have hrest : State.Healthy { s with inputs := rest } := hs
    cases input with
    | read sp a n => exact ⟨_, rfl, hs⟩
    | write sp a n v => exact ⟨_, rfl, hostWrite_healthy hrest sp a n v⟩
    | sequencer => exact sequencerTurn_healthy hrest
    | assertReset => exact ⟨_, rfl, assertReset_healthy _⟩
    | releaseReset => exact ⟨_, rfl, hs⟩

end Sys2Proof.Machine

open Sys2Proof Sys2Proof.Machine

/-- Settles O26: every command finishes in a healthy block, and every other step leaves the coders alone or resets them. -/
theorem healthyNeverStops : Obligations.HealthyNeverStops := fun _ hs => step_healthy hs

end

section
/-! PROOFS. The lane window as a sink that takes exactly its free bytes (40_range_coder.md R141). -/

namespace Sys2Proof.Machine

/-- The coder with a sink for `n` bytes. -/
def Enc.bounded (e : Enc) (n : Nat) : Enc := { e with room := some n }

/-- `x` ends with an unbounded sink, and `y` is the same with a sink for `n` bytes: as `x` if the bytes fit, and
`DESTINATION_TOO_SMALL` if they do not. Where `x` halts, `y` does too, maybe for want of room before. -/
def Overruns (n : Nat) (x y : Except Halt Enc) : Prop :=
  Ends (fun e => (e.rev.length ≤ n → y = .ok (e.bounded n))
      ∧ (n < e.rev.length → y = .error (.fault .destinationTooSmall)))
    (fun h => y = .error h ∨ y = .error (.fault .destinationTooSmall)) x

/-- `f` takes back no byte emitted, and knows of its sink only whether the bytes fit. -/
structure Sinks (f : Enc → Except Halt Enc) : Prop where
  grows : ∀ e, Ends (fun e' => e'.room = e.room ∧ e.rev.length ≤ e'.rev.length) (fun _ => True) (f e)
  overruns : ∀ (n : Nat) (e : Enc), e.room = none → e.rev.length ≤ n → Overruns n (f e) (f (e.bounded n))

namespace Sinks

variable {f g : Enc → Except Halt Enc}

/-! ## How operations are put together -/

theorem error (h : Halt) : Sinks fun _ => .error h := ⟨fun _ => trivial, fun _ _ _ _ => .inl rfl⟩

/-- A write of the lane's registers or words. -/
theorem update (u : Lane → Lane) : Sinks fun e => .ok { e with lane := u e.lane } :=
  ⟨fun _ => ⟨rfl, Nat.le_refl _⟩, fun _ _ _ hn => ⟨fun _ => rfl, fun h => absurd h (Nat.not_lt.mpr hn)⟩⟩

theorem ite {c : Prop} [Decidable c] (hf : c → Sinks f) (hg : ¬ c → Sinks g) : Sinks fun e => if c then f e else g e := by
  by_cases hc : c
  · simpa only [if_pos hc] using hf hc
  · simpa only [if_neg hc] using hg hc

theorem onLane {f : Lane → Enc → Except Halt Enc} (h : ∀ l, Sinks (f l)) : Sinks fun e => f e.lane e :=
  ⟨fun e => (h e.lane).grows e, fun n e => (h e.lane).overruns n e⟩

theorem andThen (hf : Sinks f) (hg : Sinks g) : Sinks fun e => f e >>= g where
  grows e := (hf.grows e).bind fun a ha => (hg.grows a).imp
    (fun _ hb => ⟨hb.1.trans ha.1, ha.2.trans hb.2⟩) fun _ h => h
  overruns n e hroom hn := by
    have hx := hf.overruns n e hroom hn
    have hgrows := hf.grows e
    cases hfe : f e with
    | error h =>
      rw [hfe] at hx
      rcases hx with hy | hy <;> rw [hy]
      · exact .inl rfl
      · exact .inr rfl
    | ok a =>
      rw [hfe] at hx hgrows
      obtain ⟨hfit, hover⟩ := hx
      rcases Nat.lt_or_ge n a.rev.length with hlt | hle
      · rw [hover hlt]
        exact (hg.grows a).imp (fun b hb => ⟨fun h => absurd (hb.2.trans h) (Nat.not_le.mpr hlt), fun _ => rfl⟩)
          fun _ _ => .inr rfl
      · rw [hfit hle]
        exact hg.overruns n a (hgrows.1.trans hroom) hle

/-! ## The coder (R143 to R152) -/

theorem emitRun (first rest : Byte) {k : Nat} (hk : 0 < k) : Sinks (emitRun first rest k) := by
  have hlen (rev : List Byte) : (List.replicate (k - 1) rest ++ first :: rev).length = rev.length + k := by
    simp only [List.length_append, List.length_replicate, List.length_cons]
    omega
  refine ⟨fun e => ?_, fun n e hroom _ => ?_⟩
  · unfold Machine.emitRun
    split
    · next => exact .ite (fun _ => ⟨rfl, by rw [hlen]; omega⟩) fun _ => trivial
    · next => exact ⟨rfl, by rw [hlen]; omega⟩
  · unfold Machine.emitRun Overruns
    rw [hroom]
    refine ⟨fun h => ?_, fun h => ?_⟩
    · exact if_pos (hlen e.rev ▸ h)
    · exact if_neg (Nat.not_le.mpr (hlen e.rev ▸ h))

theorem flushPending : Sinks flushPending :=
  .onLane (f := fun l e => if l.rc.cacheSize = 0 then .error .neverEnds else
      Machine.emitRun (BitVec.ofNat 8 (l.rc.cache.toNat + l.rc.low.toNat / 2 ^ 32))
        (BitVec.ofNat 8 (0xFF + l.rc.low.toNat / 2 ^ 32)) l.rc.cacheSize.toNat e >>= fun e =>
      .ok (e.setRc { l.rc with cacheSize := 0, cache := BitVec.ofNat 8 (l.rc.low.toNat / 2 ^ 24) }))
    fun _ => .ite (fun _ => .error _) fun h => .andThen
      (.emitRun _ _ (Nat.pos_of_ne_zero fun h0 => h (BitVec.eq_of_toNat_eq h0))) (.update fun m => { m with rc := _ })

theorem pushByte : Sinks pushByte :=
  .onLane (f := fun l e => if l.rc.cacheSize.toNat = 2 ^ 32 - 1 then .error (.fault .internal) else
      .ok (e.setRc { l.rc with
        cacheSize := l.rc.cacheSize + 1, low := BitVec.ofNat 33 (l.rc.low.toNat % 2 ^ 24 * 2 ^ 8) }))
    fun _ => .ite (fun _ => .error _) fun _ => .update fun m => { m with rc := _ }

theorem shiftLow : Sinks shiftLow :=
  .onLane (f := fun l e => if l.rc.low.toNat < 0xFF000000 ∨ 2 ^ 32 ≤ l.rc.low.toNat then
      Machine.flushPending e >>= Machine.pushByte else Machine.pushByte e)
    fun _ => .ite (fun _ => .andThen .flushPending .pushByte) fun _ => .pushByte

theorem shiftLows (k : Nat) : Sinks (shiftLows k) := by
  induction k with
  | zero => exact .update id
  | succ k ih => exact .andThen .shiftLow ih

theorem flush : Sinks flush := .shiftLows 5

theorem renormalise (fuel : Nat) : Sinks (renormalise fuel) := by
  induction fuel with
  | zero => exact .error _
  | succ fuel ih =>
    exact .onLane (f := fun l e => if l.rc.range.toNat < 2 ^ 24 then
        (.ok e.widen >>= Machine.shiftLow) >>= Machine.renormalise fuel else .ok e)
      fun _ => .ite
        (fun _ => .andThen (.andThen (.update fun m =>
          { m with rc := { m.rc with range := BitVec.ofNat 32 (m.rc.range.toNat * 2 ^ 8) } }) .shiftLow) ih)
        fun _ => .update id

theorem encodeBit (i : Nat) (b : Bool) : Sinks (encodeBit i b) := by
  have hsplit : Sinks fun e => .ok (splitRange i b e) := by
    cases b
    · exact .update fun l => (splitRange i false { lane := l, rev := [], room := none }).lane
    · exact .update fun l => (splitRange i true { lane := l, rev := [], room := none }).lane
  exact .andThen hsplit (.renormalise renormRounds)

theorem half (b : Bool) : Sinks fun e => Machine.renormalise renormRounds (halveRange b e) :=
  have hhalve : Sinks fun e => .ok (halveRange b e) :=
    .update fun l => (halveRange b { lane := l, rev := [], room := none }).lane
  .andThen hhalve (.renormalise renormRounds)

end Sinks

/-- An operation composed of bits treats its sink as one that takes its free bytes. -/
theorem Composed.sinks {f : Enc → Except Halt Enc} (hf : Composed f) : Sinks f := by
  induction hf with
  | done => exact .update id
  | bit i b => exact .encodeBit i b
  | half b => exact .half b
  | setSt st => exact .update fun l => { l with st := st }
  | setReps reps => exact .update fun l => { l with reps := reps }
  | andThen _ _ ihf ihg => exact .andThen ihf ihg
  | onLane _ ih => exact .onLane ih

theorem Coding.sinks {f : Enc → Except Halt Enc} (hf : Coding f) : Sinks f := by
  rcases hf.composed with rfl | hf
  · exact .flush
  · exact hf.sinks

end Sys2Proof.Machine

open Sys2Proof Sys2Proof.Machine

/-- Settles O33: every coding operation is put together from writes of the lane and emissions, and each knows of the sink
only whether its bytes fit. -/
theorem windowOverrun : Obligations.WindowOverrun := by
  intro f x a b c d bit hf l n free bounded
  have hcoding : Coding f := by
    rcases hf with rfl | rfl | rfl | rfl | rfl | rfl | rfl | rfl | rfl
    · exact .bit a bit
    · exact .direct a b
    · exact .tree a b c
    · exact .treeRev a b c
    · exact .flush
    · exact .literal x a
    · exact .mtch x a b c
    · exact .rep x a b d
    · exact .shortRep x a
  have h : Overruns n (f free) (f bounded) := hcoding.sinks.overruns n free rfl (Nat.zero_le n)
  exact ⟨fun e he => by rw [he] at h; exact h, fun k hk => by rw [hk] at h; exact h⟩

end

section
/-! PROOFS. `RC_RESET`, `RC_BIT`, `RC_FLUSH` and `RC_PRICE` (40_range_coder.md R142 to R145, R152 to R155). -/

namespace Sys2Proof.Machine

variable {s : State} {L : Nat} {l : Lane}

/-! ## `RC_RESET` (R142) -/

theorem exec_rcReset (s : State) (L : Nat) : exec (.rcReset L) s = conclude (.rcReset L) s fun u =>
    u.windowLane L >>= fun l => .ok (u.setLane L { l with rc := .reset }) := rfl

/-! ## `RC_BIT` (R145) -/

theorem exec_rcBit (s : State) (L : Nat) (b : Bool) : exec (.rcBit L b) s = conclude (.rcBit L b) s fun u =>
    u.codingLane L >>= fun l => check (decide (u.args.arg0.toNat < l.probWords)) .invalidParameter >>= fun _ =>
      encodeBit u.args.arg0.toNat b l.windowEnc >>= fun e => .ok (u.commitWindow L e) := rfl

/-- Coding one bit moves the number by the split point for a 1, and by at most one shift (R144). -/
theorem CodedNumber.bit_moves (c : CodedNumber) (p : Nat) (b : Bool) :
    let bound := c.range / 2 ^ 11 * p
    ∃ k ≤ 1, (c.bit p b).shifts = c.shifts + k ∧ (c.bit p b).range = 256 ^ k * (if b then c.range - bound else bound)
      ∧ (c.bit p b).value = 256 ^ k * (c.value + if b then bound else 0) := by
  have hrenorm (d : CodedNumber) : ∃ k ≤ 1, d.renormalised.shifts = d.shifts + k ∧ d.renormalised.range = 256 ^ k * d.range
      ∧ d.renormalised.value = 256 ^ k * d.value := by
    unfold CodedNumber.renormalised
    split
    · exact ⟨1, Nat.le_refl 1, rfl, Nat.mul_comm .., Nat.mul_comm ..⟩
    · exact ⟨0, Nat.zero_le 1, rfl, (Nat.one_mul _).symm, (Nat.one_mul _).symm⟩
  cases b with
  | false => exact hrenorm { c with range := c.range / 2 ^ 11 * p }
  | true => exact hrenorm { c with range := c.range - c.range / 2 ^ 11 * p, value := c.value + c.range / 2 ^ 11 * p }

/-! ## `RC_FLUSH` (R152, R153) -/

theorem exec_rcFlush (s : State) (L : Nat) : exec (.rcFlush L) s = conclude (.rcFlush L) s fun u =>
    u.windowLane L >>= fun l => flush l.windowEnc >>= fun e => .ok (u.commitWindow L e) := rfl

/-- A shift of `low = 0` leaves one byte pending, so that it needs no room in the count of pending bytes. -/
theorem shiftLow_runs_of_zero (e : Enc) (hc : 1 ≤ e.lane.rc.cacheSize.toNat) (hlow : e.lane.rc.low.toNat = 0)
    (hroom : ∀ n, e.room = some n → e.rev.length + e.lane.rc.cacheSize.toNat ≤ n) : ∃ e', shiftLow e = .ok e' := by
  have h0 : e.lane.rc.cacheSize ≠ 0 := fun h => by simp [h] at hc
  unfold shiftLow
  rw [if_pos (by omega)]
  exact ⟨_, (bind_ok _ _ _).mpr ⟨_, (flushPending_ok _ _).mpr ⟨h0, hroom, rfl⟩, (pushByte_ok _ _).mpr ⟨nofun, rfl⟩⟩⟩

/-- `a` is `e` after `k` shifts: where its bytes are. -/
structure Enc.Shifted (e : Enc) (k : Nat) (a : Enc) : Prop where
  pending : 1 ≤ a.lane.rc.cacheSize.toNat
  room    : a.room = e.room
  grown   : e.rev.length ≤ a.rev.length
  count   : a.rev.length + a.lane.rc.cacheSize.toNat = e.rev.length + e.lane.rc.cacheSize.toNat + k

/-- The next shift runs if there is room for the bytes so far and the count of pending bytes can grow. -/
theorem Enc.Shifted.runs {e a : Enc} {k : Nat} (h : e.Shifted k a) (hmax : e.lane.rc.cacheSize.toNat + k < 2 ^ 32 - 1)
    (hroom : ∀ n, e.room = some n → e.rev.length + e.lane.rc.cacheSize.toNat + k ≤ n) :
    ∃ a', shiftLow a = .ok a' ∧ e.Shifted (k + 1) a' ∧ a'.lane.rc.low.toNat = a.lane.rc.low.toNat % 2 ^ 24 * 2 ^ 8 := by
  obtain ⟨hpending, hr, hgrown, hcount⟩ := h
  obtain ⟨a', h'⟩ := shiftLow_runs a hpending (by omega) fun n hn => hcount ▸ hroom n (hr ▸ hn)
  obtain ⟨hr', -, -, hlow, hpending', hcount', -⟩ := shiftLow_ok a a' h' hpending
  have hgrown' := ((Sinks.shiftLow.grows a).of_ok h').2
  exact ⟨a', h', ⟨hpending', hr'.trans hr, hgrown.trans hgrown', by omega⟩, hlow⟩

/-- A flush runs where the sink and the count of pending bytes take the pending bytes and four more. -/
theorem flush_runs (e : Enc) (hc : 1 ≤ e.lane.rc.cacheSize.toNat) (hmax : e.lane.rc.cacheSize.toNat + 4 < 2 ^ 32)
    (hroom : ∀ n, e.room = some n → e.rev.length + e.lane.rc.cacheSize.toNat + 4 ≤ n) : ∃ e', flush e = .ok e' := by
  have hroom' (k : Nat) (hk : k ≤ 4) (n : Nat) (hn : e.room = some n) :
      e.rev.length + e.lane.rc.cacheSize.toNat + k ≤ n := by
    have := hroom n hn
    omega
  have s₀ : e.Shifted 0 e := ⟨hc, rfl, Nat.le_refl _, rfl⟩
  obtain ⟨e₁, h₁, s₁, w₁⟩ := s₀.runs (by omega) (hroom' 0 (by decide))
  obtain ⟨e₂, h₂, s₂, w₂⟩ := s₁.runs (by omega) (hroom' 1 (by decide))
  obtain ⟨e₃, h₃, s₃, w₃⟩ := s₂.runs (by omega) (hroom' 2 (by decide))
  obtain ⟨e₄, h₄, s₄, w₄⟩ := s₃.runs (by omega) (hroom' 3 (by decide))
  obtain ⟨e₅, h₅⟩ := shiftLow_runs_of_zero e₄ s₄.pending (by omega)
    fun n hn => s₄.count ▸ hroom' 4 (Nat.le_refl 4) n (s₄.room ▸ hn)
  exact ⟨e₅, (bind_ok _ _ _).mpr ⟨e₁, h₁, (bind_ok _ _ _).mpr ⟨e₂, h₂, (bind_ok _ _ _).mpr ⟨e₃, h₃,
    (bind_ok _ _ _).mpr ⟨e₄, h₄, (bind_ok _ _ _).mpr ⟨e₅, h₅, rfl⟩⟩⟩⟩⟩⟩

/-- What the window commit leaves of a coder that left the window where it was and emitted no more than it has room for,
but for the lane's coding state. -/
theorem commitWindow_windowCoded {e : Enc} (hout : Memory.wf s.out = true) (hlegal : s.windowLegal l = true)
    (hbase : e.lane.outBase = l.outBase) (hlen : e.lane.outLen = l.outLen)
    (hfits : e.rev.length ≤ l.outCap.toNat - l.outLen.toNat) :
    WindowCoded s (s.clearRes.commitWindow L e).complete L l e.committed e.bytes := by
  simp only [State.windowLegal, Bool.and_eq_true, decide_eq_true_eq] at hlegal
  have hcap := l.outCap.isLt
  have hbytes : e.bytes.length = e.rev.length := List.length_reverse
  obtain ⟨-, hlanes, hlen', hwrites, -⟩ := commitWindow_writes s.clearRes L e hout (by rw [hlen]; omega)
  rw [hlen] at hlen' hwrites
  rw [hbase] at hwrites
  have hcommit : e.committed.outLen.toNat = l.outLen.toNat + e.bytes.length := by rw [Enc.committed, hlen, hlen']
  refine ⟨⟨rfl, rfl, rfl, rfl⟩, keepsHostState_refl s, rfl, rfl, ⟨rfl, rfl⟩, ⟨rfl, rfl, rfl⟩, hlanes, hcommit, ?_, hwrites⟩
  omega

/-- A flush on a lane whose window has room for it. -/
theorem rcFlush_completes (hm : s.MemoryOk) (hl : s.lanes[L]? = some l) (hrc : l.rc.Healthy) (hw : s.windowLegal l = true)
    (hroom : l.outLen.toNat + l.rc.cacheSize.toNat + 4 ≤ l.outCap.toNat) :
    ∃ t l' bytes, exec (.rcFlush L) s = .next t ∧ WindowCoded s t L l l' bytes
      ∧ l' = { l with rc := { low := 0, range := l.rc.range, cache := 0, cacheSize := 1 }, outLen := l'.outLen }
      ∧ bytes.length = l.rc.cacheSize.toNat + 4 ∧ bigEndian bytes = codeValue [] l.rc := by
  obtain ⟨-, hout, -⟩ := hm
  have hcap := l.outCap.isLt
  obtain ⟨e, he⟩ := flush_runs l.windowEnc hrc.2.2.1 (show l.rc.cacheSize.toNat + 4 < 2 ^ 32 by omega) fun n hn => by
    obtain rfl : l.outCap.toNat - l.outLen.toNat = n := Option.some.inj hn
    change 0 + l.rc.cacheSize.toNat + 4 ≤ _
    omega
  obtain ⟨-, hlane, hlen, hvalue⟩ := flush_ok l.windowEnc e he hrc.2.2.1 hrc.carry
  have hlen : e.rev.length = l.rc.cacheSize.toNat + 4 := by
    rw [hlen]
    change 0 + l.rc.cacheSize.toNat + 4 = _
    omega
  have hlane : e.lane = { l with rc := { low := 0, range := l.rc.range, cache := 0, cacheSize := 1 } } := hlane
  refine ⟨_, e.committed, e.bytes, (exec_rcFlush s L).trans (conclude_ok _ s _ _ ?_),
    commitWindow_windowCoded hout hw (by rw [hlane]) (by rw [hlane]) (by omega), ?_, ?_, hvalue⟩
  · exact (bind_ok _ _ _).mpr ⟨l, (windowLane_ok s.clearRes L l).mpr ⟨hl, hw⟩, (bind_ok _ _ _).mpr ⟨e, he, rfl⟩⟩
  · rw [Enc.committed, hlane]
  · exact List.length_reverse.trans hlen

/-- A flush on a lane whose window has too little room for it (R141). -/
theorem rcFlush_overruns (hl : s.lanes[L]? = some l) (hrc : l.rc.Healthy) (hw : s.windowLegal l = true)
    (hroom : l.outCap.toNat < l.outLen.toNat + l.rc.cacheSize.toNat + 4) (hmax : l.rc.cacheSize.toNat + 4 < 2 ^ 32) :
    exec (.rcFlush L) s = .next (s.faultCommit (encode (.rcFlush L)) .destinationTooSmall) := by
  obtain ⟨e, he⟩ := flush_runs { lane := l, rev := [], room := none } hrc.2.2.1 hmax nofun
  obtain ⟨-, -, hlen, -⟩ := flush_ok _ e he hrc.2.2.1 hrc.carry
  have hlen : e.rev.length = 0 + l.rc.cacheSize.toNat + 4 := hlen
  have hover := Sinks.flush.overruns (l.outCap.toNat - l.outLen.toNat) { lane := l, rev := [], room := none } rfl (Nat.zero_le _)
  rw [he] at hover
  refine (exec_rcFlush s L).trans (conclude_fault _ s _ _ ((bind_error _ _ _).mpr (.inr ⟨l, ?_, ?_⟩)))
  · exact (windowLane_ok s.clearRes L l).mpr ⟨hl, hw⟩
  · exact (bind_error _ _ _).mpr (.inl (hover.2 (by omega)))

/-! ## `RC_PRICE` (R154, R155) -/

theorem exec_rcPrice (s : State) (b : Bool) : exec (.rcPrice b) s = conclude (.rcPrice b) s fun u =>
    check (decide (u.args.arg0.toNat ≤ 2047)) .invalidParameter >>= fun _ =>
      .ok (u.setRes (price b (u.args.arg0.toNat / 2 ^ 4)) 0 0) := rfl

/-- The ROM is the table of what R154's algorithm computes. -/
theorem priceRom_eq : priceRom = (List.range 128).map priceFormula := by rfl

theorem priceRom_getD {k : Nat} (hk : k < 128) : priceRom.getD k 0 = priceFormula k := by
  rw [priceRom_eq, List.getD_eq_getElem?_getD, List.getElem?_map, List.getElem?_range hk]
  rfl

theorem priceFormula_lt (k : Nat) : priceFormula k < 2 ^ 32 :=
  (Nat.sub_le ..).trans_lt (by decide)

end Sys2Proof.Machine

open Sys2Proof Sys2Proof.Machine

/-- Settles O32: the command writes the coder registers of a lane with a well-formed window. -/
theorem rcResetResult : Obligations.RcResetResult := by
  intro s L
  obtain ⟨hmissing, hmalformed⟩ := windowStartFaults (exec_rcReset s L)
  refine ⟨fun l hl hlen hcap => ?_, hmissing, hmalformed⟩
  have hw : s.windowLegal l = true := by simp [State.windowLegal, hlen, hcap]
  refine ⟨_, (exec_rcReset s L).trans (conclude_ok _ s _ _ ((bind_ok _ _ _).mpr ⟨l, ?_, rfl⟩)), ⟨rfl, rfl, rfl⟩,
    ⟨rfl, rfl, rfl, rfl⟩, keepsHostState_refl s, rfl, rfl, ⟨rfl, rfl⟩, fun _ => rfl, rfl⟩
  exact (windowLane_ok s.clearRes L l).mpr ⟨hl, hw⟩

/-- Settles O34: the bit is one decision, with at most one shift. -/
theorem rcBitResult : Obligations.RcBitResult := by
  intro s L b
  refine ⟨codingStartFaults (exec_rcBit s L b), fun l hl => ⟨fun hw hinit hindex => ?_, fun hm h hinit hindex => ?_⟩⟩
  · refine (exec_rcBit s L b).trans (conclude_fault _ s _ _ ((bind_error _ _ _).mpr (.inr ⟨l, ?_, ?_⟩)))
    · exact (codingLane_ok s.clearRes L l).mpr ⟨hl, hw, hinit⟩
    · exact (bind_error _ _ _).mpr (.inl ((check_error _ _ _).mpr ⟨decide_eq_false (Nat.not_lt.mpr hindex), rfl⟩))
  · intro i p bound
    obtain ⟨k, hk, hshifts, hrange, hvalue⟩ := (CodedNumber.ofLane l).bit_moves p b
    have hshifts : ((CodedNumber.ofLane l).bit p b).shifts = k := hshifts.trans (Nat.zero_add k)
    obtain ⟨t, e, -, ht, hcoded, honly, hhealthy, ⟨hr, hv, hs⟩, hwords⟩ :=
      window_completes (i := .rcBit L b) hm hl h (encodeBit_runs i b) (hshifts.trans_le hk) fun e he => by
        refine (exec_rcBit s L b).trans (conclude_ok _ s _ _ ?_)
        refine (bind_ok _ _ _).mpr ⟨l, (codingLane_ok s.clearRes L l).mpr ⟨hl, h.legal, hinit⟩, ?_⟩
        refine (bind_ok _ _ _).mpr ⟨(), (check_ok _ _ _).mpr (decide_eq_true hindex), ?_⟩
        exact (bind_ok _ _ _).mpr ⟨e, he, rfl⟩
    exact ⟨t, _, _, k, ht, hcoded, honly, hhealthy, hwords, hk, hs.trans (congrArg _ hshifts), hr.trans hrange, hv.trans hvalue⟩

/-- Settles O37: the bytes of a flush are the pending ones and four more, and the window takes exactly its free bytes. -/
theorem rcFlushResult : Obligations.RcFlushResult := fun s L => ⟨windowStartFaults (exec_rcFlush s L),
  fun _ hm hl hrc hw => ⟨rcFlush_completes hm hl hrc hw, rcFlush_overruns hl hrc hw⟩⟩

/-- Settles O38: the ROM is the algorithm's table, and a 1 reads it from the end. -/
theorem rcPriceResult : Obligations.RcPriceResult := by
  intro s b p
  refine ⟨fun hp => ?_, fun hp => ?_⟩
  · refine ⟨_, (exec_rcPrice s b).trans (conclude_ok _ s _ _ ((bind_ok _ _ _).mpr ⟨(), ?_, rfl⟩)),
      ⟨rfl, rfl, rfl, rfl⟩, keepsHostState_refl s, ⟨?_, rfl, rfl⟩, rfl, rfl, rfl, ⟨rfl, rfl⟩, fun _ => rfl⟩
    · exact (check_ok _ _ _).mpr (decide_eq_true hp)
    · have hindex : (if b then 127 - p / 2 ^ 4 else p / 2 ^ 4) = if b then (2047 - p) / 16 else p / 16 := by
        cases b
        · rfl
        · simp only [if_true]
          omega
      have hlt : (if b then (2047 - p) / 16 else p / 16) < 128 := by split <;> omega
      change (BitVec.ofNat 32 (priceRom.getD (if b then 127 - p / 2 ^ 4 else p / 2 ^ 4) 0)).toNat = _
      rw [hindex, priceRom_getD hlt, BitVec.toNat_ofNat, Nat.mod_eq_of_lt (priceFormula_lt _)]
  · refine (exec_rcPrice s b).trans (conclude_fault _ s _ _ ((bind_error _ _ _).mpr (.inl ?_)))
    exact (check_error _ _ _).mpr ⟨decide_eq_false (Nat.not_le.mpr hp), rfl⟩

end

section
/-! SUPPORT. When coding a symbol runs, how many shifts it makes, and which words it uses (42_lzma_symbols.md R212 to R220). -/

namespace Sys2Proof.Machine

/-! ## Sub-coders run where there is room (R214, R215, R217) -/

theorem Runs.ite {c : Prop} [Decidable c] {ds ds' : List Decision} {f g : Enc → Except Halt Enc} (hf : c → Runs ds f)
    (hg : ¬ c → Runs ds' g) : Runs (if c then ds else ds') fun e => if c then f e else g e := by
  by_cases hc : c
  · simpa only [if_pos hc] using hf hc
  · simpa only [if_neg hc] using hg hc

theorem encodeLen_runs (base ps : Nat) {l : Nat} (hl : l ≤ 271) : Runs (lenBits base l ps) (encodeLen base l ps) :=
  .ite (fun h => (encodeBit_runs _ _).bind (encodeTree_runs _ 3 l h)) fun h => .ite
    (fun h' => (encodeBit_runs _ _).bind ((encodeBit_runs _ _).bind (encodeTree_runs _ 3 (l - 8) (by omega))))
    fun h' => (encodeBit_runs _ _).bind ((encodeBit_runs _ _).bind (encodeTree_runs _ 8 (l - 16) (by omega)))

theorem encodeDist_runs (len : Nat) {dist : Nat} (hd : dist < 2 ^ 32) : Runs (distBits dist len) (encodeDist dist len) := by
  unfold encodeDist
  simp only [← slotOf_eq]
  exact (encodeTree_runs _ 6 _ (slotOf_lt dist hd)).bind <| .ite (fun _ => .nil) fun _ => .ite
    (fun _ => encodeTreeRev_runs _ _ _) fun _ => (encodeDirect_runs _ _).bind (encodeTreeRev_runs _ _ _)

theorem matchedLiteralFrom_runs (base c mb n : Nat) : ∀ d, d + n = 8 →
    Runs ((List.range n).map fun k => matchedBit base c mb (d + k))
      (matchedLiteralFrom base n (mb * 2 ^ d) (matchedOffs c mb d) ((c + 0x100) * 2 ^ d)) := by
  induction n with
  | zero => exact fun _ _ => .nil
  | succ n ih =>
    intro d hd
    have hbits : (List.range (n + 1)).map (fun k => matchedBit base c mb (d + k))
        = [matchedBit base c mb d] ++ (List.range n).map fun k => matchedBit base c mb (d + 1 + k) := by
      rw [List.range_succ_eq_map, List.map_cons, List.map_map, Nat.add_zero]
      refine congrArg _ (List.map_congr_left fun k _ => ?_)
      simp only [Function.comp, Nat.succ_eq_add_one, show d + 1 + k = d + (k + 1) by omega]
    have hrest := ih (d + 1) (by omega)
    rw [← matchedOffs_succ _ _ _ (by omega), Nat.pow_succ, ← Nat.mul_assoc, ← Nat.mul_assoc] at hrest
    rw [hbits, ← matchedBit_eq _ _ _ _ (by omega)]
    exact (encodeBit_runs _ _).bind hrest

theorem matchedLiteral_runs (base c mb : Nat) (hc : c < 256) (hm : mb < 256) :
    Runs (matchedBits base c mb) (matchedLiteralFrom base 8 mb 0x100 (c + 0x100)) := by
  have h := matchedLiteralFrom_runs base c mb 8 0 rfl
  rw [matchedOffs_zero c mb hc hm, Nat.pow_zero, Nat.mul_one, Nat.mul_one] at h
  simp only [Nat.zero_add] at h
  exact h

theorem encodeRepIndex_runs (st r ps : Nat) :
    Runs (if r = 0 then [.word (204 + st) false, .word (240 + 16 * st + ps) true]
      else if r = 1 then [.word (204 + st) true, .word (216 + st) false]
      else [.word (204 + st) true, .word (216 + st) true, .word (228 + st) (decide (r = 3))]) (encodeRepIndex st r ps) := by
  by_cases h0 : r = 0
  · simp only [h0, if_true]
    exact (encodeBit_runs _ _).bind (encodeBit_runs _ _)
  · have hsplit : Runs (if r = 1 then [.word (216 + st) false]
        else [.word (216 + st) true, .word (228 + st) (decide (r = 3))]) fun e =>
          if r = 1 then encodeBit (isRepG1At + st) false e
          else encodeBit (isRepG1At + st) true e >>= encodeBit (isRepG2At + st) (r == 3) :=
      .ite (fun _ => encodeBit_runs _ _) fun _ => (encodeBit_runs _ _).bind (encodeBit_runs _ _)
    have h := (encodeBit_runs (204 + st) true).bind hsplit
    unfold encodeRepIndex
    simp only [h0, if_false]
    refine Eq.subst (motive := (Runs · _)) ?_ h
    split <;> rfl

/-! ## Symbols run where there is room (R217 to R220) -/

/-- The bits of a literal in the model's terms. -/
theorem symbolBits_lit (x : SymCtx) (l : Lane) (p : Nat) : symbolBits x.dict x.phase l p .lit
    = .word (isMatchAt + 16 * l.st.val + posState x l p) false
      :: if l.st.val < 7 then treeBits (literalAt + 768 * litState x l p) 8 (Memory.read x.dict p).toNat
        else matchedBits (literalAt + 768 * litState x l p) (Memory.read x.dict p).toNat
          (matchedByte x p l.reps.rep0.toNat).toNat := by
  have hmb : (matchedByte x p l.reps.rep0.toNat).toNat = if l.reps.rep0.toNat < p
      then byteAt x.dict (p - (l.reps.rep0.toNat + 1))
      else (Config.byteBeforeDict (Memory.readBytes x.dict 0 (p + 1)) p l.reps.rep0.toNat).toNat := by
    unfold matchedByte
    split
    · rw [Nat.sub_sub]
      rfl
    · rfl
  rw [hmb]
  simp only [symbolBits, isMatchAt, Nat.zero_add, literalAt, litState, posState, prevByte, byteAt]

/-- `f` answers wherever there is room for the decisions `ds`. -/
def Answers (ds : List Decision) (f : Enc → Except Halt Enc) : Prop :=
  ∀ e : Enc, e.Good → e.RoomFor ds → ∃ e', f e = .ok e'

theorem Runs.answers {ds ds' : List Decision} {f g : Enc → Except Halt Enc} (hf : Runs ds f) (hg : Answers ds' g) :
    Answers (ds ++ ds') fun e => f e >>= g := by
  intro e he hroom
  obtain ⟨e₁, h₁, c₁⟩ := hf e he hroom.left
  obtain ⟨e₂, h₂⟩ := hg e₁ c₁.good (c₁.roomFor hroom)
  exact ⟨e₂, (bind_ok _ _ _).mpr ⟨e₁, h₁, h₂⟩⟩

theorem Answers.update (u : Enc → Enc) : Answers [] fun e => .ok (u e) := fun e _ _ => ⟨u e, rfl⟩

/-- The reps decide nothing about the room. -/
theorem Answers.setReps {ds : List Decision} {f : Enc → Except Halt Enc} (hf : Answers ds f) (reps : Enc → Reps) :
    Answers ds fun e => f (e.setReps (reps e)) := fun e he hroom =>
  hf (e.setReps (reps e)) ⟨he.healthy, he.inRange, he.wf⟩ ⟨hroom.counter, hroom.sink⟩

/-- A legal symbol is coded wherever there is room for its bits. -/
theorem Symbol.code_runs (x : SymCtx) (p : Nat) (y : Symbol) (hy : y.Legal) {e : Enc} (h : e.Good)
    (hroom : e.RoomFor (symbolBits x.dict x.phase e.lane p y)) : ∃ e', y.code x p e = .ok e' := by
  cases y with
  | lit =>
    rw [symbolBits_lit] at hroom
    obtain ⟨e₁, h₁, c₁⟩ := encodeBit_runs _ _ e h (Enc.RoomFor.left (ds := [_]) hroom)
    have hreps : e₁.lane.reps = e.lane.reps := by rw [c₁.lane]
    have hrest : Runs _ fun a => if e.lane.st.val < 7 then encodeTree _ 8 _ a else matchedLiteralFrom _ 8 _ _ _ a :=
      .ite (fun _ => encodeTree_runs (literalAt + 768 * litState x e.lane p) 8 _ (Memory.read x.dict p).isLt)
        fun _ => matchedLiteral_runs (literalAt + 768 * litState x e.lane p) _
          (matchedByte x p e.lane.reps.rep0.toNat).toNat (Memory.read x.dict p).isLt (BitVec.isLt _)
    obtain ⟨e₂, h₂, -⟩ := hrest e₁ c₁.good (c₁.roomFor hroom)
    refine ⟨e₂.setSt (literalNext e.lane.st), (bind_ok _ _ _).mpr ⟨e₁, h₁, ?_⟩⟩
    rw [← hreps] at h₂
    dsimp only at h₂ ⊢
    split at h₂
    · next h7 =>
      rw [if_pos h7]
      exact (bind_ok _ _ _).mpr ⟨e₂, h₂, rfl⟩
    · next h7 =>
      rw [if_neg h7]
      exact (bind_ok _ _ _).mpr ⟨e₂, h₂, rfl⟩
  | shortRep =>
    refine ((encodeBit_runs _ _).answers <| (encodeBit_runs _ _).answers <| (encodeBit_runs _ _).answers <|
      (encodeBit_runs _ _).answers <| .update fun a => a.setSt (shortRepNext e.lane.st)) e h ?_
    simpa only [symbolBits, isMatchAt, Nat.zero_add, posState, isRepAt, isRepG0At, isRep0LongAt, List.cons_append, List.nil_append] using hroom
  | mtch n dist =>
    obtain ⟨hn2, hn, hd⟩ := hy
    refine ((encodeBit_runs _ _).answers <| (encodeBit_runs _ _).answers <| (encodeLen_runs _ _ (by omega)).answers <|
      (encodeDist_runs n hd).answers <|
      .update fun a => (a.setReps (a.lane.reps.push (BitVec.ofNat 32 dist))).setSt (matchNext e.lane.st)) e h ?_
    simpa only [symbolBits, isMatchAt, Nat.zero_add, posState, isRepAt, lenEncAt, List.append_nil, List.cons_append,
      List.nil_append] using hroom
  | rep n r =>
    obtain ⟨hn2, hn, -⟩ := hy
    have hlen : Answers _ fun a => encodeLen repLenEncAt (n - 2) (posState x e.lane p) a >>= fun a =>
        .ok (a.setSt (repNext e.lane.st)) := (encodeLen_runs _ _ (by omega)).answers (.update _)
    refine ((encodeBit_runs _ _).answers <| (encodeBit_runs _ _).answers <| (encodeRepIndex_runs _ r _).answers <|
      hlen.setReps fun a => a.lane.reps.toFront r) e h ?_
    simpa only [symbolBits, isMatchAt, Nat.zero_add, posState, isRepAt, repLenEncAt, List.append_nil, List.cons_append,
      List.nil_append] using hroom

/-! ## How many shifts a symbol makes (R257) -/

/-- What holds of a healthy coder's numbers: the range is normalised and every word in range. -/
structure Normal (c : CodedNumber × (Nat → Nat)) : Prop where
  range : 2 ^ 24 ≤ c.1.range
  words : ∀ j, 31 ≤ c.2 j ∧ c.2 j ≤ 2017

theorem Enc.Good.normal {e : Enc} (h : e.Good) : Normal (e.coded, wordsOf e.lane.prob) := ⟨h.healthy.1, h.inRange.read⟩

theorem CodedNumber.renormalised_range {c : CodedNumber} (h : 2 ^ 16 ≤ c.range) : 2 ^ 24 ≤ c.renormalised.range := by
  unfold CodedNumber.renormalised
  split
  · change 2 ^ 24 ≤ c.range * 256
    omega
  · omega

theorem Normal.move {c : CodedNumber × (Nat → Nat)} (h : Normal c) (d : Decision) : Normal (Decision.move c d) := by
  obtain ⟨hrange, hwords⟩ := h
  cases d with
  | word i b =>
    obtain ⟨hlo, hhi⟩ := hwords i
    have hmin : c.1.range / 2 ^ 11 * 31 ≤ c.1.range / 2 ^ 11 * c.2 i := Nat.mul_le_mul_left _ hlo
    have hmax : c.1.range / 2 ^ 11 * c.2 i ≤ c.1.range / 2 ^ 11 * 2017 := Nat.mul_le_mul_left _ hhi
    refine ⟨?_, fun j => ?_⟩
    · cases b with
      | false =>
        refine CodedNumber.renormalised_range (c := { c.1 with range := c.1.range / 2 ^ 11 * c.2 i }) ?_
        change 2 ^ 16 ≤ c.1.range / 2 ^ 11 * c.2 i
        omega
      | true =>
        refine CodedNumber.renormalised_range (c := { c.1 with
          range := c.1.range - c.1.range / 2 ^ 11 * c.2 i, value := c.1.value + c.1.range / 2 ^ 11 * c.2 i }) ?_
        change 2 ^ 16 ≤ c.1.range - c.1.range / 2 ^ 11 * c.2 i
        omega
    · change 31 ≤ (if j = i then adapted (c.2 i) b else c.2 j) ∧ (if j = i then adapted (c.2 i) b else c.2 j) ≤ 2017
      split
      · exact adapted_inRange _ b ⟨hlo, hhi⟩
      · exact hwords j
  | direct b =>
    refine ⟨CodedNumber.renormalised_range (c := { c.1 with
      range := c.1.range / 2, value := if b then c.1.value + c.1.range / 2 else c.1.value }) ?_, hwords⟩
    change 2 ^ 16 ≤ c.1.range / 2
    omega

theorem Normal.decided {c : CodedNumber × (Nat → Nat)} (h : Normal c) (ds : List Decision) : Normal (decided c ds) := by
  induction ds generalizing c with
  | nil => exact h
  | cons d ds ih => exact ih (h.move d)

theorem treeBits_length (base n s : Nat) : (treeBits base n s).length = n := by simp [treeBits]

theorem treeRevBits_length (base n s : Nat) : (treeRevBits base n s).length = n := by simp [treeRevBits]

theorem lenBits_length_le (base l ps : Nat) : (lenBits base l ps).length ≤ 10 := by
  unfold lenBits
  split
  · simp [treeBits_length]
  · split <;> simp [treeBits_length]

/-- A distance makes at most fourteen shifts: six in its slot, and then five, or four for the direct bits and four. -/
theorem distBits_shifts {c : CodedNumber × (Nat → Nat)} (h : Normal c) (len : Nat) {dist : Nat} (hd : dist < 2 ^ 32) :
    (decided c (distBits dist len)).1.shifts ≤ c.1.shifts + 14 := by
  have hslot := slotOf_lt dist hd
  unfold distBits
  rw [decided_append]
  have htree := (decided_shifts (treeBits (432 + 64 * min (len - 2) 3) 6 (slotOf dist)) c).2
  have hnormal := h.decided (treeBits (432 + 64 * min (len - 2) 3) 6 (slotOf dist))
  rw [treeBits_length] at htree
  generalize decided c _ = c' at htree hnormal
  generalize slotOf dist = s at hslot
  obtain ⟨fb, hfb⟩ : ∃ fb, s / 2 - 1 = fb := ⟨_, rfl⟩
  rw [hfb]
  generalize (2 + s % 2) * 2 ^ fb = base
  split
  · exact htree.trans (by omega)
  · split
    · have hfooter := (decided_shifts (treeRevBits (688 + base - s - 1) fb (dist - base)) c').2
      rw [treeRevBits_length] at hfooter
      omega
    · rw [decided_append]
      have hdirect : (decided c' (directBits ((dist - base) / 16) (fb - 4))).1.shifts ≤ c'.1.shifts + (fb - 4 + 7 - 0) / 8 :=
        directBits_shifts _ _ c'.1 c'.2 0 (Nat.zero_le 7) hnormal.range
      have halign := (decided_shifts (treeRevBits 802 4 ((dist - base) % 16))
        (decided c' (directBits ((dist - base) / 16) (fb - 4)))).2
      rw [treeRevBits_length] at halign
      omega

/-- The most shifts that a symbol makes. -/
def Symbol.maxShifts : Symbol → Nat
  | .lit => 9
  | .shortRep => 4
  | .mtch _ _ => 26
  | .rep _ _ => 15

theorem Symbol.maxShifts_le (y : Symbol) : y.maxShifts ≤ 26 := by cases y <;> simp [Symbol.maxShifts]

theorem symbolBits_shifts {c : CodedNumber × (Nat → Nat)} (h : Normal c) (dict : Memory) (phase : Nat) (l : Lane) (p : Nat)
    {y : Symbol} (hy : y.Legal) : (decided c (symbolBits dict phase l p y)).1.shifts ≤ c.1.shifts + y.maxShifts := by
  have hlength (ds : List Decision) (n : Nat) (hn : ds.length ≤ n) : (decided c ds).1.shifts ≤ c.1.shifts + n :=
    (decided_shifts ds c).2.trans (Nat.add_le_add_left hn _)
  cases y with
  | lit =>
    refine hlength _ _ ?_
    simp only [symbolBits]
    split <;> simp [treeBits_length, matchedBits, Symbol.maxShifts]
  | shortRep => exact hlength _ _ (Nat.le_refl 4)
  | mtch n dist =>
    obtain ⟨-, -, hd⟩ := hy
    simp only [symbolBits, decided_append]
    refine (distBits_shifts ((h.decided _).decided _) n hd).trans ?_
    rw [← decided_append]
    refine Nat.add_le_add_right (hlength _ 12 ?_) 14
    rw [List.length_append]
    exact Nat.add_le_add_left (lenBits_length_le _ _ _) 2
  | rep n r =>
    refine hlength _ _ ?_
    have := lenBits_length_le 1332 (n - 2) ((phase + p) % 2 ^ l.pb.toNat)
    simp only [symbolBits, List.length_append, Symbol.maxShifts]
    split
    · simp only [List.length_cons, List.length_nil]
      omega
    · split
      · simp only [List.length_cons, List.length_nil]
        omega
      · simp only [List.length_cons, List.length_nil]
        omega

/-! ## Which words a symbol uses (R212) -/

/-- All the words that the decisions use lie in `lo .. hi - 1`. -/
def UsesWithin (lo hi : Nat) (ds : List Decision) : Prop := ∀ i b, .word i b ∈ ds → lo ≤ i ∧ i < hi

namespace UsesWithin

variable {lo hi : Nat} {ds ds' : List Decision}

theorem nil : UsesWithin lo hi [] := fun _ _ h => absurd h List.not_mem_nil

theorem cons {i : Nat} {b : Bool} (hi' : lo ≤ i ∧ i < hi) (h : UsesWithin lo hi ds) :
    UsesWithin lo hi (.word i b :: ds) := by
  intro j b' hj
  rcases List.mem_cons.mp hj with hj | hj
  · injection hj with hj
    exact hj ▸ hi'
  · exact h j b' hj

theorem append (h : UsesWithin lo hi ds) (h' : UsesWithin lo hi ds') : UsesWithin lo hi (ds ++ ds') := fun i b hi =>
  (List.mem_append.mp hi).elim (h i b) (h' i b)

theorem mono {lo' hi' : Nat} (h : UsesWithin lo hi ds) (hlo : lo' ≤ lo) (hhi : hi ≤ hi') : UsesWithin lo' hi' ds :=
  fun i b hi => ⟨hlo.trans (h i b hi).1, (h i b hi).2.trans_le hhi⟩

/-- The words of a path, one on each level of a tree. -/
theorem levels (base n : Nat) (node : Nat → Nat) (bit : Nat → Bool)
    (h : ∀ d < n, 2 ^ d ≤ node d ∧ node d < 2 ^ (d + 1)) :
    UsesWithin (base + 1) (base + 2 ^ n) ((List.range n).map fun d => .word (base + node d) (bit d)) := by
  intro i b hi
  obtain ⟨d, hd, heq⟩ := List.mem_map.mp hi
  injection heq with heq
  obtain ⟨hlo, hhi⟩ := h d (List.mem_range.mp hd)
  have h1 : 1 ≤ 2 ^ d := Nat.one_le_two_pow
  have h2 : 2 ^ (d + 1) ≤ 2 ^ n := Nat.pow_le_pow_right (by decide) (List.mem_range.mp hd)
  omega

theorem treeBits (base n s : Nat) (hs : s < 2 ^ n) : UsesWithin (base + 1) (base + 2 ^ n) (treeBits base n s) :=
  .levels base n _ _ fun d hd => treeNode_level n s hs d hd

theorem treeRevBits (base n s : Nat) : UsesWithin (base + 1) (base + 2 ^ n) (treeRevBits base n s) :=
  .levels base n _ _ fun d _ => treeRevNode_level s d

theorem directBits (v n : Nat) : UsesWithin lo hi (directBits v n) := by
  intro i b hi
  obtain ⟨d, -, heq⟩ := List.mem_map.mp hi
  cases heq

theorem lenBits (base : Nat) {l ps : Nat} (hl : l ≤ 271) (hps : ps < 16) : UsesWithin base (base + 514) (lenBits base l ps) := by
  unfold Machine.lenBits
  split
  · next h =>
    exact .cons (by omega) ((UsesWithin.treeBits (base + 2 + 8 * ps) 3 l h).mono (by omega) (by omega))
  · split
    · exact .cons (by omega) <| .cons (by omega) <|
        (UsesWithin.treeBits (base + 130 + 8 * ps) 3 (l - 8) (by omega)).mono (by omega) (by omega)
    · exact .cons (by omega) <| .cons (by omega) <|
        (UsesWithin.treeBits (base + 258) 8 (l - 16) (by omega)).mono (by omega) (by omega)

/-- The footer of a slot with fewer than six footer bits lies among the special words. -/
theorem slotFooter_within : ∀ s < 14, 4 ≤ s → 432 ≤ 688 + (2 + s % 2) * 2 ^ (s / 2 - 1) - s - 1 + 1
    ∧ 688 + (2 + s % 2) * 2 ^ (s / 2 - 1) - s - 1 + 2 ^ (s / 2 - 1) ≤ 818 := by decide

theorem distBits (len : Nat) {dist : Nat} (hd : dist < 2 ^ 32) : UsesWithin 432 818 (distBits dist len) := by
  have hslot := slotOf_lt dist hd
  unfold Machine.distBits
  refine .append ((UsesWithin.treeBits (432 + 64 * min (len - 2) 3) 6 _ hslot).mono (by omega) (by omega)) ?_
  split
  · exact .nil
  · next h4 =>
    split
    · next h14 =>
      obtain ⟨hlo, hhi⟩ := slotFooter_within _ h14 (Nat.not_lt.mp h4)
      exact (UsesWithin.treeRevBits _ _ _).mono hlo hhi
    · exact .append (.directBits _ _) ((UsesWithin.treeRevBits 802 4 _).mono (by decide) (by decide))

theorem matchedBits (base mb : Nat) {c : Nat} (hc : c < 256) : UsesWithin base (base + 768) (matchedBits base c mb) := by
  intro i b hi
  obtain ⟨d, hd, heq⟩ := List.mem_map.mp hi
  injection heq with heq
  have hd : d < 8 := List.mem_range.mp hd
  have hnode := (treeNode_level 8 c hc d hd).2
  have h8 : 2 ^ (d + 1) ≤ 2 ^ 8 := Nat.pow_le_pow_right (by decide) hd
  have hbit := Nat.mod_lt (mb / 2 ^ (7 - d)) (show 0 < 2 by decide)
  subst heq
  split <;> omega

/-- A word outside is left as it was. -/
theorem decided_outside (h : UsesWithin lo hi ds) (c : CodedNumber × (Nat → Nat)) {j : Nat} (hj : j < lo ∨ hi ≤ j) :
    (decided c ds).2 j = c.2 j :=
  decided_other c ds j fun i b hi hji => by
    have := h i b hi
    omega

/-- A word used first, and not again, adapts to its bit. -/
theorem decided_first (h : UsesWithin lo hi ds) (c : CodedNumber × (Nat → Nat)) {j : Nat} (b : Bool) (hj : j < lo ∨ hi ≤ j) :
    (decided c (.word j b :: ds)).2 j = adapted (c.2 j) b := by
  rw [decided_cons, h.decided_outside _ hj]
  exact if_pos rfl

end UsesWithin

end Sys2Proof.Machine
end

section
/-! PROOFS. The symbol commands (42_lzma_symbols.md R222 to R225): on a ready lane a symbol command codes its symbol's bits,
and moves `STATE`, the reps and `LANE_POS`. -/

namespace Sys2Proof.Machine

variable {s : State} {L k q : Nat} {l : Lane}

theorem Symbol.coding (x : SymCtx) (p : Nat) (y : Symbol) : Coding (y.code x p) := by
  cases y with
  | lit => exact .literal x p
  | shortRep => exact .shortRep x p
  | mtch n dist => exact .mtch x p n dist
  | rep n r => exact .rep x p n r

theorem Reps.list_injective {a b : Reps} (h : a.list = b.list) : a = b := by
  obtain ⟨a0, a1, a2, a3⟩ := a
  obtain ⟨b0, b1, b2, b3⟩ := b
  simpa [Reps.list] using h

/-- What a command leaves that codes the symbol `y` at `p` on its lane's window, and moves `LANE_POS` to `q`. -/
structure SymbolCoded (s : State) (L : Nat) (l : Lane) (p : Nat) (y : Symbol) (q : Nat) (t : State) (l' : Lane)
    (bytes : List Byte) : Prop where
  window  : WindowCoded s t L l l' bytes
  only    : SymbolOnly l l'
  healthy : l'.Healthy
  pos     : l'.pos.toNat = q
  state   : l'.st.val = y.stateAfter l.st.val
  reps    : l'.reps.list = y.repsAfter l.reps.list
  bits    : CodesBits l l' bytes (symbolBits s.dict s.cfg.posPhase l p y)

/-- A symbol command on a ready lane completes. -/
theorem symbol_completes {i : Instr} {p : Nat} {y : Symbol} (hm : s.MemoryOk) (hl : s.lanes[L]? = some l) (h : l.Ready s k)
    (hy : y.Legal) (hk : y.maxShifts ≤ k) (hq : q < 2 ^ 32)
    (hexec : ∀ e, y.code s.symCtx p l.windowEnc = .ok e →
      exec i s = .next (s.clearRes.commitWindow L (e.setPos q)).complete) :
    ∃ t l' bytes, exec i s = .next t ∧ SymbolCoded s L l p y q t l' bytes := by
  have hgood := h.good hm hl
  have hnormal : Normal (.ofLane l, wordsOf l.prob) := ⟨hgood.healthy.1, hgood.inRange.read⟩
  have hshifts := symbolBits_shifts hnormal s.dict s.cfg.posPhase l p hy
  have hroom : l.windowEnc.RoomFor (symbolBits s.dict s.cfg.posPhase l p y) :=
    h.roomFor (hshifts.trans (by simpa [CodedNumber.ofLane] using hk))
  obtain ⟨e, he⟩ := y.code_runs s.symCtx p hy hgood hroom
  obtain ⟨hgood', -, hmoved, hlane, hst, hreps⟩ := y.code_codes s.symCtx p hy l.windowEnc e hgood he
  obtain ⟨hbase, hlen, hfits⟩ := (y.coding s.symCtx p).window he
  have hlane : e.lane = { l with rc := e.lane.rc, prob := e.lane.prob, st := e.lane.st, reps := e.lane.reps } := hlane
  obtain ⟨-, hout, -⟩ := hm
  refine ⟨_, (e.setPos q).committed, e.bytes, hexec e he,
    ⟨commitWindow_windowCoded (e := e.setPos q) hout h.legal hbase hlen hfits, ?_, ⟨hgood'.healthy, hgood'.inRange, ?_⟩,
      ?_, hst, hreps, codesBits_of_coded l e _ hmoved⟩⟩
  · rw [Enc.committed, Enc.setPos_lane, hlane]
  · rw [Enc.committed, Enc.setPos_lane, hlane]
    exact h.healthy.2.2
  · exact (BitVec.toNat_ofNat ..).trans (Nat.mod_eq_of_lt hq)

/-! ## The words of a coded symbol (R212) -/

/-- A position state takes at most four bits. -/
theorem mod_two_pow_lt_sixteen (n : Nat) {pb : Nat} (hpb : pb ≤ 4) : n % 2 ^ pb < 16 :=
  (Nat.mod_lt _ (Nat.two_pow_pos pb)).trans_le (Nat.pow_le_pow_right (by decide) hpb)

namespace SymbolCoded

variable {t : State} {l' : Lane} {p : Nat} {y : Symbol} {bytes : List Byte} {lo hi : Nat} {ds : List Decision}

theorem words (h : SymbolCoded s L l p y q t l' bytes) (j : Nat) :
    (ProbMem.read l'.prob j).toNat = (decided (.ofLane l, wordsOf l.prob) (symbolBits s.dict s.cfg.posPhase l p y)).2 j :=
  h.bits.2 j

/-- A word that the symbol does not use stays. -/
theorem kept (h : SymbolCoded s L l p y q t l' bytes) {j : Nat}
    (hj : ∀ i b, .word i b ∈ symbolBits s.dict s.cfg.posPhase l p y → j ≠ i) : ProbMem.read l'.prob j = ProbMem.read l.prob j :=
  BitVec.eq_of_toNat_eq ((h.words j).trans (decided_other _ _ j hj))

theorem kept_outside (h : SymbolCoded s L l p y q t l' bytes) (huses : UsesWithin lo hi (symbolBits s.dict s.cfg.posPhase l p y))
    {j : Nat} (hj : j < lo ∨ hi ≤ j) : ProbMem.read l'.prob j = ProbMem.read l.prob j :=
  BitVec.eq_of_toNat_eq ((h.words j).trans (huses.decided_outside _ hj))

/-- The symbol's first word adapts to its bit if the rest of the symbol lies elsewhere. -/
theorem adapts_first (h : SymbolCoded s L l p y q t l' bytes) {j : Nat} {b : Bool}
    (hbits : symbolBits s.dict s.cfg.posPhase l p y = .word j b :: ds) (huses : UsesWithin lo hi ds) (hj : j < lo ∨ hi ≤ j) :
    (ProbMem.read l'.prob j).toNat = adapted (ProbMem.read l.prob j).toNat b := by
  rw [h.words, hbits, huses.decided_first _ _ hj]
  rfl

/-- The symbol's second word adapts to its bit if the rest of the symbol, and the first word, lie elsewhere. -/
theorem adapts_second (h : SymbolCoded s L l p y q t l' bytes) {i j : Nat} {a b : Bool}
    (hbits : symbolBits s.dict s.cfg.posPhase l p y = .word i a :: .word j b :: ds) (hij : j ≠ i) (huses : UsesWithin lo hi ds)
    (hj : j < lo ∨ hi ≤ j) : (ProbMem.read l'.prob j).toNat = adapted (ProbMem.read l.prob j).toNat b := by
  rw [h.words, hbits, decided_cons, huses.decided_first _ _ hj]
  exact congrArg (adapted · b) (if_neg hij)

/-- The registers are those of the list. -/
theorem reps_eq_of_list (h : SymbolCoded s L l p y q t l' bytes) {r : Reps} (hr : y.repsAfter l.reps.list = r.list) :
    l'.reps = r := Reps.list_injective (h.reps.trans hr)

end SymbolCoded

/-- The rep that a symbol names is the named register. -/
theorem Reps.getD_list (x : Reps) {r : Nat} (hr : r < 4) : x.list.getD r 0 = x.get r := by
  match r, hr with
  | 0, _ | 1, _ | 2, _ | 3, _ => rfl

/-! ## Each symbol's words -/

/-- After its flag, a literal uses the 768 words of its coder. -/
theorem usesWithin_literal (coder st mb : Nat) {c : Nat} (hc : c < 256) : UsesWithin coder (coder + 768)
    (if st < 7 then treeBits coder 8 c else matchedBits coder c mb) := by
  split
  · exact (UsesWithin.treeBits coder 8 c hc).mono (by omega) (by omega)
  · exact .matchedBits coder mb hc

/-- After its two flags, a match uses words of the distance and of the match length. -/
theorem usesWithin_mtch {len dist ps : Nat} (hlen : len ≤ 273) (hd : dist < 2 ^ 32) (hps : ps < 16) :
    UsesWithin 432 1332 (lenBits 818 (len - 2) ps ++ distBits dist len) :=
  .append ((UsesWithin.lenBits 818 (by omega) hps).mono (by decide) (by decide))
    ((UsesWithin.distBits len hd).mono (by decide) (by decide))

theorem usesWithin_shortRep {st ps : Nat} (hst : st < 12) (hps : ps < 16) : UsesWithin 0 432
    [.word (16 * st + ps) true, .word (192 + st) true, .word (204 + st) false, .word (240 + 16 * st + ps) false] :=
  .cons (by omega) <| .cons (by omega) <| .cons (by omega) <| .cons (by omega) .nil

theorem usesWithin_rep (r : Nat) {len st ps : Nat} (hlen : len ≤ 273) (hst : st < 12) (hps : ps < 16) : UsesWithin 0 1846
    ([.word (16 * st + ps) true, .word (192 + st) true]
      ++ (if r = 0 then [.word (204 + st) false, .word (240 + 16 * st + ps) true]
        else if r = 1 then [.word (204 + st) true, .word (216 + st) false]
        else [.word (204 + st) true, .word (216 + st) true, .word (228 + st) (decide (r = 3))])
      ++ lenBits 1332 (len - 2) ps) := by
  refine .append (.append (.cons (by omega) <| .cons (by omega) .nil) ?_)
    ((UsesWithin.lenBits 1332 (by omega) hps).mono (by decide) (by decide))
  split
  · exact .cons (by omega) <| .cons (by omega) .nil
  · split
    · exact .cons (by omega) <| .cons (by omega) .nil
    · exact .cons (by omega) <| .cons (by omega) <| .cons (by omega) .nil

/-! ## Each command's body -/

theorem exec_encLiteral (s : State) (L : Nat) : exec (.encLiteral L) s = conclude (.encLiteral L) s fun u =>
    u.symbolLane L >>= fun l => check (decide (u.args.arg0.toNat < u.cfg.blkEnd.toNat)) .invalidParameter >>= fun _ =>
      check (!(decide (7 ≤ l.st.val) && decide (u.args.arg0.toNat ≤ l.reps.rep0.toNat))) .invalidParameter >>= fun _ =>
        encodeLiteral u.symCtx u.args.arg0.toNat l.windowEnc >>= fun e =>
          .ok (u.commitWindow L (e.setPos (u.args.arg0.toNat + 1))) := rfl

theorem exec_encMatch (s : State) (L : Nat) : exec (.encMatch L) s = conclude (.encMatch L) s fun u =>
    u.symbolLane L >>= fun l => check (decide (matchLenMin ≤ u.args.arg1.toNat)
        && decide (u.args.arg1.toNat ≤ matchLenMax)) .invalidParameter >>= fun _ =>
      check (decide (u.args.arg0.toNat + u.args.arg1.toNat ≤ u.cfg.blkEnd.toNat)
          && decide (u.args.arg2.toNat < u.args.arg0.toNat)) .invalidParameter >>= fun _ =>
        encodeMatch u.symCtx u.args.arg0.toNat u.args.arg1.toNat u.args.arg2.toNat l.windowEnc >>= fun e =>
          .ok (u.commitWindow L (e.setPos (u.args.arg0.toNat + u.args.arg1.toNat))) := rfl

theorem exec_encRep (s : State) (L r : Nat) : exec (.encRep L r) s = conclude (.encRep L r) s fun u =>
    u.symbolLane L >>= fun l => check (decide (matchLenMin ≤ u.args.arg1.toNat)
        && decide (u.args.arg1.toNat ≤ matchLenMax)) .invalidParameter >>= fun _ =>
      check (decide (u.args.arg0.toNat + u.args.arg1.toNat ≤ u.cfg.blkEnd.toNat)
          && decide ((l.reps.get r).toNat < u.args.arg0.toNat)) .invalidParameter >>= fun _ =>
        encodeRep u.symCtx u.args.arg0.toNat u.args.arg1.toNat r l.windowEnc >>= fun e =>
          .ok (u.commitWindow L (e.setPos (u.args.arg0.toNat + u.args.arg1.toNat))) := rfl

theorem exec_encShortRep (s : State) (L : Nat) : exec (.encShortRep L) s = conclude (.encShortRep L) s fun u =>
    u.symbolLane L >>= fun l => check (decide (u.args.arg0.toNat < u.cfg.blkEnd.toNat)
        && decide (l.reps.rep0.toNat < u.args.arg0.toNat)) .invalidParameter >>= fun _ =>
      encodeShortRep u.symCtx u.args.arg0.toNat l.windowEnc >>= fun e =>
        .ok (u.commitWindow L (e.setPos (u.args.arg0.toNat + 1))) := rfl

/-- `check` of a condition that holds goes on. -/
theorem check_bind_ok {b : Bool} {c : Code} {f : Unit → Except Halt State} {t : State} (hb : b = true) (h : f () = .ok t) :
    (check b c >>= f) = .ok t := (bind_ok _ _ _).mpr ⟨(), (check_ok _ _ _).mpr hb, h⟩

theorem check_both_bind_ok {P Q : Prop} [Decidable P] [Decidable Q] {c : Code} {f : Unit → Except Halt State} {t : State}
    (hp : P) (hq : Q) (h : f () = .ok t) : (check (decide P && decide Q) c >>= f) = .ok t :=
  check_bind_ok ((Bool.and_eq_true _ _).mpr ⟨decide_eq_true hp, decide_eq_true hq⟩) h

/-- The lane that a symbol command codes on is found. -/
theorem symbolLane_bind_ok (hl : s.lanes[L]? = some l) (h : l.Ready s k) (hinit : l.init = true)
    (hblk : s.cfg.blkEnd.toNat ≤ s.params.dictCap.toNat) {f : Lane → Except Halt State} {t : State} (hf : f l = .ok t) :
    (s.clearRes.symbolLane L >>= f) = .ok t :=
  (bind_ok _ _ _).mpr ⟨l, (symbolLane_ok s.clearRes L l).mpr ⟨hl, h.legal, hinit, hblk⟩, hf⟩

end Sys2Proof.Machine

open Sys2Proof Sys2Proof.Machine

/-- Settles O47: the literal's flag is a word before every literal coder, and its eight bits use words of one coder. -/
theorem encLiteralResult : Obligations.EncLiteralResult := by
  intro s L l p hm hl h hinit hblk hp hrep spos prev flag coder
  have hguard : (!(decide (7 ≤ l.st.val) && decide (p ≤ l.reps.rep0.toNat))) = true := by
    simp only [Bool.not_eq_true', Bool.and_eq_false_iff, decide_eq_false_iff_not]
    omega
  obtain ⟨t, l', bytes, ht, hcoded⟩ := symbol_completes (i := .encLiteral L) (p := p) (y := .lit) (q := p + 1) hm hl h trivial
    (Nat.le_refl 9) (by omega) fun e he => (exec_encLiteral s L).trans <| conclude_ok _ s _ _ <|
      symbolLane_bind_ok hl h hinit hblk <| check_bind_ok (decide_eq_true hp) <| check_bind_ok hguard <|
        (bind_ok _ _ _).mpr ⟨e, he, rfl⟩
  have hrest := usesWithin_literal coder l.st.val (if l.reps.rep0.toNat < p then byteAt s.dict (p - (l.reps.rep0.toNat + 1))
    else (Config.byteBeforeDict (Memory.readBytes s.dict 0 (p + 1)) p l.reps.rep0.toNat).toNat) (Memory.read s.dict p).isLt
  have hflag : flag < coder := by
    have hst := l.st.isLt
    have hps : spos % 2 ^ l.pb.toNat < 128 :=
      (Nat.mod_lt _ (Nat.two_pow_pos _)).trans_le (Nat.pow_le_pow_right (n := 2) (j := 7) (by decide) (by omega))
    omega
  refine ⟨t, l', bytes, ht, hcoded.window, hcoded.only, hcoded.healthy, hcoded.pos, hcoded.state,
    hcoded.reps_eq_of_list rfl, hcoded.adapts_first rfl hrest (.inl hflag), fun j hj hout => hcoded.kept ?_, hcoded.bits⟩
  intro i b hi
  rcases List.mem_cons.mp hi with hi | hi
  · injection hi with hi
    exact hi ▸ hj
  · have := hrest i b hi
    omega

/-- Settles O48: past its two flags, the match uses words of the distance and the match length, which follow the flags. -/
theorem encMatchResult : Obligations.EncMatchResult := by
  intro s L l p len dist hm hl h hinit hblk hlen hlen' hend hdist flag
  obtain ⟨t, l', bytes, ht, hcoded⟩ := symbol_completes (i := .encMatch L) (p := p) (y := .mtch len dist.toNat) (q := p + len)
    hm hl h ⟨hlen, hlen', dist.isLt⟩ (Nat.le_refl 26) (by omega) fun e he => (exec_encMatch s L).trans <| conclude_ok _ s _ _ <|
      symbolLane_bind_ok hl h hinit hblk <| check_both_bind_ok hlen hlen' <|
        check_both_bind_ok hend hdist <| (bind_ok _ _ _).mpr ⟨e, he, rfl⟩
  refine ⟨t, l', bytes, ht, hcoded.window, hcoded.only, hcoded.healthy, hcoded.pos, hcoded.state,
    hcoded.reps_eq_of_list ?_, fun hpb => ?_, hcoded.bits⟩
  · simp [Symbol.repsAfter, Reps.list]
  · have hst := l.st.isLt
    have hps := mod_two_pow_lt_sixteen (s.cfg.posPhase + p) hpb
    have hrest := usesWithin_mtch hlen' dist.isLt hps
    have hsecond : UsesWithin 192 1332 (.word (192 + l.st.val) false :: _) :=
      .cons (by omega) (hrest.mono (by decide) (Nat.le_refl _))
    have hall : UsesWithin 0 1332 (.word flag true :: _) := .cons (by omega) (hsecond.mono (Nat.zero_le _) (Nat.le_refl _))
    exact ⟨hcoded.adapts_first rfl hsecond (.inl (by omega)), hcoded.adapts_second rfl (by omega) hrest (.inl (by omega)),
      fun j hj => hcoded.kept_outside hall (.inr hj)⟩

/-- Settles O49: the rep flags and the rep length come before the literal coders. -/
theorem encRepResult : Obligations.EncRepResult := by
  intro s L r l p len hm hl h hinit hblk
  have hst := l.st.isLt
  refine ⟨fun hlen hlen' hend hr hdist => ?_, fun hp hrep => ?_⟩
  · obtain ⟨t, l', bytes, ht, hcoded⟩ := symbol_completes (i := .encRep L r) (p := p) (y := .rep len r) (q := p + len)
      hm hl h ⟨hlen, hlen', hr⟩ (Nat.le_succ 15) (by omega) fun e he => (exec_encRep s L r).trans <| conclude_ok _ s _ _ <|
        symbolLane_bind_ok hl h hinit hblk <| check_both_bind_ok hlen hlen' <|
          check_both_bind_ok hend hdist <| (bind_ok _ _ _).mpr ⟨e, he, rfl⟩
    refine ⟨t, l', bytes, ht, hcoded.window, hcoded.only, hcoded.healthy, hcoded.pos, hcoded.state, hcoded.reps.trans ?_,
      fun hpb j hj => hcoded.kept_outside (usesWithin_rep r hlen' hst (mod_two_pow_lt_sixteen _ hpb)) (.inr hj), hcoded.bits⟩
    exact congrArg (· :: _) (l.reps.getD_list hr)
  · obtain ⟨t, l', bytes, ht, hcoded⟩ := symbol_completes (i := .encShortRep L) (p := p) (y := .shortRep) (q := p + 1)
      hm hl h trivial (by decide) (by omega) fun e he => (exec_encShortRep s L).trans <| conclude_ok _ s _ _ <|
        symbolLane_bind_ok hl h hinit hblk <| check_both_bind_ok hp hrep <|
          (bind_ok _ _ _).mpr ⟨e, he, rfl⟩
    exact ⟨t, l', bytes, ht, hcoded.window, hcoded.only, hcoded.healthy, hcoded.pos, hcoded.state, hcoded.reps_eq_of_list rfl,
      fun hpb j hj => hcoded.kept_outside (usesWithin_shortRep hst (mod_two_pow_lt_sixteen _ hpb)) (.inr hj), hcoded.bits⟩

end

section
/-! SUPPORT. What holds of the coder along a chunk's parse, and that its symbols are true copies (43_parse.md R251 to R259). -/

namespace Sys2Proof.Machine

variable {x : ParseCtx} {reps : Reps} {p p' m : Nat} {c : Cand} {e e' : Enc} {y : Symbol} {ys : List Symbol}

/-! ## The budget (R257) -/

/-- A chunk's coder at work: what coding needs, and room in the payload for a flush. -/
structure Enc.InBudget (x : ParseCtx) (e : Enc) : Prop where
  good   : e.Good
  budget : e.rev.length + e.lane.rc.cacheSize.toNat + 4 ≤ x.cMax

/-- A symbol coded after its budget check leaves room for a flush: it adds at most 26 bytes. -/
theorem Enc.InBudget.symbol (h : e.InBudget x) (hb : HasBudget x e) (hy : y.Legal) (hcode : y.code x.sym p e = .ok e') :
    e'.InBudget x := by
  obtain ⟨hgood, -, hmoved, -⟩ := y.code_codes x.sym p hy e e' h.good hcode
  have hshifts := symbolBits_shifts h.good.normal x.sym.dict x.sym.phase e.lane p hy
  rw [← hmoved] at hshifts
  have hshifts : e'.rev.length + e'.lane.rc.cacheSize.toNat ≤ e.rev.length + e.lane.rc.cacheSize.toNat + 26 :=
    hshifts.trans (Nat.add_le_add_left y.maxShifts_le _)
  unfold HasBudget at hb
  exact ⟨hgood, by omega⟩

theorem IsSingle.legal (h : IsSingle x e p y) : y.Legal := by
  rcases h with ⟨-, rfl⟩ | ⟨-, rfl⟩ <;> trivial

theorem SinglesRun.inBudget (h : SinglesRun x m p e ys p' e') (he : e.InBudget x) : e'.InBudget x := by
  induction h with
  | done | spent => exact he
  | one p p' e e₁ e' y ys _ hb hy hcode _ ih => exact ih (he.symbol hb hy.legal hcode)

theorem ParseRun.inBudget (hlim : x.ulim ≤ 2 ^ 32) (h : ParseRun x p e ys p' e') (he : e.InBudget x) : e'.InBudget x := by
  induction h with
  | done | spent => exact he
  | single p p' e e₁ e' y ys _ _ hb hy hcode _ ih => exact ih (he.symbol hb hy.legal hcode)
  | cut p m p' e e' c c' ys _ _ _ hrun _ => exact hrun.inBudget he
  | cand p m p' e e₁ e₂ e' c c' ys zs _ hc hs hrun hb hcode _ ih =>
    obtain ⟨-, _, hc'⟩ := hs.choice hc
    exact ih ((hrun.inBudget he).symbol hb (hc'.legal hlim) hcode)

/-! ## True copies (R175, R187, R188, R252, R256) -/

/-- The bytes at `p` repeat those `dist + 1` before, `n` of them. -/
def Copies (d : Memory) (p dist n : Nat) : Prop :=
  dist < p ∧ ∀ i < n, Memory.read d (p + i) = Memory.read d (p - (dist + 1) + i)

/-- Every match candidate is a true copy. -/
def ParseCtx.TellsCopies (x : ParseCtx) : Prop :=
  ∀ (q : Query) (p n dist : Nat), IsMatchCand x q p (some (n, dist)) → Copies x.sym.dict p dist n

/-- The slots of a table under contract name true copies, and a slot at the cap is extended by comparing (R187). -/
theorem getMatch_copies {s : State} (hs : s.TableContract) (hvalid : s.table.valid = true) {n : Nat} (h2 : 2 ≤ n)
    (hend : p + n ≤ s.table.fin.toNat) (hn : n ≤ (getMatch s.table s.dict p).1) :
    Copies s.dict p (getMatch s.table s.dict p).2 n := by
  obtain ⟨-, htable⟩ := hs
  obtain ⟨-, -, -, -, -, hslots⟩ := htable hvalid
  have hslot := hslots p (by omega)
  unfold getMatch at hn ⊢
  cases hentry : s.table.slot p with
  | null =>
    rw [hentry] at hn
    exact absurd (h2.trans hn) (Nat.not_succ_le_zero 1)
  | entry q len =>
    rw [hentry] at hslot hn
    obtain ⟨hlink, -, -, ⟨hlen, hagree⟩, -⟩ := hslot
    rw [Memory.readBytes_length] at hlen
    refine ⟨by dsimp only; omega, fun i hi => ?_⟩
    have hback : p - (p - q - 1 + 1) = q := by omega
    dsimp only at hn ⊢
    rw [hback]
    by_cases hin : i < len
    · have hbytes := hagree i hin
      rw [Memory.readBytes_getElem _ _ _ _ (by omega), Memory.readBytes_getElem _ _ _ _ (by omega)] at hbytes
      simpa using hbytes
    · split at hn
      · obtain ⟨-, hrun, -⟩ := runLen_isRunLen s.dict (min matchLenMax (s.table.fin.toNat - p) - len) (p + len) (q + len)
        have hbytes := hrun (i - len) (by omega)
        rwa [Nat.add_assoc, Nat.add_assoc, Nat.add_sub_of_le (Nat.not_lt.mp hin)] at hbytes
      · exact absurd (hi.trans_le hn) hin

/-- Under the table's contract, and below its end, candidates are true copies. -/
theorem State.TableContract.tellsCopies {s : State} (hs : s.TableContract) (hvalid : s.table.valid = true) {ulim : Nat}
    (hlim : ulim ≤ s.table.fin.toNat) : (s.parseCtx ulim).TellsCopies := by
  intro q p n dist h
  obtain ⟨h2, hlong, hn, rfl⟩ := h.eq
  have hend : p + n ≤ ulim := by
    have : n ≤ min 273 (ulim - p) := hlong
    omega
  cases q with
  | getMatch => exact getMatch_copies hs hvalid h2 (hend.trans hlim) hn
  | getNextMatch =>
    change n ≤ (getNextMatch s.table s.dict p).1 at hn
    change Copies s.dict p (getNextMatch s.table s.dict p).2 n
    unfold getNextMatch at hn ⊢
    split at hn
    · exact absurd (h2.trans hn) (by decide)
    · next hdiff =>
      rw [if_neg hdiff]
      exact getMatch_copies hs hvalid h2 (hend.trans hlim) hn

/-! ## The symbols of a run spell its positions -/

/-- The reps after a symbol, as registers. -/
def Symbol.repsNext (reps : Reps) : Symbol → Reps
  | .lit | .shortRep => reps
  | .mtch _ dist => reps.push (BitVec.ofNat 32 dist)
  | .rep _ r => reps.toFront r

theorem Symbol.code_reps (x : SymCtx) (p : Nat) {y : Symbol} (hy : y.Legal) {e e' : Enc} (h : e.Good)
    (hcode : y.code x p e = .ok e') : e'.lane.reps = y.repsNext e.lane.reps := by
  obtain ⟨-, -, -, -, -, hlist⟩ := y.code_codes x p hy e e' h hcode
  refine Reps.list_injective (hlist.trans ?_)
  cases y with
  | lit | shortRep | mtch n dist => rfl
  | rep n r =>
    obtain ⟨-, -, hr⟩ := hy
    match r, hr with
    | 0, _ | 1, _ | 2, _ | 3, _ => rfl

/-- A single leaves the reps, and extends what the symbols after it spell. -/
theorem IsSingle.spells (h : IsSingle x e p y) :
    y.repsNext e.lane.reps = e.lane.reps ∧ ∀ zs pend, Spells x.sym.dict e.lane.reps (p + 1) zs pend →
      Spells x.sym.dict e.lane.reps p (y :: zs) pend := by
  rcases h with ⟨⟨hdist, hbyte⟩, rfl⟩ | ⟨-, rfl⟩
  · exact ⟨rfl, fun zs pend hz => ⟨hdist, hbyte, hz⟩⟩
  · exact ⟨rfl, fun zs pend hz => hz⟩

/-- A candidate extends what the symbols after it spell, with the reps that it leaves. -/
theorem IsChoice.spells (hx : x.TellsCopies) {q : Query} (h : IsChoice x reps q p (some c)) {zs : List Symbol} {pend : Nat}
    (hz : Spells x.sym.dict (c.symbol.repsNext reps) (p + c.len) zs pend) :
    Spells x.sym.dict reps p (c.symbol :: zs) pend := by
  obtain ⟨h2, hlong⟩ := h.len_bounds
  have h273 := hlong.trans (Nat.min_le_left 273 (x.ulim - p))
  rcases h.cases with ⟨n, dist, rfl, hm⟩ | ⟨n, r, rfl, hr, -, hrep, -⟩
  · obtain ⟨hdist, hbytes⟩ := hx q p n dist hm
    exact ⟨h2, h273, hdist, hbytes, hz⟩
  · obtain ⟨-, hdist, hbytes⟩ := hrep.copies h2
    exact ⟨h2, h273, hr, hdist, hbytes, hz⟩

/-- Singles leave the reps, and extend what the symbols after them spell. -/
theorem SinglesRun.spells (h : SinglesRun x m p e ys p' e') (he : e.InBudget x) :
    e'.lane.reps = e.lane.reps ∧ ∀ zs pend, Spells x.sym.dict e.lane.reps p' zs pend →
      Spells x.sym.dict e.lane.reps p (ys ++ zs) pend := by
  induction h with
  | done | spent => exact ⟨rfl, fun _ _ hz => hz⟩
  | one p p' e e₁ e' y ys _ hb hy hcode _ ih =>
    obtain ⟨hkeeps, hextends⟩ := hy.spells
    have hreps : e₁.lane.reps = e.lane.reps := (Symbol.code_reps x.sym p hy.legal he.good hcode).trans hkeeps
    obtain ⟨hreps', hrest⟩ := ih (he.symbol hb hy.legal hcode)
    rw [hreps] at hreps' hrest
    exact ⟨hreps', fun zs pend hz => hextends _ _ (hrest zs pend hz)⟩

/-- The symbols of a run whose candidates are true copies spell the positions it covers. -/
theorem ParseRun.spells (hx : x.TellsCopies) (hlim : x.ulim ≤ 2 ^ 32) (h : ParseRun x p e ys p' e') (he : e.InBudget x) :
    Spells x.sym.dict e.lane.reps p ys p' := by
  induction h with
  | done | spent => exact rfl
  | single p p' e e₁ e' y ys _ _ hb hy hcode _ ih =>
    obtain ⟨hkeeps, hextends⟩ := hy.spells
    have hrest := ih (he.symbol hb hy.legal hcode)
    rw [Symbol.code_reps x.sym p hy.legal he.good hcode, hkeeps] at hrest
    exact hextends _ _ hrest
  | cut p m p' e e' c c' ys _ _ _ hrun _ =>
    obtain ⟨-, hextends⟩ := hrun.spells he
    have hall := hextends [] p' rfl
    rwa [List.append_nil] at hall
  | cand p m p' e e₁ e₂ e' c c' ys zs _ hc hs hrun hb hcode _ ih =>
    obtain ⟨-, _, hc'⟩ := hs.choice hc
    have he₁ := hrun.inBudget he
    obtain ⟨hreps, hextends⟩ := hrun.spells he
    have hrest := ih (he₁.symbol hb (hc'.legal hlim) hcode)
    rw [Symbol.code_reps x.sym m (hc'.legal hlim) he₁.good hcode, hreps] at hrest
    exact hextends _ _ (hc'.spells hx hrest)

end Sys2Proof.Machine
end

section
/-! SUPPORT. The bytes of a chunk as they lie in a memory: the header of a compressed chunk and the stored chunks
(44_lzma2_stream.md R280, R283, R288). -/

namespace Sys2Proof.Machine

/-! ## Bytes in a memory -/

/-- `m` holds `bytes` from `a` on. -/
def Memory.Holds (m : Memory) (a : Nat) (bytes : List Byte) : Prop := Memory.readBytes m a bytes.length = bytes

theorem Memory.readBytes_add (m : Memory) (a n k : Nat) :
    Memory.readBytes m a (n + k) = Memory.readBytes m a n ++ Memory.readBytes m (a + n) k := by
  simp [Memory.readBytes, List.range_add, Nat.add_assoc]

theorem Memory.holds_append (m : Memory) (a : Nat) (xs ys : List Byte) :
    m.Holds a (xs ++ ys) ↔ m.Holds a xs ∧ m.Holds (a + xs.length) ys := by
  unfold Memory.Holds
  rw [List.length_append, Memory.readBytes_add]
  exact ⟨fun h => List.append_inj h (Memory.readBytes_length ..), fun ⟨hx, hy⟩ => hx.symm ▸ hy.symm ▸ rfl⟩

theorem Memory.holds_cons (m : Memory) (a : Nat) (b : Byte) (bs : List Byte) :
    m.Holds a (b :: bs) ↔ Memory.read m a = b ∧ m.Holds (a + 1) bs := by
  have hone : m.Holds a [b] ↔ Memory.read m a = b := by
    simp [Memory.Holds, Memory.readBytes]
  rw [← hone]
  exact m.holds_append a [b] bs

/-- The number that a header byte spells. -/
theorem byteAt_of_read {m : Memory} {a n : Nat} (h : Memory.read m a = byteOf n) (hn : n < 256) : byteAt m a = n := by
  unfold byteAt byteOf at *
  rw [h, BitVec.toNat_ofNat, Nat.mod_eq_of_lt hn]

/-! ## A compressed chunk (R280, R283) -/

theorem compressedChunk_length (level u : Nat) (props : Byte) (payload : List Byte) :
    (compressedChunk level u props payload).length = (if 2 ≤ level then 6 else 5) + payload.length := by
  unfold compressedChunk
  split
  · simp only [List.length_append, List.length_cons, List.length_nil]
  · simp only [List.length_append, List.length_cons, List.length_nil]

/-- The header fields of a compressed chunk and its payload, where a memory holds it. -/
theorem Memory.Holds.compressed {m : Memory} {a level u props : Nat} {payload : List Byte}
    (h : m.Holds a (compressedChunk level u (byteOf props) payload)) (hlevel : level ≤ 3) (hu : u ≤ 2 ^ 21)
    (hc : payload.length ≤ 2 ^ 16) (hprops : 2 ≤ level → props < 256) :
    CompressedHeaderAt m a level u payload.length props
      ∧ m.Holds (a + if 2 ≤ level then 6 else 5) payload := by
  unfold compressedChunk at h
  simp only [List.cons_append, List.nil_append, Memory.holds_cons, Memory.holds_append, Nat.add_assoc a] at h
  obtain ⟨h0, h1, h2, h3, h4, hprop, hpayload⟩ := h
  refine ⟨⟨byteAt_of_read h0 (by omega), byteAt_of_read h1 (by omega), byteAt_of_read h2 (by omega),
    byteAt_of_read h3 (by omega), byteAt_of_read h4 (by omega), fun h => ?_⟩, ?_⟩
  · rw [if_pos h, Memory.holds_cons] at hprop
    exact byteAt_of_read hprop.1 (hprops h)
  · by_cases h : 2 ≤ level
    · rw [if_pos h] at hpayload ⊢
      exact hpayload
    · rw [if_neg h] at hpayload ⊢
      exact hpayload

/-! ## Stored chunks (R280, R288) -/

variable {dict m : Memory} {fuel a n o : Nat} {pending : BitVec 2}

/-- The stored chunks of some positions: one for the first of them, and those of the rest. -/
theorem storedChunks_succ (hn : 0 < n) : storedChunks dict (fuel + 1) a n pending
    = (storedChunk (pending == 3) (Memory.readBytes dict a (min storedMax n))
          ++ (storedChunks dict fuel (a + min storedMax n) (n - min storedMax n) (if pending = 3 then 2 else pending)).1,
        (storedChunks dict fuel (a + min storedMax n) (n - min storedMax n) (if pending = 3 then 2 else pending)).2.1 + 1,
        (storedChunks dict fuel (a + min storedMax n) (n - min storedMax n) (if pending = 3 then 2 else pending)).2.2) := by
  rw [storedChunks, if_neg (Nat.ne_of_gt hn)]

theorem storedChunks_zero : storedChunks dict fuel a 0 pending = ([], 0, pending) := by
  cases fuel <;> rfl

theorem storedChunk_length (dr : Bool) (raw : List Byte) : (storedChunk dr raw).length = raw.length + 3 :=
  List.length_append.trans (Nat.add_comm ..)

/-- Chunks take the positions by 65536, and three bytes each. -/
theorem storedChunks_sizes (fuel : Nat) : ∀ a n pending, n ≤ fuel →
    (storedChunks dict fuel a n pending).2.1 = (n + 65535) / 65536
      ∧ (storedChunks dict fuel a n pending).1.length = n + 3 * ((n + 65535) / 65536) := by
  induction fuel with
  | zero =>
    intro a n pending hn
    obtain rfl := Nat.le_zero.mp hn
    exact ⟨rfl, rfl⟩
  | succ fuel ih =>
    intro a n pending hn
    rcases Nat.eq_zero_or_pos n with rfl | hpos
    · exact ⟨rfl, rfl⟩
    · obtain ⟨hcount, hlength⟩ := ih (a + min storedMax n) (n - min storedMax n) (if pending = 3 then 2 else pending)
        (by unfold storedMax; omega)
      rw [storedChunks_succ hpos, List.length_append, storedChunk_length, Memory.readBytes_length, hcount, hlength]
      dsimp only [storedMax]
      omega

/-- The first stored chunk takes a dictionary reset that is owed (R284). -/
theorem storedChunks_pending_eq (fuel : Nat) : ∀ a n pending, n ≤ fuel → 0 < n →
    (storedChunks dict fuel a n pending).2.2 = if pending = 3 then 2 else pending := by
  induction fuel with
  | zero => exact fun _ _ _ hn hpos => absurd hpos (Nat.not_lt.mpr hn)
  | succ fuel ih =>
    intro a n pending hn hpos
    rw [storedChunks_succ hpos]
    dsimp only
    rcases Nat.eq_zero_or_pos (n - min storedMax n) with hrest | hrest
    · rw [hrest, storedChunks_zero]
    · rw [ih _ _ _ (by unfold storedMax; omega) hrest]
      split
      · decide
      · rfl

/-- A stored chunk where a memory holds it. -/
theorem Memory.Holds.stored {dr : Bool} {p : Nat} (h : m.Holds a (storedChunk dr (Memory.readBytes dict p n)))
    (hn : n ≤ 65536) : StoredChunkAt m dict a (if dr then 1 else 2) n p := by
  unfold storedChunk at h
  simp only [List.cons_append, List.nil_append, Memory.holds_cons, Memory.readBytes_length] at h
  obtain ⟨h0, h1, h2, hraw⟩ := h
  unfold Memory.Holds at hraw
  rw [Memory.readBytes_length] at hraw
  refine ⟨?_, byteAt_of_read h1 (by omega), byteAt_of_read h2 (by omega), hraw⟩
  unfold byteAt
  cases dr <;> rw [h0] <;> rfl

/-- Each of the stored chunks where a memory holds them all: the first carries the dictionary reset that is owed. -/
theorem Memory.Holds.storedChunks (fuel : Nat) : ∀ a n o pending, n ≤ fuel →
    m.Holds o (Machine.storedChunks dict fuel a n pending).1 → ∀ j < (n + 65535) / 65536,
    StoredChunkAt m dict (o + 65539 * j) (if pending = 3 ∧ j = 0 then 1 else 2) (min 65536 (n - 65536 * j)) (a + 65536 * j) := by
  induction fuel with
  | zero =>
    intro a n o pending hn _ j hj
    omega
  | succ fuel ih =>
    intro a n o pending hn h j hj
    have hpos : 0 < n := by omega
    rw [storedChunks_succ hpos, Memory.holds_append, storedChunk_length, Memory.readBytes_length] at h
    obtain ⟨hfirst, hrest⟩ := h
    cases j with
    | zero =>
      have hchunk : StoredChunkAt m dict o _ (min 65536 n) a := hfirst.stored (Nat.min_le_left ..)
      simpa using hchunk
    | succ j =>
      have hfull : min storedMax n = 65536 := Nat.min_eq_left (by unfold storedMax; omega)
      rw [hfull] at hrest
      have hchunk := ih _ _ _ _ (by omega) hrest j (by omega)
      rw [if_neg fun h => ?_] at hchunk
      · rw [if_neg fun h => Nat.succ_ne_zero j h.2]
        rw [show o + 65539 * (j + 1) = o + (65536 + 3) + 65539 * j by omega,
          show n - 65536 * (j + 1) = n - 65536 - 65536 * j by omega,
          show a + 65536 * (j + 1) = a + 65536 + 65536 * j by omega]
        exact hchunk
      · obtain ⟨h3, -⟩ := h
        split at h3
        · exact absurd h3 (by decide)
        · contradiction

end Sys2Proof.Machine
end

section
/-! PROOFS. The symbols and bytes of a completed `ENC_CHUNK` (44_lzma2_stream.md R280 to R288, R293). -/

namespace Sys2Proof.Machine

variable {s t : State} {L : Nat} {l : Lane}

/-! ## The coder before the first symbol (R285) -/

theorem chunkCoder_opens (hcfg : s.encConfigLegal = true) (l : Lane) : OpensChunk s l (l.chunkCoder s.chunkCtx) := by
  obtain ⟨hlit, hpb⟩ := chunkCtx_propsLegal s hcfg
  have hlc : s.cfg.lc ≤ 4 := (Nat.le_add_right ..).trans hlit
  have hlp : s.cfg.lp ≤ 4 := (Nat.le_add_left ..).trans hlit
  refine ⟨rfl, rfl, l.openChunk_rc _, fun hp => ?_, fun hp => ?_⟩
  · unfold Lane.chunkCoder Lane.openChunk
    rw [if_pos hp]
    exact ⟨rfl, rfl, rfl, rfl, rfl, rfl⟩
  · unfold Lane.chunkCoder Lane.openChunk
    rw [if_neg hp]
    exact ⟨rfl, rfl, ProbMem.resetAll_read, toNat_ofNat_three _ hlc, toNat_ofNat_three _ hlp, toNat_ofNat_three _ hpb⟩

theorem Lane.openChunk_wf (x : ChunkCtx) {l : Lane} (h : ProbMem.wf l.prob = true) : ProbMem.wf (l.openChunk x).prob = true := by
  unfold Lane.openChunk
  split
  · exact h
  · rfl

theorem chunkCoder_inBudget {x : ChunkCtx} (hx : x.Legal) {l : Lane} (h : l.Healthy) (hwf : ProbMem.wf l.prob = true)
    (ulim : Nat) : (l.chunkCoder x).InBudget { x.parse with ulim := ulim } := by
  obtain ⟨hrc, hprob, -⟩ := l.openChunk_healthy x h
  have hbudget := chunkCoder_hasBudget hx l ulim
  unfold HasBudget at hbudget
  exact ⟨⟨hrc, hprob, l.openChunk_wf x hwf⟩, by omega⟩

theorem Lane.openChunk_pending (x : ChunkCtx) (l : Lane) : (l.openChunk x).pending = l.pending := by
  unfold Lane.openChunk
  split <;> rfl

theorem Lane.openChunk_snap (x : ChunkCtx) (l : Lane) : (l.openChunk x).snap
    = { st := (l.openChunk x).st, reps := (l.openChunk x).reps, prob := (l.openChunk x).prob } := by
  unfold Lane.openChunk
  split <;> rfl

/-- A chunk that resets the properties has a property byte (R283). -/
theorem Lane.openChunk_props_lt {x : ChunkCtx} (hx : x.PropsLegal) {l : Lane} (hp : l.pending ≠ 0) :
    ((l.openChunk x).pb.toNat * 5 + (l.openChunk x).lp.toNat) * 9 + (l.openChunk x).lc.toNat < 256 := by
  obtain ⟨hlit, hpb⟩ := hx
  unfold Lane.openChunk
  rw [if_neg hp]
  change ((BitVec.ofNat 3 x.pb).toNat * 5 + (BitVec.ofNat 3 x.lp).toNat) * 9 + (BitVec.ofNat 3 x.lc).toNat < 256
  rw [toNat_ofNat_three _ hpb, toNat_ofNat_three _ (by omega), toNat_ofNat_three _ (by omega)]
  omega

/-! ## What is made of the payload (R287, R288) -/

section
variable {x : ChunkCtx} {pend a : Nat} {e : Enc} {m : Memory}

theorem headerLength_eq (level : BitVec 2) (h : level ≠ 1) :
    (if 2 ≤ level.toNat then 6 else 5) = if level = 0 then 5 else 6 := by
  revert level
  decide

theorem finishChunk_kept (h : e.rev.length + x.margin < pend - l.pos.toNat) : finishChunk x l pend e
    = { lane := { e.lane with pending := 0 }.closeChunk pend
        bytes := compressedChunk e.lane.pending.toNat (pend - l.pos.toNat) e.lane.propsByte e.bytes
        u := pend - l.pos.toNat
        kind := 0 } := if_pos h

theorem finishChunk_stored (h : ¬ e.rev.length + x.margin < pend - l.pos.toNat) : finishChunk x l pend e
    = { lane := { e.lane.rollBack with pending := (storedChunks x.parse.sym.dict (pend - l.pos.toNat) l.pos.toNat
          (pend - l.pos.toNat) e.lane.pending).2.2 }.closeChunk pend
        bytes := (storedChunks x.parse.sym.dict (pend - l.pos.toNat) l.pos.toNat (pend - l.pos.toNat) e.lane.pending).1
        u := pend - l.pos.toNat
        kind := (storedChunks x.parse.sym.dict (pend - l.pos.toNat) l.pos.toNat (pend - l.pos.toNat)
          e.lane.pending).2.1 } := if_neg h

theorem finishChunk_u : (finishChunk x l pend e).u = pend - l.pos.toNat := by
  unfold finishChunk
  dsimp only
  split <;> rfl

/-- A kept payload: its chunk where a memory holds it, and the lane after it (R280, R287). -/
theorem finishChunk_kept_format (hx : x.PropsLegal) (hlane : e.lane.uncoded = (l.openChunk x).uncoded)
    (hkept : e.rev.length + x.margin < pend - l.pos.toNat) (hp : l.pending ≠ 1) (hu : pend - l.pos.toNat ≤ 2 ^ 21)
    (hc : e.rev.length ≤ 2 ^ 16) (hm : m.Holds a (finishChunk x l pend e).bytes) :
    let c := finishChunk x l pend e
    let head := if l.pending = 0 then 5 else 6
    c.kind = 0 ∧ c.bytes.length = head + e.rev.length
      ∧ CompressedHeaderAt m a l.pending.toNat (pend - l.pos.toNat) e.rev.length
          ((c.lane.pb.toNat * 5 + c.lane.lp.toNat) * 9 + c.lane.lc.toNat)
      ∧ Memory.readBytes m (a + head) e.rev.length = e.bytes
      ∧ c.lane.st = e.lane.st ∧ c.lane.reps = e.lane.reps ∧ c.lane.prob = e.lane.prob ∧ c.lane.pending = 0 := by
  have hpending : e.lane.pending = l.pending := (congrArg Lane.pending hlane :).trans (l.openChunk_pending x)
  have hlength : e.bytes.length = e.rev.length := List.length_reverse
  have hprops : 2 ≤ l.pending.toNat → (e.lane.pb.toNat * 5 + e.lane.lp.toNat) * 9 + e.lane.lc.toNat < 256 := by
    intro h2
    have hpb : e.lane.pb = (l.openChunk x).pb := (congrArg Lane.pb hlane :)
    have hlp : e.lane.lp = (l.openChunk x).lp := (congrArg Lane.lp hlane :)
    have hlc : e.lane.lc = (l.openChunk x).lc := (congrArg Lane.lc hlane :)
    rw [hpb, hlp, hlc]
    exact Lane.openChunk_props_lt hx fun h => by simp [h] at h2
  rw [finishChunk_kept hkept] at hm ⊢
  rw [hpending] at hm ⊢
  obtain ⟨hheader, hpayload⟩ := hm.compressed (Nat.le_of_lt_succ l.pending.isLt) hu (hlength.trans_le hc) hprops
  rw [headerLength_eq _ hp, Memory.Holds, hlength] at hpayload
  rw [hlength] at hheader
  refine ⟨rfl, ?_, hheader, hpayload, rfl, rfl, rfl, rfl⟩
  rw [compressedChunk_length, headerLength_eq _ hp, hlength]

/-- Stored positions: their chunks where a memory holds them, and the lane, rolled back (R280, R288). -/
theorem finishChunk_stored_format (hlane : e.lane.uncoded = (l.openChunk x).uncoded)
    (hstored : ¬ e.rev.length + x.margin < pend - l.pos.toNat) (hpos : l.pos.toNat < pend)
    (hm : m.Holds a (finishChunk x l pend e).bytes) :
    let c := finishChunk x l pend e
    let u := pend - l.pos.toNat
    c.kind = (u + 65535) / 65536 ∧ c.bytes.length = u + 3 * c.kind
      ∧ (∀ j < c.kind, StoredChunkAt m x.parse.sym.dict (a + 65539 * j) (if l.pending = 3 ∧ j = 0 then 1 else 2)
          (min 65536 (u - 65536 * j)) (l.pos.toNat + 65536 * j))
      ∧ c.lane.pending = (if l.pending = 3 then 2 else l.pending)
      ∧ c.lane.st = (l.openChunk x).st ∧ c.lane.reps = (l.openChunk x).reps ∧ c.lane.prob = (l.openChunk x).prob := by
  have hpending : e.lane.pending = l.pending := (congrArg Lane.pending hlane :).trans (l.openChunk_pending x)
  have hsnap : e.lane.snap = _ := (congrArg Lane.snap hlane :).trans (l.openChunk_snap x)
  rw [finishChunk_stored hstored] at hm ⊢
  rw [hpending] at hm ⊢
  obtain ⟨hcount, hlength⟩ := storedChunks_sizes (dict := x.parse.sym.dict) (pend - l.pos.toNat) l.pos.toNat _ l.pending (Nat.le_refl _)
  have hchunks := hm.storedChunks _ _ _ _ _ (Nat.le_refl _)
  rw [← hcount] at hchunks hlength
  exact ⟨hcount, hlength, hchunks, storedChunks_pending_eq _ _ _ _ (Nat.le_refl _) (Nat.sub_pos_of_lt hpos),
    congrArg Snapshot.st hsnap, congrArg Snapshot.reps hsnap, congrArg Snapshot.prob hsnap⟩

end

/-! ## A completed `ENC_CHUNK` (R293) -/

/-- What a command's computation leaves when it completes normally. -/
theorem conclude_completed {i : Instr} {body : State → Except Halt State} {P : State → Prop}
    (h : conclude i s body = .next t) (hok : CompletesOk s t)
    (hend : Ends P (Halt.Raised s.control.cancel) (body s.clearRes)) : ∃ u, P u ∧ t = u.complete := by
  obtain ⟨-, -, hstatus, -⟩ := hok
  have hcode : t.status.code = .ok := congrArg Status.code hstatus
  rcases conclude_next i s t body h with ⟨u, hu, rfl⟩ | ⟨c, hc, rfl⟩ | ⟨hc, rfl⟩
  · rw [hu] at hend
    exact ⟨u, hend, rfl⟩
  · rw [hc] at hend
    obtain rfl : c = .ok := hcode
    exact absurd hend Bool.false_ne_true
  · cases (hcode : Code.canceled = .ok)

theorem encConfigLegal_limits (h : s.encConfigLegal = true) :
    s.cfg.chunkUMax.toNat ≤ 2 ^ 21 ∧ s.cfg.chunkCMax.toNat ≤ 2 ^ 16 := by
  simp only [State.encConfigLegal, Bool.and_eq_true, decide_eq_true_eq] at h
  obtain ⟨⟨⟨-, -, hu⟩, -, hc⟩, -⟩ := h
  exact ⟨hu, hc⟩

/-- What a completed `ENC_CHUNK` has checked, and what it leaves of the chunk `c` on its lane `l`. -/
structure ChunkCompleted (s t : State) (L : Nat) (l : Lane) (c : ChunkResult) : Prop where
  config  : s.encConfigLegal = true
  inBlock : l.sliceEnd.toNat ≤ s.cfg.blkEnd.toNat
  inSlice : l.pos.toNat < l.sliceEnd.toNat
  fits    : s.tableFits = true
  chunk   : encChunk s.chunkCtx l = .ok c
  fitsOut : c.bytes.length < 2 ^ 32
  out     : t.out.Holds s.outPos.toNat c.bytes
  lane    : t.lanes = s.lanes.set L c.lane
  results : t.res = { res0 := BitVec.ofNat 32 c.bytes.length, res1 := BitVec.ofNat 32 c.u, res2 := BitVec.ofNat 32 c.kind }

namespace ChunkCompleted

variable {c : ChunkResult}

theorem res0 (h : ChunkCompleted s t L l c) : t.res.res0.toNat = c.bytes.length := by
  rw [h.results]
  exact (BitVec.toNat_ofNat ..).trans (Nat.mod_eq_of_lt h.fitsOut)

theorem res1 (h : ChunkCompleted s t L l c) {u : Nat} (hu : c.u = u) (hlt : u < 2 ^ 32) : t.res.res1.toNat = u := by
  rw [h.results, hu]
  exact (BitVec.toNat_ofNat ..).trans (Nat.mod_eq_of_lt hlt)

theorem res2 (h : ChunkCompleted s t L l c) {k : Nat} (hk : c.kind = k) (hlt : k < 2 ^ 32) : t.res.res2.toNat = k := by
  rw [h.results, hk]
  exact (BitVec.toNat_ofNat ..).trans (Nat.mod_eq_of_lt hlt)

theorem lane_eq (h : ChunkCompleted s t L l c) (hl : s.lanes[L]? = some l) {l' : Lane} (hl' : t.lanes[L]? = some l') :
    l' = c.lane := by
  rw [h.lane, List.getElem?_set_self (List.getElem?_eq_some_iff.mp hl).1] at hl'
  exact (Option.some.inj hl').symm

/-- With a table under contract, the candidates of the chunk's parse are true copies. -/
theorem tellsCopies (h : ChunkCompleted s t L l c) (htable : s.TableContract) :
    (s.parseCtx (l.chunkLimit s.chunkCtx)).TellsCopies := by
  obtain ⟨hvalid, hfin⟩ : s.table.valid = true ∧ s.table.fin = s.cfg.blkEnd := by
    simpa [State.tableFits] using h.fits
  exact htable.tellsCopies hvalid ((Nat.min_le_left ..).trans (hfin ▸ h.inBlock))

end ChunkCompleted

theorem encChunk_completed (hwf : Memory.wf s.out = true) (hl : s.lanes[L]? = some l) (h : exec (.encChunk L) s = .next t)
    (hok : CompletesOk s t) : ∃ c, ChunkCompleted s t L l c := by
  have h : execEncChunk L s = .next t := h
  suffices hend : ∃ u, (∃ c, ChunkCompleted s u L l c) ∧ t = u.complete by
    obtain ⟨u, ⟨c, hc⟩, rfl⟩ := hend
    exact ⟨c, { hc with }⟩
  refine conclude_completed h hok <|
    (getLane_ends s.clearRes L).bind fun l₁ hl₁ => .check rfl fun _ => .check rfl fun _ => .check rfl fun hcfg =>
    .check rfl fun hblock => .check rfl fun hpos => .check rfl fun _ => .check rfl fun hfits => .check rfl fun _ =>
    (cancelPoint_ends s.clearRes).bind fun _ _ => (encChunk_ends s.clearRes.chunkCtx l₁ _).bind fun c hc =>
    (writeOut_ends _ _).bind fun v hv => .pure ⟨c, ?_⟩
  obtain rfl : l = l₁ := Option.some.inj (hl.symm.trans hl₁)
  obtain ⟨hfitsOut, rfl⟩ := (writeOut_ok _ _ _).mp hv
  simp only [State.sliceInBlock, Bool.and_eq_true, decide_eq_true_eq] at hblock hpos
  obtain ⟨-, -, hend⟩ := hblock
  obtain ⟨-, hpos⟩ := hpos
  exact ⟨hcfg, hend, hpos, hfits, hc.1, (Nat.le_add_left ..).trans_lt (hfitsOut.trans_lt s.cfg.outLimit.isLt),
    Memory.readBytes_writeBytes _ _ _ hwf, rfl, rfl⟩

end Sys2Proof.Machine

open Sys2Proof Sys2Proof.Machine

/-- Settles O54: the attempt is a run of its parse and a flush, within the payload's budget; its bytes are a compressed
chunk, or the stored chunks of the positions it covers. -/
theorem chunkFormat : Obligations.ChunkFormat := by
  intro s t L l l' hm hl hhealthy hp hexec hok hl' n u kind a p head
  obtain ⟨-, hwfOut, -, -, hwfProb⟩ := hm
  obtain ⟨hwf, -⟩ := hwfProb l (List.mem_of_getElem? hl)
  obtain ⟨c, hc⟩ := encChunk_completed hwfOut hl hexec hok
  have hx := chunkCtx_legal hc.config
  have hprops := chunkCtx_propsLegal s hc.config
  obtain ⟨ys, pend, e, e', hrun, hflush, hlane, rfl⟩ := encChunk_run hx.look hc.chunk
  obtain ⟨hpos, hend, hmax⟩ := chunkRun_bounds hx hc.inSlice hrun
  have hsliceEnd := l.sliceEnd.isLt
  have hbudget := chunkCoder_inBudget hx hhealthy hwf (l.chunkLimit s.chunkCtx)
  have hlim : l.chunkLimit s.chunkCtx ≤ 2 ^ 32 := (Nat.min_le_left ..).trans (Nat.le_of_lt hsliceEnd)
  obtain ⟨hgood, hpayload⟩ := hrun.inBudget hlim hbudget
  obtain ⟨-, -, hpending, -⟩ := hgood.healthy
  obtain ⟨-, hflushed, hlength, hvalue⟩ := flush_ok e e' hflush hpending hgood.healthy.carry
  obtain ⟨huMax, hcMax⟩ := encConfigLegal_limits hc.config
  have hmax : pend ≤ p + s.cfg.chunkUMax.toNat := hmax
  have hbudget' : e'.rev.length ≤ s.cfg.chunkCMax.toNat := hlength.trans_le hpayload
  have hu : u = pend - p := hc.res1 finishChunk_u (by omega)
  have hn : n = (finishChunk s.chunkCtx l pend e').bytes.length := hc.res0
  have hl' := hc.lane_eq hl hl'
  have hpend : p + u = pend := by omega
  have hspells (htable : s.TableContract) : Spells s.dict (l.chunkCoder s.chunkCtx).lane.reps p ys pend :=
    hrun.spells (hc.tellsCopies htable) hlim hbudget
  rw [← hpend] at hrun hspells
  refine ⟨by omega, by omega, _, e, e', ys, chunkCoder_opens hc.config l, hrun, hflush, hlength, hvalue, hspells, ?_⟩
  by_cases hkept : e'.rev.length + s.cfg.storeMargin.toNat < pend - p
  · obtain ⟨hkept', hbytes, hheader, hpayload, hst, hreps, hprob, hnone⟩ := finishChunk_kept_format hprops hlane hkept hp
      (by omega) (hbudget'.trans hcMax) hc.out
    have hkind : kind = 0 := hc.res2 hkept' (by decide)
    have hc : n - head = e'.rev.length := by omega
    rw [hflushed] at hst hreps hprob
    rw [← hl'] at hheader hst hreps hprob hnone
    rw [← hu] at hkept hheader
    refine ⟨iff_of_true hkind hkept, fun _ => ?_, fun h => absurd hkind h⟩
    rw [hc]
    exact ⟨hn.trans hbytes, by omega, hbudget', hbudget'.trans hcMax, hkept, hheader, hpayload, hst, hreps, hprob, hnone⟩
  · obtain ⟨hstored, hbytes, hchunks, hpending', hst, hreps, hprob⟩ := finishChunk_stored_format hlane hkept hpos hc.out
    have hkind : kind = _ := hc.res2 hstored (by omega)
    rw [hstored, ← hu] at hchunks hbytes
    rw [← hl'] at hpending' hst hreps hprob
    rw [← hu] at hkept hkind
    have hsome : kind ≠ 0 := by omega
    refine ⟨iff_of_false hsome hkept, fun h => absurd h hsome, fun _ => ?_⟩
    rw [← hkind] at hchunks hbytes
    exact ⟨hkind, hn.trans hbytes, hchunks, hpending', hst, hreps, hprob⟩

end

section
/-! PROOFS. The match finder's commands (41_match_finder.md R173 to R175, R179 to R181, R187 to R191). -/

namespace Sys2Proof.Machine

variable {i : Instr} {s : State}

/-! ## `MF_CREATE` (R180) -/

theorem exec_mfCreate (s : State) : exec .mfCreate s = conclude .mfCreate s fun u =>
    check u.cfg.dictSizeLegal .invalidParameter >>= fun _ =>
      check (decide (tableBytes (decide (2 ^ linkBits < u.cfg.dictSize.toNat)) u.cfg.dictSize.toNat
        ≤ u.params.tableCap.toNat)) .outOfMemory >>= fun _ => .ok { u with table := u.createdTable } := rfl

theorem tableBytes_eq (n : Nat) :
    tableBytes (decide (2 ^ linkBits < n)) n = if 2 ^ 26 < n then 20 * ((n + 3) / 4) else 4 * n := by
  simp only [tableBytes, decide_eq_true_eq]
  rfl

theorem dictSizeLegal_iff (c : Cfg) :
    c.dictSizeLegal = true ↔ 4096 ≤ c.dictSize.toNat ∧ c.dictSize.toNat ≤ 2 ^ 30 := by
  simp only [Cfg.dictSizeLegal, Bool.and_eq_true, decide_eq_true_eq]
  rfl

/-! ## `MF_BUILD` (R181) -/

/-- `DEPTH` and `BUF_RESIZE` are in range (R40, R181). -/
def Cfg.buildLegal (c : Cfg) : Bool :=
  decide (depthMin ≤ c.depth) && decide (c.depth ≤ depthMax) && decide (c.bufResize ≤ bufResizeMax)

/-- The block lies in the table and in `DICT` (R181). -/
def State.buildFits (s : State) : Bool :=
  decide (s.cfg.blkStart.toNat ≤ s.cfg.blkEnd.toNat) && decide (s.cfg.blkEnd.toNat ≤ s.table.size.toNat)
    && decide (s.cfg.blkEnd.toNat ≤ s.params.dictCap.toNat)

theorem exec_mfBuild (s : State) : exec .mfBuild s = conclude .mfBuild s fun u =>
    check u.table.created .sequenceError >>= fun _ => check u.cfg.buildLegal .invalidParameter >>= fun _ =>
      check u.buildFits .invalidParameter >>= fun _ => u.cancelPoint >>= fun _ =>
        .ok { u with table := u.builtTable } := rfl

theorem buildLegal_iff (c : Cfg) : c.buildLegal = true ↔ 6 ≤ c.depth ∧ c.depth ≤ 254 ∧ c.bufResize ≤ 4 := by
  simp only [Cfg.buildLegal, Bool.and_eq_true, decide_eq_true_eq, and_assoc]
  rfl

theorem buildFits_iff (s : State) : s.buildFits = true ↔
    s.cfg.blkStart.toNat ≤ s.cfg.blkEnd.toNat ∧ s.cfg.blkEnd.toNat ≤ s.table.size.toNat
      ∧ s.cfg.blkEnd.toNat ≤ s.params.dictCap.toNat := by
  simp only [State.buildFits, Bool.and_eq_true, decide_eq_true_eq, and_assoc]

theorem buildCap_eq (s : State) : s.buildCap = min s.cfg.depth (if s.table.isStruct then 255 else 63) := rfl

/-- With no request up a cancellation point passes (R362). -/
theorem cancelPoint_passes (hq : s.control.cancel = false) : s.cancelPoint = .ok () := by
  refine (cancelPoint_ok s ()).mpr ?_
  rw [State.cancelRequested, hq, Bool.false_and]

/-! ## The queries (R187 to R191) -/

/-- A query that answers `f` of the table, `DICT` and the position. -/
def queryAnswer (f : Table → Memory → Nat → Nat × Nat) (u : State) : Except Halt State :=
  u.queryPos >>= fun p => .ok (u.setRes (f u.table u.dict p).1 (f u.table u.dict p).2 0)

/-- What `MF_READ_SLOT` shows of a slot (R190). -/
def Slot.raw : Slot → Nat × Nat
  | .null => (0xFFFFFFFF, 0)
  | .entry link len => (link, len)

theorem exec_mfGetMatch (s : State) : exec .mfGetMatch s = conclude .mfGetMatch s (queryAnswer getMatch) := rfl

theorem exec_mfGetNextMatch (s : State) :
    exec .mfGetNextMatch s = conclude .mfGetNextMatch s (queryAnswer getNextMatch) := rfl

theorem exec_mfReadSlot (s : State) :
    exec .mfReadSlot s = conclude .mfReadSlot s (queryAnswer fun t _ p => (t.slot p).raw) := by
  change execMfReadSlot s = _
  unfold execMfReadSlot
  refine congrArg (conclude .mfReadSlot s) (funext fun u => congrArg (u.queryPos >>= ·) (funext fun p => ?_))
  dsimp only
  cases u.table.slot p <;> rfl

section
variable {f : Table → Memory → Nat → Nat × Nat} (hexec : exec i s = conclude i s (queryAnswer f))
include hexec

/-- A query at a position of a valid table writes its answer. -/
theorem query_completes (hvalid : s.table.valid = true) (hp : s.args.arg0.toNat < s.table.fin.toNat) :
    let r := f s.table s.dict s.args.arg0.toNat
    exec i s = .next (s.clearRes.setRes r.1 r.2 0).complete := by
  refine hexec.trans (conclude_ok _ s _ _ ((bind_ok _ _ _).mpr ⟨s.args.arg0.toNat, ?_, rfl⟩))
  exact (queryPos_ok s.clearRes _).mpr ⟨hvalid, hp, rfl⟩

/-- The start checks of a query (R189 to R191). -/
theorem query_faults :
    (s.table.valid = false → exec i s = .next (s.faultCommit (encode i) .sequenceError))
      ∧ (s.table.valid = true → s.table.fin.toNat ≤ s.args.arg0.toNat →
        exec i s = .next (s.faultCommit (encode i) .invalidParameter)) := by
  refine ⟨fun hvalid => ?_, fun hvalid hp => ?_⟩ <;>
    refine hexec.trans (conclude_fault _ s _ _ ((bind_error _ _ _).mpr (.inl ?_)))
  · exact (bind_error _ _ _).mpr (.inl ((check_error _ _ _).mpr ⟨hvalid, rfl⟩))
  · refine (bind_error _ _ _).mpr (.inr ⟨(), (check_ok _ _ _).mpr hvalid, (bind_error _ _ _).mpr (.inl ?_)⟩)
    exact (check_error _ _ _).mpr ⟨decide_eq_false (Nat.not_lt.mpr hp), rfl⟩

end

/-- A command that only answers touches nothing but the result registers. -/
theorem answer_frame (s : State) (a b c : Nat) :
    let t := (s.clearRes.setRes a b c).complete
    CompletesOk s t ∧ KeepsHostState s t
      ∧ t.lanes = s.lanes ∧ t.table = s.table ∧ t.stream = s.stream ∧ KeepsOutput s t ∧ KeepsOut s t :=
  ⟨⟨rfl, rfl, rfl, rfl⟩, keepsHostState_refl s, rfl, rfl, rfl, ⟨rfl, rfl⟩, fun _ => rfl⟩

theorem answer_results (s : State) {a b : Nat} (ha : a < 2 ^ 32) (hb : b < 2 ^ 32) :
    ResultsAre (s.clearRes.setRes a b 0).complete a b 0 :=
  ⟨Nat.mod_eq_of_lt ha, Nat.mod_eq_of_lt hb, rfl⟩

/-! ## Slots under contract (R175, R179) -/

/-- A slot that is not null is a match inside the block, no longer than the cap (R179). -/
theorem State.TableContract.entry_spec (hs : s.TableContract) (hvalid : s.table.valid = true) {p q len : Nat}
    (hp : p < s.table.fin.toNat) (hslot : s.table.slot p = .entry q len) :
    q < p ∧ p + len ≤ s.table.fin.toNat ∧ len ≤ s.table.caplen.toNat ∧ s.table.caplen.toNat ≤ 255
      ∧ ∀ i < len, Memory.read s.dict (p + i) = Memory.read s.dict (q + i) := by
  obtain ⟨-, htable⟩ := hs
  obtain ⟨-, -, -, -, hfield, hslots⟩ := htable hvalid
  have hcontract := hslots p hp
  rw [hslot] at hcontract
  obtain ⟨hlink, -, hcap, ⟨hend, hagree⟩, -⟩ := hcontract
  rw [Memory.readBytes_length] at hend
  have hfield' : lenFieldMax s.table.isStruct ≤ 255 := by cases s.table.isStruct <;> decide
  refine ⟨hlink, hend, hcap, hfield.trans hfield', fun i hi => ?_⟩
  have hbyte := hagree i hi
  rw [Memory.readBytes_getElem _ _ _ _ (by omega), Memory.readBytes_getElem _ _ _ _ (by omega)] at hbyte
  simpa using hbyte

theorem getMatch_null {t : Table} {p : Nat} (dict : Memory) (hslot : t.slot p = .null) : getMatch t dict p = (0, 0) := by
  unfold getMatch
  rw [hslot]

theorem getMatch_entry {t : Table} {p q len : Nat} (dict : Memory) (hslot : t.slot p = .entry q len) :
    getMatch t dict p =
      (if len = t.caplen.toNat then
          len + Memory.runLen dict (p + len) (q + len) (min 273 (t.fin.toNat - p) - len) else len, p - q - 1) := by
  unfold getMatch
  rw [hslot]
  rfl

/-- A slot at the cap is extended by as many bytes as agree at its own distance, up to the limit (R187). -/
theorem capped_extension (dict : Memory) {p q len lim : Nat} (hlen : len ≤ lim) :
    let n := len + Memory.runLen dict (p + len) (q + len) (lim - len)
    len ≤ n ∧ n ≤ lim ∧ (∀ i, len ≤ i → i < n → Memory.read dict (p + i) = Memory.read dict (q + i))
      ∧ (n < lim → Memory.read dict (p + n) ≠ Memory.read dict (q + n)) := by
  intro n
  obtain ⟨hle, hagree, hdiffer⟩ := runLen_isRunLen dict (lim - len) (p + len) (q + len)
  rw [Nat.add_assoc, Nat.add_assoc] at hdiffer
  refine ⟨Nat.le_add_right .., by omega, fun i hi hn => ?_, fun hn => hdiffer (by omega)⟩
  have hbyte := hagree (i - len) (by omega)
  rwa [Nat.add_assoc, Nat.add_assoc, Nat.add_sub_of_le hi] at hbyte

/-- The answer of `GetMatch` fits the result registers. -/
theorem State.TableContract.getMatch_lt (hs : s.TableContract) (hvalid : s.table.valid = true) {p : Nat}
    (hp : p < s.table.fin.toNat) :
    (getMatch s.table s.dict p).1 < 2 ^ 32 ∧ (getMatch s.table s.dict p).2 < 2 ^ 32 := by
  have hfin := s.table.fin.isLt
  cases hslot : s.table.slot p with
  | null =>
    rw [getMatch_null _ hslot]
    exact ⟨by decide, by decide⟩
  | entry q len =>
    obtain ⟨-, hend, hcap, hfield, -⟩ := hs.entry_spec hvalid hp hslot
    obtain ⟨-, hlim, -⟩ := capped_extension s.dict (p := p) (q := q) (lim := min 273 (s.table.fin.toNat - p))
      (show len ≤ _ by omega)
    rw [getMatch_entry _ hslot]
    dsimp only
    refine ⟨?_, by omega⟩
    split <;> omega

/-- Where `GetNextMatch` skips (R188). -/
theorem sameDistance_iff (t : Table) (p : Nat) : sameDistance t p = true ↔
    1 ≤ p ∧ ∃ q' len' q len, t.slot (p - 1) = .entry q' len' ∧ t.slot p = .entry q len ∧ q' + 1 = q := by
  unfold sameDistance
  cases p with
  | zero => simp
  | succ p =>
    rw [if_neg (Nat.succ_ne_zero p)]
    cases t.slot (p + 1 - 1) with
    | null => simp
    | entry q' len' =>
      cases t.slot (p + 1) with
      | null => simp
      | entry q len => simpa using eq_comm

end Sys2Proof.Machine

open Sys2Proof Sys2Proof.Machine

/-- Settles O39: the two checks in order, and the table that passes them. -/
theorem mfCreateResult : Obligations.MfCreateResult := by
  intro s n bytes
  have hbytes : tableBytes (decide (2 ^ linkBits < n)) n = bytes := tableBytes_eq n
  refine ⟨fun hmin hmax hcap => ?_, fun hn => ?_, fun hmin hmax hcap => ?_⟩
  · refine ⟨_, (exec_mfCreate s).trans (conclude_ok _ s { s.clearRes with table := s.createdTable } _ ?_),
      ⟨rfl, rfl, rfl, rfl⟩, keepsHostState_refl s, ⟨rfl, rfl, rfl⟩, rfl, rfl, rfl, ⟨rfl, rfl⟩, fun _ => rfl⟩
    refine (bind_ok _ _ _).mpr ⟨(), (check_ok _ _ _).mpr ((dictSizeLegal_iff _).mpr ⟨hmin, hmax⟩), ?_⟩
    exact (bind_ok _ _ _).mpr ⟨(), (check_ok _ _ _).mpr (decide_eq_true (hbytes.trans_le hcap)), rfl⟩
  · refine (exec_mfCreate s).trans (conclude_fault _ s _ _ ((bind_error _ _ _).mpr (.inl ?_)))
    refine (check_error _ _ _).mpr ⟨Bool.eq_false_iff.mpr fun h => ?_, rfl⟩
    obtain ⟨hmin, hmax⟩ := (dictSizeLegal_iff _).mp h
    exact hn.elim (Nat.not_lt.mpr hmin) (Nat.not_lt.mpr hmax)
  · refine (exec_mfCreate s).trans (conclude_fault _ s _ _ ((bind_error _ _ _).mpr (.inr ⟨(), ?_, ?_⟩)))
    · exact (check_ok _ _ _).mpr ((dictSizeLegal_iff _).mpr ⟨hmin, hmax⟩)
    · refine (bind_error _ _ _).mpr (.inl ((check_error _ _ _).mpr ⟨decide_eq_false ?_, rfl⟩))
      exact Nat.not_le.mpr (hcap.trans_eq hbytes.symm)

/-- Settles O40: the checks in order, and the table built once they pass, whose slots read back under contract. -/
theorem mfBuildResult : Obligations.MfBuildResult := by
  intro s paramsLegal blockLegal
  have hlegal : s.cfg.buildLegal = true ↔ paramsLegal := buildLegal_iff s.cfg
  have hfits : s.buildFits = true ↔ blockLegal := buildFits_iff s
  refine ⟨fun hs hcreated hparams hblock hq => ?_, fun hcreated => ?_, fun hcreated hbad => ?_⟩
  · intro cap
    obtain ⟨hmin, -⟩ := id hparams
    obtain ⟨-, hend, -⟩ := id hblock
    obtain ⟨-, -, hval⟩ := s.buildCap_bounds hmin
    refine ⟨_, (exec_mfBuild s).trans (conclude_ok _ s { s.clearRes with table := s.builtTable } _ ?_),
      ⟨rfl, rfl, rfl, rfl⟩, keepsHostState_refl s, ⟨rfl, rfl, rfl⟩, hcreated, rfl, rfl, rfl, rfl, hval.trans (buildCap_eq s),
      fun p hp => s.builtTable_slot hs.1 hcreated hmin hend p hp, rfl, rfl, ⟨rfl, rfl⟩, fun _ => rfl⟩
    refine (bind_ok _ _ _).mpr ⟨(), (check_ok _ _ _).mpr hcreated, ?_⟩
    refine (bind_ok _ _ _).mpr ⟨(), (check_ok _ _ _).mpr (hlegal.mpr hparams), ?_⟩
    refine (bind_ok _ _ _).mpr ⟨(), (check_ok _ _ _).mpr (hfits.mpr hblock), ?_⟩
    exact (bind_ok _ _ _).mpr ⟨(), cancelPoint_passes hq, rfl⟩
  · refine (exec_mfBuild s).trans (conclude_fault _ s _ _ ((bind_error _ _ _).mpr (.inl ?_)))
    exact (check_error _ _ _).mpr ⟨hcreated, rfl⟩
  · refine (exec_mfBuild s).trans (conclude_fault _ s _ _ ?_)
    refine (bind_error _ _ _).mpr (.inr ⟨(), (check_ok _ _ _).mpr hcreated, ?_⟩)
    by_cases hparams : paramsLegal
    · refine (bind_error _ _ _).mpr (.inr ⟨(), (check_ok _ _ _).mpr (hlegal.mpr hparams), ?_⟩)
      have hblock := hbad.resolve_left (not_not_intro hparams)
      exact (bind_error _ _ _).mpr (.inl ((check_error _ _ _).mpr ⟨Bool.eq_false_iff.mpr (mt hfits.mp hblock), rfl⟩))
    · exact (bind_error _ _ _).mpr (.inl ((check_error _ _ _).mpr ⟨Bool.eq_false_iff.mpr (mt hlegal.mp hparams), rfl⟩))

/-- Settles O41: the answer is `GetMatch` of the slot, which at the cap extends it to the first byte that differs. -/
theorem mfGetMatchResult : Obligations.MfGetMatchResult := by
  intro s hs hvalid hp p lim
  obtain ⟨hlen, hdist⟩ := hs.getMatch_lt hvalid hp
  obtain ⟨hok, hhost, hframe⟩ := answer_frame s (getMatch s.table s.dict p).1 (getMatch s.table s.dict p).2 0
  refine ⟨_, _, _, query_completes (exec_mfGetMatch s) hvalid hp, hok, hhost, answer_results s hlen hdist,
    fun hslot => ?_, fun q len hslot => ?_, hframe⟩
  · rw [getMatch_null _ hslot]
    exact ⟨rfl, rfl⟩
  · obtain ⟨hlink, hend, hcap, hfield, -⟩ := hs.entry_spec hvalid hp hslot
    have hlim : len ≤ lim := Nat.le_min.mpr ⟨by omega, by omega⟩
    rw [getMatch_entry _ hslot]
    refine ⟨rfl, hlink, fun hcap => if_neg hcap, fun hcap => ?_⟩
    rw [if_pos hcap]
    exact capped_extension s.dict hlim

/-- Settles O42: `GetNextMatch` is `GetMatch` but for the skip, and a slot read back under contract fits the registers. -/
theorem mfOtherQueriesResult : Obligations.MfOtherQueriesResult := by
  intro s p continues
  refine ⟨fun hs hvalid hp => ⟨?_, ?_⟩, ?_⟩
  · have hskip : sameDistance s.table p = true ↔ continues := sameDistance_iff s.table p
    obtain ⟨hok, hhost, hframe⟩ := answer_frame s (getNextMatch s.table s.dict p).1 (getNextMatch s.table s.dict p).2 0
    refine ⟨_, _, query_completes (exec_mfGetMatch s) hvalid hp, query_completes (exec_mfGetNextMatch s) hvalid hp,
      fun hcont => ?_, fun hcont => ?_, hok, hhost, hframe⟩
    · have hnone : getNextMatch s.table s.dict p = (0, 0) := if_pos (hskip.mpr hcont)
      rw [hnone]
      exact ⟨rfl, rfl, rfl⟩
    · have hsame : getNextMatch s.table s.dict p = getMatch s.table s.dict p := if_neg (mt hskip.mp hcont)
      rw [hsame]
  · obtain ⟨hok, hhost, hframe⟩ := answer_frame s (s.table.slot p).raw.1 (s.table.slot p).raw.2 0
    refine ⟨_, query_completes (exec_mfReadSlot s) hvalid hp, hok, hhost, fun hslot => ?_, fun q len hslot => ?_, hframe⟩
    · rw [hslot]
      exact ⟨rfl, rfl, rfl⟩
    · obtain ⟨hlink, hend, -⟩ := hs.entry_spec hvalid hp hslot
      have hfin := s.table.fin.isLt
      rw [hslot]
      exact answer_results s (show q < 2 ^ 32 by omega) (show len < 2 ^ 32 by omega)
  · rintro i (rfl | rfl | rfl)
    · exact query_faults (exec_mfGetMatch s)
    · exact query_faults (exec_mfGetNextMatch s)
    · exact query_faults (exec_mfReadSlot s)

/-- Settles O43: the contract names the match of a slot. -/
theorem matchesAreValid : Obligations.MatchesAreValid := by
  intro s p q len hs hvalid hp hslot
  obtain ⟨hlink, hend, -, -, hagree⟩ := hs.entry_spec hvalid hp hslot
  exact ⟨hlink, by omega, hend, hagree⟩

end

section
/-! PROOFS. The seed pass and the refinement (41_match_finder.md R182, R183) build the table of R175: a list under
refinement holds every older position that agrees with a member so far, so that its links are the nearest ones. -/

namespace Sys2Proof.Machine

variable {K : Type} [DecidableEq K] {key : Member → Option K} {d : List Byte} {ms g : List Member} {m : Member}
  {k j n p : Nat} {x : Slot}

/-! ## The slots after a list of writes -/

/-- What the slot `p` holds after the writes `ws`, if it held `x` before them. -/
def slotAfter (ws : List (Nat × Slot)) (p : Nat) (x : Slot) : Slot :=
  ws.foldl (fun y w => if w.1 = p then w.2 else y) x

theorem slotAfter_append (ws vs : List (Nat × Slot)) (p : Nat) (x : Slot) :
    slotAfter (ws ++ vs) p x = slotAfter vs p (slotAfter ws p x) := List.foldl_append

theorem slotAfter_unwritten {ws : List (Nat × Slot)} (h : ∀ w ∈ ws, w.1 ≠ p) : slotAfter ws p x = x := by
  induction ws with
  | nil => rfl
  | cons w ws ih =>
    obtain ⟨hw, hws⟩ := List.forall_mem_cons.mp h
    change slotAfter ws p (if w.1 = p then w.2 else x) = x
    rw [if_neg hw, ih hws]

theorem foldl_set_getElem? (ws : List (Nat × Slot)) (p : Nat) : ∀ slots : List Slot, slots[p]? = some x →
    (ws.foldl (fun slots w => slots.set w.1 w.2) slots)[p]? = some (slotAfter ws p x) := by
  induction ws generalizing x with
  | nil => exact fun _ h => h
  | cons w ws ih =>
    intro slots hx
    refine ih (slots.set w.1 w.2) ?_
    obtain ⟨hp, -⟩ := List.getElem?_eq_some_iff.mp hx
    dsimp only
    rw [List.getElem?_set]
    by_cases hw : w.1 = p
    · rw [if_pos hw, if_pos (hw ▸ hp), if_pos hw]
    · rw [if_neg hw, if_neg hw, hx]

/-- The slots of the source's procedure are those that its writes leave. -/
theorem radixSlots_getElem? (c : Nat) (hp : p < d.length) :
    (radixSlots d c)[p]? = some (slotAfter (radixWrites d c) p .null) :=
  foldl_set_getElem? _ p _ (List.getElem?_replicate_of_lt hp)

theorem radixSlots_length (d : List Byte) (c : Nat) : (radixSlots d c).length = d.length := by
  have hkept (ws : List (Nat × Slot)) : ∀ slots : List Slot,
      (ws.foldl (fun slots w => slots.set w.1 w.2) slots).length = slots.length := by
    induction ws with
    | nil => exact fun _ => rfl
    | cons w ws ih => exact fun slots => (ih _).trans List.length_set
  exact (hkept _ _).trans List.length_replicate

/-! ## Splitting a list (R183) -/

theorem splitBy_cons_none (fuel : Nat) (h : key m = none) : splitBy key (fuel + 1) (m :: ms) = splitBy key fuel ms := by
  rw [splitBy, h]

theorem splitBy_cons_some (fuel : Nat) {a : K} (h : key m = some a) :
    splitBy key (fuel + 1) (m :: ms) =
      (m :: ms).filter (fun y => key y == some a) :: splitBy key fuel (ms.filter fun y => !(key y == some a)) := by
  rw [splitBy, h, List.filter_cons_of_pos (by simpa using h)]

theorem mem_of_mem_splitBy (fuel : Nat) : ∀ ms : List Member, g ∈ splitBy key fuel ms → m ∈ g → m ∈ ms := by
  induction fuel with
  | zero => exact fun ms hg => absurd hg List.not_mem_nil
  | succ fuel ih =>
    intro ms hg hm
    cases ms with
    | nil => exact absurd hg List.not_mem_nil
    | cons b ms =>
      cases hb : key b with
      | none =>
        rw [splitBy_cons_none fuel hb] at hg
        exact List.mem_cons_of_mem _ (ih ms hg hm)
      | some a =>
        rw [splitBy_cons_some fuel hb] at hg
        rcases List.mem_cons.mp hg with rfl | hg
        · exact List.mem_of_mem_filter hm
        · exact List.mem_cons_of_mem _ (List.mem_of_mem_filter (ih _ hg hm))

/-- `f` writes no slots but those of the members it is given. -/
def WritesOwn (f : List Member → List (Nat × Slot)) : Prop := ∀ g, ∀ w ∈ f g, ∃ m ∈ g, m.pos = w.1

variable {f : List Member → List (Nat × Slot)}

theorem WritesOwn.slotAfter_other (hf : WritesOwn f) (hp : ∀ m ∈ g, m.pos ≠ p) : slotAfter (f g) p x = x :=
  slotAfter_unwritten fun w hw hwp => by
    obtain ⟨m, hm, hpos⟩ := hf g w hw
    exact hp m hm (hpos.trans hwp)

/-- The writes of all sub-lists of a list. -/
def splitWrites (key : Member → Option K) (f : List Member → List (Nat × Slot)) (fuel : Nat) (ms : List Member) :
    List (Nat × Slot) := (splitBy key fuel ms).flatMap f

theorem WritesOwn.splitWrites (hf : WritesOwn f) (key : Member → Option K) (fuel : Nat) :
    WritesOwn (splitWrites key f fuel) := by
  intro ms w hw
  obtain ⟨g, hg, hw⟩ := List.mem_flatMap.mp hw
  obtain ⟨m, hm, hpos⟩ := hf g w hw
  exact ⟨m, mem_of_mem_splitBy _ ms hg hm, hpos⟩

theorem splitWrites_cons_none (fuel : Nat) (h : key m = none) :
    splitWrites key f (fuel + 1) (m :: ms) = splitWrites key f fuel ms :=
  congrArg (List.flatMap f) (splitBy_cons_none fuel h)

theorem slotAfter_splitWrites_cons_some (fuel : Nat) {a : K} (h : key m = some a) :
    slotAfter (splitWrites key f (fuel + 1) (m :: ms)) p x =
      slotAfter (splitWrites key f fuel (ms.filter fun y => !(key y == some a))) p
        (slotAfter (f ((m :: ms).filter fun y => key y == some a)) p x) := by
  rw [splitWrites, splitBy_cons_some fuel h, List.flatMap_cons, slotAfter_append]
  rfl

/-- A member without a key leaves the list: its slot stays (R183). -/
theorem slotAfter_splitWrites_none (hf : WritesOwn f) (fuel : Nat) : ∀ (ms : List Member) (x : Slot),
    (∀ m ∈ ms, m.pos = p → key m = none) → slotAfter (splitWrites key f fuel ms) p x = x := by
  induction fuel with
  | zero => exact fun _ _ _ => rfl
  | succ fuel ih =>
    intro ms x hp
    cases ms with
    | nil => rfl
    | cons b ms =>
      have hms : ∀ m ∈ ms, m.pos = p → key m = none := fun m hm => hp m (List.mem_cons_of_mem _ hm)
      cases hb : key b with
      | none =>
        rw [splitWrites_cons_none fuel hb]
        exact ih ms x hms
      | some a =>
        rw [slotAfter_splitWrites_cons_some fuel hb, ih _ _ fun m hm => hms m (List.mem_of_mem_filter hm)]
        refine hf.slotAfter_other fun m hm hpos => ?_
        obtain ⟨hm, ha⟩ := List.mem_filter.mp hm
        simp [hp m hm hpos] at ha

/-- A member with a key: its slot is left to the sub-list of that key. -/
theorem slotAfter_splitWrites_some (hf : WritesOwn f) {a : K} (ha : key m = some a) (fuel : Nat) :
    ∀ (ms : List Member) (x : Slot), ms.length ≤ fuel → m ∈ ms → (∀ y ∈ ms, y.pos = m.pos → y = m) →
      slotAfter (splitWrites key f fuel ms) m.pos x
        = slotAfter (f (ms.filter fun y => key y == some a)) m.pos x := by
  induction fuel with
  | zero =>
    intro ms x hlen hm
    obtain rfl := List.eq_nil_of_length_eq_zero (Nat.le_zero.mp hlen)
    exact absurd hm List.not_mem_nil
  | succ fuel ih =>
    intro ms x hlen hm hone
    cases ms with
    | nil => exact absurd hm List.not_mem_nil
    | cons b ms =>
      have hlen : ms.length ≤ fuel := Nat.le_of_succ_le_succ hlen
      have hone' : ∀ y ∈ ms, y.pos = m.pos → y = m := fun y hy => hone y (List.mem_cons_of_mem _ hy)
      by_cases hba : key b = some a
      · rw [slotAfter_splitWrites_cons_some fuel hba]
        refine slotAfter_splitWrites_none hf fuel _ _ fun y hy hpos => ?_
        obtain ⟨hy, hya⟩ := List.mem_filter.mp hy
        rw [hone' y hy hpos, ha] at hya
        simp at hya
      · have hm : m ∈ ms := (List.mem_cons.mp hm).resolve_left fun h => hba (h ▸ ha)
        rw [List.filter_cons_of_neg (by simpa using hba)]
        cases hb : key b with
        | none =>
          rw [splitWrites_cons_none fuel hb]
          exact ih ms x hlen hm hone'
        | some c =>
          have hca : c ≠ a := fun h => hba (h ▸ hb)
          rw [slotAfter_splitWrites_cons_some fuel hb, hf.slotAfter_other, ih _ x ((List.length_filter_le ..).trans hlen),
            List.filter_filter]
          · refine congrArg (fun g => slotAfter (f g) m.pos x) (List.filter_congr fun y _ => ?_)
            by_cases hy : key y = some a <;> simp [hy, hca.symm]
          · exact List.mem_filter.mpr ⟨hm, by simp [ha, hca.symm]⟩
          · exact fun y hy => hone' y (List.mem_of_mem_filter hy)
          · intro y hy hpos
            obtain ⟨hy, hyc⟩ := List.mem_filter.mp hy
            rw [hone y hy hpos, ha] at hyc
            simp [hca.symm] at hyc

/-! ## Links (R182, R183) -/

theorem linkOlder_writesOwn (k : Nat) : WritesOwn (linkOlder k) := by
  intro g
  induction g with
  | nil => exact fun w hw => absurd hw List.not_mem_nil
  | cons a g ih =>
    intro w hw
    cases g with
    | nil => exact absurd hw List.not_mem_nil
    | cons b g =>
      rcases List.mem_cons.mp hw with rfl | hw
      · exact ⟨b, List.mem_cons_of_mem _ List.mem_cons_self, rfl⟩
      · obtain ⟨m, hm, hpos⟩ := ih w hw
        exact ⟨m, List.mem_cons_of_mem _ hm, hpos⟩

theorem slotAfter_linkOlder_cons (k : Nat) (a b : Member) (g : List Member) (p : Nat) (x : Slot) :
    slotAfter (linkOlder k (a :: b :: g)) p x
      = slotAfter (linkOlder k (b :: g)) p (if b.pos = p then .entry a.pos k else x) := rfl

/-- A member of a list in order is linked to the one before it; the first keeps what it has. -/
theorem slotAfter_linkOlder (k : Nat) : ∀ (g : List Member) (x : Slot), g.Pairwise (·.pos < ·.pos) → m ∈ g →
    ((∀ y ∈ g, m.pos ≤ y.pos) ∧ slotAfter (linkOlder k g) m.pos x = x)
      ∨ ∃ q ∈ g, q.pos < m.pos ∧ (∀ y ∈ g, y.pos < m.pos → y.pos ≤ q.pos)
          ∧ slotAfter (linkOlder k g) m.pos x = .entry q.pos k := by
  intro g
  induction g with
  | nil => exact fun _ _ hm => absurd hm List.not_mem_nil
  | cons a g ih =>
    intro x hord hm
    obtain ⟨hfirst, hord⟩ := List.pairwise_cons.mp hord
    cases g with
    | nil =>
      obtain rfl := List.mem_singleton.mp hm
      exact .inl ⟨fun y hy => (List.mem_singleton.mp hy) ▸ Nat.le_refl _, rfl⟩
    | cons b g =>
      rw [slotAfter_linkOlder_cons]
      rcases List.mem_cons.mp hm with rfl | hm
      · refine .inl ⟨List.forall_mem_cons.mpr ⟨Nat.le_refl _, fun y hy => Nat.le_of_lt (hfirst y hy)⟩, ?_⟩
        rw [(linkOlder_writesOwn k).slotAfter_other fun y hy => Nat.ne_of_gt (hfirst y hy),
          if_neg (Nat.ne_of_gt (hfirst b List.mem_cons_self))]
      · have ham := hfirst m hm
        rcases ih (if b.pos = m.pos then .entry a.pos k else x) hord hm with ⟨hleast, hslot⟩ | ⟨q, hq, hqm, hnear, hslot⟩
        · have hbm : b.pos = m.pos := by
            rcases List.mem_cons.mp hm with rfl | hm
            · rfl
            · exact Nat.le_antisymm (Nat.le_of_lt ((List.pairwise_cons.mp hord).1 m hm)) (hleast b List.mem_cons_self)
          refine .inr ⟨a, List.mem_cons_self, ham, List.forall_mem_cons.mpr ⟨fun _ => Nat.le_refl _, fun y hy hym => ?_⟩,
            hslot.trans (if_pos hbm)⟩
          exact absurd hym (Nat.not_lt.mpr (hleast y hy))
        · exact .inr ⟨q, List.mem_cons_of_mem _ hq, hqm,
            List.forall_mem_cons.mpr ⟨fun _ => Nat.le_of_lt (hfirst q hq), hnear⟩, hslot⟩

/-! ## Agreement byte by byte -/

theorem Agrees.mono {q : Nat} (h : Agrees d p q k) (hj : j ≤ k) : Agrees d p q j :=
  ⟨(Nat.add_le_add_left hj p).trans h.1, fun i hi => h.2 i (hi.trans_le hj)⟩

theorem agrees_succ (q : Nat) :
    Agrees d p q (k + 1) ↔ Agrees d p q k ∧ d[p + k]? ≠ none ∧ d[q + k]? = d[p + k]? := by
  unfold Agrees
  rw [Nat.forall_lt_succ_right, ne_eq, List.getElem?_eq_none_iff, eq_comm (a := d[q + k]?)]
  constructor
  · exact fun ⟨hend, hagree, hbyte⟩ => ⟨⟨by omega, hagree⟩, by omega, hbyte⟩
  · exact fun ⟨⟨_, hagree⟩, hend, hbyte⟩ => ⟨by omega, hagree, hbyte⟩

/-- A slot under contract stays so for any higher cap, if no earlier position agrees on more bytes. -/
theorem SlotContract.of_no_longer {mode : MfMode} {c : Nat} (h : SlotContract mode d k p x)
    (hnone : ∀ q < p, ¬ Agrees d p q (k + 1)) (hc : k ≤ c) : SlotContract mode d c p x := by
  cases x with
  | null => exact h
  | entry link len =>
    obtain ⟨hlink, h2, hlen, hagree, hlongest, hnear⟩ := h
    refine ⟨hlink, h2, hlen.trans hc, hagree, fun q hq i _ hi => ?_, hnear⟩
    have hik : i ≤ k := Nat.not_lt.mp fun hki => hnone q hq (hi.mono hki)
    exact hlongest q hq i hik hi

/-- In `CANONICAL` mode the contract fixes the slot (R175). -/
theorem SlotContract.canonical_unique {c : Nat} {y : Slot} (hx : SlotContract .canonical d c p x)
    (hy : SlotContract .canonical d c p y) : x = y := by
  cases x with
  | null =>
    cases y with
    | null => rfl
    | entry link len =>
      obtain ⟨hlink, h2, -, hagree, -⟩ := hy
      exact absurd (hagree.mono h2) (hx link hlink)
  | entry link len =>
    obtain ⟨hlink, h2, hlen, hagree, hlongest, hnear⟩ := hx
    cases y with
    | null => exact absurd (hagree.mono h2) (hy link hlink)
    | entry link' len' =>
      obtain ⟨hlink', -, hlen', hagree', hlongest', hnear'⟩ := hy
      obtain rfl : len = len' :=
        Nat.le_antisymm (hlongest' link hlink len hlen hagree) (hlongest link' hlink' len' hlen' hagree')
      rcases Nat.lt_trichotomy link link' with hlt | rfl | hgt
      · exact absurd hagree' (hnear rfl link' hlink' hlt)
      · rfl
      · exact absurd hagree (hnear' rfl link hlink hgt)

/-! ## Lists under refinement -/

/-- A list at depth `k`: in position order, each member with the block from its `k`th byte on, and of the positions before
a member exactly those listed that agree with it on `k` bytes. -/
structure Sharing (d : List Byte) (k : Nat) (ms : List Member) : Prop where
  sorted : ms.Pairwise (·.pos < ·.pos)
  rest   : ∀ m ∈ ms, m.rest = d.drop (m.pos + k)
  older  : ∀ m ∈ ms, ∀ q < m.pos, Agrees d m.pos q k ↔ ∃ y ∈ ms, y.pos = q

/-- The key of a member names the `j` bytes of it after the first `k`. -/
def KeyNames (key : Member → Option K) (d : List Byte) (k j : Nat) (ms : List Member) : Prop :=
  ∀ m ∈ ms, ∀ y ∈ ms, y.pos < m.pos → (Agrees d m.pos y.pos (k + j) ↔ key m ≠ none ∧ key y = key m)

/-- A member `j` bytes further. -/
def Member.advance (j : Nat) (m : Member) : Member := ⟨m.pos, m.rest.drop j⟩

theorem Sharing.injective (h : Sharing d k ms) (hm : m ∈ ms) : ∀ y ∈ ms, y.pos = m.pos → y = m :=
  fun _ hy hpos => List.inj_on_of_nodup_map (List.pairwise_map.mpr (h.sorted.imp Nat.ne_of_lt)) hy hm hpos

/-- The sub-list of a key is a list `j` bytes deeper. -/
theorem Sharing.split (h : Sharing d k ms) (hkey : KeyNames key d k j ms) (a : K) :
    Sharing d (k + j) ((ms.filter fun y => key y == some a).map (Member.advance j)) where
  sorted := List.pairwise_map.mpr (h.sorted.filter _)
  rest := by
    simp only [List.forall_mem_map]
    intro m hm
    change m.rest.drop j = d.drop (m.pos + (k + j))
    rw [h.rest m (List.mem_of_mem_filter hm), List.drop_drop, Nat.add_assoc]
  older := by
    simp only [List.mem_map, exists_exists_and_eq_and]
    rintro _ ⟨m, hm, rfl⟩ q hq
    obtain ⟨hm, ha⟩ := List.mem_filter.mp hm
    have ha : key m = some a := by simpa using ha
    constructor
    · intro hagree
      obtain ⟨y, hy, rfl⟩ := (h.older m hm q hq).mp (hagree.mono (Nat.le_add_right k j))
      obtain ⟨-, hsame⟩ := (hkey m hm y hy hq).mp hagree
      exact ⟨y, List.mem_filter.mpr ⟨hy, by simp [hsame, ha]⟩, rfl⟩
    · rintro ⟨y, hy, rfl⟩
      obtain ⟨hy, hya⟩ := List.mem_filter.mp hy
      exact (hkey m hm y hy hq).mpr ⟨by simp [ha], by simpa [ha] using hya⟩

/-- Links of a list at depth `k` meet the contract for the cap `k`, if a slot that keeps what it has does. -/
theorem Sharing.linkOlder_contract (h : Sharing d k g) (h2 : 2 ≤ k) (hm : m ∈ g)
    (hx : (∀ q < m.pos, ¬ Agrees d m.pos q k) → SlotContract .canonical d k m.pos x) :
    SlotContract .canonical d k m.pos (slotAfter (linkOlder k g) m.pos x) := by
  rcases slotAfter_linkOlder k g x h.sorted hm with ⟨hleast, hslot⟩ | ⟨q, hq, hqm, hnear, hslot⟩ <;> rw [hslot]
  · refine hx fun q hq hagree => ?_
    obtain ⟨y, hy, rfl⟩ := (h.older m hm q hq).mp hagree
    exact absurd hq (Nat.not_lt.mpr (hleast y hy))
  · refine ⟨hqm, h2, Nat.le_refl k, (h.older m hm _ hqm).mpr ⟨q, hq, rfl⟩, fun _ _ _ hi _ => hi,
      fun _ q' hq' hgt hagree => ?_⟩
    obtain ⟨y, hy, rfl⟩ := (h.older m hm q' hq').mp hagree
    exact absurd hgt (Nat.not_lt.mpr (hnear y hy hq'))

/-! ## The procedure -/

/-- The writes for a sub-list at depth `k`, whose members still stand `j` bytes before it: its links and its refinement. -/
def groupWrites (n k j : Nat) (g : List Member) : List (Nat × Slot) :=
  linkOlder k g ++ refineList n k (g.map (Member.advance j))

theorem refineList_succ (n k : Nat) (ms : List Member) :
    refineList (n + 1) k ms = splitWrites nextKey (groupWrites n (k + 1) 1) ms.length ms := by
  unfold refineList splitWrites groupWrites Member.advance
  simp only [List.drop_one]

theorem radixWrites_eq (d : List Byte) (c : Nat) :
    radixWrites d c = splitWrites seedKey (groupWrites (c - 2) 2 2) d.length (membersFrom 0 d) := rfl

theorem linkOlder_advance (k j : Nat) (g : List Member) : linkOlder k (g.map (Member.advance j)) = linkOlder k g := by
  induction g with
  | nil => rfl
  | cons a g ih =>
    cases g with
    | nil => rfl
    | cons b g => exact congrArg ((b.pos, Slot.entry a.pos k) :: ·) ih

theorem groupWrites_writesOwn (hn : WritesOwn (refineList n k)) (j : Nat) : WritesOwn (groupWrites n k j) := by
  intro g w hw
  rcases List.mem_append.mp hw with hw | hw
  · exact linkOlder_writesOwn k g w hw
  · obtain ⟨_, hm, hpos⟩ := hn _ w hw
    obtain ⟨m, hmg, rfl⟩ := List.mem_map.mp hm
    exact ⟨m, hmg, hpos⟩

theorem refineList_writesOwn (n : Nat) : ∀ k, WritesOwn (refineList n k) := by
  induction n with
  | zero => exact fun k g w hw => absurd hw List.not_mem_nil
  | succ n ih =>
    intro k g w hw
    rw [refineList_succ] at hw
    exact (groupWrites_writesOwn (ih (k + 1)) 1).splitWrites nextKey _ g w hw

/-- The writes of a split list bring the slots from a depth to the cap, if refinement does so from the next depth. -/
theorem Sharing.splitWrites_contract {c fuel : Nat} (h : Sharing d k ms) (hkey : KeyNames key d k j ms) (h2 : 2 ≤ k + j)
    (hc : k + j ≤ c)
    (hrefine : ∀ (g : List Member) (m : Member) (x : Slot), Sharing d (k + j) g → m ∈ g →
      SlotContract .canonical d (k + j) m.pos x →
      SlotContract .canonical d c m.pos (slotAfter (refineList n (k + j) g) m.pos x))
    (hfuel : ms.length ≤ fuel) (hm : m ∈ ms)
    (hx : (∀ q < m.pos, ¬ Agrees d m.pos q (k + j)) → ∀ b, k + j ≤ b → SlotContract .canonical d b m.pos x) :
    SlotContract .canonical d c m.pos (slotAfter (splitWrites key (groupWrites n (k + j) j) fuel ms) m.pos x) := by
  have hown := groupWrites_writesOwn (refineList_writesOwn n (k + j)) j
  have hone := h.injective hm
  cases hkm : key m with
  | none =>
    rw [slotAfter_splitWrites_none hown fuel ms x fun y hy hpos => hone y hy hpos ▸ hkm]
    refine hx (fun q hq hagree => ?_) c hc
    obtain ⟨y, hy, rfl⟩ := (h.older m hm q hq).mp (hagree.mono (Nat.le_add_right k j))
    exact ((hkey m hm y hy hq).mp hagree).1 hkm
  | some a =>
    rw [slotAfter_splitWrites_some hown hkm fuel ms x hfuel hm hone, groupWrites, slotAfter_append,
      ← linkOlder_advance (k + j) j]
    have hsplit := h.split hkey a
    have hm' : m.advance j ∈ (ms.filter fun y => key y == some a).map (Member.advance j) :=
      List.mem_map_of_mem (List.mem_filter.mpr ⟨hm, by simp [hkm]⟩)
    exact hrefine _ (m.advance j) _ hsplit hm' (hsplit.linkOlder_contract h2 hm' fun hnone => hx hnone _ (Nat.le_refl _))

/-- The next byte extends an agreement by one (R183). -/
theorem Sharing.nextKey_names (h : Sharing d k ms) : KeyNames nextKey d k 1 ms := by
  intro m hm y hy hlt
  have hagree := (h.older m hm _ hlt).mpr ⟨y, hy, rfl⟩
  rw [agrees_succ, nextKey, nextKey, h.rest m hm, h.rest y hy, List.head?_drop, List.head?_drop]
  exact and_iff_right hagree

/-- The seed key is the first two bytes (R182). -/
theorem seedKey_eq (m : Member) : seedKey m = m.rest[0]?.bind fun a => m.rest[1]?.map fun b => (a, b) := by
  unfold seedKey
  cases m.rest with
  | nil => rfl
  | cons a rest => cases rest <;> rfl

/-- Two bytes that both begin a block agree exactly when their keys do. -/
theorem Sharing.seedKey_names (h : Sharing d 0 ms) : KeyNames seedKey d 0 2 ms := by
  intro m hm y hy hlt
  have hagree := (h.older m hm _ hlt).mpr ⟨y, hy, rfl⟩
  rw [agrees_succ, agrees_succ, and_iff_right hagree, seedKey_eq, seedKey_eq, h.rest m hm, h.rest y hy]
  simp only [List.getElem?_drop, Nat.add_zero]
  generalize d[m.pos]? = a, d[m.pos + 1]? = b, d[y.pos]? = a', d[y.pos + 1]? = b'
  cases a with
  | none => simp
  | some a =>
    cases b with
    | none => simp
    | some b => simp [Option.bind_eq_some_iff]

theorem membersFrom_eq (d : List Byte) : ∀ p,
    membersFrom p d = (List.range d.length).map fun i => ⟨p + i, d.drop i⟩ := by
  induction d with
  | nil => exact fun _ => rfl
  | cons b d ih =>
    intro p
    rw [membersFrom, ih, List.length_cons, List.range_succ_eq_map, List.map_cons, List.map_map]
    refine congrArg (_ :: ·) (List.map_congr_left fun i _ => ?_)
    rw [Nat.add_assoc, Nat.add_comm 1]
    rfl

theorem mem_membersFrom_zero : m ∈ membersFrom 0 d ↔ m.pos < d.length ∧ m.rest = d.drop m.pos := by
  simp only [membersFrom_eq, List.mem_map, List.mem_range, Nat.zero_add]
  constructor
  · rintro ⟨i, hi, rfl⟩
    exact ⟨hi, rfl⟩
  · exact fun ⟨hm, hrest⟩ => ⟨m.pos, hm, hrest ▸ rfl⟩

/-- Before the seed pass every position is listed, agreeing on no byte. -/
theorem membersFrom_sharing (d : List Byte) : Sharing d 0 (membersFrom 0 d) where
  sorted := by
    rw [membersFrom_eq, List.pairwise_map]
    exact List.pairwise_lt_range.imp (Nat.add_lt_add_left · 0)
  rest m hm := (mem_membersFrom_zero.mp hm).2
  older m hm q hq := by
    obtain ⟨hend, -⟩ := mem_membersFrom_zero.mp hm
    exact iff_of_true ⟨Nat.le_of_lt hend, nofun⟩
      ⟨⟨q, d.drop q⟩, mem_membersFrom_zero.mpr ⟨hq.trans hend, rfl⟩, rfl⟩

/-- Refinement brings the slots of a list from its depth to the cap (R183). -/
theorem Sharing.refineList_contract (n : Nat) : ∀ (k : Nat) (ms : List Member) (m : Member) (x : Slot), 2 ≤ k →
    Sharing d k ms → m ∈ ms → SlotContract .canonical d k m.pos x →
    SlotContract .canonical d (k + n) m.pos (slotAfter (refineList n k ms) m.pos x) := by
  induction n with
  | zero => exact fun _ _ _ _ _ _ _ hx => hx
  | succ n ih =>
    intro k ms m x h2 h hm hx
    rw [refineList_succ]
    refine h.splitWrites_contract h.nextKey_names (by omega) (by omega) (fun g y z hg hy hz => ?_) (Nat.le_refl _) hm
      fun hnone b hb => hx.of_no_longer hnone (by omega)
    rw [← Nat.add_assoc, Nat.add_right_comm]
    exact ih (k + 1) g y z (by omega) hg hy hz

/-- The slots of the source's procedure meet the contract of R175. -/
theorem radixSlots_contract (d : List Byte) {c p : Nat} (hc : 2 ≤ c) (hp : p < d.length) :
    SlotContract .canonical d c p (slotAfter (radixWrites d c) p .null) := by
  have hm : ⟨p, d.drop p⟩ ∈ membersFrom 0 d := mem_membersFrom_zero.mpr ⟨hp, rfl⟩
  have hlen : (membersFrom 0 d).length ≤ d.length := by
    rw [membersFrom_eq, List.length_map, List.length_range]
  rw [radixWrites_eq]
  have h := membersFrom_sharing d
  refine h.splitWrites_contract (n := c - 2) h.seedKey_names (Nat.le_refl 2) hc (fun g y z hg hy hz => ?_) hlen hm
    fun hnone b _ => hnone
  have h := Sharing.refineList_contract (c - 2) 2 g y z (Nat.le_refl 2) hg hy hz
  rwa [Nat.add_sub_of_le hc] at h

end Sys2Proof.Machine

open Sys2Proof Sys2Proof.Machine

/-- Settles O44: the procedure's slots meet the contract as those of a build do, and the contract fixes them. -/
theorem radixBuildsCanonicalTable : Obligations.RadixBuildsCanonicalTable := by
  intro d c draw hc
  refine List.ext_getElem? fun p => ?_
  rcases Nat.lt_or_ge p d.length with hp | hp
  · have hslot : (buildSlots .canonical draw d c)[p]? = some (slotFor .canonical draw d c p) := by
      rw [buildSlots, List.getElem?_map, List.getElem?_range hp, Option.map_some]
    rw [radixSlots_getElem? c hp, hslot, Option.some_inj]
    exact (radixSlots_contract d hc hp).canonical_unique (slotFor_contract .canonical draw d c p (Nat.le_of_lt hp) hc)
  · have hlen : (buildSlots .canonical draw d c).length = d.length := List.length_map _ |>.trans List.length_range
    rw [List.getElem?_eq_none ((radixSlots_length d c).trans_le hp), List.getElem?_eq_none (hlen.trans_le hp)]

end

section
/-! PROOFS. How many bytes a coding operation adds, and how it halts (40_range_coder.md R141, R143, 43_parse.md R257): from
any healthy coder, whatever the form of its probability memory. -/

namespace Sys2Proof.Machine

variable {k m n : Nat} {f g : Enc → Except Halt Enc}

/-! ## How a coder halts -/

/-- The halts of a coder with the sink `room` whose count of bytes emitted and pending would reach `n`: a bounded sink is
full (R141), or the count of pending bytes is (R143). -/
def Overflows (room : Option Nat) (n : Nat) (h : Halt) : Prop :=
  (h = .fault .destinationTooSmall ∧ room ≠ none) ∨ (h = .fault .internal ∧ 2 ^ 32 ≤ n)

theorem Overflows.mono {room : Option Nat} {h : Halt} (ho : Overflows room n h) (hnm : n ≤ m) : Overflows room m h :=
  ho.imp_right fun ⟨hh, hn⟩ => ⟨hh, hn.trans hnm⟩

theorem emitRun_overflows (first rest : Byte) (j : Nat) (e : Enc) :
    Ends (fun _ => True) (Overflows e.room n) (emitRun first rest j e) := by
  unfold emitRun
  split
  · next hroom => exact .ite (fun _ => trivial) fun _ => .inl ⟨rfl, hroom ▸ nofun⟩
  · trivial

theorem pushByte_overflows (e : Enc) (hn : e.lane.rc.cacheSize.toNat + 1 ≤ n) :
    Ends (fun _ => True) (Overflows e.room n) (pushByte e) :=
  .ite (fun (h : e.lane.rc.cacheSize.toNat = 2 ^ 32 - 1) => .inr ⟨rfl, by omega⟩) fun _ => trivial

/-- A shift with a byte pending adds one to the bytes emitted and pending. -/
theorem shiftLow_overflows (e : Enc) (hc : 1 ≤ e.lane.rc.cacheSize.toNat) :
    Ends (fun e' => shiftLow e = .ok e') (Overflows e.room (e.coded.shifts + 1)) (shiftLow e) := by
  have hne : e.lane.rc.cacheSize ≠ 0 := fun h => by simp [h] at hc
  have hflush : Ends (fun a => a.room = e.room ∧ a.lane.rc.cacheSize = 0) (Overflows e.room (e.coded.shifts + 1))
      (flushPending e) := by
    refine .ite (fun h => absurd h hne) fun _ => (emitRun_overflows _ _ _ e).answer.bind fun a ha => .pure ⟨?_, rfl⟩
    obtain ⟨-, rfl⟩ := (emitRun_ok _ _ _ e a).mp ha.1
    rfl
  have h : Ends (fun _ => True) (Overflows e.room (e.coded.shifts + 1)) (shiftLow e) :=
    .ite (fun _ => hflush.bind fun a ⟨hroom, hzero⟩ => hroom ▸ pushByte_overflows a (by rw [hzero]; exact Nat.le_add_left ..))
      fun _ => pushByte_overflows e (Nat.add_le_add_right (Nat.le_add_left ..) 1)
  exact h.answer.imp (fun _ h => h.1) fun _ h => h

/-- A renormalisation makes at most the one shift that its range asks for. -/
theorem renormalise_overflows (e : Enc) (h : e.lane.rc.Narrowed) :
    Ends (fun e' => renormalise renormRounds e = .ok e') (Overflows e.room e.coded.renormalised.shifts)
      (renormalise renormRounds e) := by
  rw [renormalise_one e h]
  refine .ite (fun hlt => ?_) fun hge => .pure (if_neg hge)
  rw [CodedNumber.renormalised, if_pos (show e.coded.range < 2 ^ 24 from hlt), if_pos hlt]
  exact shiftLow_overflows e.widen h.2.2.1

/-! ## Operations that add at most so many bytes -/

/-- From a healthy coder `f` leaves a healthy one with the same sink and at most `k` bytes more emitted and pending, or
halts where there is no room for them. -/
def Grows (k : Nat) (f : Enc → Except Halt Enc) : Prop :=
  ∀ e : Enc, e.lane.Healthy →
    Ends (fun e' => e'.lane.Healthy ∧ e'.room = e.room ∧ e'.coded.shifts ≤ e.coded.shifts + k)
      (Overflows e.room (e.coded.shifts + k)) (f e)

namespace Grows

theorem mono (h : Grows k f) (hk : k ≤ m) : Grows m f := fun e he =>
  (h e he).imp (fun _ ⟨hh, hroom, hs⟩ => ⟨hh, hroom, hs.trans (Nat.add_le_add_left hk _)⟩) fun _ ho =>
    ho.mono (Nat.add_le_add_left hk _)

theorem andThen (hf : Grows k f) (hg : Grows m g) : Grows (k + m) fun e => f e >>= g := fun e he =>
  ((hf e he).imp (fun _ h => h) fun _ ho => ho.mono (by omega)).bind fun a ⟨ha, hroom, hs⟩ =>
    (hg a ha).imp (fun _ ⟨hb, hroom', hs'⟩ => ⟨hb, hroom'.trans hroom, by omega⟩) fun _ ho =>
      hroom ▸ ho.mono (by omega)

theorem ite {c : Prop} [Decidable c] (hf : c → Grows k f) (hg : ¬ c → Grows k g) : Grows k fun e => if c then f e else g e :=
  fun e he => .ite (fun hc => hf hc e he) fun hc => hg hc e he

theorem onLane {f : Lane → Enc → Except Halt Enc} (h : ∀ l, Grows k (f l)) : Grows k fun e => f e.lane e :=
  fun e he => h e.lane e he

theorem done : Grows 0 .ok := fun _ he => ⟨he, rfl, Nat.le_refl _⟩

theorem setSt (st : Fin 12) : Grows 0 fun e => .ok (e.setSt st) := fun _ he => ⟨he, rfl, Nat.le_refl _⟩

theorem setReps (reps : Enc → Reps) : Grows 0 fun e => .ok (e.setReps (reps e)) := fun _ he => ⟨he, rfl, Nat.le_refl _⟩

/-! ### The coder (R144 to R152) -/

theorem bit (i : Nat) (b : Bool) : Grows 1 (encodeBit i b) := by
  intro e he
  obtain ⟨hrc, hprob, -⟩ := id he
  have hp := hprob.read i
  obtain ⟨hnarrow, -, -, -, -, -, hroom⟩ := splitRange_narrowed i b e hrc hp
  have hshifts : (e.coded.bit (e.prob i) b).shifts ≤ e.coded.shifts + 1 := by
    have := Decision.shifts_move (e.coded, fun _ => e.prob i) (.word i b)
    simp only [Decision.move] at this
    omega
  refine (renormalise_overflows _ hnarrow).imp (fun e' h' => ?_) fun h ho => ?_
  · refine ⟨(encodeBit_healthy i b e he).of_ok h', ?_, encodeBit_coded i b e e' hrc hp h' ▸ hshifts⟩
    obtain ⟨-, -, -, hroom', -⟩ := renormalise_ok _ e' hnarrow h'
    exact hroom'.trans hroom
  · rw [splitRange_renormalised i b e hrc hp, hroom] at ho
    exact ho.mono hshifts

/-- One round of `EncodeDirect`, exactly. -/
theorem half_coded (b : Bool) (e : Enc) (he : e.lane.Healthy) :
    Ends (fun e' => e'.lane.Healthy ∧ e'.room = e.room ∧ e'.coded = e.coded.half b)
      (Overflows e.room (e.coded.half b).shifts) (renormalise renormRounds (halveRange b e)) := by
  obtain ⟨hrc, -⟩ := id he
  obtain ⟨hnarrow, -, -, -, -, -, hroom, -⟩ := halveRange_narrowed b e hrc
  refine (renormalise_overflows _ hnarrow).imp (fun e' h' => ?_) fun h ho => ?_
  · refine ⟨(halveRange_healthy b e he).of_ok h', ?_, halveRange_coded b e e' hrc h'⟩
    obtain ⟨-, -, -, hroom', -⟩ := renormalise_ok _ e' hnarrow h'
    exact hroom'.trans hroom
  · rwa [halveRange_renormalised b e hrc, hroom] at ho

/-- Direct bits, exactly; they use no word, whatever the words `w` are. -/
theorem direct_coded (w : Nat → Nat) (v n : Nat) : ∀ e : Enc, e.lane.Healthy →
    Ends (fun e' => e'.lane.Healthy ∧ e'.room = e.room ∧ e'.coded = (decided (e.coded, w) (directBits v n)).1)
      (Overflows e.room (decided (e.coded, w) (directBits v n)).1.shifts) (encodeDirect v n e) := by
  induction n with
  | zero => exact fun e he => ⟨he, rfl, rfl⟩
  | succ n ih =>
    intro e he
    rw [directBits_succ, decided_cons]
    refine ((half_coded (v.testBit n) e he).imp (fun _ h => h) fun _ ho => ho.mono ?_).bind fun a ⟨ha, hroom, hcoded⟩ => ?_
    · exact (decided_shifts (directBits v n) (e.coded.half (v.testBit n), w)).1
    · have hrest := ih a ha
      rw [hcoded, hroom] at hrest
      exact hrest

theorem direct (v n : Nat) : Grows ((n + 7) / 8) (encodeDirect v n) := by
  intro e he
  have hshifts := directBits_shifts v n e.coded (fun _ => 0) 0 (Nat.zero_le 7) he.1.1
  exact (direct_coded (fun _ => 0) v n e he).imp (fun _ ⟨hh, hroom, hcoded⟩ => ⟨hh, hroom, hcoded ▸ hshifts⟩) fun _ ho =>
    ho.mono hshifts

/-- Shifts with a byte pending. -/
theorem shiftLows_counted (n : Nat) : ∀ e : Enc, 1 ≤ e.lane.rc.cacheSize.toNat →
    Ends (fun e' => e'.room = e.room ∧ e'.coded.shifts = e.coded.shifts + n) (Overflows e.room (e.coded.shifts + n))
      (shiftLows n e) := by
  induction n with
  | zero => exact fun e _ => ⟨rfl, rfl⟩
  | succ n ih =>
    intro e hc
    refine ((shiftLow_overflows e hc).imp (fun _ h => h) fun _ ho => ho.mono (by omega)).bind fun a ha => ?_
    obtain ⟨hroom, -, -, -, hpending, hcount, -⟩ := shiftLow_ok e a ha hc
    have hcount : a.coded.shifts = e.coded.shifts + 1 := hcount
    refine (ih a hpending).imp (fun _ ⟨hroom', hs⟩ => ⟨hroom'.trans hroom, by omega⟩) fun _ ho => hroom ▸ ho.mono (by omega)

theorem flush : Grows 5 flush := fun e he => by
  obtain ⟨⟨-, -, hpending, -⟩, -⟩ := id he
  exact (shiftLows_counted 5 e hpending).answer.imp
    (fun _ ⟨hok, hroom, hs⟩ => ⟨(flush_healthy e he).of_ok hok, hroom, hs.le⟩) fun _ ho => ho

theorem treeFrom (base s n : Nat) : ∀ j, Grows n (encodeTreeFrom base s n j) := by
  induction n with
  | zero => exact fun _ => done
  | succ n ih => exact fun _ => ((bit _ _).andThen (ih _)).mono (by omega)

theorem tree (base n s : Nat) : Grows n (encodeTree base n s) := treeFrom base s n 1

theorem treeRevFrom (base n : Nat) : ∀ s j, Grows n (encodeTreeRevFrom base n s j) := by
  induction n with
  | zero => exact fun _ _ => done
  | succ n ih => exact fun _ _ => ((bit _ _).andThen (ih _ _)).mono (by omega)

theorem treeRev (base n s : Nat) : Grows n (encodeTreeRev base n s) := treeRevFrom base n s 1

/-! ### Symbols (R214 to R220) -/

theorem len (base l ps : Nat) : Grows 10 (encodeLen base l ps) :=
  .ite (fun _ => ((bit _ _).andThen (tree _ 3 _)).mono (by decide)) fun _ => .ite
    (fun _ => ((bit _ _).andThen ((bit _ _).andThen (tree _ 3 _))).mono (by decide))
    fun _ => (bit _ _).andThen ((bit _ _).andThen (tree _ 8 _))

/-- A distance: six bits of its slot, and then five, or four shifts of the direct bits and four bits. -/
theorem dist (len : Nat) {dist : Nat} (hd : dist < 2 ^ 32) : Grows 14 (encodeDist dist len) := by
  have hslot := slotOf_lt dist hd
  rw [slotOf_eq] at hslot
  have hfooter : slotFooter (posSlot dist) = posSlot dist / 2 - 1 := rfl
  exact (tree _ 6 _).andThen <| .ite (fun _ => done.mono (Nat.zero_le 8)) fun _ => .ite
    (fun _ => (treeRev _ _ _).mono (by omega))
    fun _ => ((direct _ _).andThen (treeRev _ 4 _)).mono (by omega)

theorem matchedFrom (base n : Nat) : ∀ mb offs sym, Grows n (matchedLiteralFrom base n mb offs sym) := by
  induction n with
  | zero => exact fun _ _ _ => done
  | succ n ih => exact fun _ _ _ => ((bit _ _).andThen (ih _ _ _)).mono (by omega)

theorem repIndex (st r ps : Nat) : Grows 3 (encodeRepIndex st r ps) :=
  .ite (fun _ => ((bit _ _).andThen (bit _ _)).mono (by decide)) fun _ => (bit _ _).andThen <| .ite
    (fun _ => (bit _ _).mono (by decide)) fun _ => (bit _ _).andThen (bit _ _)

theorem literal (x : SymCtx) (p : Nat) : Grows 9 (encodeLiteral x p) := fun e he =>
  ((bit _ _).andThen <| .ite (fun _ => (tree _ 8 _).andThen (setSt _)) fun _ =>
    .onLane (f := fun l a => matchedLiteralFrom _ 8 (matchedByte x p l.reps.rep0.toNat).toNat 0x100
      ((Memory.read x.dict p).toNat + 0x100) a >>= fun a => .ok (a.setSt (literalNext e.lane.st)))
      fun _ => (matchedFrom _ 8 _ _ _).andThen (setSt _)) e he

theorem mtch (x : SymCtx) (p len : Nat) {dist : Nat} (hd : dist < 2 ^ 32) : Grows 26 (encodeMatch x p len dist) := fun e he =>
  ((bit _ _).andThen <| (bit _ _).andThen <| (Grows.len _ _ _).andThen <| (Grows.dist _ hd).andThen <|
    (setReps fun a => a.lane.reps.push (BitVec.ofNat 32 dist)).andThen (setSt (matchNext e.lane.st))) e he

theorem rep (x : SymCtx) (p len r : Nat) : Grows 15 (encodeRep x p len r) := fun e he =>
  ((bit _ _).andThen <| (bit _ _).andThen <| (repIndex _ _ _).andThen <|
    (setReps fun a => a.lane.reps.toFront r).andThen <| (Grows.len _ _ _).andThen (setSt (repNext e.lane.st))) e he

theorem shortRep (x : SymCtx) (p : Nat) : Grows 4 (encodeShortRep x p) := fun e he =>
  ((bit _ _).andThen <| (bit _ _).andThen <| (bit _ _).andThen <| (bit _ _).andThen (setSt (shortRepNext e.lane.st))) e he

end Grows

/-- A healthy lane with its words in canonical form is good to code from. -/
theorem Enc.Good.of_healthy {e : Enc} (h : e.lane.Healthy) (hwf : ProbMem.wf e.lane.prob = true) : e.Good := by
  obtain ⟨hrc, hprob, -⟩ := h
  exact ⟨hrc, hprob, hwf⟩

end Sys2Proof.Machine

open Sys2Proof Sys2Proof.Machine

/-- Settles O51: no symbol takes more than 26 shifts, and the bits and the coding state are those of `Symbol.code_codes`. -/
theorem symbolGrowth : Obligations.SymbolGrowth := by
  refine ⟨fun x p len dist r e e' he _ _ hd h => ?_, fun x p y e e' he hwf hy h => ?_⟩
  · have bound {k : Nat} {f : Enc → Except Halt Enc} (hf : Grows k f) (hk : k ≤ 26) (h : f e = .ok e') :
        e'.coded.shifts ≤ e.coded.shifts + 26 := ((hf.mono hk e he).of_ok h).2.2
    rcases h with h | h | h | h
    · exact bound (.literal x p) (by decide) h
    · exact bound (.mtch x p len hd) (Nat.le_refl _) h
    · exact bound (.rep x p len r) (by decide) h
    · exact bound (.shortRep x p) (by decide) h
  · obtain ⟨hgood, hroom, hmoved, hlane, hst, hreps⟩ := y.code_codes x p hy e e' (.of_healthy he hwf) h
    have hsnap : e'.lane.snap = e.lane.snap := by rw [hlane]
    exact ⟨⟨hgood.healthy, hgood.inRange, hsnap ▸ he.2.2⟩, hroom, hmoved, hst, hreps, hlane⟩

end

section
/-! PROOFS. The commands that edit a lane's coding state: `ENC_RESET_STATE`, `ENC_SNAPSHOT`, `ENC_ROLLBACK`
(42_lzma_symbols.md R221, R226, R227). -/

namespace Sys2Proof.Machine

variable {i : Instr} {s : State} {L : Nat} {l : Lane}

/-! ## A lane edited behind one check -/

/-- The computation of a command that makes one check of its lane and then edits it. -/
def editBody (L : Nat) (ok : State → Lane → Bool) (c : Code) (edit : State → Lane → Lane) (u : State) : Except Halt State :=
  u.getLane L >>= fun l => check (ok u l) c >>= fun _ => .ok (u.setLane L (edit u l))

theorem exec_encResetState (s : State) (L : Nat) : exec (.encResetState L) s = conclude (.encResetState L) s
    (editBody L (fun u _ => u.cfg.propsLegal) .invalidParameter fun u l => l.resetState u.cfg.lc u.cfg.lp u.cfg.pb) := rfl

theorem exec_encSnapshot (s : State) (L : Nat) : exec (.encSnapshot L) s = conclude (.encSnapshot L) s
    (editBody L (fun _ l => l.init) .sequenceError fun _ l => l.takeSnapshot) := rfl

theorem exec_encRollback (s : State) (L : Nat) : exec (.encRollback L) s = conclude (.encRollback L) s
    (editBody L (fun _ l => l.snapValid) .sequenceError fun _ l => { l.rollBack with init := true }) := rfl

section
variable {ok : State → Lane → Bool} {c : Code} {edit : State → Lane → Lane}
  (hexec : exec i s = conclude i s (editBody L ok c edit))
include hexec

theorem edit_missing (h : s.nLanes ≤ L) : exec i s = .next (s.faultCommit (encode i) .invalidParameter) :=
  exec_fault_of_first hexec (State.getLane_none s.clearRes L (List.getElem?_eq_none h))

theorem edit_faults (hl : s.lanes[L]? = some l) (hbad : ok s.clearRes l = false) :
    exec i s = .next (s.faultCommit (encode i) c) :=
  hexec.trans <| conclude_fault i s _ c <| (bind_error _ _ _).mpr <| .inr ⟨l, State.getLane_some s.clearRes L l hl,
    (bind_error _ _ _).mpr (.inl ((check_error _ _ _).mpr ⟨hbad, rfl⟩))⟩

/-- The edit is all that the command leaves. -/
theorem edit_completes (hl : s.lanes[L]? = some l) (hok : ok s.clearRes l = true) :
    ∃ t, exec i s = .next t ∧ LaneOnly s t L (edit s.clearRes l) ∧ ResultsAre t 0 0 0 := by
  refine ⟨(s.clearRes.setLane L (edit s.clearRes l)).complete, hexec.trans (conclude_ok i s _ _ ?_),
    ⟨⟨rfl, rfl, rfl, rfl⟩, keepsHostState_refl s, rfl, rfl, ⟨rfl, rfl⟩, fun _ => rfl, rfl⟩, rfl, rfl, rfl⟩
  exact (bind_ok _ _ _).mpr ⟨l, State.getLane_some s.clearRes L l hl, check_bind_ok hok rfl⟩

end

end Sys2Proof.Machine

open Sys2Proof Sys2Proof.Machine

/-- Settles O45: legal properties fit their three bits. -/
theorem encResetStateResult : Obligations.EncResetStateResult := by
  intro s L
  refine ⟨edit_missing (exec_encResetState s L), fun l hl => ⟨fun hlit hpb => ?_, fun hbad => ?_⟩⟩
  · obtain ⟨t, ht, honly, hres⟩ := edit_completes (exec_encResetState s L) hl ((Cfg.propsLegal_iff _).mpr ⟨hlit, hpb⟩)
    exact ⟨t, _, ht, honly, hres, toNat_ofNat_three s.cfg.lc (by omega), toNat_ofNat_three s.cfg.lp (by omega),
      toNat_ofNat_three s.cfg.pb hpb, ProbMem.resetAll_read, rfl⟩
  · refine edit_faults (exec_encResetState s L) hl (Bool.eq_false_iff.mpr fun hlegal => ?_)
    obtain ⟨hlit, hpb⟩ := (Cfg.propsLegal_iff _).mp hlegal
    exact hbad.elim (Nat.not_lt.mpr hlit) (Nat.not_lt.mpr hpb)

/-- Settles O46: each command edits the lane behind its guard. -/
theorem snapshotAndRollback : Obligations.SnapshotAndRollback := by
  intro s L
  refine ⟨fun h => ⟨edit_missing (exec_encSnapshot s L) h, edit_missing (exec_encRollback s L) h⟩, fun l hl =>
    ⟨fun hinit => ?_, fun hvalid => ?_, edit_faults (exec_encSnapshot s L) hl, edit_faults (exec_encRollback s L) hl⟩⟩
  · obtain ⟨t, ht, honly, hres⟩ := edit_completes (exec_encSnapshot s L) hl hinit
    exact ⟨t, ht, hres, honly⟩
  · obtain ⟨t, ht, honly, hres⟩ := edit_completes (exec_encRollback s L) hl hvalid
    exact ⟨t, ht, hres, honly⟩

end

section
/-! PROOFS. A chunk attempt in a healthy block raises no fault (43_parse.md R257 to R259, 44_lzma2_stream.md R285, R294,
R300): its payload has no bound, and its budget keeps the count of pending bytes far from its end. -/

namespace Sys2Proof.Machine

variable {x : ParseCtx} {k : Nat} {f : Enc → Except Halt Enc} {F : List Code}

/-! ## The parse -/

/-- A healthy chunk's coder at work, with room in the payload for a flush. -/
structure Enc.Budgeted (x : ParseCtx) (e : Enc) : Prop where
  healthy   : e.lane.Healthy
  unbounded : e.room = none
  budget    : e.coded.shifts + 4 ≤ x.cMax

/-- `x` answers something with `P`. -/
abbrev Succeeds {A : Type} (P : A → Prop) (x : Except Halt A) : Prop := Ends P (fun _ => False) x

/-- An unbounded sink with a small count of bytes takes an operation's bytes. -/
theorem Grows.succeeds (hf : Grows k f) {e : Enc} (he : e.lane.Healthy) (hroom : e.room = none)
    (hn : e.coded.shifts + k < 2 ^ 32) :
    Succeeds (fun e' => e'.lane.Healthy ∧ e'.room = none ∧ e'.coded.shifts ≤ e.coded.shifts + k) (f e) :=
  (hf e he).imp (fun _ ⟨hh, hr, hs⟩ => ⟨hh, hr.trans hroom, hs⟩) fun _ ho =>
    ho.elim (fun ⟨_, hr⟩ => hr hroom) fun ⟨_, hge⟩ => Nat.not_le.mpr hn hge

/-- A symbol coded after its budget check leaves room for a flush. -/
theorem Enc.Budgeted.symbol {e : Enc} (h : e.Budgeted x) (hmax : x.cMax ≤ 2 ^ 16) (hb : budgetOk x e = true)
    (hf : Grows k f) (hk : k ≤ 26) : Succeeds (Enc.Budgeted x) (f e) := by
  have hb : e.coded.shifts + 26 + 4 ≤ x.cMax := (hasBudget_iff x e).mpr hb
  exact (hf.succeeds h.healthy h.unbounded (by omega)).imp (fun _ ⟨hh, hr, hs⟩ => ⟨hh, hr, by omega⟩) fun _ h => h

theorem Grows.single (x : ParseCtx) (p : Nat) : Grows 9 (encodeSingle x p) := fun e he =>
  .ite (fun _ => (Grows.shortRep _ _).mono (by decide) e he) fun _ => Grows.literal _ _ e he

theorem Grows.cand (x : ParseCtx) (p : Nat) {c : Cand} (hc : c.symbol.Legal) : Grows 26 (encodeCand x p c) := by
  cases c with
  | mtch n dist => exact .mtch _ _ _ hc.2.2
  | rep n r => exact (Grows.rep _ _ _ _).mono (by decide)

section
variable (hmax : x.cMax ≤ 2 ^ 16)
include hmax

theorem encodeSingles_succeeds (n : Nat) : ∀ (p : Nat) (e : Enc), e.Budgeted x →
    Succeeds (·.enc.Budgeted x) (encodeSingles x n p e) := by
  induction n with
  | zero => exact fun _ _ h => h
  | succ n ih =>
    exact fun p e h => .ite (fun hb => (h.symbol hmax hb (.single x p) (by decide)).bind fun a ha => ih (p + 1) a ha)
      fun _ => .pure h

theorem parseRound_succeeds (hlook : x.look ≤ 2) (hlim : x.ulim ≤ 2 ^ 32) (p : Nat) (e : Enc) (h : e.Budgeted x) :
    Succeeds (·.enc.Budgeted x) (parseRound x p e) := by
  unfold parseRound
  split
  · exact encodeSingles_succeeds hmax 1 p e h
  · next c hc =>
    have hchoice := (isChoice_iff x e.lane.reps .getMatch p (some c)).mpr hc.symm
    obtain ⟨-, _, hchoice'⟩ := ((settles_iff x e.lane.reps hlook c _ p _).mpr rfl).choice hchoice
    exact (encodeSingles_succeeds hmax _ p e h).bind fun r hr => .ite (fun _ => .pure hr) fun _ => .ite
      (fun hb => (hr.symbol hmax hb (.cand x _ (hchoice'.legal hlim)) (Nat.le_refl _)).bind fun a ha => .pure ha)
      fun _ => .pure hr

theorem parseChunk_succeeds (hlook : x.look ≤ 2) (hlim : x.ulim ≤ 2 ^ 32) (fuel : Nat) : ∀ (p : Nat) (e : Enc),
    e.Budgeted x → Succeeds (·.2.Budgeted x) (parseChunk x fuel p e) := by
  induction fuel with
  | zero => exact fun _ _ h => h
  | succ fuel ih =>
    exact fun p e h => .ite (fun _ => (parseRound_succeeds hmax hlook hlim p e h).bind fun r hr =>
      .ite (fun _ => .pure hr) fun _ => ih r.pos r.enc hr) fun _ => .pure h

end

/-! ## Chunks, slices and blocks -/

theorem encChunk_succeeds {x : ChunkCtx} (hx : x.Legal) (hmax : x.parse.cMax ≤ 2 ^ 16) {l : Lane} (h : l.Healthy) :
    Succeeds (·.lane.Healthy) (encChunk x l) := by
  have hstart : (l.chunkCoder x).Budgeted { x.parse with ulim := l.chunkLimit x } := by
    refine ⟨l.openChunk_healthy x h, rfl, ?_⟩
    have hb : (l.chunkCoder x).coded.shifts + 26 + 4 ≤ x.parse.cMax := chunkCoder_hasBudget hx l (l.chunkLimit x)
    change (l.chunkCoder x).coded.shifts + 4 ≤ x.parse.cMax
    omega
  have hlim : l.chunkLimit x ≤ 2 ^ 32 := (Nat.min_le_left ..).trans (Nat.le_of_lt l.sliceEnd.isLt)
  refine (parseChunk_succeeds (x := { x.parse with ulim := l.chunkLimit x }) hmax hx.look hlim _ _ _ hstart).bind fun r hr => ?_
  have hbudget : r.2.coded.shifts + 4 ≤ x.parse.cMax := hr.budget
  exact (Grows.flush.succeeds hr.healthy hr.unbounded (by omega)).bind fun e he => .pure (finishChunk_healthy x l r.1 he.1)

/-- The halt is no fault but one of `F`. -/
def Halt.Among (F : List Code) (h : Halt) : Prop := ∀ c, h = .fault c → c ∈ F

theorem Ends.guard {A : Type} {P : A → Prop} {ok : Bool} {c : Code} {f : Unit → Except Halt A} (hc : ok = false → c ∈ F)
    (hf : ok = true → Ends P (Halt.Among F) (f ())) : Ends P (Halt.Among F) (Machine.check ok c >>= f) := by
  cases ok with
  | true => exact hf rfl
  | false => exact fun d hd => (Halt.fault.inj hd) ▸ hc rfl

theorem Ends.among {A : Type} {P : A → Prop} {x : Except Halt A} (h : Succeeds P x) : Ends P (Halt.Among F) x :=
  h.imp (fun _ h => h) fun _ h => h.elim

section
variable {x : ChunkCtx} (hx : x.Legal) (hmax : x.parse.cMax ≤ 2 ^ 16)
include hx hmax

/-- A slice raises no fault but past the staging capacity (R301). -/
theorem encSliceFrom_among {cap : Option Nat} (hcap : cap = none ∨ .outOfMemory ∈ F) (fuel : Nat) : ∀ r : SliceResult,
    r.lane.Healthy → Ends (fun _ => True) (Halt.Among F) (encSliceFrom x cap fuel r) := by
  induction fuel with
  | zero => exact fun r _ => .ite (fun _ => nofun) fun _ => trivial
  | succ fuel ih =>
    refine fun r hr => .ite (fun _ => (encChunk_succeeds hx hmax hr).among.bind fun c hc => .guard (fun hfull => ?_) fun _ =>
      ih _ hc) fun _ => trivial
    refine hcap.resolve_left ?_
    rintro rfl
    cases hfull

theorem encSlice_among {cap : Option Nat} (hcap : cap = none ∨ .outOfMemory ∈ F) {l : Lane} (h : l.Healthy) :
    Ends (fun _ => True) (Halt.Among F) (encSlice x cap l) := encSliceFrom_among hx hmax hcap _ _ h

/-- With a lane for each slice, the slices of a block raise no fault but past the staging capacity. -/
theorem encLanes_among (cap : Nat) (hF : .outOfMemory ∈ F) (slices : List (Nat × Nat)) : ∀ (dr : Bool) (lanes : List Lane),
    (∀ l ∈ lanes, Lane.Healthy l) → slices.length ≤ lanes.length →
    Ends (fun _ => True) (Halt.Among F) (encLanes x cap dr slices lanes) := by
  induction slices with
  | nil => exact fun _ _ _ _ => trivial
  | cons ab slices ih =>
    intro dr lanes h hlen
    cases lanes with
    | nil => exact absurd hlen (Nat.not_succ_le_zero _)
    | cons l lanes =>
      obtain ⟨hl, hlanes⟩ := List.forall_mem_cons.mp h
      refine Ends.bind (encSlice_among hx hmax (.inr hF) ?_) fun r _ =>
        (ih false lanes hlanes (Nat.le_of_succ_le_succ hlen)).bind fun rest _ => .pure trivial
      exact hl

end

end Sys2Proof.Machine
end

section
/-! PROOFS. The start checks of every command (60_exceptions.md R351, R353): the command makes those of the list, in its
order, and after them raises no fault but its own. -/

namespace Sys2Proof.Machine

variable {i : Instr} {s u : State} {H : Prop} {cs cs' : Checks} {F : List Code} {L : Nat} {x : Except Halt State}

/-! ## A computation behind checks -/

/-- `x` makes the checks `cs` and faults with the first that fails; past them it raises, if `H`, no fault but those of
`F`. -/
structure Guarded (H : Prop) (cs : Checks) (F : List Code) (x : Except Halt State) : Prop where
  fails  : ∀ c, cs.firstFailure = some c → x = .error (.fault c)
  passes : cs.firstFailure = none → H → Ends (fun _ => True) (Halt.Among F) x

namespace Guarded

theorem run (h : H → Ends (fun _ => True) (Halt.Among F) x) : Guarded H [] F x := ⟨nofun, fun _ => h⟩

theorem done (u : State) : Guarded H [] F (.ok u) := run fun _ => trivial

theorem fail {c : Code} (h : cs.firstFailure = some c) (hx : x = .error (.fault c)) : Guarded H cs F x :=
  ⟨fun _ hd => hx.trans (Option.some.inj (h.symm.trans hd) ▸ rfl), fun hn => nomatch h.symm.trans hn⟩

/-- One check of the model stands for a group of the list's that fails where it does. -/
theorem group {ok : Bool} {c : Code} {f : Unit → Except Halt State}
    (h : cs.firstFailure = if ok then none else some c) (hf : ok = true → Guarded H cs' F (f ())) :
    Guarded H (cs ++ cs') F (check ok c >>= f) := by
  have happend := firstFailure_append cs cs'
  rw [h] at happend
  cases ok with
  | true => exact ⟨fun d hd => (hf rfl).fails d (happend.symm.trans hd), fun hn => (hf rfl).passes (happend.symm.trans hn)⟩
  | false => exact .fail happend rfl

/-- The last group of the list. -/
theorem last {ok : Bool} {c : Code} {f : Unit → Except Halt State} (h : cs.firstFailure = if ok then none else some c)
    (hf : ok = true → Guarded H [] F (f ())) : Guarded H cs F (check ok c >>= f) :=
  cs.append_nil ▸ group h hf

theorem one {ok : Bool} {c : Code} {f : Unit → Except Halt State} (hf : ok = true → Guarded H cs F (f ())) :
    Guarded H ((ok, c) :: cs) F (check ok c >>= f) := group (cs := [(ok, c)]) rfl hf

theorem two {a b : Bool} {c : Code} {f : Unit → Except Halt State} (hf : (a && b) = true → Guarded H cs F (f ())) :
    Guarded H ((a, c) :: (b, c) :: cs) F (check (a && b) c >>= f) :=
  group (cs := [(a, c), (b, c)]) (by cases a <;> rfl) hf

/-! ### Lanes (R140, R228, R353) -/

section
variable {more : Lane → Checks} {f : Lane → Except Halt State}

theorem lane (h : ∀ l, u.lanes[L]? = some l → Guarded H (more l) F (f l)) :
    Guarded H (u.laneChecks L more) F (u.getLane L >>= f) := by
  cases hl : u.lanes[L]? with
  | none => exact .fail (laneChecks_none u L more hl) (by rw [State.getLane_none u L hl]; rfl)
  | some l =>
    rw [State.getLane_some u L l hl, laneChecks_some u L more l hl]
    exact h l hl

theorem windowLane (h : ∀ l, u.lanes[L]? = some l → Guarded H (more l) F (f l)) :
    Guarded H (u.laneChecks L fun l => u.windowChecks l ++ more l) F (u.windowLane L >>= f) := by
  simp only [State.windowLane, bind_assoc, pure_bind]
  exact lane fun l hl => group (windowChecks_failure u l) fun _ => h l hl

theorem codingLane (h : ∀ l, u.lanes[L]? = some l → Guarded H (more l) F (f l)) :
    Guarded H (u.laneChecks L fun l => u.windowChecks l ++ l.initChecks ++ more l) F (u.codingLane L >>= f) := by
  simp only [State.codingLane, bind_assoc, pure_bind, List.append_assoc]
  exact windowLane fun l hl => group (initChecks_failure l) fun _ => h l hl

theorem symbolLane {operands : Lane → List Bool}
    (h : ∀ l, u.lanes[L]? = some l → Guarded H (invalidUnless (operands l)) F (f l)) :
    Guarded H (u.symbolChecks L operands) F (u.symbolLane L >>= f) := by
  simp only [State.symbolLane, bind_assoc, pure_bind]
  exact codingLane fun l hl => one fun _ => h l hl

theorem index {l : Lane} {j : Nat} {g : Unit → Except Halt State} (h : Guarded H cs F (g ())) :
    Guarded H (l.indexChecks j ++ cs) F (check (decide (j < l.probWords)) .invalidParameter >>= g) :=
  group (by simp only [indexChecks_failure, decide_eq_true_eq]) fun _ => h

theorem probLane (h : ∀ l, u.lanes[L]? = some l → Guarded H (more l) F (f l)) :
    Guarded H (u.laneChecks L fun l => l.initChecks ++ l.indexChecks u.args.arg0.toNat ++ more l) F (u.probLane L >>= f) := by
  simp only [State.probLane, bind_assoc, pure_bind, List.append_assoc]
  exact lane fun l hl => group (initChecks_failure l) fun _ => index (h l hl)

/-- Coding on the window of a lane, at whatever position, and its commit (R141). -/
theorem code {k : Nat} {l : Lane} {f : Enc → Except Halt Enc} {g : Enc → State} (hl : u.lanes[L]? = some l) (hf : Grows k f) :
    Guarded u.Healthy [] [.destinationTooSmall, .internal] (f l.windowEnc >>= fun e => .ok (g e)) :=
  run fun hu => ((hf l.windowEnc (hu l (List.mem_of_getElem? hl))).imp (fun _ h => h) fun _ ho c hc => by
    rcases ho with ⟨rfl, -⟩ | ⟨rfl, -⟩ <;> cases hc <;> decide).bind fun _ _ => .pure trivial

end

/-- The start checks of a query (R189 to R191). -/
theorem query {f : Nat → Except Halt State} (h : ∀ p, Guarded H [] F (f p)) :
    Guarded H [(u.table.valid, .sequenceError), (decide (u.args.arg0.toNat < u.table.fin.toNat), .invalidParameter)] F
      (u.queryPos >>= f) := by
  simp only [State.queryPos, bind_assoc, pure_bind]
  exact one fun _ => one fun _ => h _

end Guarded

/-! ## Commands -/

/-- The command's computation makes the command's start checks. -/
def Guards (i : Instr) (body : State → Except Halt State) : Prop :=
  ∀ u : State, Guarded u.Healthy (startChecks u i) (execFaults i) (body u)

/-- What `StartChecksFault` says of the command. -/
def ChecksStart (i : Instr) : Prop := ∀ s : State,
  (∀ c, startFault i s = some c → exec i s = .next (s.faultCommit (encode i) c))
    ∧ (s.Healthy → startFault i s = none → ∀ c : Code, c.isFault = true →
      exec i s = .next (s.faultCommit (encode i) c) → c ∈ execFaults i)

theorem startChecks_clearRes (s : State) (i : Instr) : startChecks s.clearRes i = startChecks s i := by cases i <;> rfl

/-- A fault commit is told from the two other completions by its code (R355). -/
theorem Guards.checksStart {body : State → Except Halt State} (hexec : ∀ s, exec i s = conclude i s body)
    (h : Guards i body) : ChecksStart i := by
  intro s
  have hguard := h s.clearRes
  rw [startChecks_clearRes] at hguard
  refine ⟨fun c hc => (hexec s).trans (conclude_fault i s body c (hguard.fails c hc)), fun hs hnone c hc hfault => ?_⟩
  have hend := hguard.passes hnone hs
  rcases conclude_next i s _ body ((hexec s).symm.trans hfault) with ⟨v, -, ht⟩ | ⟨d, hd, ht⟩ | ⟨-, ht⟩
  · obtain rfl : c = .ok := congrArg (·.status.code) ht
    cases hc
  · obtain rfl : c = d := congrArg (·.status.code) ht
    rw [hd] at hend
    exact hend c rfl
  · obtain rfl : c = .canceled := congrArg (·.status.code) ht
    cases hc

end Sys2Proof.Machine
end

section
/-! PROOFS. The start checks command by command (60_exceptions.md R351). -/

namespace Sys2Proof.Machine

variable {L n r : Nat} {b dr : Bool} {F : List Code}

theorem cancelPoint_among (s : State) : Ends (fun _ => True) (Halt.Among F) s.cancelPoint := .ite (fun _ => nofun) fun _ => trivial

theorem writeOut_among (s : State) (bytes : List Byte) (hF : .destinationTooSmall ∈ F) :
    Ends (fun _ => True) (Halt.Among F) (s.writeOut bytes) := .guard (fun _ => hF) fun _ => trivial

theorem chunkCtx_cMax {s : State} (h : s.encConfigLegal = true) : s.chunkCtx.parse.cMax ≤ 2 ^ 16 := (encConfigLegal_limits h).2

/-! ## Control and the range coder -/

theorem nop_checksStart : ChecksStart .nop := Guards.checksStart (fun s => Eq.refl (execNop s)) fun _ => .done _

theorem clear_checksStart : ChecksStart .clear := Guards.checksStart (fun s => Eq.refl (execClear s)) fun _ => .done _

/-- A lane's checks with none after them. -/
theorem Guarded.lastOfLane {u : State} {H : Prop} {checks : Lane → Checks} {x : Except Halt State}
    (h : Guarded H (u.laneChecks L fun l => checks l ++ []) F x) : Guarded H (u.laneChecks L checks) F x := by
  simpa only [List.append_nil] using h

theorem rcReset_checksStart : ChecksStart (.rcReset L) := Guards.checksStart (fun s => Eq.refl (execRcReset L s)) fun _ =>
  .lastOfLane <| .windowLane (more := fun _ => []) fun _ _ => .done _

theorem rcFlush_checksStart : ChecksStart (.rcFlush L) := Guards.checksStart (fun s => Eq.refl (execRcFlush L s)) fun _ =>
  .lastOfLane <| .windowLane (more := fun _ => []) fun _ hl => .code hl .flush

theorem rcBit_checksStart : ChecksStart (.rcBit L b) := Guards.checksStart (fun s => Eq.refl (execRcBit L b s)) fun _ =>
  .codingLane fun l hl => (l.indexChecks _).append_nil ▸ .index (.code hl (.bit _ _))

/-- The operand checks of the tree commands (R149, R151). -/
theorem Guarded.tree {u : State} {H : Prop} {l : Lane} {f : Unit → Except Halt State} (h : Guarded H [] F (f ())) :
    Guarded H (invalidUnless [decide (1 ≤ n ∧ n ≤ 16)] ++ l.indexChecks (u.args.arg0.toNat + 2 ^ n - 1)) F
      (check (decide (1 ≤ n) && decide (n ≤ 16)) .invalidParameter >>= fun _ =>
        check (treeOperandsLegal l u.args.arg0.toNat n) .invalidParameter >>= f) := by
  rw [Bool.decide_and]
  exact .one fun _ => (l.indexChecks _).append_nil ▸ .index h

theorem rcTree_checksStart : ChecksStart (.rcTree L n) := Guards.checksStart (exec_rcTree · L n) fun _ => by
  simp only [startChecks, List.append_assoc _ (invalidUnless _)]
  exact .codingLane fun _ hl => .tree (.code hl (.tree _ _ _))

theorem rcTreeRev_checksStart : ChecksStart (.rcTreeRev L n) := Guards.checksStart (exec_rcTreeRev · L n) fun _ => by
  simp only [startChecks, List.append_assoc _ (invalidUnless _)]
  exact .codingLane fun _ hl => .tree (.code hl (.treeRev _ _ _))

theorem rcDirect_checksStart : ChecksStart (.rcDirect L n) := Guards.checksStart (exec_rcDirect · L n) fun _ => by
  simp only [startChecks, Bool.decide_and]
  exact .windowLane fun _ hl => .one fun _ => .code hl (.direct _ _)

theorem rcPrice_checksStart : ChecksStart (.rcPrice b) := Guards.checksStart (exec_rcPrice · b) fun _ => .one fun _ => .done _

/-! ## The match finder -/

theorem mfCreate_checksStart : ChecksStart .mfCreate := Guards.checksStart exec_mfCreate fun _ => by
  simp only [startChecks, ← tableBytes_eq]
  exact .two fun _ => .one fun _ => .done _

theorem Guarded.three {a b d : Bool} {c : Code} {cs : Checks} {H : Prop} {f : Unit → Except Halt State}
    (hf : (a && b && d) = true → Guarded H cs F (f ())) :
    Guarded H ((a, c) :: (b, c) :: (d, c) :: cs) F (check (a && b && d) c >>= f) :=
  .group (cs := [(a, c), (b, c), (d, c)]) (by cases a <;> cases b <;> rfl) hf

theorem mfBuild_checksStart : ChecksStart .mfBuild := Guards.checksStart exec_mfBuild fun u =>
  .one fun _ => .three fun _ => .three fun _ => .run fun _ => (cancelPoint_among u).bind fun _ _ => .pure trivial

theorem mfGetMatch_checksStart : ChecksStart .mfGetMatch := Guards.checksStart exec_mfGetMatch fun _ => .query fun _ => .done _

theorem mfGetNextMatch_checksStart : ChecksStart .mfGetNextMatch :=
  Guards.checksStart exec_mfGetNextMatch fun _ => .query fun _ => .done _

theorem mfReadSlot_checksStart : ChecksStart .mfReadSlot := Guards.checksStart exec_mfReadSlot fun _ => .query fun _ => .done _

/-! ## Symbols and the coding state -/

theorem encLiteral_checksStart : ChecksStart (.encLiteral L) := Guards.checksStart (exec_encLiteral · L) fun _ =>
  .symbolLane fun _ hl => .one fun _ => .last (by simp) fun _ => .code hl (.literal _ _)

theorem encMatch_checksStart : ChecksStart (.encMatch L) := Guards.checksStart (exec_encMatch · L) fun _ =>
  .symbolLane fun _ hl => .two fun _ => .two fun _ => .code hl (.mtch _ _ _ (BitVec.isLt _))

theorem encRep_checksStart : ChecksStart (.encRep L r) := Guards.checksStart (exec_encRep · L r) fun _ =>
  .symbolLane fun _ hl => .two fun _ => .two fun _ => .code hl (.rep _ _ _ _)

theorem encShortRep_checksStart : ChecksStart (.encShortRep L) := Guards.checksStart (exec_encShortRep · L) fun _ =>
  .symbolLane fun _ hl => .two fun _ => .code hl (.shortRep _ _)

theorem encResetState_checksStart : ChecksStart (.encResetState L) := Guards.checksStart (exec_encResetState · L) fun u => by
  simp only [startChecks, Cfg.propsLegal]
  exact .lane fun _ _ => .two fun _ => .done _

theorem encSnapshot_checksStart : ChecksStart (.encSnapshot L) := Guards.checksStart (exec_encSnapshot · L) fun _ =>
  .lane fun l _ => .last (initChecks_failure l) fun _ => .done _

theorem encRollback_checksStart : ChecksStart (.encRollback L) := Guards.checksStart (exec_encRollback · L) fun _ =>
  .lane fun _ _ => .one fun _ => .done _

theorem probRead_checksStart : ChecksStart (.probRead L) := Guards.checksStart (fun s => Eq.refl (execProbRead L s)) fun _ =>
  .lastOfLane <| .probLane (more := fun _ => []) fun _ _ => .done _

theorem probWrite_checksStart : ChecksStart (.probWrite L) := Guards.checksStart (fun s => Eq.refl (execProbWrite L s)) fun _ => by
  simp only [startChecks, Bool.decide_and]
  exact .probLane fun _ _ => .one fun _ => .done _

/-! ## Chunks, slices, blocks and streams -/

theorem sliceLegal_failure (u : State) (l : Lane) (dr : Bool) :
    (u.sliceChecks l ++ [(decide (dr = true ↔ l.sliceStart.toNat = 0), Code.invalidParameter)] : Checks).firstFailure
      = if u.sliceLegal l dr then none else some .invalidParameter := by
  have hdr : (dr == decide (l.sliceStart.toNat = 0)) = decide (dr = true ↔ l.sliceStart.toNat = 0) := by cases dr <;> simp
  rw [firstFailure_append, sliceChecks_failure, State.sliceLegal, hdr]
  exact ite_then _ _ _

/-- `CheckSlice` (R291). -/
theorem Guarded.slice {u : State} {H : Prop} {cs : Checks} {l : Lane} {f : Unit → Except Halt State} (h : Guarded H cs F (f ())) :
    Guarded H (u.sliceChecks l ++ (decide (dr = true ↔ l.sliceStart.toNat = 0), .invalidParameter) :: cs) F
      (check (u.sliceLegal l dr) .invalidParameter >>= f) :=
  List.append_cons .. ▸ .group (sliceLegal_failure u l dr) fun _ => h

theorem sliceBegin_checksStart : ChecksStart (.sliceBegin L dr) :=
  Guards.checksStart (fun s => Eq.refl (execSliceBegin L dr s)) fun _ =>
    .lane fun _ _ => .one fun _ => .slice <| .done _

theorem encChunk_checksStart : ChecksStart (.encChunk L) := Guards.checksStart (fun s => Eq.refl (execEncChunk L s)) fun u => by
  simp only [startChecks, invalidUnless, List.map_cons, List.map_nil, List.append_assoc, List.cons_append, List.nil_append,
    Bool.decide_and]
  refine .lane fun l hl => .one fun _ => .one fun _ => .group (encConfigChecks_failure u) fun hcfg =>
    .group (sliceChecks_failure u l) fun _ => .one fun _ => .group (cs := [_]) ?_ fun _ =>
    .group (tableChecks_failure u) fun _ => .last ?_ fun _ => .run fun hu => ?_
  · by_cases h : l.pending = 3 <;> simp [h]
  · by_cases h : l.pending = 0 <;> simp [h]
  · exact (cancelPoint_among u).bind fun _ _ =>
      (encChunk_succeeds (chunkCtx_legal hcfg) (chunkCtx_cMax hcfg) (hu l (List.mem_of_getElem? hl))).among.bind fun _ _ =>
      (writeOut_among _ _ (List.mem_singleton.mpr rfl)).bind fun _ _ => .pure trivial

theorem encSlice_checksStart : ChecksStart (.encSlice L dr) := Guards.checksStart (fun s => Eq.refl (execEncSlice L dr s)) fun u => by
  simp only [startChecks, invalidUnless, List.map_cons, List.map_nil, List.append_assoc, List.cons_append, List.nil_append]
  refine .lane fun l hl => .one fun _ => .group (encConfigChecks_failure u) fun hcfg => .slice <|
    .last (tableChecks_failure u) fun _ => .run fun hu => ?_
  have hopen := LaneEdit.healthy (s := u) (.openSlice dr) (hu l (List.mem_of_getElem? hl))
  exact (cancelPoint_among u).bind fun _ _ =>
    (encSlice_among (chunkCtx_legal hcfg) (chunkCtx_cMax hcfg) (.inl rfl) hopen).bind fun _ _ =>
    (writeOut_among _ _ (List.mem_singleton.mpr rfl)).bind fun _ _ => .pure trivial

theorem partition_length (start len n : Nat) : (partition start len n).length = n := by
  rw [partition, List.length_map, List.length_range]

theorem encBlock_checksStart : ChecksStart .encBlock := Guards.checksStart (fun s => Eq.refl (execEncBlock s)) fun u => by
  simp only [startChecks, invalidUnless, List.map_cons, List.map_nil, List.append_assoc, List.cons_append, List.nil_append,
    Bool.decide_and]
  refine .group (encConfigChecks_failure u) fun hcfg => .group (blockChecks_failure u) fun hblock => .one fun hactive => ?_
  simp only [State.blockLegal, Bool.and_eq_true, decide_eq_true_eq] at hblock hactive
  obtain ⟨⟨⟨hle, -⟩, -⟩, -⟩ := hblock
  obtain ⟨-, hactive⟩ := hactive
  by_cases hempty : u.cfg.blkStart = u.cfg.blkEnd
  · rw [if_pos hempty, if_pos (by rw [hempty, Nat.sub_self])]
    exact .done u
  · have hlen : u.cfg.blkEnd.toNat - u.cfg.blkStart.toNat ≠ 0 := fun h => hempty (BitVec.eq_of_toNat_eq (by omega))
    rw [if_neg hempty, if_neg hlen]
    refine .group (tableChecks_failure u) fun _ => .group (cs := [_]) ?_ fun _ => .last ?_ fun _ => .run fun hu => ?_
    · cases u.stream.isOpen <;> cases u.stream.needDr <;> simp
    · cases u.stream.isOpen <;> simp
    · exact (cancelPoint_among u).bind fun _ _ =>
        (encLanes_among (chunkCtx_legal hcfg) (chunkCtx_cMax hcfg) _ (List.mem_cons_self ..) _ _ _ hu
          (((partition_length ..).trans_le (Nat.min_le_left ..)).trans hactive)).bind fun _ _ =>
        (writeOut_among _ _ (List.mem_cons_of_mem _ (List.mem_singleton.mpr rfl))).bind fun _ _ => .pure trivial

theorem streamBegin_checksStart : ChecksStart .streamBegin := Guards.checksStart (fun s => Eq.refl (execStreamBegin s)) fun u => by
  simp only [startChecks, List.append_assoc]
  exact .one fun _ => .two fun _ => .last (outChecks_failure u) fun _ => .run fun _ =>
    (writeOut_among _ _ (List.mem_singleton.mpr rfl)).bind fun _ _ => .pure trivial

theorem streamEnd_checksStart : ChecksStart .streamEnd := Guards.checksStart (fun s => Eq.refl (execStreamEnd s)) fun u =>
  .one fun _ => .last (outChecks_failure u) fun _ => .run fun _ =>
    (writeOut_among _ _ (List.mem_singleton.mpr rfl)).bind fun _ _ => .pure trivial

theorem exec_checksStart (i : Instr) : ChecksStart i := by
  cases i with
  | nop => exact nop_checksStart
  | rcReset _ => exact rcReset_checksStart
  | rcBit _ _ => exact rcBit_checksStart
  | rcTree _ _ => exact rcTree_checksStart
  | rcTreeRev _ _ => exact rcTreeRev_checksStart
  | rcDirect _ _ => exact rcDirect_checksStart
  | rcFlush _ => exact rcFlush_checksStart
  | rcPrice _ => exact rcPrice_checksStart
  | mfCreate => exact mfCreate_checksStart
  | mfBuild => exact mfBuild_checksStart
  | mfGetMatch => exact mfGetMatch_checksStart
  | mfGetNextMatch => exact mfGetNextMatch_checksStart
  | mfReadSlot => exact mfReadSlot_checksStart
  | encResetState _ => exact encResetState_checksStart
  | encLiteral _ => exact encLiteral_checksStart
  | encMatch _ => exact encMatch_checksStart
  | encRep _ _ => exact encRep_checksStart
  | encShortRep _ => exact encShortRep_checksStart
  | encSnapshot _ => exact encSnapshot_checksStart
  | encRollback _ => exact encRollback_checksStart
  | probRead _ => exact probRead_checksStart
  | probWrite _ => exact probWrite_checksStart
  | sliceBegin _ _ => exact sliceBegin_checksStart
  | encChunk _ => exact encChunk_checksStart
  | encSlice _ _ => exact encSlice_checksStart
  | encBlock => exact encBlock_checksStart
  | streamBegin => exact streamBegin_checksStart
  | streamEnd => exact streamEnd_checksStart
  | clear => exact clear_checksStart

end Sys2Proof.Machine

open Sys2Proof Sys2Proof.Machine

/-- Settles O50: each command makes its start checks in the order of R351, and past them raises only its own faults. -/
theorem startChecksFault : Obligations.StartChecksFault := fun i s => exec_checksStart i s

end

section
/-! PROOFS. `ParseChunk` codes exactly the run that R258 describes (43_parse.md R251 to R258): `parseChunk_run` gives the
run of an answer, the lemmas here give the answer of a run, round by round. -/

namespace Sys2Proof.Machine

variable {x : ParseCtx} {p p' q fuel : Nat} {c c' : Cand} {e e₁ e' : Enc} {y : Symbol} {ys : List Symbol}

/-- The procedure for skipped positions answers their run, and stops just when the run is short of its goal. -/
theorem SinglesRun.answer (h : SinglesRun x q p e ys p' e') (hpq : p ≤ q) :
    encodeSingles x (q - p) p e = .ok ⟨e', p', decide (p' < q)⟩ := by
  induction h with
  | done p e hqp =>
    obtain rfl := Nat.le_antisymm hpq hqp
    simp [encodeSingles]
  | spent p e hlt hno =>
    obtain ⟨n, rfl⟩ := Nat.exists_eq_add_of_lt hlt
    rw [hasBudget_iff] at hno
    rw [Nat.add_assoc, Nat.add_sub_cancel_left, encodeSingles, if_neg hno, decide_eq_true (by omega)]
  | one p p' e e₁ e' y ys hlt hb hy hcode _ ih =>
    have hn : q - p = (q - (p + 1)) + 1 := by omega
    rw [isSingle_code x e p y hy] at hcode
    rw [hn, encodeSingles, if_pos ((hasBudget_iff x e).mp hb), hcode]
    exact ih hlt

/-- A round without a candidate codes one single symbol. -/
theorem parseRound_single (hc : IsChoice x e.lane.reps .getMatch p none) (hb : HasBudget x e) (hy : IsSingle x e p y)
    (hcode : y.code x.sym p e = .ok e₁) : parseRound x p e = .ok ⟨e₁, p + 1, false⟩ := by
  have hrun : SinglesRun x (p + 1) p e [y] (p + 1) e₁ :=
    .one p _ e e₁ _ y [] (Nat.lt_succ_self p) hb hy hcode (.done _ _ (Nat.le_refl _))
  have hanswer := hrun.answer (Nat.le_succ p)
  rw [Nat.add_sub_cancel_left, decide_eq_false (Nat.lt_irrefl _)] at hanswer
  rw [parseRound, ← (isChoice_iff ..).mp hc]
  exact hanswer

/-- A round with a candidate: where the lookahead settles, the positions skipped, then the candidate itself if the budget
has lasted. -/
theorem parseRound_settled (hlook : x.look ≤ 2) (hc : IsChoice x e.lane.reps .getMatch p (some c))
    (hs : Settles x e.lane.reps c p c' q) (hrun : SinglesRun x q p e ys p' e₁) :
    parseRound x p e =
      if p' < q then .ok ⟨e₁, p', true⟩
      else if budgetOk x e₁ then (encodeCand x q c' e₁).bind fun e₂ => .ok ⟨e₂, q + c'.len, false⟩
      else .ok ⟨e₁, p', true⟩ := by
  have hanswer := hrun.answer (hs.choice hc).1
  rw [parseRound, ← (isChoice_iff ..).mp hc]
  dsimp only
  rw [(settles_iff x _ hlook c c' p q).mp hs, hanswer]
  by_cases hlt : p' < q
  · simp only [decide_eq_true hlt, if_pos hlt]
    rfl
  · simp only [decide_eq_false hlt, if_neg hlt]
    rfl

/-- A round whose budget ends before its candidate stops the chunk. -/
theorem parseRound_cut (hlook : x.look ≤ 2) (hc : IsChoice x e.lane.reps .getMatch p (some c))
    (hs : Settles x e.lane.reps c p c' q) (hrun : SinglesRun x q p e ys p' e') (hno : ¬ HasBudget x e') :
    parseRound x p e = .ok ⟨e', p', true⟩ := by
  rw [hasBudget_iff] at hno
  rw [parseRound_settled hlook hc hs hrun, if_neg hno, ite_self]

/-- A round at a position without budget codes nothing and stops the chunk. -/
theorem parseRound_spent (hlook : x.look ≤ 2) (hno : ¬ HasBudget x e) : parseRound x p e = .ok ⟨e, p, true⟩ := by
  cases hchoice : choose x e.lane.reps .getMatch p with
  | none =>
    have hanswer := (SinglesRun.spent (q := p + 1) p e (Nat.lt_succ_self p) hno).answer (Nat.le_succ p)
    rw [Nat.add_sub_cancel_left, decide_eq_true (Nat.lt_succ_self p)] at hanswer
    rw [parseRound, hchoice]
    exact hanswer
  | some c =>
    have hs := (settles_iff x e.lane.reps hlook c _ p _).mpr rfl
    refine parseRound_cut (ys := []) hlook ((isChoice_iff ..).mpr hchoice.symm) hs ?_ hno
    rcases Nat.lt_or_ge p (lookahead x e.lane.reps (3 * (x.ulim - p)) c p 1).2 with hlt | hle
    · exact .spent p e hlt hno
    · exact .done p e hle

/-- A round whose budget lasts codes the candidate. -/
theorem parseRound_cand {e₂ : Enc} (hlook : x.look ≤ 2) (hc : IsChoice x e.lane.reps .getMatch p (some c))
    (hs : Settles x e.lane.reps c p c' q) (hrun : SinglesRun x q p e ys q e₁) (hb : HasBudget x e₁)
    (hcode : c'.symbol.code x.sym q e₁ = .ok e₂) : parseRound x p e = .ok ⟨e₂, q + c'.len, false⟩ := by
  rw [cand_code] at hcode
  rw [parseRound_settled hlook hc hs hrun, if_neg (Nat.lt_irrefl q), if_pos ((hasBudget_iff x e₁).mp hb), hcode]
  rfl

theorem parseChunk_past_limit (hp : x.ulim ≤ p) : parseChunk x fuel p e = .ok (p, e) := by
  cases fuel with
  | zero => rfl
  | succ fuel => rw [parseChunk, if_neg (Nat.not_lt.mpr hp)]

theorem parseChunk_of_stop (hp : p < x.ulim) (hfuel : x.ulim - p ≤ fuel) (h : parseRound x p e = .ok ⟨e', p', true⟩) :
    parseChunk x fuel p e = .ok (p', e') := by
  cases fuel with
  | zero => omega
  | succ fuel =>
    rw [parseChunk, if_pos hp, h]
    rfl

theorem parseChunk_of_go (hp : p < x.ulim) (hfuel : x.ulim - p ≤ fuel) (h : parseRound x p e = .ok ⟨e₁, q, false⟩) :
    parseChunk x fuel p e = parseChunk x (fuel - 1) q e₁ := by
  cases fuel with
  | zero => omega
  | succ fuel =>
    rw [parseChunk, if_pos hp, h]
    rfl

/-- What a run ends with is what `ParseChunk` answers, from as many rounds as there are positions. -/
theorem ParseRun.answer (h : ParseRun x p e ys p' e') (hlook : x.look ≤ 2) :
    ∀ fuel, x.ulim - p ≤ fuel → parseChunk x fuel p e = .ok (p', e') := by
  induction h with
  | done p e hle => exact fun _ _ => parseChunk_past_limit hle
  | spent p e hlt hno => exact fun _ hfuel => parseChunk_of_stop hlt hfuel (parseRound_spent hlook hno)
  | single p p' e e₁ e' y ys hlt hc hb hy hcode _ ih =>
    intro fuel hfuel
    rw [parseChunk_of_go hlt hfuel (parseRound_single hc hb hy hcode)]
    exact ih (fuel - 1) (by omega)
  | cut p q p' e e' c c' ys hlt hc hs hrun hno =>
    exact fun _ hfuel => parseChunk_of_stop hlt hfuel (parseRound_cut hlook hc hs hrun hno)
  | cand p q p' e e₁ e₂ e' c c' ys zs hlt hc hs hrun hb hcode _ ih =>
    intro fuel hfuel
    obtain ⟨hpq, _, hc'⟩ := hs.choice hc
    have hlen := hc'.len_bounds.1
    rw [parseChunk_of_go hlt hfuel (parseRound_cand hlook hc hs hrun hb hcode)]
    exact ih (fuel - 1) (by omega)

end Sys2Proof.Machine

open Sys2Proof Sys2Proof.Machine

/-- Settles O60: an answer of the procedure is a run, by induction on its rounds, and what a run ends with is what the
procedure answers, by induction on the run. -/
theorem parseFollowsRules : Obligations.ParseFollowsRules := by
  intro x p pend e e' hlook
  constructor
  · exact parseChunk_run hlook _ p e (pend, e') (Nat.le_refl _)
  · rintro ⟨ys, hrun⟩
    exact hrun.answer hlook _ (Nat.le_refl _)

end

section
/-! PROOFS. `SLICE_BEGIN`, `STREAM_BEGIN` and `STREAM_END` (44_lzma2_stream.md R290, R291, R310, R311), and the state that a
command leaves which writes at `OUT_POS` (R296, R297). -/

namespace Sys2Proof.Machine

variable {i : Instr} {s : State} {L : Nat} {l : Lane} {dr : Bool}

/-! ## Behind the start checks (R351) -/

/-- A check that holds goes on. -/
theorem check_bind {A : Type} {ok : Bool} {c : Code} (h : ok = true) (f : Unit → Except Halt A) : (check ok c >>= f) = f () := by
  subst h
  rfl

/-- Computations that agree once the results are zeroed conclude alike. -/
theorem conclude_congr {body body' : State → Except Halt State} (h : body s.clearRes = body' s.clearRes) :
    conclude i s body = conclude i s body' := by
  unfold conclude
  rw [h]

theorem getLane_bind {A : Type} (hl : s.lanes[L]? = some l) (f : Lane → Except Halt A) : (s.getLane L >>= f) = f l := by
  rw [State.getLane_some s L l hl]
  rfl

/-- A command faults with the first start check that fails. -/
theorem exec_startFault {c : Code} (h : startFault i s = some c) : exec i s = .next (s.faultCommit (encode i) c) :=
  (exec_checksStart i s).1 c h

theorem laneChecks_failure {more : Lane → Checks} (hl : s.lanes[L]? = some l) :
    (s.laneChecks L more).firstFailure = (more l).firstFailure := by
  rw [laneChecks_some s L more l hl]

/-! ## What is written at `OUT_POS` (R296, R297) -/

/-- The state that a command computes which makes the lanes `lanes`, writes `bytes`, consumes `n` positions and answers the
two sizes and `k`. -/
def State.emitted (s : State) (lanes : List Lane) (bytes : List Byte) (n k : Nat) : State :=
  { s with
      lanes := lanes
      out := Memory.writeBytes s.out s.outPos.toNat bytes
      outPos := BitVec.ofNat 32 (s.outPos.toNat + bytes.length)
      counters :=
        { consumed := s.counters.consumed + BitVec.ofNat 64 n
          produced := s.counters.produced + BitVec.ofNat 64 bytes.length } }.setRes bytes.length n k

theorem writeOut_emitted {lanes : List Lane} {bytes : List Byte} (n k : Nat)
    (hfits : s.outPos.toNat + bytes.length ≤ s.cfg.outLimit.toNat) :
    ({ s.clearRes with lanes := lanes }.writeOut bytes >>= fun v => .ok ((v.consume n).setRes bytes.length n k))
      = .ok (s.emitted lanes bytes n k) :=
  (bind_ok _ _ _).mpr ⟨_, (writeOut_ok _ _ _).mpr ⟨hfits, rfl⟩, rfl⟩

/-- What a command leaves that wrote `bytes` at `OUT_POS` and made the lanes `lanes`, the stream apart. -/
structure Emits (s t : State) (lanes : List Lane) (bytes : List Byte) (n k : Nat) : Prop where
  completes : CompletesOk s t
  host      : KeepsHostState s t
  results   : ResultsAre t bytes.length n k
  outPos    : t.outPos.toNat = s.outPos.toNat + bytes.length
  writes    : WritesOut s t s.outPos.toNat bytes
  consumed  : t.counters.consumed = s.counters.consumed + BitVec.ofNat 64 n
  produced  : t.counters.produced = s.counters.produced + BitVec.ofNat 64 bytes.length
  table     : t.table = s.table
  lanes     : t.lanes = lanes

/-- Where the bytes fit, in `OUT` and in the result registers. -/
theorem emitted_emits {lanes : List Lane} {bytes : List Byte} {n k : Nat} (hwf : Memory.wf s.out = true)
    (hfits : s.outPos.toNat + bytes.length ≤ s.cfg.outLimit.toNat) (hn : n < 2 ^ 32) (hk : k < 2 ^ 32) (stream : Stream) :
    Emits s { s.emitted lanes bytes n k with stream := stream }.complete lanes bytes n k where
  completes := ⟨rfl, rfl, rfl, rfl⟩
  host := keepsHostState_refl s
  results := ⟨Nat.mod_eq_of_lt ((Nat.le_add_left ..).trans_lt (hfits.trans_lt s.cfg.outLimit.isLt)), Nat.mod_eq_of_lt hn,
    Nat.mod_eq_of_lt hk⟩
  outPos := Nat.mod_eq_of_lt (hfits.trans_lt s.cfg.outLimit.isLt)
  writes := ⟨Memory.readBytes_writeBytes _ _ _ hwf, fun _ hb => Memory.read_writeBytes_outside _ _ _ _ hb⟩
  consumed := rfl
  produced := rfl
  table := rfl
  lanes := rfl

theorem writeOut_full {bytes : List Byte} (hfull : s.cfg.outLimit.toNat < s.outPos.toNat + bytes.length)
    (f : State → Except Halt State) : (s.writeOut bytes >>= f) = .error (.fault .destinationTooSmall) :=
  (bind_error _ _ _).mpr (.inl ((writeOut_error _ _ _).mpr ⟨hfull, rfl⟩))

/-- Bytes written for no positions, and another stream: the end of the two stream commands (R310, R311). -/
def streamWrite (u : State) (bytes : List Byte) (stream : Cfg → Stream) : Except Halt State :=
  u.writeOut bytes >>= fun v => .ok ({ v with stream := stream v.cfg }.setRes bytes.length 0 0)

theorem streamWrite_emitted {bytes : List Byte} (hfits : s.outPos.toNat + bytes.length ≤ s.cfg.outLimit.toNat)
    (stream : Cfg → Stream) :
    streamWrite s.clearRes bytes stream = .ok { s.emitted s.lanes bytes 0 0 with stream := stream s.cfg } := by
  refine (bind_ok _ _ _).mpr ⟨_, (writeOut_ok _ _ _).mpr ⟨hfits, rfl⟩, ?_⟩
  simp [State.emitted, State.setRes]

theorem outLegal_iff (s : State) :
    s.outLegal = true ↔ s.outPos.toNat ≤ s.cfg.outLimit.toNat ∧ s.cfg.outLimit.toNat ≤ s.params.outCap.toNat := by
  simp [State.outLegal]

/-! ## `SLICE_BEGIN` (R290, R291) -/

theorem sliceLegal_iff (s : State) (l : Lane) (dr : Bool) : s.sliceLegal l dr = true ↔
    s.cfg.blkStart.toNat ≤ s.cfg.blkEnd.toNat ∧ s.cfg.blkEnd.toNat ≤ s.params.dictCap.toNat
      ∧ (s.cfg.dictReset = true ↔ s.cfg.blkStart.toNat = 0) ∧ (s.cfg.dictReset = true → s.cfg.posPhase = 0)
      ∧ s.cfg.blkStart.toNat ≤ l.sliceStart.toNat ∧ l.sliceStart.toNat < l.sliceEnd.toNat
      ∧ l.sliceEnd.toNat ≤ s.cfg.blkEnd.toNat ∧ (dr = true ↔ l.sliceStart.toNat = 0) := by
  simp only [State.sliceLegal, State.blockLegal, State.sliceInBlock, Bool.and_eq_true, decide_eq_true_eq, and_assoc]
  cases s.cfg.dictReset <;> cases dr <;> simp

theorem sliceBegin_startFault (hl : s.lanes[L]? = some l) : startFault (.sliceBegin L dr) s
    = if s.stream.isOpen then some .sequenceError else if s.sliceLegal l dr then none else some .invalidParameter := by
  rw [← sliceLegal_failure]
  refine (laneChecks_failure hl).trans ?_
  cases s.stream.isOpen <;> rfl

/-- An edit of one lane touches nothing else. -/
theorem setLane_laneOnly (s : State) (L : Nat) (l : Lane) :
    LaneOnly s (s.clearRes.setLane L l).complete L l ∧ ResultsAre (s.clearRes.setLane L l).complete 0 0 0 :=
  ⟨⟨⟨rfl, rfl, rfl, rfl⟩, keepsHostState_refl s, rfl, rfl, ⟨rfl, rfl⟩, fun _ => rfl, rfl⟩, rfl, rfl, rfl⟩

theorem sliceBegin_opens (hl : s.lanes[L]? = some l) (hclosed : s.stream.isOpen = false) (hlegal : s.sliceLegal l dr = true) :
    exec (.sliceBegin L dr) s = .next (s.clearRes.setLane L (l.openSlice dr)).complete := by
  refine Eq.trans (Eq.refl (execSliceBegin L dr s)) (conclude_ok _ s _ _ ((getLane_bind (s := s.clearRes) hl _).trans ?_))
  exact (check_bind (by rw [State.clearRes_stream, hclosed]; rfl) _).trans (check_bind hlegal _)

/-! ## `STREAM_BEGIN` (R310) -/

theorem classSize_forty : 2 ^ 30 ≤ classSize 40 := by decide

/-- `DictClass` is the smallest class that holds the size. -/
theorem dictClass_smallest {n : Nat} (hn : n ≤ 2 ^ 30) :
    dictClass n ≤ 40 ∧ n ≤ classSize (dictClass n) ∧ ∀ j < dictClass n, classSize j < n := by
  unfold dictClass
  cases hfind : (List.range 41).find? fun k => decide (n ≤ classSize k) with
  | none =>
    have hlarge := List.find?_eq_none.mp hfind 40 (by decide)
    exact absurd (decide_eq_true (hn.trans classSize_forty)) hlarge
  | some k =>
    obtain ⟨hk, hmem, hbelow⟩ := List.find?_range_eq_some.mp hfind
    refine ⟨Nat.le_of_lt_succ (List.mem_range.mp hmem), of_decide_eq_true hk, fun j hj => ?_⟩
    simpa using hbelow j hj

/-- What `STREAM_BEGIN` writes. -/
def Cfg.streamHeader (c : Cfg) : List Byte :=
  if c.omitProp then [] else [byteOf (dictClass c.dictSize.toNat + if c.checksumEn then 0x80 else 0)]

/-- The stream that `STREAM_BEGIN` opens. -/
def Cfg.newStream (c : Cfg) : Stream :=
  { isOpen := true, needDr := true, ck := c.checksumEn, omitP := c.omitProp, dict := c.dictSize, ckData := [] }

theorem streamHeader_length (c : Cfg) : c.streamHeader.length = if c.omitProp then 0 else 1 := by
  unfold Cfg.streamHeader
  cases c.omitProp <;> rfl

/-- The property byte: the size class, and the checksum flag in bit 7. -/
theorem streamHeader_toNat {c : Cfg} (homit : c.omitProp = false) (hmax : c.dictSize.toNat ≤ 2 ^ 30) : ∃ b,
    c.streamHeader = [b] ∧ b.toNat = dictClass c.dictSize.toNat + if c.checksumEn then 128 else 0 := by
  have hk := (dictClass_smallest hmax).1
  refine ⟨_, if_neg (by rw [homit]; decide), ?_⟩
  cases c.checksumEn <;> exact Nat.mod_eq_of_lt (by simp; omega)

theorem streamBegin_startFault (s : State) : startFault .streamBegin s = if s.stream.isOpen then some .sequenceError else
    if s.cfg.dictSizeLegal && s.outLegal then none else some .invalidParameter := by
  have hsize : [decide (4096 ≤ s.cfg.dictSize.toNat), decide (s.cfg.dictSize.toNat ≤ 2 ^ 30)].all id = s.cfg.dictSizeLegal := by
    rw [List.all_cons, List.all_cons, List.all_nil, Bool.and_true]
    rfl
  have hrest := firstFailure_append
    (invalidUnless [decide (4096 ≤ s.cfg.dictSize.toNat), decide (s.cfg.dictSize.toNat ≤ 2 ^ 30)]) s.outChecks
  rw [firstFailure_invalidUnless, outChecks_failure, hsize, ite_then] at hrest
  rw [← hrest]
  refine (firstFailure_cons (!s.stream.isOpen) .sequenceError _).trans ?_
  cases s.stream.isOpen <;> rfl

/-- Past its checks `STREAM_BEGIN` writes its header and opens the stream. -/
theorem streamBegin_passes (hclosed : s.stream.isOpen = false) (hsize : s.cfg.dictSizeLegal = true) (hout : s.outLegal = true) :
    exec .streamBegin s = conclude .streamBegin s fun u => streamWrite u u.cfg.streamHeader Cfg.newStream := by
  refine conclude_congr (i := .streamBegin) (body := fun u => check (!u.stream.isOpen) .sequenceError >>= fun _ =>
    check u.cfg.dictSizeLegal .invalidParameter >>= fun _ => check u.outLegal .invalidParameter >>= fun _ =>
    streamWrite u u.cfg.streamHeader Cfg.newStream) ?_
  refine (check_bind (by rw [State.clearRes_stream, hclosed]; rfl) _).trans ?_
  exact (check_bind hsize _).trans (check_bind hout _)

/-! ## `STREAM_END` (R311) -/

theorem streamEnd_startFault (s : State) : startFault .streamEnd s = if s.stream.isOpen then
    if s.outLegal then none else some .invalidParameter else some .sequenceError := by
  rw [← outChecks_failure]
  exact firstFailure_cons s.stream.isOpen .sequenceError _

/-- Past its checks `STREAM_END` writes its trailer and closes the stream. -/
theorem streamEnd_passes (hopen : s.stream.isOpen = true) (hout : s.outLegal = true) :
    exec .streamEnd s = conclude .streamEnd s fun u => streamWrite u u.stream.trailer fun _ => .closed := by
  refine conclude_congr (i := .streamEnd) (body := fun u => check u.stream.isOpen .sequenceError >>= fun _ =>
    check u.outLegal .invalidParameter >>= fun _ => streamWrite u u.stream.trailer fun _ => .closed) ?_
  exact (check_bind hopen _).trans (check_bind hout _)

theorem trailer_toNat (t : Stream) : t.trailer.map BitVec.toNat = 0 :: (if t.ck then
    [(Config.checksum t.ckData).toNat % 256, (Config.checksum t.ckData).toNat / 256 % 256,
      (Config.checksum t.ckData).toNat / 65536 % 256, (Config.checksum t.ckData).toNat / 16777216 % 256] else []) := by
  unfold Stream.trailer
  cases t.ck <;> simp [byteOf]

theorem trailer_length (t : Stream) : t.trailer.length = if t.ck then 5 else 1 := by
  unfold Stream.trailer
  cases t.ck <;> rfl

end Sys2Proof.Machine

open Sys2Proof Sys2Proof.Machine

/-- Settles O52: past the first two checks the command asks `CheckSlice` and opens the lane's slice. -/
theorem sliceBeginResult : Obligations.SliceBeginResult := by
  intro s L dr
  refine ⟨fun h => exec_startFault (laneChecks_none s L _ (List.getElem?_eq_none h)), fun l hl => ?_⟩
  intro checkSlice
  have hlegal : s.sliceLegal l dr = true ↔ checkSlice := sliceLegal_iff s l dr
  refine ⟨fun hclosed hcheck => ?_, fun hclosed hcheck => ?_, fun hopen => ?_⟩
  · obtain ⟨honly, hres⟩ := setLane_laneOnly s L (l.openSlice dr)
    exact ⟨_, sliceBegin_opens hl hclosed (hlegal.mpr hcheck), hres, honly⟩
  · refine exec_startFault ((sliceBegin_startFault hl).trans ?_)
    rw [hclosed, Bool.eq_false_iff.mpr (mt hlegal.mp hcheck)]
    rfl
  · exact exec_startFault ((sliceBegin_startFault hl).trans (if_pos hopen))

/-- Settles O58: past its checks the command writes its header, if that fits, and opens the stream. -/
theorem streamBeginResult : Obligations.StreamBeginResult := by
  intro s hm
  obtain ⟨-, hwf, -⟩ := hm
  refine ⟨fun hclosed hmin hmax hout hroom => ?_, fun hopen => ?_, fun hclosed hbad => ?_,
    fun hclosed hmin hmax hout homit hfull => ?_⟩
  · have hexec := streamBegin_passes hclosed ((dictSizeLegal_iff s.cfg).mpr ⟨hmin, hmax⟩) hout
    have hfits : s.outPos.toNat + s.cfg.streamHeader.length ≤ s.cfg.outLimit.toNat := by
      rw [streamHeader_length]
      cases homit : s.cfg.omitProp
      · exact hroom.resolve_left (by rw [homit]; decide)
      · exact ((outLegal_iff s).mp hout).1
    have h := emitted_emits (lanes := s.lanes) (n := 0) (k := 0) hwf hfits (by decide) (by decide) s.cfg.newStream
    obtain ⟨hk, hclass, hbelow⟩ := dictClass_smallest hmax
    refine ⟨_, _, hexec.trans (conclude_ok _ s _ _ (streamWrite_emitted hfits Cfg.newStream)), h.completes, h.host,
      h.results, h.writes, fun homit => if_pos homit, fun homit => ?_, h.outPos, h.produced,
      h.consumed.trans (BitVec.add_zero _), rfl, h.lanes, h.table⟩
    obtain ⟨b, hb, hvalue⟩ := streamHeader_toNat homit hmax
    exact ⟨_, b, hb, hk, hvalue, hclass, hbelow⟩
  · exact exec_startFault ((streamBegin_startFault s).trans (if_pos hopen))
  · refine exec_startFault ((streamBegin_startFault s).trans ((if_neg (by rw [hclosed]; decide)).trans (if_neg fun hlegal => ?_)))
    obtain ⟨hsize, hout⟩ := (Bool.and_eq_true _ _).mp hlegal
    have hsize := (dictSizeLegal_iff s.cfg).mp hsize
    have hout := (outLegal_iff s).mp hout
    omega
  · have hexec := streamBegin_passes hclosed ((dictSizeLegal_iff s.cfg).mpr ⟨hmin, hmax⟩) hout
    refine hexec.trans (conclude_fault _ s _ _ (writeOut_full (s := s.clearRes) ?_ _))
    change s.cfg.outLimit.toNat < s.outPos.toNat + s.cfg.streamHeader.length
    rw [streamHeader_length, homit]
    exact hfull

/-- Settles O59: past its checks the command writes its trailer, if that fits, and closes the stream. -/
theorem streamEndResult : Obligations.StreamEndResult := by
  intro s hm
  obtain ⟨-, hwf, -⟩ := hm
  refine ⟨fun hopen hout hroom => ?_, fun hclosed => ?_, fun hopen hbad => ?_, fun hopen hout hfull => ?_⟩
  · have hfits : s.outPos.toNat + s.stream.trailer.length ≤ s.cfg.outLimit.toNat := by
      rw [trailer_length]
      exact hroom
    have h := emitted_emits (lanes := s.lanes) (n := 0) (k := 0) hwf hfits (by decide) (by decide) .closed
    exact ⟨_, _, (streamEnd_passes hopen hout).trans (conclude_ok _ s _ _ (streamWrite_emitted hfits _)), h.completes, h.host,
      h.results, h.writes, trailer_toNat s.stream, h.outPos, h.produced, h.consumed.trans (BitVec.add_zero _), rfl, rfl, rfl,
      h.lanes, h.table⟩
  · exact exec_startFault ((streamEnd_startFault s).trans (if_neg (by rw [hclosed]; decide)))
  · refine exec_startFault ((streamEnd_startFault s).trans ((if_pos hopen).trans (if_neg fun hout => ?_)))
    have hout := (outLegal_iff s).mp hout
    omega
  · refine (streamEnd_passes hopen hout).trans (conclude_fault _ s _ _ (writeOut_full (s := s.clearRes) ?_ _))
    change s.cfg.outLimit.toNat < s.outPos.toNat + s.stream.trailer.length
    rw [trailer_length]
    exact hfull

end

section
/-! PROOFS. `ENC_CHUNK` completes (44_lzma2_stream.md R285 to R289, R293): what an attempt leaves of its lane, how many bytes
it makes, and that it raises no fault. -/

namespace Sys2Proof.Machine

variable {s t : State} {L : Nat} {l : Lane} {x : ChunkCtx} {c : ChunkResult}

/-! ## What a chunk attempt leaves (R285) -/

/-- What no chunk writes of its lane: the slice, the window and `STAGE`. -/
def Lane.fixedPart (l : Lane) : Lane :=
  { Lane.reset with
    sliceStart := l.sliceStart, sliceEnd := l.sliceEnd, outBase := l.outBase, outCap := l.outCap, outLen := l.outLen
    stage := l.stage }

theorem Lane.fixedPart_fields {l l' : Lane} (h : l'.fixedPart = l.fixedPart) : l'.sliceStart = l.sliceStart
    ∧ l'.sliceEnd = l.sliceEnd ∧ l'.outBase = l.outBase ∧ l'.outCap = l.outCap ∧ l'.outLen = l.outLen :=
  ⟨(congrArg Lane.sliceStart h :), (congrArg Lane.sliceEnd h :), (congrArg Lane.outBase h :), (congrArg Lane.outCap h :),
    (congrArg Lane.outLen h :)⟩

theorem Lane.fixedPart_of_uncoded {l l' : Lane} (h : l'.uncoded = l.uncoded) : l'.fixedPart = l.fixedPart :=
  (congrArg Lane.fixedPart h :)

theorem Lane.openChunk_fixedPart (x : ChunkCtx) (l : Lane) : (l.openChunk x).fixedPart = l.fixedPart := by
  unfold Lane.openChunk
  split <;> rfl

/-- Kept or stored, a chunk ends with the registers that R285 closes it with, and writes the coding state and `PENDING`. -/
theorem finishChunk_closes (x : ChunkCtx) (l : Lane) (pend : Nat) (e : Enc) :
    let c := finishChunk x l pend e
    c.lane = { e.lane with st := c.lane.st, reps := c.lane.reps, prob := c.lane.prob, pending := c.lane.pending }.closeChunk pend := by
  unfold finishChunk
  dsimp only
  split <;> rfl

/-- What the chunk `c` leaves of the lane `l`, and its sizes. -/
structure ChunkCovers (x : ChunkCtx) (l : Lane) (c : ChunkResult) : Prop where
  some      : 1 ≤ c.u
  atMost    : c.u ≤ x.uMax
  pos       : c.lane.pos.toNat = l.pos.toNat + c.u
  inSlice   : c.lane.pos.toNat ≤ l.sliceEnd.toNat
  isOpen    : c.lane.sliceOpen = (l.sliceOpen && decide (c.lane.pos.toNat < l.sliceEnd.toNat))
  fixed     : c.lane.fixedPart = l.fixedPart
  rc        : c.lane.rc = .reset
  snapValid : c.lane.snapValid = true
  init      : (l.pending = 0 → l.init = true) → c.lane.init = true
  pending   : c.lane.pending ≠ 3
  size      : c.bytes.length ≤ 6 * c.u
  kind      : c.kind ≤ c.u

/-- What `openChunk` does to the status bits (R285). -/
theorem Lane.openChunk_status (x : ChunkCtx) (l : Lane) : (l.openChunk x).sliceOpen = l.sliceOpen
    ∧ (l.openChunk x).snapValid = true ∧ ((l.pending = 0 → l.init = true) → (l.openChunk x).init = true) := by
  unfold Lane.openChunk
  split
  · next hp => exact ⟨rfl, rfl, fun h => h hp⟩
  · exact ⟨rfl, rfl, fun _ => rfl⟩

/-- Neither form of a chunk takes more than six bytes a position, nor a header more than one (R281, R286, R288). -/
theorem finishChunk_sizes {pend : Nat} {e : Enc} (hpos : l.pos.toNat < pend) :
    let c := finishChunk x l pend e
    c.bytes.length ≤ 6 * (pend - l.pos.toNat) ∧ c.kind ≤ pend - l.pos.toNat ∧ c.lane.pending ≠ 3 := by
  by_cases hkept : e.rev.length + x.margin < pend - l.pos.toNat
  · have hlength : e.bytes.length = e.rev.length := List.length_reverse
    rw [finishChunk_kept hkept]
    refine ⟨?_, Nat.zero_le _, (by decide : (0 : BitVec 2) ≠ 3)⟩
    rw [compressedChunk_length, hlength]
    split <;> omega
  · obtain ⟨hcount, hlength⟩ := storedChunks_sizes (dict := x.parse.sym.dict) (pend - l.pos.toNat) l.pos.toNat _
      e.lane.pending (Nat.le_refl _)
    have hpending := storedChunks_pending_eq (dict := x.parse.sym.dict) (pend - l.pos.toNat) l.pos.toNat _ e.lane.pending
      (Nat.le_refl _) (Nat.sub_pos_of_lt hpos)
    rw [finishChunk_stored hkept]
    refine ⟨hlength.trans_le (by omega), hcount.trans_le (by omega), hpending.trans_ne ?_⟩
    split
    · decide
    · assumption

/-- A chunk that answers has covered some positions of the slice. -/
theorem encChunk_covers (hx : x.Legal) (hpos : l.pos.toNat < l.sliceEnd.toNat) (h : encChunk x l = .ok c) : ChunkCovers x l c := by
  obtain ⟨ys, pend, e, e', hrun, -, hlane, rfl⟩ := encChunk_run hx.look h
  obtain ⟨hlt, hle, hmax⟩ := chunkRun_bounds hx hpos hrun
  obtain ⟨hbytes, hkind, hpending⟩ := finishChunk_sizes (x := x) (e := e') hlt
  obtain ⟨hopen, hsnap, hinit⟩ := l.openChunk_status x
  have hclosed := finishChunk_closes x l pend e'
  have hfixed : e'.lane.fixedPart = l.fixedPart := (Lane.fixedPart_of_uncoded hlane).trans (l.openChunk_fixedPart x)
  have hend : e'.lane.sliceEnd = l.sliceEnd := (congrArg Lane.sliceEnd hfixed :)
  have hmaxEnd := l.sliceEnd.isLt
  have hpos' : (finishChunk x l pend e').lane.pos.toNat = pend := by
    rw [finishChunk_pos]
    exact Nat.mod_eq_of_lt (by omega)
  exact
    { some := by rw [finishChunk_u]; omega
      atMost := by rw [finishChunk_u]; omega
      pos := by rw [finishChunk_u, hpos']; omega
      inSlice := hpos'.trans_le hle
      isOpen := by
        rw [hpos', hclosed, Lane.closeChunk_sliceOpen]
        change (e'.lane.sliceOpen && !decide (pend = e'.lane.sliceEnd.toNat)) = _
        rw [show e'.lane.sliceOpen = l.sliceOpen from (congrArg Lane.sliceOpen hlane :).trans hopen, hend, ← decide_not]
        exact congrArg _ (decide_eq_decide.mpr ⟨fun h => Nat.lt_of_le_of_ne hle h, Nat.ne_of_lt⟩)
      fixed := (congrArg Lane.fixedPart hclosed).trans hfixed
      rc := congrArg Lane.rc hclosed
      snapValid := (congrArg Lane.snapValid hclosed).trans ((congrArg Lane.snapValid hlane :).trans hsnap)
      init := fun h => (congrArg Lane.init hclosed).trans ((congrArg Lane.init hlane :).trans (hinit h))
      pending := hpending
      size := by rw [finishChunk_u]; exact hbytes
      kind := by rw [finishChunk_u]; exact hkind }

/-! ## A chunk attempt that owes a state reset -/

/-- A lane with nothing in its coder and its probability memories. -/
def Lane.blank (l : Lane) : Lane := { l with rc := .reset, prob := [], snap := .reset }

/-- A chunk that resets the state reads nothing of the coding state (R285). -/
theorem encChunk_blank (x : ChunkCtx) (h : l.pending ≠ 0) : encChunk x l = encChunk x l.blank := by
  have hopen : l.openChunk x = l.blank.openChunk x := by
    unfold Lane.openChunk
    rw [if_neg h, if_neg (show l.blank.pending ≠ 0 from h)]
    rfl
  unfold encChunk
  rw [hopen]
  rfl

theorem Lane.blank_healthy (l : Lane) : l.blank.Healthy := ⟨Rc.reset_healthy, nofun, nofun⟩

/-- A chunk attempt answers where its lane is healthy or owes a state reset (R257 to R259). -/
theorem encChunk_answers (hx : x.Legal) (hmax : x.parse.cMax ≤ 2 ^ 16) (h : l.pending = 0 → l.Healthy) :
    ∃ c, encChunk x l = .ok c ∧ c.lane.Healthy := by
  have hends : Succeeds (·.lane.Healthy) (encChunk x l) := by
    by_cases hp : l.pending = 0
    · exact encChunk_succeeds hx hmax (h hp)
    · rw [encChunk_blank x hp]
      exact encChunk_succeeds hx hmax l.blank_healthy
  cases hc : encChunk x l with
  | ok c => exact ⟨c, rfl, hends.of_ok hc⟩
  | error k =>
    rw [hc] at hends
    exact hends.elim

/-! ## `ENC_CHUNK` (R293) -/

/-- What the start checks of `ENC_CHUNK` ask of the block and of its lane. -/
structure ChunkStarts (s : State) (l : Lane) : Prop where
  closed  : s.stream.isOpen = false
  isOpen  : l.sliceOpen = true
  config  : s.encConfigLegal = true
  inBlock : (s.blockLegal && s.sliceInBlock l) = true
  inSlice : l.sliceStart.toNat ≤ l.pos.toNat ∧ l.pos.toNat < l.sliceEnd.toNat
  first   : l.pending = 3 → l.pos.toNat = 0
  fits    : s.tableFits = true
  ready   : l.pending = 0 → l.init = true

theorem firstFailure_append_eq_none (a b : Checks) :
    (a ++ b).firstFailure = none ↔ a.firstFailure = none ∧ b.firstFailure = none := by
  rw [firstFailure_append]
  cases a.firstFailure <;> simp

theorem firstFailure_cons_eq_none (ok : Bool) (c : Code) (rest : Checks) :
    Checks.firstFailure ((ok, c) :: rest) = none ↔ ok = true ∧ rest.firstFailure = none := by
  cases ok <;> simp

theorem ite_none_eq_none (ok : Bool) (c : Code) : (if ok then none else some c) = none ↔ ok = true := by
  cases ok <;> simp

theorem encChunk_starts (hl : s.lanes[L]? = some l) (h : startFault (.encChunk L) s = none) : ChunkStarts s l := by
  have h := (laneChecks_failure hl).symm.trans h
  simp only [firstFailure_append_eq_none, firstFailure_cons_eq_none, firstFailure_nil, encConfigChecks_failure,
    sliceChecks_failure, tableChecks_failure, firstFailure_invalidUnless, ite_none_eq_none, Bool.not_eq_true', and_true,
    List.all_cons, List.all_nil, id, Bool.and_true, decide_eq_true_eq] at h
  obtain ⟨⟨⟨⟨⟨⟨hclosed, hopen⟩, hconfig⟩, hblock⟩, hpos⟩, hfits⟩, hready⟩ := h
  obtain ⟨hslice, hfirst⟩ := (Bool.and_eq_true _ _).mp hpos
  exact ⟨hclosed, hopen, hconfig, hblock, of_decide_eq_true hslice, of_decide_eq_true hfirst, hfits, hready⟩

/-- Past its checks `ENC_CHUNK` makes its attempt and writes what that gives. -/
theorem encChunk_passes (hl : s.lanes[L]? = some l) (h : ChunkStarts s l) (hq : s.control.cancel = false) :
    exec (.encChunk L) s = conclude (.encChunk L) s fun u => encChunk u.chunkCtx l >>= fun c =>
      { u with lanes := u.lanes.set L c.lane }.writeOut c.bytes >>= fun v =>
      .ok ((v.consume c.u).setRes c.bytes.length c.u c.kind) := by
  obtain ⟨hclosed, hopen, hconfig, hblock, ⟨hstart, hend⟩, hfirst, hfits, hready⟩ := h
  refine Eq.trans (Eq.refl (execEncChunk L s)) (conclude_congr ((getLane_bind (s := s.clearRes) hl _).trans ?_))
  refine (check_bind (by rw [State.clearRes_stream, hclosed]; rfl) _).trans <| (check_bind hopen _).trans <|
    (check_bind hconfig _).trans <| (check_bind hblock _).trans <| (check_bind ?_ _).trans <| (check_bind ?_ _).trans <|
    (check_bind hfits _).trans <| (check_bind ?_ _).trans ?_
  · exact (Bool.and_eq_true _ _).mpr ⟨decide_eq_true hstart, decide_eq_true hend⟩
  · simpa [← imp_iff_not_or] using hfirst
  · simpa [← imp_iff_not_or] using hready
  · exact (congrArg (· >>= _) (cancelPoint_passes (s := s.clearRes) hq)).trans rfl

theorem encChunk_emits (hl : s.lanes[L]? = some l) (h : ChunkStarts s l) (hq : s.control.cancel = false)
    (hc : encChunk s.chunkCtx l = .ok c) (hroom : s.outPos.toNat + c.bytes.length ≤ s.cfg.outLimit.toNat) :
    exec (.encChunk L) s = .next (s.emitted (s.lanes.set L c.lane) c.bytes c.u c.kind).complete :=
  (encChunk_passes hl h hq).trans (conclude_ok _ s _ _ ((bind_ok _ _ _).mpr ⟨c, hc, writeOut_emitted _ _ hroom⟩))

theorem encChunk_full (hl : s.lanes[L]? = some l) (h : ChunkStarts s l) (hq : s.control.cancel = false)
    (hc : encChunk s.chunkCtx l = .ok c) (hfull : s.cfg.outLimit.toNat < s.outPos.toNat + c.bytes.length) :
    exec (.encChunk L) s = .next (s.faultCommit (encode (.encChunk L)) .destinationTooSmall) :=
  (encChunk_passes hl h hq).trans (conclude_fault _ s _ _ ((bind_error _ _ _).mpr (.inr ⟨c, hc,
    writeOut_full (s := { s.clearRes with lanes := s.lanes.set L c.lane }) hfull _⟩)))

/-- A completed `ENC_CHUNK` has made an attempt whose bytes fit. -/
theorem encChunk_emitted (hl : s.lanes[L]? = some l) (h : exec (.encChunk L) s = .next t) (hok : CompletesOk s t) :
    ∃ c, encChunk s.chunkCtx l = .ok c ∧ s.outPos.toNat + c.bytes.length ≤ s.cfg.outLimit.toNat
      ∧ t = (s.emitted (s.lanes.set L c.lane) c.bytes c.u c.kind).complete := by
  have h : execEncChunk L s = .next t := h
  suffices hend : ∃ u, (∃ c, encChunk s.chunkCtx l = .ok c ∧ s.outPos.toNat + c.bytes.length ≤ s.cfg.outLimit.toNat
      ∧ u = s.emitted (s.lanes.set L c.lane) c.bytes c.u c.kind) ∧ t = u.complete by
    obtain ⟨u, ⟨c, hc, hfits, rfl⟩, rfl⟩ := hend
    exact ⟨c, hc, hfits, rfl⟩
  refine conclude_completed h hok <|
    (getLane_ends s.clearRes L).bind fun l₁ hl₁ => .check rfl fun _ => .check rfl fun _ => .check rfl fun _ =>
    .check rfl fun _ => .check rfl fun _ => .check rfl fun _ => .check rfl fun _ => .check rfl fun _ =>
    (cancelPoint_ends s.clearRes).bind fun _ _ => (encChunk_ends s.clearRes.chunkCtx l₁ _).bind fun c hc =>
    (writeOut_ends _ _).bind fun v hv => .pure ⟨c, ?_⟩
  obtain rfl : l = l₁ := Option.some.inj (hl.symm.trans hl₁)
  obtain ⟨hfits, rfl⟩ := (writeOut_ok _ _ _).mp hv
  exact ⟨hc.1, hfits, rfl⟩

end Sys2Proof.Machine

open Sys2Proof Sys2Proof.Machine

/-- Settles O53: past the start checks the attempt answers, and takes at most six bytes for each position. -/
theorem encChunkCompletes : Obligations.EncChunkCompletes := by
  intro s L
  refine ⟨fun c => exec_startFault, fun limit cap b hstarts hexec hok hfull => ?_, fun l hm hl hstarts hhealthy hroom => ?_⟩
  · obtain ⟨hnone, hq⟩ := hstarts
    cases hl : s.lanes[L]? with
    | none => cases (laneChecks_none s L _ hl).symm.trans hnone
    | some l =>
      obtain ⟨c, hc, hfits, rfl⟩ := encChunk_emitted (s := s.withRoom limit cap) hl hexec hok
      refine encChunk_full hl (encChunk_starts hl hnone) hq hc (hfull.trans_eq (congrArg (s.outPos.toNat + ·) ?_))
      exact Nat.mod_eq_of_lt ((Nat.le_add_left ..).trans_lt (hfits.trans_lt limit.isLt))
  · obtain ⟨hnone, hq⟩ := hstarts
    obtain ⟨-, hwf, -⟩ := hm
    have hstart := encChunk_starts hl hnone
    have hx := chunkCtx_legal hstart.config
    obtain ⟨c, hc, hchealthy⟩ := encChunk_answers hx (chunkCtx_cMax hstart.config) fun _ => hhealthy
    have hcovers := encChunk_covers hx hstart.inSlice.2 hc
    obtain ⟨hsome, hmost, hpos, hin, hopen, hfixed, hrc, hsnap, hinit, -, hsize, hkind⟩ := hcovers
    obtain ⟨hstartEq, hendEq, hbase, hcap, hlen⟩ := Lane.fixedPart_fields hfixed
    have hend := l.sliceEnd.isLt
    have hfits : s.outPos.toNat + c.bytes.length ≤ s.cfg.outLimit.toNat := by omega
    have h := emitted_emits (lanes := s.lanes.set L c.lane) (n := c.u) (k := c.kind) hwf hfits (by omega) (by omega) s.stream
    refine ⟨_, c.lane, c.bytes, c.u, c.kind, encChunk_emits hl hstart hq hc hfits, h.completes, h.host, h.results, hsome, hmost,
      h.outPos, h.writes, h.consumed, h.produced, h.table, rfl, h.lanes, hpos, ?_, hrc, hstartEq, hendEq, hbase, hcap, hlen,
      hinit hstart.ready, hsnap, hchealthy⟩
    rw [hopen, hstart.isOpen, hendEq]
    exact Bool.true_and _

end

section
/-! PROOFS. `ENC_SLICE` is its chunks (44_lzma2_stream.md R294): the chunks that a slice runs through, what they leave of the
lane, and that the slice command writes what the chunk command, repeated, writes. -/

namespace Sys2Proof.Machine

variable {s t : State} {L : Nat} {l l' : Lane} {x : ChunkCtx} {c : ChunkResult} {cs : List ChunkResult} {r r' : SliceResult}
  {dr : Bool} {fuel : Nat}

/-! ## The chunks of a slice -/

/-- The chunks `cs` run the lane `l` to the end of its slice, where it is `l'`. -/
inductive SliceRun (x : ChunkCtx) : Lane → List ChunkResult → Lane → Prop
  | done {l : Lane} : l.sliceEnd.toNat ≤ l.pos.toNat → SliceRun x l [] l
  | chunk {l l' : Lane} {c : ChunkResult} {cs : List ChunkResult} : l.pos.toNat < l.sliceEnd.toNat → encChunk x l = .ok c →
      SliceRun x c.lane cs l' → SliceRun x l (c :: cs) l'

/-- The bytes of some chunks, and the number of their headers. -/
def chunkBytes (cs : List ChunkResult) : List Byte := (cs.map (·.bytes)).flatten
def headerCount (cs : List ChunkResult) : Nat := (cs.map fun c => max c.kind 1).sum

theorem chunkBytes_cons (c : ChunkResult) (cs : List ChunkResult) : chunkBytes (c :: cs) = c.bytes ++ chunkBytes cs := rfl

theorem headerCount_cons (c : ChunkResult) (cs : List ChunkResult) : headerCount (c :: cs) = max c.kind 1 + headerCount cs := by
  unfold headerCount
  rw [List.map_cons, List.sum_cons]

/-- What a slice has made once the chunk `c` is done too. -/
def SliceResult.add (r : SliceResult) (c : ChunkResult) : SliceResult :=
  { lane := c.lane, bytes := r.bytes ++ c.bytes, chunks := r.chunks + max c.kind 1 }

theorem encSliceFrom_done (x : ChunkCtx) (cap : Option Nat) (fuel : Nat) (h : r.lane.sliceEnd.toNat ≤ r.lane.pos.toNat) :
    encSliceFrom x cap fuel r = .ok r := by
  cases fuel <;> exact if_neg (Nat.not_lt.mpr h)

theorem encSliceFrom_uncapped (fuel : Nat) (h : r.lane.pos.toNat < r.lane.sliceEnd.toNat) :
    encSliceFrom x none (fuel + 1) r = encChunk x r.lane >>= fun c => encSliceFrom x none fuel (r.add c) :=
  if_pos h

theorem encSliceFrom_capped (n fuel : Nat) (h : r.lane.pos.toNat < r.lane.sliceEnd.toNat) :
    encSliceFrom x (some n) (fuel + 1) r = encChunk x r.lane >>= fun c =>
      check (decide ((r.add c).bytes.length ≤ n)) .outOfMemory >>= fun _ => encSliceFrom x (some n) fuel (r.add c) :=
  if_pos h

/-- What a slice answers is the sum of its chunks. -/
theorem encSliceFrom_run (h : encSliceFrom x none fuel r = .ok r') : ∃ cs, SliceRun x r.lane cs r'.lane
    ∧ r'.bytes = r.bytes ++ chunkBytes cs ∧ r'.chunks = r.chunks + headerCount cs := by
  induction fuel generalizing r with
  | zero =>
    obtain ⟨hlt, h⟩ | ⟨hdone, h⟩ := ite_eq_iff.mp h
    · cases h
    · cases h
      exact ⟨[], .done (Nat.not_lt.mp hdone), (List.append_nil _).symm, rfl⟩
  | succ fuel ih =>
    rcases Nat.lt_or_ge r.lane.pos.toNat r.lane.sliceEnd.toNat with hlt | hdone
    · obtain ⟨c, hc, hrest⟩ := (bind_ok _ _ _).mp ((encSliceFrom_uncapped fuel hlt).symm.trans h)
      obtain ⟨cs, hrun, hbytes, hchunks⟩ := ih hrest
      exact ⟨c :: cs, .chunk hlt hc hrun, hbytes.trans (List.append_assoc ..),
        hchunks.trans ((Nat.add_assoc ..).trans (congrArg _ (headerCount_cons c cs).symm))⟩
    · cases (encSliceFrom_done x none _ hdone).symm.trans h
      exact ⟨[], .done hdone, (List.append_nil _).symm, rfl⟩

/-- What its chunks leave of the lane of a slice, and their sizes. -/
structure SliceCovers (l : Lane) (cs : List ChunkResult) (l' : Lane) : Prop where
  pos    : l'.pos = l.sliceEnd
  isOpen : l'.sliceOpen = false
  fixed  : l'.fixedPart = l.fixedPart
  size   : (chunkBytes cs).length ≤ 6 * (l.sliceEnd.toNat - l.pos.toNat)
  some   : l.pos.toNat < l.sliceEnd.toNat → 1 ≤ headerCount cs
  atMost : headerCount cs ≤ l.sliceEnd.toNat - l.pos.toNat

theorem SliceRun.covers (hx : x.Legal) (h : SliceRun x l cs l') : l.pos.toNat ≤ l.sliceEnd.toNat →
    l.sliceOpen = decide (l.pos.toNat < l.sliceEnd.toNat) → SliceCovers l cs l' := by
  induction h with
  | @done l hdone =>
    intro hle hopen
    exact ⟨BitVec.eq_of_toNat_eq (Nat.le_antisymm hle hdone), hopen.trans (decide_eq_false (Nat.not_lt.mpr hdone)), rfl,
      Nat.zero_le _, fun hlt => absurd hlt (Nat.not_lt.mpr hdone), Nat.zero_le _⟩
  | @chunk l l' c cs hlt hc hrest ih =>
    intro hle hopen
    obtain ⟨hsome, -, hpos, hin, hcopen, hfixed, -, -, -, -, hsize, hkind⟩ := encChunk_covers hx hlt hc
    have hend : c.lane.sliceEnd = l.sliceEnd := (Lane.fixedPart_fields hfixed).2.1
    rw [hopen, decide_eq_true hlt, Bool.true_and, ← hend] at hcopen
    obtain ⟨hpos', hopen', hfixed', hsize', -, hatMost'⟩ := ih (hin.trans_eq (congrArg _ hend.symm)) hcopen
    rw [hend] at hsize' hatMost'
    have hlength : (chunkBytes (c :: cs)).length = c.bytes.length + (chunkBytes cs).length := List.length_append
    have hcount := headerCount_cons c cs
    exact ⟨hpos'.trans hend, hopen', hfixed'.trans hfixed, by omega, fun _ => by omega, by omega⟩

/-- The lane as a finished chunk leaves it (R285). -/
structure Lane.Closed (l : Lane) : Prop where
  rc      : l.rc = .reset
  init    : l.init = true
  healthy : l.Healthy

theorem SliceRun.closes (hx : x.Legal) (hmax : x.parse.cMax ≤ 2 ^ 16) (h : SliceRun x l cs l') :
    l.pos.toNat < l.sliceEnd.toNat → (l.pending = 0 → l.init = true ∧ l.Healthy) → l'.Closed := by
  induction h with
  | done hdone => exact fun hlt => absurd hlt (Nat.not_lt.mpr hdone)
  | chunk hlt hc hrest ih =>
    intro _ hready
    obtain ⟨c, hc', hhealthy⟩ := encChunk_answers hx hmax fun hp => (hready hp).2
    obtain rfl := Except.ok.inj (hc'.symm.trans hc)
    have hcovers := encChunk_covers hx hlt hc
    have hinit := hcovers.init fun hp => (hready hp).1
    cases hrest with
    | done => exact ⟨hcovers.rc, hinit, hhealthy⟩
    | chunk hlt' _ _ => exact ih hlt' fun _ => ⟨hinit, hhealthy⟩

/-- A slice with enough rounds answers. -/
theorem encSliceFrom_answers (hx : x.Legal) (hmax : x.parse.cMax ≤ 2 ^ 16) (h : r.lane.pending = 0 → r.lane.Healthy)
    (hfuel : r.lane.sliceEnd.toNat - r.lane.pos.toNat ≤ fuel) : ∃ r', encSliceFrom x none fuel r = .ok r' := by
  induction fuel generalizing r with
  | zero => exact ⟨r, encSliceFrom_done x none 0 (by omega)⟩
  | succ fuel ih =>
    rcases Nat.lt_or_ge r.lane.pos.toNat r.lane.sliceEnd.toNat with hlt | hdone
    · obtain ⟨c, hc, hhealthy⟩ := encChunk_answers hx hmax h
      have hcovers := encChunk_covers hx hlt hc
      have hend : c.lane.sliceEnd = r.lane.sliceEnd := (Lane.fixedPart_fields hcovers.fixed).2.1
      have hsome := hcovers.some
      have hpos := hcovers.pos
      obtain ⟨r', hr'⟩ := ih (r := r.add c) (fun _ => hhealthy) (by simp only [SliceResult.add, hend]; omega)
      exact ⟨r', (encSliceFrom_uncapped fuel hlt).trans ((bind_ok _ _ _).mpr ⟨c, hc, hr'⟩)⟩
    · exact ⟨r, encSliceFrom_done x none _ hdone⟩

/-! ## An opened slice -/

/-- What a whole slice makes of the lane `l` that it opens. -/
structure SliceEncodes (l : Lane) (r : SliceResult) : Prop where
  pos    : r.lane.pos = l.sliceEnd
  isOpen : r.lane.sliceOpen = false
  fixed  : r.lane.fixedPart = l.fixedPart
  closed : r.lane.Closed
  size   : r.bytes.length ≤ 6 * (l.sliceEnd.toNat - l.sliceStart.toNat)
  some   : 1 ≤ r.chunks
  atMost : r.chunks ≤ l.sliceEnd.toNat - l.sliceStart.toNat

theorem encSlice_run (h : encSlice x none l = .ok r) :
    ∃ cs, SliceRun x l cs r.lane ∧ r.bytes = chunkBytes cs ∧ r.chunks = headerCount cs := by
  obtain ⟨cs, hrun, hbytes, hchunks⟩ := encSliceFrom_run h
  exact ⟨cs, hrun, hbytes, hchunks.trans (Nat.zero_add _)⟩

/-- An opened slice owes a state reset (R290). -/
theorem Lane.openSlice_owes (l : Lane) (dr : Bool) : (l.openSlice dr).pending ≠ 0 := by
  rw [Lane.openSlice_pending]
  cases dr <;> decide

theorem encSlice_encodes (hx : x.Legal) (hmax : x.parse.cMax ≤ 2 ^ 16) (hlt : l.sliceStart.toNat < l.sliceEnd.toNat)
    (h : encSlice x none (l.openSlice dr) = .ok r) : SliceEncodes l r := by
  obtain ⟨cs, hrun, hbytes, hchunks⟩ := encSlice_run h
  obtain ⟨hpos, hopen, hfixed, hsize, hsome, hatMost⟩ := hrun.covers hx hlt.le (decide_eq_true hlt).symm
  rw [← hchunks] at hsome hatMost
  rw [← hbytes] at hsize
  exact ⟨hpos, hopen, hfixed, hrun.closes hx hmax hlt fun hp => absurd hp (l.openSlice_owes dr), hsize, hsome hlt, hatMost⟩

theorem encSlice_answers (hx : x.Legal) (hmax : x.parse.cMax ≤ 2 ^ 16) (hlt : l.sliceStart.toNat < l.sliceEnd.toNat)
    (dr : Bool) : ∃ r, encSlice x none (l.openSlice dr) = .ok r ∧ SliceEncodes l r := by
  obtain ⟨r, hr⟩ := encSliceFrom_answers (r := { lane := l.openSlice dr, bytes := [], chunks := 0 }) hx hmax
    (fun hp => absurd hp (l.openSlice_owes dr)) (Nat.le_refl _)
  exact ⟨r, hr, encSlice_encodes hx hmax hlt hr⟩

/-! ## `ENC_SLICE` (R294) -/

/-- What the start checks of `ENC_SLICE` ask. -/
structure SliceStarts (s : State) (l : Lane) (dr : Bool) : Prop where
  closed : s.stream.isOpen = false
  config : s.encConfigLegal = true
  legal  : s.sliceLegal l dr = true
  fits   : s.tableFits = true

theorem SliceStarts.inSlice (h : SliceStarts s l dr) : l.sliceStart.toNat < l.sliceEnd.toNat := by
  obtain ⟨-, -, -, -, -, hlt, -⟩ := (sliceLegal_iff s l dr).mp h.legal
  exact hlt

theorem encSlice_starts (hl : s.lanes[L]? = some l) (h : startFault (.encSlice L dr) s = none) : SliceStarts s l dr := by
  have h := (laneChecks_failure hl).symm.trans h
  simp only [firstFailure_append_eq_none, firstFailure_cons_eq_none, firstFailure_nil, encConfigChecks_failure,
    sliceChecks_failure, tableChecks_failure, firstFailure_invalidUnless, ite_none_eq_none, Bool.not_eq_true', and_true,
    List.all_cons, List.all_nil, id, Bool.and_true, decide_eq_true_eq] at h
  obtain ⟨⟨⟨⟨hclosed, hconfig⟩, hblock⟩, hdr⟩, hfits⟩ := h
  refine ⟨hclosed, hconfig, (Bool.and_eq_true _ _).mpr ⟨hblock, ?_⟩, hfits⟩
  cases dr <;> simpa using hdr

/-- Past its checks `ENC_SLICE` encodes the opened slice and writes what that gives. -/
theorem encSlice_passes (hl : s.lanes[L]? = some l) (h : SliceStarts s l dr) (hq : s.control.cancel = false) :
    exec (.encSlice L dr) s = conclude (.encSlice L dr) s fun u => encSlice u.chunkCtx none (l.openSlice dr) >>= fun r =>
      { u with lanes := u.lanes.set L r.lane }.writeOut r.bytes >>= fun v =>
      .ok ((v.consume (l.sliceEnd.toNat - l.sliceStart.toNat)).setRes r.bytes.length
        (l.sliceEnd.toNat - l.sliceStart.toNat) r.chunks) := by
  obtain ⟨hclosed, hconfig, hlegal, hfits⟩ := h
  refine Eq.trans (Eq.refl (execEncSlice L dr s)) (conclude_congr ((getLane_bind (s := s.clearRes) hl _).trans ?_))
  refine (check_bind (by rw [State.clearRes_stream, hclosed]; rfl) _).trans <| (check_bind hconfig _).trans <|
    (check_bind hlegal _).trans <| (check_bind hfits _).trans ?_
  exact (congrArg (· >>= _) (cancelPoint_passes (s := s.clearRes) hq)).trans rfl

theorem encSlice_emits (hl : s.lanes[L]? = some l) (h : SliceStarts s l dr) (hq : s.control.cancel = false)
    (hr : encSlice s.chunkCtx none (l.openSlice dr) = .ok r) (hroom : s.outPos.toNat + r.bytes.length ≤ s.cfg.outLimit.toNat) :
    exec (.encSlice L dr) s = .next (s.emitted (s.lanes.set L r.lane) r.bytes (l.sliceEnd.toNat - l.sliceStart.toNat)
      r.chunks).complete :=
  (encSlice_passes hl h hq).trans (conclude_ok _ s _ _ ((bind_ok _ _ _).mpr ⟨r, hr, writeOut_emitted _ _ hroom⟩))

theorem encSlice_full (hl : s.lanes[L]? = some l) (h : SliceStarts s l dr) (hq : s.control.cancel = false)
    (hr : encSlice s.chunkCtx none (l.openSlice dr) = .ok r) (hfull : s.cfg.outLimit.toNat < s.outPos.toNat + r.bytes.length) :
    exec (.encSlice L dr) s = .next (s.faultCommit (encode (.encSlice L dr)) .destinationTooSmall) :=
  (encSlice_passes hl h hq).trans (conclude_fault _ s _ _ ((bind_error _ _ _).mpr (.inr ⟨r, hr,
    writeOut_full (s := { s.clearRes with lanes := s.lanes.set L r.lane }) hfull _⟩)))

/-- A completed `ENC_SLICE` passed its checks and has encoded the slice to bytes that fit. -/
theorem encSlice_emitted (hl : s.lanes[L]? = some l) (h : exec (.encSlice L dr) s = .next t) (hok : CompletesOk s t) :
    ∃ r, SliceStarts s l dr ∧ encSlice s.chunkCtx none (l.openSlice dr) = .ok r
      ∧ s.outPos.toNat + r.bytes.length ≤ s.cfg.outLimit.toNat
      ∧ t = (s.emitted (s.lanes.set L r.lane) r.bytes (l.sliceEnd.toNat - l.sliceStart.toNat) r.chunks).complete := by
  have h : execEncSlice L dr s = .next t := h
  suffices hend : ∃ u, (∃ r, SliceStarts s l dr ∧ encSlice s.chunkCtx none (l.openSlice dr) = .ok r
      ∧ s.outPos.toNat + r.bytes.length ≤ s.cfg.outLimit.toNat
      ∧ u = s.emitted (s.lanes.set L r.lane) r.bytes (l.sliceEnd.toNat - l.sliceStart.toNat) r.chunks) ∧ t = u.complete by
    obtain ⟨u, ⟨r, hstarts, hr, hfits, rfl⟩, rfl⟩ := hend
    exact ⟨r, hstarts, hr, hfits, rfl⟩
  refine conclude_completed h hok <|
    (getLane_ends s.clearRes L).bind fun l₁ hl₁ => .check rfl fun hclosed => .check rfl fun hconfig => .check rfl fun hlegal =>
    .check rfl fun hfits => (cancelPoint_ends s.clearRes).bind fun _ _ =>
    (encSlice_ends s.clearRes.chunkCtx none _ _).bind fun r hr => (writeOut_ends _ _).bind fun v hv => .pure ⟨r, ?_⟩
  obtain rfl : l = l₁ := Option.some.inj (hl.symm.trans hl₁)
  obtain ⟨hroom, rfl⟩ := (writeOut_ok _ _ _).mp hv
  exact ⟨⟨(Bool.not_eq_true' _).mp hclosed, hconfig, hlegal, hfits⟩, hr, hroom, rfl⟩

/-! ## The chunk command repeated (R294) -/

/-- The lane behind a chunk starts the next one, if its slice has more. -/
theorem ChunkStarts.next (h : ChunkStarts s l) (hc : encChunk s.chunkCtx l = .ok c)
    (hroom : s.outPos.toNat + c.bytes.length ≤ s.cfg.outLimit.toNat) (lanes : List Lane) (n k : Nat)
    (hlt : c.lane.pos.toNat < c.lane.sliceEnd.toNat) : ChunkStarts (s.emitted lanes c.bytes n k).complete c.lane := by
  have hcovers := encChunk_covers (chunkCtx_legal h.config) h.inSlice.2 hc
  obtain ⟨hstart, hend, -⟩ := Lane.fixedPart_fields hcovers.fixed
  have hpos := hcovers.pos
  have hlimit := s.cfg.outLimit.isLt
  have hout : (s.emitted lanes c.bytes n k).complete.outLegal = true :=
    (outLegal_iff _).mpr ⟨(Nat.mod_eq_of_lt (by omega)).trans_le hroom, encConfigLegal_cap (s := s) h.config⟩
  exact
    { closed := h.closed
      isOpen := by
        rw [hcovers.isOpen, h.isOpen, Bool.true_and, ← hend]
        exact decide_eq_true hlt
      config := (Bool.and_eq_true _ _).mpr ⟨((Bool.and_eq_true _ _).mp h.config).1, hout⟩
      inBlock := by
        unfold State.sliceInBlock
        rw [hstart, hend]
        exact h.inBlock
      inSlice := ⟨by rw [hstart, hpos]; exact h.inSlice.1.trans (Nat.le_add_right ..), hlt⟩
      first := fun hp => absurd hp hcovers.pending
      fits := h.fits
      ready := fun _ => hcovers.init h.ready }

theorem runChunks_next (n : Nat) (hl : s.lanes[L]? = some l) (hopen : l.sliceOpen = true)
    (h : exec (.encChunk L) s = .next t) : runChunks L (n + 1) s = runChunks L n t := by
  simp [runChunks, hl, hopen, h]

/-- Repeated on the lane, the chunk command runs through the chunks of the slice. -/
theorem SliceRun.runChunks (h : SliceRun x l cs l') : ∀ s : State, s.chunkCtx = x → s.lanes[L]? = some l →
    s.control.cancel = false → (l.pos.toNat < l.sliceEnd.toNat → ChunkStarts s l) →
    (l.sliceEnd.toNat ≤ l.pos.toNat → l.sliceOpen = false) →
    s.outPos.toNat + (chunkBytes cs).length ≤ s.cfg.outLimit.toNat →
    ∃ n b, Machine.runChunks L n s = .next b ∧ b.lanes = s.lanes.set L l'
      ∧ b.out = Memory.writeBytes s.out s.outPos.toNat (chunkBytes cs)
      ∧ b.outPos = BitVec.ofNat 32 (s.outPos.toNat + (chunkBytes cs).length)
      ∧ b.counters.consumed = s.counters.consumed + BitVec.ofNat 64 (l.sliceEnd.toNat - l.pos.toNat)
      ∧ b.counters.produced = s.counters.produced + BitVec.ofNat 64 (chunkBytes cs).length := by
  induction h with
  | @done l hdone =>
    intro s _ hl _ _ hclosed _
    refine ⟨0, s, rfl, (congrArg State.lanes (setLane_self hl)).symm, rfl,
      BitVec.eq_of_toNat_eq (Nat.mod_eq_of_lt s.outPos.isLt).symm, ?_, (BitVec.add_zero _).symm⟩
    rw [Nat.sub_eq_zero_of_le hdone]
    exact (BitVec.add_zero _).symm
  | @chunk l l' c cs hlt hc hrest ih =>
    rintro s rfl hl hq hstart - hroom
    have hstart := hstart hlt
    have hcovers := encChunk_covers (chunkCtx_legal hstart.config) hlt hc
    have hend : c.lane.sliceEnd = l.sliceEnd := (Lane.fixedPart_fields hcovers.fixed).2.1
    have hpos := hcovers.pos
    have hin := hcovers.inSlice
    have hlimit := s.cfg.outLimit.isLt
    have hlength : (chunkBytes (c :: cs)).length = c.bytes.length + (chunkBytes cs).length := List.length_append
    have hfits : s.outPos.toNat + c.bytes.length ≤ s.cfg.outLimit.toNat := by omega
    have hexec := encChunk_emits hl hstart hq hc hfits
    have hout : (s.emitted (s.lanes.set L c.lane) c.bytes c.u c.kind).complete.outPos.toNat = s.outPos.toNat + c.bytes.length :=
      Nat.mod_eq_of_lt (by omega)
    have hclosed : c.lane.sliceEnd.toNat ≤ c.lane.pos.toNat → c.lane.sliceOpen = false := fun hdone => by
      rw [hcovers.isOpen, ← hend, decide_eq_false (Nat.not_lt.mpr hdone), Bool.and_false]
    obtain ⟨n, b, hb, hlanes, hwrites, hpos', hconsumed, hproduced⟩ := ih
      (s.emitted (s.lanes.set L c.lane) c.bytes c.u c.kind).complete rfl
      (List.getElem?_set_self (List.getElem?_eq_some_iff.mp hl).1) rfl (hstart.next hc hfits _ _ _) hclosed
      (by rw [hout, Nat.add_assoc, ← hlength]; exact hroom)
    refine ⟨n + 1, b, (runChunks_next n hl hstart.isOpen hexec).trans hb, hlanes.trans (List.set_set ..), ?_, ?_, ?_, ?_⟩
    · rw [hwrites, hout, chunkBytes_cons, Memory.writeBytes_append]
      rfl
    · rw [hpos', hout, hlength, Nat.add_assoc]
    · rw [hconsumed, hend, show l.sliceEnd.toNat - l.pos.toNat = c.u + (l.sliceEnd.toNat - c.lane.pos.toNat) by omega,
        BitVec.ofNat_add]
      exact BitVec.add_assoc ..
    · rw [hproduced, hlength, BitVec.ofNat_add]
      exact BitVec.add_assoc ..

/-- Once `SLICE_BEGIN` has opened the slice, the chunk command may start. -/
theorem SliceStarts.chunkStarts (h : SliceStarts s l dr) (lanes : List Lane) :
    ChunkStarts { s.clearRes with lanes := lanes }.complete (l.openSlice dr) where
  closed := h.closed
  isOpen := rfl
  config := h.config
  inBlock := ((Bool.and_eq_true _ _).mp h.legal).1
  inSlice := ⟨Nat.le_refl _, h.inSlice⟩
  first := fun hp => by
    obtain ⟨-, -, -, -, -, -, -, hdr⟩ := (sliceLegal_iff s l dr).mp h.legal
    refine hdr.mp ?_
    cases dr
    · cases hp
    · rfl
  fits := h.fits
  ready := fun hp => absurd hp (l.openSlice_owes dr)

end Sys2Proof.Machine

open Sys2Proof Sys2Proof.Machine

/-- Settles O55: past the start checks the opened slice owes a state reset, so its chunks answer, each in at most six bytes
for each position. -/
theorem encSliceCompletes : Obligations.EncSliceCompletes := by
  intro s L dr
  refine ⟨fun c => exec_startFault, fun limit cap b hstarts hexec hok hfull => ?_, fun l => ?_⟩
  · obtain ⟨hnone, hq⟩ := hstarts
    cases hl : s.lanes[L]? with
    | none => cases (laneChecks_none s L _ hl).symm.trans hnone
    | some l =>
      obtain ⟨r, -, hr, hfits, rfl⟩ := encSlice_emitted (s := s.withRoom limit cap) hl hexec hok
      refine encSlice_full hl (encSlice_starts hl hnone) hq hr (hfull.trans_eq (congrArg (s.outPos.toNat + ·) ?_))
      exact Nat.mod_eq_of_lt ((Nat.le_add_left ..).trans_lt (hfits.trans_lt limit.isLt))
  · intro n hm hl hstarts hroom
    obtain ⟨hnone, hq⟩ := hstarts
    obtain ⟨-, hwf, -⟩ := hm
    have hstart := encSlice_starts hl hnone
    obtain ⟨r, hr, hencodes⟩ := encSlice_answers (chunkCtx_legal hstart.config) (chunkCtx_cMax hstart.config) hstart.inSlice dr
    obtain ⟨hpos, hopen, hfixed, ⟨hrc, hinit, hhealthy⟩, hsize, hsome, hatMost⟩ := hencodes
    obtain ⟨hstartEq, hendEq, hbase, hcap, hlen⟩ := Lane.fixedPart_fields hfixed
    have hend := l.sliceEnd.isLt
    have hfits : s.outPos.toNat + r.bytes.length ≤ s.cfg.outLimit.toNat := by omega
    have h := emitted_emits (lanes := s.lanes.set L r.lane) (n := n) (k := r.chunks) hwf hfits (by omega) (by omega) s.stream
    exact ⟨_, r.lane, r.bytes, r.chunks, encSlice_emits hl hstart hq hr hfits, h.completes, h.host, h.results, hsome, h.outPos,
      h.writes, h.consumed, h.produced, h.table, rfl, h.lanes, hpos, hopen, hrc, hstartEq, hendEq, hbase, hcap, hlen, hinit,
      hhealthy⟩

/-- Settles O56: a completed slice runs through its chunks, and the repeated chunk command runs through the same. -/
theorem sliceIsItsChunks : Obligations.SliceIsItsChunks := by
  intro s t L l dr hl hq hexec hok
  obtain ⟨r, hstart, hr, hfits, rfl⟩ := encSlice_emitted hl hexec hok
  obtain ⟨cs, hrun, hbytes, -⟩ := encSlice_run hr
  have hL := (List.getElem?_eq_some_iff.mp hl).1
  have hlt := hstart.inSlice
  obtain ⟨n, b, hb, hlanes, hwrites, hpos, hconsumed, hproduced⟩ := hrun.runChunks
    (s.clearRes.setLane L (l.openSlice dr)).complete rfl (List.getElem?_set_self hL) rfl (fun _ => hstart.chunkStarts _)
    (fun hdone => absurd hdone (Nat.not_le.mpr hlt)) (by rw [← hbytes]; exact hfits)
  have hlanes : b.lanes = s.lanes.set L r.lane := hlanes.trans (List.set_set ..)
  rw [← hbytes] at hwrites hpos hproduced
  refine ⟨_, b, n, sliceBegin_opens hl hstart.closed hstart.legal, hb, fun k hk => ?_, hwrites, hpos, ?_, hlanes⟩
  · rw [hlanes, List.getElem?_set_self hL] at hk
    obtain rfl := Option.some.inj hk
    exact (encSlice_encodes (chunkCtx_legal hstart.config) (chunkCtx_cMax hstart.config) hlt hr).isOpen
  · exact congrArg₂ Counters.mk hconsumed hproduced

end

section
/-! PROOFS. `ENC_BLOCK` is its slices (44_lzma2_stream.md R298 to R301): how a block is split, what each slice answers, and
the staging capacity, which only decides whether the command faults. -/

namespace Sys2Proof.Machine

variable {s t : State} {x : ChunkCtx} {l : Lane} {r r' : SliceResult} {dr : Bool} {fuel n i : Nat}

/-! ## The staging capacity (R301) -/

/-- A slice that answers without a capacity answers the same with one, if its bytes fit. -/
theorem encSliceFrom_cap (h : encSliceFrom x none fuel r = .ok r') (hfits : r.bytes.length ≤ n) :
    encSliceFrom x (some n) fuel r = check (decide (r'.bytes.length ≤ n)) .outOfMemory >>= fun _ => .ok r' := by
  induction fuel generalizing r with
  | zero =>
    obtain ⟨-, ⟨⟩⟩ | ⟨hdone, ⟨⟩⟩ := ite_eq_iff.mp h
    rw [check_bind (decide_eq_true hfits)]
    exact h
  | succ fuel ih =>
    rcases Nat.lt_or_ge r.lane.pos.toNat r.lane.sliceEnd.toNat with hlt | hdone
    · obtain ⟨c, hc, hrest⟩ := (bind_ok _ _ _).mp ((encSliceFrom_uncapped fuel hlt).symm.trans h)
      rw [encSliceFrom_capped n fuel hlt, hc]
      change (check (decide ((r.add c).bytes.length ≤ n)) .outOfMemory >>= fun _ => encSliceFrom x (some n) fuel (r.add c)) = _
      by_cases hadd : (r.add c).bytes.length ≤ n
      · rw [check_bind (decide_eq_true hadd)]
        exact ih hrest hadd
      · obtain ⟨cs, -, hbytes, -⟩ := encSliceFrom_run hrest
        have hlong : ¬ r'.bytes.length ≤ n := by
          rw [hbytes, List.length_append]
          omega
        rw [decide_eq_false hadd, decide_eq_false hlong]
        rfl
    · cases (encSliceFrom_done x none _ hdone).symm.trans h
      rw [encSliceFrom_done x _ _ hdone, check_bind (decide_eq_true hfits)]

theorem encSlice_cap (n : Nat) (h : encSlice x none l = .ok r) :
    encSlice x (some n) l = check (decide (r.bytes.length ≤ n)) .outOfMemory >>= fun _ => .ok r :=
  encSliceFrom_cap h (Nat.zero_le n)

/-! ## How a block is split (R298) -/

/-- What the start checks of `ENC_BLOCK` ask where the block is not empty. -/
structure BlockStarts (s : State) : Prop where
  config   : s.encConfigLegal = true
  legal    : s.blockLegal = true
  active   : 1 ≤ s.cfg.nActive.toNat ∧ s.cfg.nActive.toNat ≤ s.lanes.length
  nonempty : s.cfg.blkStart.toNat < s.cfg.blkEnd.toNat
  fits     : s.tableFits = true
  needDr   : s.stream.isOpen = true → s.stream.needDr = true → s.cfg.dictReset = true
  dict     : s.stream.isOpen = true → s.cfg.blkEnd.toNat ≤ s.stream.dict.toNat

theorem encBlock_checked (h : startFault .encBlock s = none) : s.encConfigLegal = true ∧ s.blockLegal = true
    ∧ (1 ≤ s.cfg.nActive.toNat ∧ s.cfg.nActive.toNat ≤ s.lanes.length)
    ∧ (s.cfg.blkStart ≠ s.cfg.blkEnd → s.tableFits = true
      ∧ (s.stream.isOpen = true → s.stream.needDr = true → s.cfg.dictReset = true)
      ∧ (s.stream.isOpen = true → s.cfg.blkEnd.toNat ≤ s.stream.dict.toNat)) := by
  simp only [startFault, startChecks, firstFailure_append_eq_none, encConfigChecks_failure, blockChecks_failure,
    firstFailure_invalidUnless, List.all_cons, List.all_nil, id, Bool.and_true, decide_eq_true_eq, ite_eq_left_iff,
    reduceCtorEq, imp_false, not_not] at h
  obtain ⟨⟨⟨hconfig, hlegal⟩, hactive⟩, hrest⟩ := h
  refine ⟨hconfig, hlegal, hactive, fun hne => ?_⟩
  simpa only [if_neg hne, firstFailure_append_eq_none, firstFailure_cons_eq_none, firstFailure_nil, tableChecks_failure,
    ite_none_eq_none, and_true, decide_eq_true_eq] using hrest

theorem encBlock_starts (h : startFault .encBlock s = none) (hlen : 0 < s.cfg.blkEnd.toNat - s.cfg.blkStart.toNat) :
    BlockStarts s := by
  obtain ⟨hconfig, hlegal, hactive, hrest⟩ := encBlock_checked h
  have hlt := Nat.lt_of_sub_pos hlen
  obtain ⟨hfits, hneedDr, hdict⟩ := hrest fun he => hlt.ne (congrArg BitVec.toNat he)
  exact ⟨hconfig, hlegal, hactive, hlt, hfits, hneedDr, hdict⟩

/-- The two checks of an open stream, as the command makes them. -/
theorem needDr_passes (isOpen needDr reset : Bool) :
    (!(isOpen && (needDr && !reset))) = true ↔ (isOpen = true → needDr = true → reset = true) := by
  cases isOpen <;> cases needDr <;> simp

theorem dict_passes (isOpen : Bool) (a b : Nat) : (!(isOpen && decide (a < b))) = true ↔ (isOpen = true → b ≤ a) := by
  cases isOpen <;> simp

theorem BlockStarts.sliceCount (h : BlockStarts s) : 1 ≤ s.sliceCount
    ∧ s.sliceCount ≤ s.cfg.blkEnd.toNat - s.cfg.blkStart.toNat ∧ s.sliceCount ≤ s.lanes.length := by
  have hactive := h.active
  have hnonempty := h.nonempty
  unfold State.sliceCount
  omega

/-- The slices lie in order in the block, and none is empty. -/
theorem BlockStarts.slice (h : BlockStarts s) (hi : i < s.sliceCount) : s.cfg.blkStart.toNat ≤ s.sliceFrom i
    ∧ s.sliceFrom i < s.sliceTo i ∧ s.sliceTo i ≤ s.cfg.blkEnd.toNat := by
  obtain ⟨hone, hcount, -⟩ := h.sliceCount
  have hsize : 1 ≤ (s.cfg.blkEnd.toNat - s.cfg.blkStart.toNat) / s.sliceCount := Nat.div_pos hcount hone
  have hall := Nat.mul_div_le (s.cfg.blkEnd.toNat - s.cfg.blkStart.toNat) s.sliceCount
  have hupTo := Nat.mul_le_mul_right ((s.cfg.blkEnd.toNat - s.cfg.blkStart.toNat) / s.sliceCount) (Nat.add_one_le_of_lt hi)
  have hnext := Nat.add_one_mul i ((s.cfg.blkEnd.toNat - s.cfg.blkStart.toNat) / s.sliceCount)
  have hnonempty := h.nonempty
  unfold State.sliceTo State.sliceFrom
  split <;> omega

/-- The slices fill the block. -/
theorem BlockStarts.slice_sum (h : BlockStarts s) : ((List.range s.sliceCount).map fun i => s.sliceTo i - s.sliceFrom i).sum
    = s.cfg.blkEnd.toNat - s.cfg.blkStart.toNat := by
  obtain ⟨m, hm⟩ := Nat.exists_eq_succ_of_ne_zero (Nat.ne_of_gt h.sliceCount.1)
  have hbut : ∀ i ∈ List.range m,
      s.sliceTo i - s.sliceFrom i = (s.cfg.blkEnd.toNat - s.cfg.blkStart.toNat) / s.sliceCount := by
    intro i hi
    have hi := List.mem_range.mp hi
    rw [State.sliceTo, if_neg (by omega), State.sliceFrom, State.sliceFrom, Nat.add_one_mul, Nat.add_sub_add_left,
      Nat.add_sub_cancel_left]
  have hlast : s.sliceTo m = s.cfg.blkEnd.toNat := if_pos hm.symm
  obtain ⟨-, hlt, -⟩ := h.slice (i := m) (by omega)
  rw [hm, List.range_succ, List.map_append, List.sum_append, List.map_congr_left hbut, List.map_const', List.sum_replicate,
    List.length_range, List.map_singleton, List.sum_singleton, hlast, smul_eq_mul]
  rw [hlast] at hlt
  unfold State.sliceFrom at hlt ⊢
  omega

/-- The lane `l` with slice `i` in its registers. -/
def State.sliceLane (s : State) (i : Nat) (l : Lane) : Lane :=
  { l with sliceStart := BitVec.ofNat 32 (s.sliceFrom i), sliceEnd := BitVec.ofNat 32 (s.sliceTo i) }

theorem BlockStarts.sliceLane (h : BlockStarts s) (hi : i < s.sliceCount) (l : Lane) :
    (s.sliceLane i l).sliceStart.toNat = s.sliceFrom i ∧ (s.sliceLane i l).sliceEnd.toNat = s.sliceTo i := by
  obtain ⟨-, hlt, hle⟩ := h.slice hi
  have hend := s.cfg.blkEnd.isLt
  exact ⟨Nat.mod_eq_of_lt (by omega), Nat.mod_eq_of_lt (by omega)⟩

/-- Only the first slice of a block that resets the dictionary starts at 0. -/
theorem BlockStarts.sliceReset (h : BlockStarts s) (i : Nat) :
    (s.cfg.dictReset && i == 0) = true ↔ s.sliceFrom i = 0 := by
  obtain ⟨hone, hcount, -⟩ := h.sliceCount
  have hsize : 0 < (s.cfg.blkEnd.toNat - s.cfg.blkStart.toNat) / s.sliceCount := Nat.div_pos hcount hone
  have hlegal := h.legal
  simp only [State.blockLegal, Bool.and_eq_true, beq_iff_eq] at hlegal
  obtain ⟨⟨-, hreset⟩, -⟩ := hlegal
  rw [hreset, Bool.and_eq_true, decide_eq_true_eq, beq_iff_eq, State.sliceFrom, Nat.add_eq_zero_iff, Nat.mul_eq_zero,
    or_iff_left hsize.ne']

/-- `ENC_SLICE` may start on each slice (R299). -/
theorem BlockStarts.sliceStarts (h : BlockStarts s) (hi : i < s.sliceCount) (l : Lane) :
    SliceStarts (s.onSlice i) (s.sliceLane i l) (s.cfg.dictReset && i == 0) := by
  obtain ⟨hstart, hend⟩ := h.sliceLane hi l
  obtain ⟨hfrom, hlt, hto⟩ := h.slice hi
  refine ⟨rfl, h.config, (Bool.and_eq_true _ _).mpr ⟨(Bool.and_eq_true _ _).mpr ⟨h.legal, ?_⟩, ?_⟩, h.fits⟩
  · simp only [State.sliceInBlock, Bool.and_eq_true, decide_eq_true_eq, hstart, hend]
    exact ⟨⟨hfrom, hlt⟩, hto⟩
  · rw [beq_iff_eq, Bool.eq_iff_iff, h.sliceReset, hstart, decide_eq_true_eq]

/-! ## What each slice answers (R299, R300) -/

/-- Slice `i` on its lane gives `r`. -/
def State.SliceAnswers (s : State) (i : Nat) (r : SliceResult) : Prop :=
  ∃ l, s.lanes[i]? = some l ∧ encSlice s.chunkCtx none ((s.sliceLane i l).openSlice (s.cfg.dictReset && i == 0)) = .ok r

theorem State.SliceAnswers.unique (h : s.SliceAnswers i r) (h' : s.SliceAnswers i r') : r = r' := by
  obtain ⟨l, hl, hr⟩ := h
  obtain ⟨l', hl', hr'⟩ := h'
  obtain rfl := Option.some.inj (hl.symm.trans hl')
  exact Except.ok.inj (hr.symm.trans hr')

theorem BlockStarts.encodes (h : BlockStarts s) (hi : i < s.sliceCount) (hr : s.SliceAnswers i r) :
    ∃ l, SliceEncodes (s.sliceLane i l) r := by
  obtain ⟨l, -, hr⟩ := hr
  exact ⟨l, encSlice_encodes (chunkCtx_legal h.config) (chunkCtx_cMax h.config) (h.sliceStarts hi l).inSlice hr⟩

/-- Every slice answers. -/
theorem BlockStarts.answers (h : BlockStarts s) : ∃ r : Nat → SliceResult, ∀ i < s.sliceCount, s.SliceAnswers i (r i) := by
  have heach : ∀ i, ∃ r, i < s.sliceCount → s.SliceAnswers i r := fun i => by
    by_cases hi : i < s.sliceCount
    · have hl := List.getElem?_eq_getElem (hi.trans_le h.sliceCount.2.2)
      obtain ⟨r, hr, -⟩ := encSlice_answers (chunkCtx_legal h.config) (chunkCtx_cMax h.config)
        (h.sliceStarts hi _).inSlice (s.cfg.dictReset && i == 0)
      exact ⟨r, fun _ => ⟨_, hl, hr⟩⟩
    · exact ⟨⟨.reset, [], 0⟩, fun hi' => absurd hi' hi⟩
  exact ⟨fun i => (heach i).choose, fun i => (heach i).choose_spec⟩

/-- The slices `rs` of a block, and the lanes that no slice took. -/
def BlockResult.ofSlices (rs : List SliceResult) (rest : List Lane) : BlockResult where
  lanes := (rs.map fun r => { r.lane with stage := r.bytes }) ++ rest
  bytes := (rs.map (·.bytes)).flatten
  chunks := (rs.map (·.chunks)).sum

/-- The slices from `j` on, on the lanes from `j` on. -/
theorem encLanes_range' {r : Nat → SliceResult} (cap m : Nat) : ∀ j, (∀ i, j ≤ i → i < j + m → s.SliceAnswers i (r i)) →
    encLanes s.chunkCtx cap (s.cfg.dictReset && j == 0) ((List.range' j m).map fun i => (s.sliceFrom i, s.sliceTo i))
        (s.lanes.drop j)
      = check (((List.range' j m).map r).all fun r => decide (r.bytes.length ≤ cap)) .outOfMemory >>= fun _ =>
        .ok (.ofSlices ((List.range' j m).map r) (s.lanes.drop (j + m))) := by
  induction m with
  | zero => exact fun j _ => rfl
  | succ m ih =>
    intro j hr
    obtain ⟨l, hl, hj⟩ := hr j (Nat.le_refl j) (by omega)
    obtain ⟨hlt, rfl⟩ := List.getElem?_eq_some_iff.mp hl
    have hrest := ih (j + 1) fun i hi hi' => hr i (by omega) (by omega)
    rw [show (s.cfg.dictReset && j + 1 == 0) = false from Bool.and_false _] at hrest
    rw [List.drop_eq_getElem_cons hlt, List.range'_succ, List.map_cons, List.map_cons, List.all_cons]
    change (encSlice s.chunkCtx (some cap) ((s.sliceLane j s.lanes[j]).openSlice _) >>= fun r =>
      encLanes s.chunkCtx cap false _ _ >>= fun rest => Except.ok _) = _
    rw [encSlice_cap cap hj, hrest, show j + (m + 1) = j + 1 + m by omega]
    cases decide ((r j).bytes.length ≤ cap)
    · rfl
    · cases ((List.range' (j + 1) m).map r).all fun r => decide (r.bytes.length ≤ cap) <;> rfl

/-! ## The block's slices put together -/

/-- The block whose slice `i` gave `r i`. -/
def State.blockOf (s : State) (r : Nat → SliceResult) : BlockResult :=
  .ofSlices ((List.range s.sliceCount).map r) (s.lanes.drop s.sliceCount)

theorem blockOf_bytes_length (s : State) (r : Nat → SliceResult) :
    (s.blockOf r).bytes.length = ((List.range s.sliceCount).map fun i => (r i).bytes.length).sum := by
  simp [State.blockOf, BlockResult.ofSlices, List.length_flatten, Function.comp_def]

theorem blockOf_chunks (s : State) (r : Nat → SliceResult) :
    (s.blockOf r).chunks = ((List.range s.sliceCount).map fun i => (r i).chunks).sum := by
  simp [State.blockOf, BlockResult.ofSlices, Function.comp_def]

section
variable {r : Nat → SliceResult} (h : BlockStarts s) (hr : ∀ i < s.sliceCount, s.SliceAnswers i (r i))
include h

theorem BlockStarts.partition : partition s.cfg.blkStart.toNat (s.cfg.blkEnd.toNat - s.cfg.blkStart.toNat) s.sliceCount
    = (List.range s.sliceCount).map fun i => (s.sliceFrom i, s.sliceTo i) := by
  have hend : s.cfg.blkStart.toNat + (s.cfg.blkEnd.toNat - s.cfg.blkStart.toNat) = s.cfg.blkEnd.toNat :=
    Nat.add_sub_cancel' h.nonempty.le
  rw [Machine.partition, hend]
  rfl

include hr

/-- The block command encodes the slices, each to no more bytes than `STAGE` holds. -/
theorem BlockStarts.encLanes (cap : Nat) (f : BlockResult → Except Halt State) : (Machine.encLanes s.chunkCtx cap s.cfg.dictReset
      (Machine.partition s.cfg.blkStart.toNat (s.cfg.blkEnd.toNat - s.cfg.blkStart.toNat) s.sliceCount) s.lanes >>= f)
    = check (((List.range s.sliceCount).map r).all fun r => decide (r.bytes.length ≤ cap)) .outOfMemory >>= fun _ =>
      f (s.blockOf r) := by
  have hall := encLanes_range' cap s.sliceCount 0 fun i _ hi => hr i (by omega)
  rw [Nat.zero_add, List.drop_zero, ← List.range_eq_range', show (s.cfg.dictReset && 0 == 0) = s.cfg.dictReset from Bool.and_true _]
    at hall
  rw [h.partition, hall]
  cases ((List.range s.sliceCount).map r).all fun r => decide (r.bytes.length ≤ cap) <;> rfl

theorem BlockStarts.bytes_le : (s.blockOf r).bytes.length ≤ 6 * (s.cfg.blkEnd.toNat - s.cfg.blkStart.toNat) := by
  rw [blockOf_bytes_length, ← h.slice_sum, ← List.sum_map_mul_left]
  refine List.sum_le_sum fun i hi => ?_
  have hi := List.mem_range.mp hi
  obtain ⟨l, hl⟩ := h.encodes hi (hr i hi)
  obtain ⟨hstart, hend⟩ := h.sliceLane hi l
  exact hl.size.trans_eq (by rw [hstart, hend])

theorem BlockStarts.chunks_le : (s.blockOf r).chunks ≤ s.cfg.blkEnd.toNat - s.cfg.blkStart.toNat := by
  rw [blockOf_chunks, ← h.slice_sum]
  refine List.sum_le_sum fun i hi => ?_
  have hi := List.mem_range.mp hi
  obtain ⟨l, hl⟩ := h.encodes hi (hr i hi)
  obtain ⟨hstart, hend⟩ := h.sliceLane hi l
  exact hl.atMost.trans_eq (by rw [hstart, hend])

theorem BlockStarts.le_chunks : s.sliceCount ≤ (s.blockOf r).chunks := by
  rw [blockOf_chunks]
  refine (by simp : s.sliceCount = ((List.range s.sliceCount).map fun i => (r i).chunks).length).trans_le
    (List.length_le_sum_of_one_le _ fun c hc => ?_)
  obtain ⟨i, hi, rfl⟩ := List.mem_map.mp hc
  have hi := List.mem_range.mp hi
  obtain ⟨l, hl⟩ := h.encodes hi (hr i hi)
  exact hl.some

/-! ## `ENC_BLOCK` (R300) -/

/-- Past its checks `ENC_BLOCK` encodes the slices and writes what they give. -/
theorem encBlock_passes (hq : s.control.cancel = false) : exec .encBlock s = conclude .encBlock s fun u =>
    check (((List.range s.sliceCount).map r).all fun r => decide (r.bytes.length ≤ s.params.stageCap.toNat)) .outOfMemory >>=
    fun _ => { u with lanes := (s.blockOf r).lanes }.writeOut (s.blockOf r).bytes >>= fun v =>
    .ok (v.commitBlock s.cfg.blkStart.toNat (s.cfg.blkEnd.toNat - s.cfg.blkStart.toNat) (s.blockOf r)) := by
  have hlanes := h.encLanes hr s.params.stageCap.toNat
  have hne : ¬ s.cfg.blkEnd.toNat - s.cfg.blkStart.toNat = 0 := Nat.sub_ne_zero_of_lt h.nonempty
  obtain ⟨hconfig, hlegal, ⟨hsome, hmost⟩, -, hfits, hneedDr, hdict⟩ := h
  refine Eq.trans (Eq.refl (execEncBlock s)) (conclude_congr ?_)
  refine (check_bind hconfig _).trans <| (check_bind hlegal _).trans <| (check_bind ?_ _).trans <| (if_neg hne).trans <|
    (check_bind hfits _).trans <| (check_bind ?_ _).trans <| (check_bind ?_ _).trans <|
    (congrArg (· >>= _) (cancelPoint_passes (s := s.clearRes) hq)).trans ?_
  · exact (Bool.and_eq_true _ _).mpr ⟨decide_eq_true hsome, decide_eq_true hmost⟩
  · exact (needDr_passes _ _ _).mpr hneedDr
  · exact (dict_passes _ _ _).mpr hdict
  · exact hlanes _

/-- A slice larger than `STAGE` (R301). -/
theorem encBlock_over (hq : s.control.cancel = false) (hi : i < s.sliceCount)
    (hover : s.params.stageCap.toNat < (r i).bytes.length) :
    exec .encBlock s = .next (s.faultCommit (encode .encBlock) .outOfMemory) := by
  refine (encBlock_passes h hr hq).trans (conclude_fault _ s _ _ ((bind_error _ _ _).mpr (.inl ?_)))
  refine (check_error _ _ _).mpr ⟨List.all_eq_false.mpr ⟨_, List.mem_map_of_mem (List.mem_range.mpr hi), ?_⟩, rfl⟩
  exact fun hle => absurd (of_decide_eq_true hle) (Nat.not_le.mpr hover)

/-- With every slice in `STAGE`, the block command writes the block. -/
theorem encBlock_stages (hq : s.control.cancel = false)
    (hstage : ∀ i < s.sliceCount, (r i).bytes.length ≤ s.params.stageCap.toNat) : exec .encBlock s = conclude .encBlock s fun u =>
    { u with lanes := (s.blockOf r).lanes }.writeOut (s.blockOf r).bytes >>= fun v =>
    .ok (v.commitBlock s.cfg.blkStart.toNat (s.cfg.blkEnd.toNat - s.cfg.blkStart.toNat) (s.blockOf r)) := by
  refine (encBlock_passes h hr hq).trans (conclude_congr (check_bind (List.all_eq_true.mpr fun q hmem => ?_) _))
  obtain ⟨i, hi, rfl⟩ := List.mem_map.mp hmem
  exact decide_eq_true (hstage i (List.mem_range.mp hi))

theorem encBlock_full (hq : s.control.cancel = false)
    (hstage : ∀ i < s.sliceCount, (r i).bytes.length ≤ s.params.stageCap.toNat)
    (hfull : s.cfg.outLimit.toNat < s.outPos.toNat + (s.blockOf r).bytes.length) :
    exec .encBlock s = .next (s.faultCommit (encode .encBlock) .destinationTooSmall) :=
  (encBlock_stages h hr hq hstage).trans (conclude_fault _ s _ _
    (writeOut_full (s := { s.clearRes with lanes := (s.blockOf r).lanes }) hfull _))

theorem encBlock_emits (hq : s.control.cancel = false)
    (hstage : ∀ i < s.sliceCount, (r i).bytes.length ≤ s.params.stageCap.toNat)
    (hroom : s.outPos.toNat + (s.blockOf r).bytes.length ≤ s.cfg.outLimit.toNat) :
    exec .encBlock s = .next { s.emitted (s.blockOf r).lanes (s.blockOf r).bytes (s.cfg.blkEnd.toNat - s.cfg.blkStart.toNat)
      (s.blockOf r).chunks with
      stream := s.stream.addBlock (Memory.readBytes s.dict s.cfg.blkStart.toNat
        (s.cfg.blkEnd.toNat - s.cfg.blkStart.toNat)) }.complete :=
  (encBlock_stages h hr hq hstage).trans (conclude_ok _ s _ _ ((bind_ok _ _ _).mpr
    ⟨_, (writeOut_ok _ _ _).mpr ⟨hroom, rfl⟩, rfl⟩))

end

/-- A block with no positions (R300). -/
theorem encBlock_empty (h : startFault .encBlock s = none) (hempty : s.cfg.blkEnd.toNat - s.cfg.blkStart.toNat = 0) :
    exec .encBlock s = .next s.clearRes.complete := by
  obtain ⟨hconfig, hlegal, ⟨hsome, hmost⟩, -⟩ := encBlock_checked h
  refine Eq.trans (Eq.refl (execEncBlock s)) (conclude_ok _ s _ _ ?_)
  refine (check_bind hconfig _).trans <| (check_bind hlegal _).trans <| (check_bind ?_ _).trans <| if_pos hempty
  exact (Bool.and_eq_true _ _).mpr ⟨decide_eq_true hsome, decide_eq_true hmost⟩

/-- A completed `ENC_BLOCK` passed its checks. -/
theorem encBlock_completed (h : exec .encBlock s = .next t) (hok : CompletesOk s t)
    (hlen : 0 < s.cfg.blkEnd.toNat - s.cfg.blkStart.toNat) : BlockStarts s := by
  have h : execEncBlock s = .next t := h
  suffices hend : ∃ u : State, BlockStarts s ∧ t = u.complete from hend.choose_spec.1
  refine conclude_completed h hok <| .check rfl fun hconfig => .check rfl fun hlegal => .check rfl fun hactive =>
    .ite (fun hempty => absurd hempty hlen.ne') fun _ =>
    .check rfl fun hfits => .check rfl fun hneedDr => .check rfl fun hdict => (cancelPoint_ends s.clearRes).bind fun _ _ =>
    (encLanes_ends s.clearRes.chunkCtx _ _ _ _ _).bind fun _ _ => (writeOut_ends _ _).bind fun _ _ => .pure ?_
  obtain ⟨hsome, hmost⟩ := (Bool.and_eq_true _ _).mp hactive
  refine ⟨hconfig, hlegal, ⟨of_decide_eq_true hsome, of_decide_eq_true hmost⟩, Nat.lt_of_sub_pos hlen, hfits,
    (needDr_passes _ _ _).mp hneedDr, (dict_passes _ _ _).mp hdict⟩

/-- A command that faults does not complete. -/
theorem not_completes_fault {i : Instr} {w : Word} {c : Code} (h : exec i s = .next (s.faultCommit w c)) (hc : c ≠ .ok)
    (hexec : exec i s = .next t) : ¬ CompletesOk s t := by
  rintro ⟨-, -, hstatus, -⟩
  cases h.symm.trans hexec
  exact hc (congrArg Status.code hstatus)

/-! ## Each slice on its own (R299) -/

section
variable {f : Nat → SliceResult} {sizes : List Nat}

theorem blockOf_lanes_slice (hi : i < s.sliceCount) :
    (s.blockOf f).lanes[i]? = some { (f i).lane with stage := (f i).bytes } := by
  change (List.map _ _ ++ _)[i]? = _
  rw [List.getElem?_append_left (by simpa using hi), List.getElem?_map, List.getElem?_map, List.getElem?_range hi]
  rfl

theorem blockOf_lanes_rest (hi : s.sliceCount ≤ i) : (s.blockOf f).lanes[i]? = s.lanes[i]? := by
  change (List.map _ _ ++ _)[i]? = _
  rw [List.getElem?_append_right (by simpa using hi), List.getElem?_drop]
  simp [hi]

theorem blockOf_lanes_length (h : BlockStarts s) : (s.blockOf f).lanes.length = s.lanes.length := by
  have hcount := h.sliceCount.2.2
  simp [State.blockOf, BlockResult.ofSlices]
  omega

theorem onSlice_lane (hl : s.lanes[i]? = some l) : (s.onSlice i).lanes[i]? = some (s.sliceLane i l) :=
  (List.getElem?_modify_eq ..).trans (congrArg _ hl)

/-- What the slice command writes with room for it is what the slice answers. -/
theorem SliceSize.answers (h : SliceSize s i n) (hi : i < s.lanes.length) : ∃ r, s.SliceAnswers i r ∧ r.bytes.length = n := by
  obtain ⟨limit, cap, b, hexec, hok, rfl⟩ := h
  have hl := List.getElem?_eq_getElem hi
  obtain ⟨r, -, hr, hfits, rfl⟩ := encSlice_emitted (s := (s.onSlice i).withRoom limit cap) (onSlice_lane hl) hexec hok
  exact ⟨r, ⟨_, hl, hr⟩, (Nat.mod_eq_of_lt ((Nat.le_add_left ..).trans_lt (hfits.trans_lt limit.isLt))).symm⟩

theorem BlockStarts.sliceSizes (h : BlockStarts s) (hf : ∀ i < s.sliceCount, s.SliceAnswers i (f i))
    (hcount : sizes.length = s.sliceCount) (hsizes : ∀ i n, sizes[i]? = some n → SliceSize s i n) :
    sizes = (List.range s.sliceCount).map fun i => (f i).bytes.length := by
  refine List.ext_getElem (by simpa using hcount) fun i hi _ => ?_
  have hk : i < s.sliceCount := hcount ▸ hi
  obtain ⟨r, hr, hlength⟩ := (hsizes i _ (List.getElem?_eq_getElem hi)).answers (hk.trans_le h.sliceCount.2.2)
  obtain rfl := hr.unique (hf i hk)
  simp [hlength]

/-- No slice gives more than the block. -/
theorem slice_bytes_le (hi : i < s.sliceCount) : (f i).bytes.length ≤ (s.blockOf f).bytes.length := by
  rw [blockOf_bytes_length]
  exact List.le_sum_of_mem (List.mem_map_of_mem (f := fun i => (f i).bytes.length) (List.mem_range.mpr hi))

/-- A completed `ENC_BLOCK` had room for its slices, in `STAGE` and in `OUT`. -/
theorem BlockStarts.fits_of_completed (h : BlockStarts s) (hf : ∀ i < s.sliceCount, s.SliceAnswers i (f i))
    (hq : s.control.cancel = false) (hexec : exec .encBlock s = .next t) (hok : CompletesOk s t) :
    (∀ i < s.sliceCount, (f i).bytes.length ≤ s.params.stageCap.toNat)
      ∧ s.outPos.toNat + (s.blockOf f).bytes.length ≤ s.cfg.outLimit.toNat := by
  have hstage : ∀ i < s.sliceCount, (f i).bytes.length ≤ s.params.stageCap.toNat := fun i hi =>
    Nat.not_lt.mp fun hover => not_completes_fault (encBlock_over h hf hq hi hover) (by decide) hexec hok
  exact ⟨hstage, Nat.not_lt.mp fun hfull => not_completes_fault (encBlock_full h hf hq hstage hfull) (by decide) hexec hok⟩

/-- The slice command of slice `i`, in the room that the block has. -/
theorem BlockStarts.sliceCommand_emits (h : BlockStarts s) (hr : s.SliceAnswers i r) (hi : i < s.sliceCount)
    (hq : s.control.cancel = false) (hwf : Memory.wf s.out = true)
    (hroom : s.outPos.toNat + r.bytes.length ≤ s.cfg.outLimit.toNat) :
    ∃ b, exec (s.sliceCommand i) (s.onSlice i) = .next b ∧ CompletesOk s b ∧ WritesOut s b s.outPos.toNat r.bytes
      ∧ b.res.res0.toNat = r.bytes.length ∧ b.res.res2 = BitVec.ofNat 32 r.chunks ∧ b.lanes[i]? = some r.lane := by
  obtain ⟨l, hl, hencode⟩ := hr
  have hlane := onSlice_lane hl
  have hstart := h.sliceStarts hi l
  have hencodes := encSlice_encodes (chunkCtx_legal h.config) (chunkCtx_cMax h.config) hstart.inSlice hencode
  have hsliceEnd := (s.sliceLane i l).sliceEnd.isLt
  have hatMost := hencodes.atMost
  have hemits := emitted_emits (s := s.onSlice i) (lanes := (s.onSlice i).lanes.set i r.lane) (bytes := r.bytes)
    (n := (s.sliceLane i l).sliceEnd.toNat - (s.sliceLane i l).sliceStart.toNat) (k := r.chunks) hwf hroom (by omega) (by omega)
    .closed
  exact ⟨_, encSlice_emits hlane hstart hq hencode hroom, hemits.completes, hemits.writes, hemits.results.1, rfl,
    List.getElem?_set_self (List.getElem?_eq_some_iff.mp hlane).1⟩

end

/-- What a slice gives its block: its bytes, and its chunk headers as `RES2` counts them. -/
def SliceResult.part (r : SliceResult) : List Byte × Word := (r.bytes, BitVec.ofNat 32 r.chunks)

theorem ofNat_sum (w : Nat) (xs : List Nat) : BitVec.ofNat w xs.sum = (xs.map (BitVec.ofNat w)).sum := by
  induction xs with
  | nil => rfl
  | cons x xs ih => rw [List.sum_cons, BitVec.ofNat_add, ih, List.map_cons, List.sum_cons]

theorem parts_bytes (s : State) (f : Nat → SliceResult) :
    (((List.range s.sliceCount).map fun i => (f i).part).map Prod.fst).flatten = (s.blockOf f).bytes := by
  simp [State.blockOf, BlockResult.ofSlices, SliceResult.part, Function.comp_def]

theorem parts_chunks (s : State) (f : Nat → SliceResult) :
    (((List.range s.sliceCount).map fun i => (f i).part).map Prod.snd).sum = BitVec.ofNat 32 (s.blockOf f).chunks := by
  simp [blockOf_chunks, ofNat_sum, SliceResult.part, Function.comp_def]

theorem part_getElem? {f : Nat → SliceResult} {bytes : List Byte} {chunks : Word}
    (h : ((List.range s.sliceCount).map fun i => (f i).part)[i]? = some (bytes, chunks)) :
    i < s.sliceCount ∧ (f i).bytes = bytes ∧ BitVec.ofNat 32 (f i).chunks = chunks := by
  simpa [List.getElem?_map, List.getElem?_eq_some_iff, SliceResult.part] using h

theorem addBlock_closed {u : Stream} {data : List Byte} (h : u.isOpen = false) : u.addBlock data = u :=
  if_neg (by rw [h]; decide)

theorem addBlock_open {u : Stream} {data : List Byte} (h : u.isOpen = true) :
    u.addBlock data = { u with needDr := false, ckData := u.ckData ++ data } :=
  if_pos h

end Sys2Proof.Machine

open Sys2Proof Sys2Proof.Machine

/-- Settles O57: past the start checks every slice answers, and whether `STAGE` and `OUT` hold what the slices give decides
how the command ends. -/
theorem encBlockResult : Obligations.EncBlockResult := by
  intro s start len k
  refine ⟨fun c => exec_startFault, fun hnone hempty => ?_, fun sizes hstarts hlen hcount hsizes => ?_,
    fun t hm hq hlen hexec hok => ?_, fun hm hstarts hlen hroom hstage => ?_⟩
  · exact ⟨_, encBlock_empty hnone hempty, ⟨rfl, rfl, rfl, rfl⟩, keepsHostState_refl s, ⟨rfl, rfl, rfl⟩, rfl, rfl, rfl,
      ⟨rfl, rfl⟩, fun _ => rfl⟩
  · obtain ⟨hnone, hq⟩ := hstarts
    have h := encBlock_starts hnone hlen
    obtain ⟨f, hf⟩ := h.answers
    obtain rfl := h.sliceSizes hf hcount hsizes
    refine ⟨fun ⟨n, hn, hover⟩ => ?_, fun hstage hfull => ?_⟩
    · obtain ⟨i, hi, rfl⟩ := List.mem_map.mp hn
      exact encBlock_over h hf hq (List.mem_range.mp hi) hover
    · refine encBlock_full h hf hq (fun i hi => hstage _ (List.mem_map_of_mem (List.mem_range.mpr hi))) ?_
      rw [blockOf_bytes_length]
      exact hfull
  · obtain ⟨-, hwf, -⟩ := hm
    have h := encBlock_completed hexec hok hlen
    obtain ⟨f, hf⟩ := h.answers
    obtain ⟨hstage, hfits⟩ := h.fits_of_completed hf hq hexec hok
    cases (encBlock_emits h hf hq hstage hfits).symm.trans hexec
    have hend := s.cfg.blkEnd.isLt
    have hchunks := h.chunks_le hf
    have hemits := emitted_emits (lanes := (s.blockOf f).lanes) (n := len) (k := (s.blockOf f).chunks) hwf hfits (by omega)
      (by omega) (s.stream.addBlock (Memory.readBytes s.dict start len))
    refine ⟨(List.range k).map (f · |>.part), by simp, ?_, ?_, ?_, fun i bytes chunks hpart => ?_⟩
    · rw [parts_bytes]
      exact hemits.writes
    · rw [parts_bytes]
      exact hemits.results.1
    · rw [parts_chunks]
      rfl
    · obtain ⟨hi, rfl, rfl⟩ := part_getElem? hpart
      obtain ⟨b, hb, hbok, hwrites, hres, hcount, hlane⟩ := h.sliceCommand_emits (hf i hi) hi hq hwf
        ((Nat.add_le_add_left (slice_bytes_le hi) _).trans hfits)
      exact ⟨b, _, _, hb, hbok, hwrites, hres, hcount, hlane, blockOf_lanes_slice hi, rfl⟩
  · obtain ⟨-, hwf, -⟩ := hm
    obtain ⟨hnone, hq⟩ := hstarts
    have h := encBlock_starts hnone hlen
    obtain ⟨f, hf⟩ := h.answers
    have hbytes := h.bytes_le hf
    have hchunks := h.chunks_le hf
    have hend := s.cfg.blkEnd.isLt
    have hfits : s.outPos.toNat + (s.blockOf f).bytes.length ≤ s.cfg.outLimit.toNat := by omega
    have hslices : ∀ i < s.sliceCount, (f i).bytes.length ≤ s.params.stageCap.toNat := fun i hi =>
      (slice_bytes_le hi).trans (hbytes.trans hstage)
    have hemits := emitted_emits (lanes := (s.blockOf f).lanes) (n := len) (k := (s.blockOf f).chunks) hwf hfits (by omega)
      (by omega) (s.stream.addBlock (Memory.readBytes s.dict start len))
    refine ⟨_, (s.blockOf f).bytes, (s.blockOf f).chunks, encBlock_emits h hf hq hslices hfits, hemits.completes, hemits.host,
      hemits.results, h.le_chunks hf, hemits.outPos, hemits.writes, hemits.consumed, hemits.produced, hemits.table,
      blockOf_lanes_length h, addBlock_closed, addBlock_open, fun i hi => ?_, fun i => blockOf_lanes_rest⟩
    obtain ⟨l, hl⟩ := h.encodes hi (hf i hi)
    obtain ⟨hstart, hend⟩ := h.sliceLane hi l
    obtain ⟨hstartEq, hendEq, -⟩ := Lane.fixedPart_fields hl.fixed
    refine ⟨_, blockOf_lanes_slice hi, (congrArg BitVec.toNat hstartEq).trans hstart,
      (congrArg BitVec.toNat hendEq).trans (hend.trans ?_), hl.pos.trans hendEq.symm, hl.isOpen, hl.closed.init⟩
    rw [Nat.add_sub_cancel' h.nonempty.le]
    rfl

end

section
/-! PROOFS. `NOP`, `CLEAR`, `PROB_READ` and `PROB_WRITE` (45_control.md R330 to R334). -/

namespace Sys2Proof.Machine

variable {s : State} {L : Nat} {l : Lane}

/-! ## `NOP` (R330) -/

/-- Opcode 0 is `NOP`'s row of the opcode map (R117). -/
theorem decode_of_opc_zero {w : Word} (ho : cmdOpc w = 0) : decode w = decodeWith useNone w .nop := by
  unfold decode
  dsimp only
  rw [ho]
  rfl

/-- The word 0 is the only one that decodes to `NOP`. -/
theorem eq_zero_of_decode_nop {w : Word} (h : decode w = .ok .nop) : w = 0 := (encodeOfDecode w .nop h).1.symm

theorem exec_nop (s : State) : exec .nop s = conclude .nop s .ok := rfl

/-! ## `CLEAR` (R331, R362) -/

theorem exec_clear (s : State) : exec .clear s = conclude .clear s fun u => .ok u.contextReset := rfl

/-- `LANE_STATUS` after a context reset: `PENDING` 3 and `LC`, `LP`, `PB` at 3, 0, 2. -/
theorem Lane.contextReset_statusWord (l : Lane) : l.contextReset.statusWord = 0x00020330 := by
  simp only [Lane.statusWord, Lane.contextReset_st, Lane.contextReset_pending, Lane.contextReset_init,
    Lane.contextReset_snapValid, Lane.contextReset_lc, Lane.contextReset_lp, Lane.contextReset_pb, Lane.contextReset_sliceOpen]
  decide

/-- What the context reset leaves, once the command has completed. -/
theorem contextReset_isReset (s : State) : ContextIsReset s s.clearRes.contextReset.complete := by
  refine ⟨rfl, rfl, rfl, rfl, rfl, rfl, rfl, rfl, rfl, rfl, rfl, rfl, rfl, List.length_map _, fun L l l' hl hl' => ?_⟩
  have hreset : l.contextReset = l' := by
    have h : (s.lanes.map Lane.contextReset)[L]? = some l' := hl'
    rw [List.getElem?_map, hl] at h
    exact Option.some.inj h
  subst hreset
  have hlowHi : BitVec.ofNat 32 (Rc.reset.low.getLsbD 32).toNat = 0 := by decide
  exact ⟨rfl, l.contextReset_statusWord, rfl, rfl, rfl, rfl, rfl, hlowHi, rfl, rfl, rfl, rfl, rfl, rfl, rfl, rfl⟩

/-! ## The start checks of `PROB_READ` and `PROB_WRITE` (R333, R334, R351) -/

/-- The two checks of the lane, with those that follow. -/
theorem probChecks_failure (l : Lane) (i : Nat) (more : Checks) :
    Checks.firstFailure (l.initChecks ++ l.indexChecks i ++ more) = if l.init then
      if i < l.probWords then more.firstFailure else some .invalidParameter else some .sequenceError := by
  rw [List.append_assoc, firstFailure_append, firstFailure_append, initChecks_failure, indexChecks_failure]
  cases l.init
  · rfl
  · by_cases hi : i < l.probWords
    · rw [if_pos hi, if_pos hi]
      rfl
    · rw [if_neg hi, if_neg hi]
      rfl

theorem probRead_startFault (hl : s.lanes[L]? = some l) : startFault (.probRead L) s = if l.init then
    if s.args.arg0.toNat < l.probWords then none else some .invalidParameter else some .sequenceError := by
  rw [← firstFailure_nil, ← probChecks_failure, List.append_nil]
  exact laneChecks_failure hl

theorem probWrite_startFault (hl : s.lanes[L]? = some l) : startFault (.probWrite L) s = if l.init then
    if s.args.arg0.toNat < l.probWords then
      if 31 ≤ s.args.arg1.toNat ∧ s.args.arg1.toNat ≤ 2017 then none else some .invalidParameter
    else some .invalidParameter else some .sequenceError := by
  refine (laneChecks_failure hl).trans ((probChecks_failure l _ _).trans ?_)
  rw [firstFailure_invalidUnless]
  simp only [List.all_cons, List.all_nil, id, Bool.and_true, decide_eq_true_eq]

/-! ## `PROB_READ` and `PROB_WRITE` past their checks -/

theorem exec_probRead (s : State) (L : Nat) : exec (.probRead L) s = conclude (.probRead L) s fun u =>
    u.probLane L >>= fun l => .ok (u.setRes (ProbMem.read l.prob u.args.arg0.toNat).toNat 0 0) := rfl

/-- The lane with `v` in the word `i` of its probability memory. -/
def Lane.writeProb (l : Lane) (i v : Nat) : Lane := { l with prob := ProbMem.write l.prob i (BitVec.ofNat 11 v) }

theorem exec_probWrite (s : State) (L : Nat) : exec (.probWrite L) s = conclude (.probWrite L) s fun u =>
    u.probLane L >>= fun l =>
      check (decide (31 ≤ u.args.arg1.toNat) && decide (u.args.arg1.toNat ≤ 2017)) .invalidParameter >>= fun _ =>
        .ok (u.setLane L (l.writeProb u.args.arg0.toNat u.args.arg1.toNat)) := rfl

theorem probRead_completes (hl : s.lanes[L]? = some l) (hinit : l.init = true) (hindex : s.args.arg0.toNat < l.probWords) :
    exec (.probRead L) s = .next (s.clearRes.setRes (ProbMem.read l.prob s.args.arg0.toNat).toNat 0 0).complete :=
  (exec_probRead s L).trans <| conclude_ok _ s _ _ <|
    (bind_ok _ _ _).mpr ⟨l, (probLane_ok s.clearRes L l).mpr ⟨hl, hinit, hindex⟩, rfl⟩

theorem probWrite_completes (hl : s.lanes[L]? = some l) (hinit : l.init = true) (hindex : s.args.arg0.toNat < l.probWords)
    (hmin : 31 ≤ s.args.arg1.toNat) (hmax : s.args.arg1.toNat ≤ 2017) :
    exec (.probWrite L) s
      = .next (s.clearRes.setLane L (l.writeProb s.args.arg0.toNat s.args.arg1.toNat)).complete := by
  refine (exec_probWrite s L).trans (conclude_ok _ s _ _ ?_)
  refine (bind_ok _ _ _).mpr ⟨l, (probLane_ok s.clearRes L l).mpr ⟨hl, hinit, hindex⟩, check_bind_ok ?_ rfl⟩
  simp [hmin, hmax]

/-- Results alone are written: every lane is as before, lane `L` among them. -/
theorem setRes_laneOnly (hl : s.lanes[L]? = some l) (r0 r1 r2 : Nat) :
    LaneOnly s (s.clearRes.setRes r0 r1 r2).complete L l :=
  ⟨⟨rfl, rfl, rfl, rfl⟩, keepsHostState_refl s, rfl, rfl, ⟨rfl, rfl⟩, fun _ => rfl,
    (congrArg State.lanes (s.setLane_same L l hl)).symm⟩

/-- A value of eleven bits is written as it is, and no other word changes. -/
theorem Lane.writeProb_read (hwf : ProbMem.wf l.prob = true) (i j : Nat) {v : Nat} (hv : v < 2 ^ 11) :
    (ProbMem.read (l.writeProb i v).prob j).toNat = if j = i then v else (ProbMem.read l.prob j).toNat := by
  unfold Lane.writeProb
  split
  · next hj => rw [hj, ProbMem.read_write_same l.prob i _ hwf, BitVec.toNat_ofNat, Nat.mod_eq_of_lt hv]
  · next hj => rw [ProbMem.read_write_other l.prob i j _ hj]

end Sys2Proof.Machine

open Sys2Proof Sys2Proof.Machine

/-- Settles O31: past the start checks the two commands read and write the word, and the first check that fails gives
the fault. -/
theorem probAccess : Obligations.ProbAccess := by
  intro s L hm
  obtain ⟨-, -, -, -, hprobs⟩ := hm
  refine ⟨fun h => ?_, fun l hl => ?_⟩
  · have hnone : s.lanes[L]? = none := List.getElem?_eq_none h
    exact ⟨exec_startFault (laneChecks_none s L _ hnone), exec_startFault (laneChecks_none s L _ hnone)⟩
  intro i v ok
  have hread := probRead_startFault hl
  have hwrite := probWrite_startFault hl
  refine ⟨?reads, ?writes, ?uninitialised, ?pastEnd, ?badValue⟩
  case reads =>
    rintro ⟨hinit, hindex⟩
    refine ⟨_, probRead_completes hl hinit hindex, setRes_laneOnly hl _ _ _, Nat.mod_eq_of_lt ?_, rfl, rfl⟩
    exact (ProbMem.read l.prob i).isLt.trans (by decide)
  case writes =>
    rintro ⟨hinit, hindex⟩ hmin hmax
    obtain ⟨honly, hres⟩ := setLane_laneOnly s L (l.writeProb i v)
    obtain ⟨hwf, -⟩ := hprobs l (List.mem_of_getElem? hl)
    exact ⟨_, _, probWrite_completes hl hinit hindex hmin hmax, honly, hres, rfl,
      fun j => Lane.writeProb_read hwf i j (hmax.trans_lt (by decide))⟩
  case uninitialised =>
    intro hinit
    have hno : ¬ l.init = true := by simp [hinit]
    exact ⟨exec_startFault (hread.trans (if_neg hno)), exec_startFault (hwrite.trans (if_neg hno))⟩
  case pastEnd =>
    intro hinit hindex
    exact ⟨exec_startFault (hread.trans ((if_pos hinit).trans (if_neg hindex))),
      exec_startFault (hwrite.trans ((if_pos hinit).trans (if_neg hindex)))⟩
  case badValue =>
    rintro ⟨hinit, hindex⟩ hbad
    have hrange : ¬ (31 ≤ v ∧ v ≤ 2017) := by omega
    exact exec_startFault (hwrite.trans ((if_pos hinit).trans ((if_pos hindex).trans (if_neg hrange))))

/-- Settles O30: a word of opcode 0 decodes to nothing but `NOP`, whose word is 0, and `CLEAR` commits the context
reset. -/
theorem nopAndClearResult : Obligations.NopAndClearResult := by
  refine ⟨fun w hopc hw => ?_, fun s => ⟨?_, ?_⟩⟩
  · have hdecode : decode w = decodeWith useNone w .nop :=
      decode_of_opc_zero ((toNat_and_0xFF w).symm.trans (congrArg BitVec.toNat hopc))
    have hunused : ¬ useNone.admits w = true := fun h =>
      hw (eq_zero_of_decode_nop (hdecode.trans (if_pos h)))
    exact hdecode.trans (if_neg hunused)
  · exact ⟨_, (exec_nop s).trans (conclude_ok _ s _ _ rfl), ⟨rfl, rfl, rfl, rfl⟩, keepsHostState_refl s,
      ⟨rfl, rfl, rfl⟩, rfl, rfl, rfl, ⟨rfl, rfl⟩, rfl⟩
  · exact ⟨_, (exec_clear s).trans (conclude_ok _ s _ _ rfl), ⟨rfl, rfl, rfl, rfl⟩, keepsHostState_refl s,
      ⟨rfl, rfl, rfl⟩, contextReset_isReset s⟩

end

section
/-! PROOFS. A step with a pending command, its three completions, and the interrupt line (60_exceptions.md R355, R356, R362,
R365, R371). -/

namespace Sys2Proof.Machine

variable {i : Instr} {s u : State} {w : Word}

/-! ## The step (R371) -/

theorem sequencerTurn_runs (hw : s.pending = some w) (hi : decode w = .ok i) : sequencerTurn s = exec i s := by
  unfold sequencerTurn
  rw [hw]
  change runWord w s = exec i s
  unfold runWord
  rw [hi]

theorem step_of_idle_host (h : s.inputs = []) : step s = sequencerTurn s := by
  unfold step nextEvent
  rw [h]

theorem step_of_sequencer {rest : List Input} (h : s.inputs = .sequencer :: rest) :
    step s = sequencerTurn { s with inputs := rest } := by
  unfold step nextEvent
  rw [h]
  rfl

/-- `withFetchWord` issues the word, takes the block out of reset and puts the sequencer's turn in front (log 7). -/
theorem withFetchWord_eq (s : State) (w : Word) :
    s.withFetchWord 32 w.toNat = { s.issue w with inReset := false, inputs := .sequencer :: s.inputs } := by
  have hw : BitVec.ofNat 32 (w.toNat % 2 ^ 32) = w := by
    rw [Nat.mod_eq_of_lt w.isLt, BitVec.ofNat_toNat, BitVec.setWidth_eq]
  unfold State.withFetchWord
  rw [hw]
  rfl

/-! ## The three completions (R355) -/

/-- No effect touches the status, the control register or `ERR_INFO`, which the commit alone writes. -/
theorem Effect.keepsStatus (h : Effect i s u) : u.status = s.status ∧ u.control = s.control ∧ u.errInfo = s.errInfo := by
  cases h with
  | idle | answer a b c | window | symbol p | edit | create | build | clear => exact ⟨rfl, rfl, rfl⟩
  | chunk _ _ _ _ _ ht | slice dr n _ _ _ _ ht | block slices data n _ _ ht | streamBegin ht | streamEnd ht =>
    obtain ⟨-, rfl⟩ := (writeOut_ok _ _ _).mp ht
    exact ⟨rfl, rfl, rfl⟩

theorem Effect.completesOk (h : Effect i s.clearRes u) : CompletesOk s u.complete := by
  obtain ⟨hstatus, hcontrol, herrInfo⟩ := h.keepsStatus
  refine ⟨rfl, ?_, ?_, herrInfo⟩
  · rw [State.complete_control, hcontrol, State.clearRes_control]
  · rw [State.complete_status, hstatus, State.clearRes_status]

/-! ## The `CONTROL` word (R34) -/

theorem controlWord_irqEn (s : State) : s.controlWord.getLsbD 1 = s.control.irqEn := by
  unfold State.controlWord
  cases s.control.cancel <;> cases s.control.irqEn <;> rfl

end Sys2Proof.Machine

open Sys2Proof Sys2Proof.Machine

/-- Settles O8: a word that decodes completes as `exec_completes` says, any other with the fault of R114. -/
theorem completionKinds : Obligations.CompletionKinds := by
  intro s t w hw hidle hstep
  rw [step_of_idle_host hidle] at hstep
  rcases sequencerTurn_cases s t hstep with ⟨hnone, -⟩ | ⟨w', i, hw', hi, hexec⟩ | ⟨w', e, hw', -, rfl⟩
  · cases hnone.symm.trans hw
  · obtain rfl : w = w' := Option.some.inj (hw.symm.trans hw')
    rcases exec_completes i s t hexec with ⟨u, hu, rfl⟩ | ⟨c, hc, rfl⟩ | ⟨hc, rfl⟩
    · exact .inl ⟨hu.completesOk, keepsHostState_complete hu.keepsHostState⟩
    · obtain ⟨hword, -⟩ := encodeOfDecode w i hi
      exact .inr (.inl ⟨c, hc, by rw [hword]; rfl⟩)
    · exact .inr (.inr ⟨hc, contextReset_isReset s, rfl, rfl, rfl, rfl, rfl, rfl, rfl⟩)
  · obtain rfl : w = w' := Option.some.inj (hw.symm.trans hw')
    exact .inr (.inl ⟨.illegalCommand, rfl, rfl⟩)

/-- Settles O6: the three ways to the sequencer's turn, which runs the command that the word decodes to. -/
theorem stepRunsCommand : Obligations.StepRunsCommand := by
  intro s w i rest hdecode
  refine ⟨fun hw hidle => ?_, fun hw hturn => ?_, ?_⟩
  · exact (step_of_idle_host hidle).trans (sequencerTurn_runs hw hdecode)
  · exact (step_of_sequencer hturn).trans (sequencerTurn_runs (s := { s with inputs := rest }) hw hdecode)
  · rw [withFetchWord_eq, step_of_sequencer rfl]
    exact sequencerTurn_runs (s := { s.issue w with inReset := false }) rfl hdecode

/-- Settles O10: `IRQ` in the words that the host reads, and what its writes to `CONTROL` and `STATUS` make of them. -/
theorem interruptLine : Obligations.InterruptLine := by
  have hirq : ∀ s : State, s.irq = (s.controlWord.getLsbD 1
      && (s.statusWord.getLsbD 1 || s.statusWord.getLsbD 2 || s.statusWord.getLsbD 3)) := fun s => by
    rw [controlWord_irqEn, statusWord_flag s 1 (by decide), statusWord_flag s 2 (by decide), statusWord_flag s 3 (by decide)]
    rfl
  refine ⟨hirq, fun s v hreset => ⟨?_, ?_⟩, fun n p => ⟨rfl, rfl⟩⟩
  · rw [hostWrite_control hreset, hirq, controlWord_irqEn]
    rfl
  · rw [hostWrite_status hreset, hirq, statusWord_clearSticky s v 1 (by decide), statusWord_clearSticky s v 2 (by decide),
      statusWord_clearSticky s v 3 (by decide)]
    rfl

end

section
/-! PROOFS. What a cancel request does to a command (60_exceptions.md R362, R363; log 3): unobserved it shows in nothing that
the command leaves, observed at a cancellation point it cancels the whole command. -/

namespace Sys2Proof.Machine

variable {i : Instr} {s u : State} {L n r : Nat} {l : Lane} {b dr : Bool}

/-- The state without the cancel request. -/
def State.quiet (s : State) : State := { s with control := { s.control with cancel := false } }

/-! ## A request that is not observed -/

/-- Both halt in the same way, or answer states that differ at most in the request. -/
abbrev SameButRequest (x y : Except Halt State) : Prop := Alike (fun _ => True) (fun a b => b = a.quiet) x y

/-- The computation of `i` goes on as without the request, if that is not observed at its cancellation points. -/
def Unheeding (i : Instr) (body : State → Except Halt State) : Prop :=
  ∀ u : State, (i.canCancel = true → u.cancelRequested = false) → SameButRequest (body u) (body u.quiet)

/-- As `Unheeding`, for the whole command. -/
def ExecUnheeding (i : Instr) : Prop :=
  ∀ s : State, (i.canCancel = true → s.cancelRequested = false) → exec i s = exec i s.quiet

/-- Every completion takes the request down (R355), so that no difference is left. -/
theorem Unheeding.exec {body : State → Except Halt State} (hexec : ∀ s, Machine.exec i s = conclude i s body)
    (h : Unheeding i body) : ExecUnheeding i := by
  intro s hs
  have hbody := h s.clearRes hs
  change SameButRequest (body s.clearRes) (body s.quiet.clearRes) at hbody
  rw [hexec, hexec, conclude, conclude]
  generalize body s.clearRes = x at hbody
  generalize body s.quiet.clearRes = y at hbody
  cases hbody with
  | ok h =>
    subst h
    rfl
  | @error halt _ => cases halt <;> rfl

/-- Past a cancellation point at which no request is observed. -/
theorem unheeding_point {f g : Unit → Except Halt State} (hu : u.cancelRequested = false)
    (h : SameButRequest (f ()) (g ())) : SameButRequest (u.cancelPoint >>= f) (u.quiet.cancelPoint >>= g) := by
  rw [(cancelPoint_ok u ()).mpr hu, cancelPoint_passes (s := u.quiet) rfl]
  exact h

/-- After the output write (R296), an update that neither reads nor writes the request. -/
theorem unheeding_writeOut {bytes : List Byte} {f : State → State} (hf : ∀ v, f v.quiet = (f v).quiet) :
    SameButRequest (u.writeOut bytes >>= fun v => .ok (f v)) (u.quiet.writeOut bytes >>= fun v => .ok (f v)) := by
  have hwrite : SameButRequest (u.writeOut bytes) (u.quiet.writeOut bytes) := .check rfl fun _ => .pure rfl
  refine hwrite.bind fun v _ hv => .pure ?_
  rw [hv, hf]

/-- Nothing that a command computes depends on a request that it does not observe, but the request itself. -/
theorem exec_unheeding (i : Instr) : ExecUnheeding i := by
  cases i with
  | nop => exact Unheeding.exec exec_nop fun _ _ => .pure rfl
  | rcReset L =>
    exact Unheeding.exec (fun s => Eq.refl (execRcReset L s)) fun u _ =>
      .shared (x := u.windowLane L) fun _ _ => .pure rfl
  | rcBit L b =>
    exact Unheeding.exec (fun s => Eq.refl (execRcBit L b s)) fun u _ =>
      .shared (x := u.codingLane L) fun _ _ => .check rfl fun _ => .shared fun _ _ => .pure rfl
  | rcTree L n =>
    exact Unheeding.exec (exec_rcTree · L n) fun u _ =>
      .shared (x := u.codingLane L) fun _ _ => .check rfl fun _ => .check rfl fun _ => .shared fun _ _ => .pure rfl
  | rcTreeRev L n =>
    exact Unheeding.exec (exec_rcTreeRev · L n) fun u _ =>
      .shared (x := u.codingLane L) fun _ _ => .check rfl fun _ => .check rfl fun _ => .shared fun _ _ => .pure rfl
  | rcDirect L n =>
    exact Unheeding.exec (exec_rcDirect · L n) fun u _ =>
      .shared (x := u.windowLane L) fun _ _ => .check rfl fun _ => .shared fun _ _ => .pure rfl
  | rcFlush L =>
    exact Unheeding.exec (fun s => Eq.refl (execRcFlush L s)) fun u _ =>
      .shared (x := u.windowLane L) fun _ _ => .shared fun _ _ => .pure rfl
  | rcPrice b =>
    exact Unheeding.exec (exec_rcPrice · b) fun _ _ => .check rfl fun _ => .pure rfl
  | mfCreate =>
    exact Unheeding.exec exec_mfCreate fun _ _ => .check rfl fun _ => .check rfl fun _ => .pure rfl
  | mfBuild =>
    exact Unheeding.exec exec_mfBuild fun _ hu =>
      .check rfl fun _ => .check rfl fun _ => .check rfl fun _ => unheeding_point (hu rfl) (.pure rfl)
  | mfGetMatch =>
    exact Unheeding.exec exec_mfGetMatch fun u _ => .shared (x := u.queryPos) fun _ _ => .pure rfl
  | mfGetNextMatch =>
    exact Unheeding.exec exec_mfGetNextMatch fun u _ => .shared (x := u.queryPos) fun _ _ => .pure rfl
  | mfReadSlot =>
    exact Unheeding.exec exec_mfReadSlot fun u _ => .shared (x := u.queryPos) fun _ _ => .pure rfl
  | encResetState L =>
    exact Unheeding.exec (exec_encResetState · L) fun u _ =>
      .shared (x := u.getLane L) fun _ _ => .check rfl fun _ => .pure rfl
  | encLiteral L =>
    exact Unheeding.exec (exec_encLiteral · L) fun u _ =>
      .shared (x := u.symbolLane L) fun _ _ => .check rfl fun _ => .check rfl fun _ => .shared fun _ _ => .pure rfl
  | encMatch L =>
    exact Unheeding.exec (exec_encMatch · L) fun u _ =>
      .shared (x := u.symbolLane L) fun _ _ => .check rfl fun _ => .check rfl fun _ => .shared fun _ _ => .pure rfl
  | encRep L r =>
    exact Unheeding.exec (exec_encRep · L r) fun u _ =>
      .shared (x := u.symbolLane L) fun _ _ => .check rfl fun _ => .check rfl fun _ => .shared fun _ _ => .pure rfl
  | encShortRep L =>
    exact Unheeding.exec (exec_encShortRep · L) fun u _ =>
      .shared (x := u.symbolLane L) fun _ _ => .check rfl fun _ => .shared fun _ _ => .pure rfl
  | encSnapshot L =>
    exact Unheeding.exec (exec_encSnapshot · L) fun u _ =>
      .shared (x := u.getLane L) fun _ _ => .check rfl fun _ => .pure rfl
  | encRollback L =>
    exact Unheeding.exec (exec_encRollback · L) fun u _ =>
      .shared (x := u.getLane L) fun _ _ => .check rfl fun _ => .pure rfl
  | probRead L =>
    exact Unheeding.exec (exec_probRead · L) fun u _ =>
      .shared (x := u.probLane L) fun _ _ => .pure rfl
  | probWrite L =>
    exact Unheeding.exec (exec_probWrite · L) fun u _ =>
      .shared (x := u.probLane L) fun _ _ => .check rfl fun _ => .pure rfl
  | sliceBegin L dr =>
    exact Unheeding.exec (fun s => Eq.refl (execSliceBegin L dr s)) fun u _ =>
      .shared (x := u.getLane L) fun _ _ => .check rfl fun _ => .check rfl fun _ => .pure rfl
  | encChunk L =>
    exact Unheeding.exec (fun s => Eq.refl (execEncChunk L s)) fun u hu =>
      .shared (x := u.getLane L) fun l _ => .check rfl fun _ => .check rfl fun _ => .check rfl fun _ => .check rfl fun _ =>
      .check rfl fun _ => .check rfl fun _ => .check rfl fun _ => .check rfl fun _ => unheeding_point (hu rfl) <|
      .shared (x := encChunk u.chunkCtx l) fun c _ => unheeding_writeOut (u := u.setLane L c.lane)
        (f := fun v => (v.consume c.u).setRes c.bytes.length c.u c.kind) fun _ => rfl
  | encSlice L dr =>
    exact Unheeding.exec (fun s => Eq.refl (execEncSlice L dr s)) fun u hu =>
      .shared (x := u.getLane L) fun l _ => .check rfl fun _ => .check rfl fun _ => .check rfl fun _ => .check rfl fun _ =>
      unheeding_point (hu rfl) <| .shared (x := encSlice u.chunkCtx none (l.openSlice dr)) fun r _ =>
      unheeding_writeOut (u := u.setLane L r.lane) fun _ => rfl
  | encBlock =>
    exact Unheeding.exec (fun s => Eq.refl (execEncBlock s)) fun u hu =>
      .check rfl fun _ => .check rfl fun _ => .check rfl fun _ => .ite (fun _ => .pure rfl) fun _ =>
      .check rfl fun _ => .check rfl fun _ => .check rfl fun _ => unheeding_point (hu rfl) <| .shared fun r _ =>
      unheeding_writeOut (u := { u with lanes := r.lanes }) fun _ => rfl
  | streamBegin =>
    exact Unheeding.exec (fun s => Eq.refl (execStreamBegin s)) fun u _ =>
      .check rfl fun _ => .check rfl fun _ => .check rfl fun _ => unheeding_writeOut (u := u) fun _ => rfl
  | streamEnd =>
    exact Unheeding.exec (fun s => Eq.refl (execStreamEnd s)) fun u _ =>
      .check rfl fun _ => .check rfl fun _ => unheeding_writeOut (u := u) fun _ => rfl
  | clear => exact Unheeding.exec exec_clear fun _ _ => .pure rfl

/-! ## A request that is observed (R362) -/

theorem cancelPoint_cancels {A : Type} (hr : s.cancelRequested = true) (f : Unit → Except Halt A) :
    (s.cancelPoint >>= f) = .error .canceled := by
  rw [(cancelPoint_error s _).mpr ⟨hr, rfl⟩]
  rfl

theorem mfBuild_starts (h : startFault .mfBuild s = none) :
    s.table.created = true ∧ s.cfg.buildLegal = true ∧ s.buildFits = true := by
  simp only [startFault, startChecks, invalidUnless, List.map_cons, List.map_nil, List.cons_append, List.nil_append,
    firstFailure_cons_eq_none, decide_eq_true_eq, firstFailure_nil, and_true] at h
  obtain ⟨hcreated, hmin, hmax, hresize, hblk, hsize, hcap⟩ := h
  exact ⟨hcreated, (buildLegal_iff _).mpr ⟨hmin, hmax, hresize⟩, (buildFits_iff s).mpr ⟨hblk, hsize, hcap⟩⟩

theorem mfBuild_canceled (h : startFault .mfBuild s = none) (hr : s.cancelRequested = true) :
    exec .mfBuild s = .next s.cancelCommit := by
  obtain ⟨hcreated, hlegal, hfits⟩ := mfBuild_starts h
  refine (exec_mfBuild s).trans (conclude_canceled _ s _ ?_)
  exact (check_bind hcreated _).trans <| (check_bind hlegal _).trans <| (check_bind hfits _).trans <|
    cancelPoint_cancels (s := s.clearRes) hr _

theorem encChunk_canceled (hl : s.lanes[L]? = some l) (h : ChunkStarts s l) (hr : s.cancelRequested = true) :
    exec (.encChunk L) s = .next s.cancelCommit := by
  refine Eq.trans (Eq.refl (execEncChunk L s)) (conclude_canceled _ s _ ((getLane_bind (s := s.clearRes) hl _).trans ?_))
  exact (check_bind (by rw [State.clearRes_stream, h.closed]; rfl) _).trans <| (check_bind h.isOpen _).trans <|
    (check_bind h.config _).trans <| (check_bind h.inBlock _).trans <| (check_bind (by simpa using h.inSlice) _).trans <|
    (check_bind (by simpa [← imp_iff_not_or] using h.first) _).trans <| (check_bind h.fits _).trans <|
    (check_bind (by simpa [← imp_iff_not_or] using h.ready) _).trans (cancelPoint_cancels (s := s.clearRes) hr _)

theorem encSlice_canceled (hl : s.lanes[L]? = some l) (h : SliceStarts s l dr) (hr : s.cancelRequested = true) :
    exec (.encSlice L dr) s = .next s.cancelCommit := by
  refine Eq.trans (Eq.refl (execEncSlice L dr s)) (conclude_canceled _ s _ ((getLane_bind (s := s.clearRes) hl _).trans ?_))
  exact (check_bind (by rw [State.clearRes_stream, h.closed]; rfl) _).trans <| (check_bind h.config _).trans <|
    (check_bind h.legal _).trans <| (check_bind h.fits _).trans (cancelPoint_cancels (s := s.clearRes) hr _)

theorem encBlock_canceled (h : BlockStarts s) (hr : s.cancelRequested = true) : exec .encBlock s = .next s.cancelCommit := by
  obtain ⟨hconfig, hlegal, ⟨hsome, hmost⟩, hnonempty, hfits, hneedDr, hdict⟩ := h
  have hactive := (Bool.and_eq_true _ _).mpr ⟨decide_eq_true hsome, decide_eq_true hmost⟩
  refine Eq.trans (Eq.refl (execEncBlock s)) (conclude_canceled _ s _ ?_)
  exact (check_bind hconfig _).trans <| (check_bind hlegal _).trans <| (check_bind hactive _).trans <|
    (if_neg (Nat.sub_ne_zero_of_lt hnonempty)).trans <| (check_bind hfits _).trans <|
    (check_bind ((needDr_passes _ _ _).mpr hneedDr) _).trans <| (check_bind ((dict_passes _ _ _).mpr hdict) _).trans <|
    cancelPoint_cancels (s := s.clearRes) hr _

/-- Past its start checks a command with a cancellation point meets it, but for `ENC_BLOCK` of an empty block. -/
theorem exec_canceled (hi : i.canCancel = true) (hstart : startFault i s = none)
    (hblock : i = .encBlock → s.cfg.blkStart ≠ s.cfg.blkEnd) (hr : s.cancelRequested = true) :
    exec i s = .next s.cancelCommit := by
  cases i with
  | mfBuild => exact mfBuild_canceled hstart hr
  | encChunk L =>
    cases hl : s.lanes[L]? with
    | none => cases (laneChecks_none s L _ hl).symm.trans hstart
    | some l => exact encChunk_canceled hl (encChunk_starts hl hstart) hr
  | encSlice L dr =>
    cases hl : s.lanes[L]? with
    | none => cases (laneChecks_none s L _ hl).symm.trans hstart
    | some l => exact encSlice_canceled hl (encSlice_starts hl hstart) hr
  | encBlock =>
    obtain ⟨-, hlegal, -⟩ := encBlock_checked hstart
    simp only [State.blockLegal, Bool.and_eq_true, decide_eq_true_eq] at hlegal
    have hne : s.cfg.blkStart.toNat ≠ s.cfg.blkEnd.toNat := fun h => hblock rfl (BitVec.eq_of_toNat_eq h)
    exact encBlock_canceled (encBlock_starts hstart (by omega)) hr
  | _ => cases hi

/-! ## A run that passes no cancellation point -/

theorem startFault_quiet (i : Instr) (s : State) : startFault i s.quiet = startFault i s := by cases i <;> rfl

theorem exec_quiet_of_no_canCancel (h : i.canCancel = false) : exec i s = exec i s.quiet :=
  exec_unheeding i s fun hi => (Bool.false_ne_true (h.symm.trans hi)).elim

theorem exec_quiet_of_startFault {c : Code} (h : startFault i s = some c) : exec i s = exec i s.quiet :=
  (exec_startFault h).trans (exec_startFault ((startFault_quiet i s).trans h)).symm

theorem encBlock_quiet_of_empty (h : startFault .encBlock s = none) (hempty : s.cfg.blkStart = s.cfg.blkEnd) :
    exec .encBlock s = exec .encBlock s.quiet := by
  have hlen : s.cfg.blkEnd.toNat - s.cfg.blkStart.toNat = 0 := by rw [hempty, Nat.sub_self]
  exact (encBlock_empty h hlen).trans (encBlock_empty (s := s.quiet) ((startFault_quiet _ s).trans h) hlen).symm

theorem exec_quiet_of_no_point (h : (startFault i s).isSome ∨ (i = .encBlock ∧ s.cfg.blkStart = s.cfg.blkEnd)) :
    exec i s = exec i s.quiet := by
  cases hstart : startFault i s with
  | some c => exact exec_quiet_of_startFault hstart
  | none =>
    obtain ⟨rfl, hempty⟩ := h.resolve_left (by simp [hstart])
    exact encBlock_quiet_of_empty hstart hempty

/-- With a request up, a run that meets a cancellation point is decided by the draw (R363). -/
theorem exec_of_point (hi : i.canCancel = true) (hstart : startFault i s = none)
    (hblock : i = .encBlock → s.cfg.blkStart ≠ s.cfg.blkEnd) (hq : s.control.cancel = true) :
    exec i s = if Config.cancelObserved s.draws then .next s.cancelCommit else exec i s.quiet := by
  have hr : s.cancelRequested = Config.cancelObserved s.draws := by rw [State.cancelRequested, hq, Bool.true_and]
  cases hdraw : Config.cancelObserved s.draws with
  | true => exact exec_canceled hi hstart hblock (hr.trans hdraw)
  | false => exact exec_unheeding i s fun _ => hr.trans hdraw

end Sys2Proof.Machine

open Sys2Proof Sys2Proof.Machine

/-- Settles O9: a request that is not observed shows in nothing, and one that is cancels the command. -/
theorem cancelIsAllOrNothing : Obligations.CancelIsAllOrNothing := by
  intro i s
  refine ⟨exec_quiet_of_no_canCancel, ?_, exec_quiet_of_no_point, exec_of_point⟩
  cases hr : s.cancelRequested with
  | false => exact .inl (exec_unheeding i s fun _ => hr)
  | true =>
    cases hi : i.canCancel with
    | false => exact .inl (exec_quiet_of_no_canCancel hi)
    | true =>
      by_cases hpoint : (startFault i s).isSome ∨ (i = .encBlock ∧ s.cfg.blkStart = s.cfg.blkEnd)
      · exact .inl (exec_quiet_of_no_point hpoint)
      · obtain ⟨hstart, hblock⟩ := not_or.mp hpoint
        refine .inr ⟨rfl, cancelRequested_control s hr, ?_⟩
        exact exec_canceled hi (Option.not_isSome_iff_eq_none.mp hstart) (not_and.mp hblock) hr

end

section
/-! PROOFS. Reset (70_reset_and_hazards.md R390, R391): the steps that assert and release it, the host's accesses while it is
asserted, and the invariants of the state it leaves. -/

namespace Sys2Proof.Machine

variable {s : State} {rest : List Input}

/-! ## The two steps -/

theorem step_input {i : Input} (h : s.inputs = i :: rest) : step s = takeInput i { s with inputs := rest } := by
  simp only [step, nextEvent, h]

theorem step_assertReset (h : s.inputs = .assertReset :: rest) :
    step s = .next { s with inputs := rest }.assertReset := step_input h

theorem step_releaseReset (h : s.inputs = .releaseReset :: rest) :
    step s = .next { s with inputs := rest }.releaseReset := step_input h

/-! ## Accesses while reset is asserted -/

theorem hostRead_inReset (h : s.inReset = true) (sp : Space) (a : Nat) (n : AccessSize) : s.hostRead sp a n = 0 := by
  simp [State.hostRead, h]

theorem hostWrite_inReset (h : s.inReset = true) (sp : Space) (a : Nat) (n : AccessSize) (v : Word) :
    s.hostWrite sp a n v = s := by
  simp [State.hostWrite, h]

/-! ## The state after reset -/

theorem resetWith_nLanes (n : Nat) (p : Params) : (State.resetWith n p).nLanes = n := List.length_replicate

/-- The reset state comes of a reset that is asserted and released, so that it has what the invariants' proofs show of
every reset. -/
theorem resetWith_eq_released (n : Nat) (p : Params) :
    State.resetWith n p = (State.resetWith n p).assertReset.releaseReset := by
  unfold State.assertReset
  rw [resetWith_nLanes]
  rfl

theorem State.assertReset_tableContract (s : State) : s.assertReset.TableContract := .of_invalid nofun rfl

theorem State.releaseReset_registersOk (hs : s.RegistersOk) : s.releaseReset.RegistersOk := by
  obtain ⟨hcfg, hcancel, hres, -, hcode, htable, hstream, hlanes⟩ := hs
  exact ⟨hcfg, hcancel, hres, nofun, hcode, htable, hstream, hlanes⟩

end Sys2Proof.Machine

open Sys2Proof Sys2Proof.Machine

/-- Settles O24: the step asserts reset whether or not a command is pending, and the accesses test `inReset` first. -/
theorem resetAbandons : Obligations.ResetAbandons := by
  intro s rest sp a n v
  exact ⟨step_assertReset, fun h => ⟨hostRead_inReset h sp a n, hostWrite_inReset h sp a n v⟩, step_releaseReset⟩

/-- Settles O29: every asserted reset has the invariants, and its release keeps them. -/
theorem invariantsAtReset : Obligations.InvariantsAtReset := by
  intro n p
  rw [resetWith_eq_released n p]
  let s := State.resetWith n p
  exact ⟨s.assertReset_memoryOk, assertReset_healthy s, s.assertReset_tableContract,
    State.releaseReset_registersOk s.assertReset_registersOk, rfl⟩

end
